-- ==== Sys2Proof/Word.lean ====
section
/-! DEFINITION. The words the block works on (R7, R9, R50). -/

namespace Sys2Proof

/-- The smallest addressable unit of both address spaces (R50). -/
abbrev Byte := BitVec 8

/-- One of the four words DW0 to DW3 of a TRB, and the unit of a system-memory access (R9, R54). -/
abbrev Word := BitVec 32

/-- A physical address or an access address, `PADDR_BITS = 64` (R6, R12). -/
abbrev Addr := BitVec 64

/-- The value of a register or of a snapshot; a register narrower than 64 bits has its upper bits 0 (R7, R120). -/
abbrev RegValue := BitVec 64

/-- All 128 bits of a TRB, `T` of R9. -/
abbrev Trb := BitVec 128

end Sys2Proof
end

