-- ==== Sys2Proof/Syntax.lean ====
section
/-! DEFINITION. The abstract syntax: the TRB variants with their fields, the requests with their arguments, and the
values the arguments are made of. One constructor of `Instr` per row of the opcode table (R82, R83, R100). -/

namespace Sys2Proof

/-! ## TRB variants, fields, completion codes -/

/-- The defined TRB variants (R82), in the order of their Type. -/
inductive Variant where
  | normal
  | setupStage
  | dataStage
  | statusStage
  | isoch
  | link
  | eventData
  | noOp
  | enableSlot
  | disableSlot
  | addressDevice
  | configureEndpoint
  | evaluateContext
  | resetEndpoint
  | stopEndpoint
  | setTrDequeuePointer
  | resetDevice
  | forceEvent
  | negotiateBandwidth
  | setLatencyToleranceValue
  | getPortBandwidth
  | forceHeader
  | noOpCommand
  | getExtendedProperty
  | setExtendedProperty
  | transferEvent
  | commandCompletionEvent
  | portStatusChangeEvent
  | bandwidthRequestEvent
  | doorbellEvent
  | hostControllerEvent
  | deviceNotificationEvent
  | mfindexWrapEvent
deriving DecidableEq, Repr

/-- `kind(T)` (R81): a defined variant or Unrecognized. -/
inductive TrbKind where
  | defined (v : Variant)
  | unrecognized
deriving DecidableEq, Repr

/-- The groups of R159. -/
inductive Group where
  | transfer | link | command | event | unrecognized
deriving DecidableEq, Repr

/-- The field names of the TRB layout tables (R170 to R177, R190 to R206, R220 to R227), with `c`, `type` and `raw`
(R152). A request may name any of them; a variant has those of its table. -/
inductive TrbField where
  | raw
  | dataBufferPointer
  | trbTransferLength
  | tdSize
  | interrupterTarget
  | c
  | ent
  | isp
  | ns
  | ch
  | ioc
  | idt
  | bei
  | type
  | bmRequestType
  | bRequest
  | wValue
  | wIndex
  | wLength
  | trt
  | dir
  | tdSizeTbc
  | tbc
  | tlbpc
  | frameId
  | sia
  | ringSegmentPointer
  | tc
  | eventData
  | slotType
  | slotId
  | inputContextPointer
  | bsr
  | dc
  | tsp
  | endpointId
  | sp
  | dcs
  | sct
  | newTrDequeuePointer
  | streamId
  | eventTrbPointer
  | vfInterrupterTarget
  | vfId
  | bestEffortLatencyToleranceValue
  | portBandwidthContextPointer
  | devSpeed
  | hubSlotId
  | packetType
  | headerInfoLo
  | headerInfoMid
  | headerInfoHi
  | rootHubPortNumber
  | extendedPropertyContextPointer
  | extendedCapabilityIdentifier
  | commandSubType
  | capabilityParameter
  | trbPointer
  | completionCode
  | ed
  | commandTrbPointer
  | commandCompletionParameter
  | portId
  | dbReason
  | notificationType
  | deviceNotificationData
deriving DecidableEq, Repr

/-- The completion codes (R90, R91): the 36 named values, and the catch-all that carries every other number. -/
inductive CompletionCode where
  | invalid
  | success
  | dataBufferError
  | babbleDetectedError
  | usbTransactionError
  | trbError
  | stallError
  | resourceError
  | bandwidthError
  | noSlotsAvailableError
  | invalidStreamTypeError
  | slotNotEnabledError
  | endpointNotEnabledError
  | shortPacket
  | ringUnderrun
  | ringOverrun
  | vfEventRingFullError
  | parameterError
  | bandwidthOverrunError
  | contextStateError
  | noPingResponseError
  | eventRingFullError
  | incompatibleDeviceError
  | missedServiceError
  | commandRingStopped
  | commandAborted
  | stopped
  | stoppedLengthInvalid
  | stoppedShortPacket
  | maxExitLatencyTooLargeError
  | isochBufferOverrun
  | eventLostError
  | undefinedError
  | invalidStreamIdError
  | secondaryBandwidthError
  | splitTransactionError
  | unknown (x : BitVec 8)
deriving DecidableEq, Repr

/-- The last argument of `TRB_SET` (R153): a number, or a completion code for a completion-code field. -/
inductive SetValue where
  | num (x : Nat)
  | code (c : CompletionCode)
deriving DecidableEq, Repr

/-! ## Hardware word layouts (R96) and mutation lists (R121) -/

/-- The widths of a hardware word (R7). -/
inductive RegWidth where
  | w8 | w16 | w32 | w64
deriving DecidableEq, Repr

/-- The access classes of a register field (R96). -/
inductive FieldClass where
  | rw | ro | rw1c | rw1s | rsvdP | rsvdZ
deriving DecidableEq, Repr

/-- The field names of the register layouts (R302 to R312), `reserved` for a row with no name, and `other` for
names that none of them has. -/
inductive RegField where
  | reserved
  | caplength
  | hciversion
  | maxSlots
  | maxIntrs
  | maxPorts
  | ist
  | erstMax
  | maxScratchpadBufsHi
  | spr
  | maxScratchpadBufsLo
  | doorbellArrayOffset
  | runtimeRegisterSpaceOffset
  | runStop
  | hcrst
  | inte
  | hsee
  | lhcrst
  | css
  | crs
  | ewe
  | eu3s
  | cme
  | ete
  | tscEn
  | vtioe
  | hch
  | hse
  | eint
  | pcd
  | sss
  | rss
  | sre
  | cnr
  | hce
  | rcs
  | cs
  | ca
  | crr
  | commandRingPointer
  | dcbaaPointer
  | maxSlotsEn
  | u3e
  | cie
  | mfindex
  | ip
  | ie
  | imodi
  | imodc
  | erstSize
  | erstbaPointer
  | desi
  | ehb
  | erdpPointer
  | dbTarget
  | dbStreamId
  | other (n : Nat)
deriving DecidableEq, Repr

/-- One field of a layout: `(name, lo, width, class)` (R96). -/
structure LayoutField where
  name : RegField
  lo : Nat
  width : Nat
  cls : FieldClass
deriving DecidableEq, Repr

/-- A hardware word layout (R96). -/
structure Layout where
  width : RegWidth
  fields : List LayoutField
deriving DecidableEq, Repr

/-- One action of a mutation list (R121). -/
inductive Action where
  | set (f : RegField) (x : Nat)
  | set0 (f : RegField)
  | clear (f : RegField)
  | assert (f : RegField)
deriving DecidableEq, Repr

/-! ## Rings -/

/-- The kinds of producer ring (R31, R240). -/
inductive RingKind where
  | command | transfer
deriving DecidableEq, Repr

/-- A ring segment: its 64-bit physical base and its slot count (R31, R36). -/
structure Segment where
  base : Addr
  size : Nat
deriving DecidableEq, Repr

/-! ## The fields of each TRB variant

One structure per variant: every named field of its table but the Type, which the variant fixes, and each run of
reserved bits, named by its lowest bit of `T`. Together with the Type they are the 128 bits, so that a TRB and its
fields are images of each other (R150). A pointer field holds the bits its table gives, without the implicit zeros. -/

/-- Normal TRB: the fields of R170. -/
structure NormalTrb where
  dataBufferPointer : BitVec 64
  trbTransferLength : BitVec 17
  tdSize : BitVec 5
  interrupterTarget : BitVec 10
  c : BitVec 1
  ent : BitVec 1
  isp : BitVec 1
  ns : BitVec 1
  ch : BitVec 1
  ioc : BitVec 1
  idt : BitVec 1
  rsvdAt103 : BitVec 2
  bei : BitVec 1
  rsvdAt112 : BitVec 16
deriving DecidableEq, Repr

/-- Setup Stage TRB: the fields of R171. -/
structure SetupStageTrb where
  bmRequestType : BitVec 8
  bRequest : BitVec 8
  wValue : BitVec 16
  wIndex : BitVec 16
  wLength : BitVec 16
  trbTransferLength : BitVec 17
  rsvdAt81 : BitVec 5
  interrupterTarget : BitVec 10
  c : BitVec 1
  rsvdAt97 : BitVec 4
  ioc : BitVec 1
  idt : BitVec 1
  rsvdAt103 : BitVec 3
  trt : BitVec 2
  rsvdAt114 : BitVec 14
deriving DecidableEq, Repr

/-- Data Stage TRB: the fields of R172. -/
structure DataStageTrb where
  dataBufferPointer : BitVec 64
  trbTransferLength : BitVec 17
  tdSize : BitVec 5
  interrupterTarget : BitVec 10
  c : BitVec 1
  ent : BitVec 1
  isp : BitVec 1
  ns : BitVec 1
  ch : BitVec 1
  ioc : BitVec 1
  idt : BitVec 1
  rsvdAt103 : BitVec 3
  dir : BitVec 1
  rsvdAt113 : BitVec 15
deriving DecidableEq, Repr

/-- Status Stage TRB: the fields of R173. -/
structure StatusStageTrb where
  rsvdAt0 : BitVec 86
  interrupterTarget : BitVec 10
  c : BitVec 1
  ent : BitVec 1
  rsvdAt98 : BitVec 2
  ch : BitVec 1
  ioc : BitVec 1
  rsvdAt102 : BitVec 4
  dir : BitVec 1
  rsvdAt113 : BitVec 15
deriving DecidableEq, Repr

/-- Isoch TRB: the fields of R174. -/
structure IsochTrb where
  dataBufferPointer : BitVec 64
  trbTransferLength : BitVec 17
  tdSizeTbc : BitVec 5
  interrupterTarget : BitVec 10
  c : BitVec 1
  ent : BitVec 1
  isp : BitVec 1
  ns : BitVec 1
  ch : BitVec 1
  ioc : BitVec 1
  idt : BitVec 1
  tbc : BitVec 2
  bei : BitVec 1
  tlbpc : BitVec 4
  frameId : BitVec 11
  sia : BitVec 1
deriving DecidableEq, Repr

/-- Link TRB: the fields of R175. -/
structure LinkTrb where
  rsvdAt0 : BitVec 4
  ringSegmentPointer : BitVec 60
  rsvdAt64 : BitVec 22
  interrupterTarget : BitVec 10
  c : BitVec 1
  tc : BitVec 1
  rsvdAt98 : BitVec 2
  ch : BitVec 1
  ioc : BitVec 1
  rsvdAt102 : BitVec 4
  rsvdAt112 : BitVec 16
deriving DecidableEq, Repr

/-- Event Data TRB: the fields of R176. -/
structure EventDataTrb where
  eventData : BitVec 64
  rsvdAt64 : BitVec 22
  interrupterTarget : BitVec 10
  c : BitVec 1
  ent : BitVec 1
  rsvdAt98 : BitVec 2
  ch : BitVec 1
  ioc : BitVec 1
  rsvdAt102 : BitVec 3
  bei : BitVec 1
  rsvdAt112 : BitVec 16
deriving DecidableEq, Repr

/-- No Op TRB (transfer ring): the fields of R177. -/
structure NoOpTrb where
  rsvdAt0 : BitVec 86
  interrupterTarget : BitVec 10
  c : BitVec 1
  ent : BitVec 1
  rsvdAt98 : BitVec 2
  ch : BitVec 1
  ioc : BitVec 1
  rsvdAt102 : BitVec 4
  rsvdAt112 : BitVec 16
deriving DecidableEq, Repr

/-- Enable Slot Command TRB: the fields of R190. -/
structure EnableSlotTrb where
  rsvdAt0 : BitVec 96
  c : BitVec 1
  rsvdAt97 : BitVec 9
  slotType : BitVec 5
  rsvdAt117 : BitVec 11
deriving DecidableEq, Repr

/-- Disable Slot Command TRB: the fields of R191. -/
structure DisableSlotTrb where
  rsvdAt0 : BitVec 96
  c : BitVec 1
  rsvdAt97 : BitVec 9
  rsvdAt112 : BitVec 8
  slotId : BitVec 8
deriving DecidableEq, Repr

/-- Address Device Command TRB: the fields of R192. -/
structure AddressDeviceTrb where
  rsvdAt0 : BitVec 4
  inputContextPointer : BitVec 60
  rsvdAt64 : BitVec 32
  c : BitVec 1
  rsvdAt97 : BitVec 8
  bsr : BitVec 1
  rsvdAt112 : BitVec 8
  slotId : BitVec 8
deriving DecidableEq, Repr

/-- Configure Endpoint Command TRB: the fields of R193. -/
structure ConfigureEndpointTrb where
  rsvdAt0 : BitVec 4
  inputContextPointer : BitVec 60
  rsvdAt64 : BitVec 32
  c : BitVec 1
  rsvdAt97 : BitVec 8
  dc : BitVec 1
  rsvdAt112 : BitVec 8
  slotId : BitVec 8
deriving DecidableEq, Repr

/-- Evaluate Context Command TRB: the fields of R194. -/
structure EvaluateContextTrb where
  rsvdAt0 : BitVec 4
  inputContextPointer : BitVec 60
  rsvdAt64 : BitVec 32
  c : BitVec 1
  rsvdAt97 : BitVec 9
  rsvdAt112 : BitVec 8
  slotId : BitVec 8
deriving DecidableEq, Repr

/-- Reset Endpoint Command TRB: the fields of R195. -/
structure ResetEndpointTrb where
  rsvdAt0 : BitVec 96
  c : BitVec 1
  rsvdAt97 : BitVec 8
  tsp : BitVec 1
  endpointId : BitVec 5
  rsvdAt117 : BitVec 3
  slotId : BitVec 8
deriving DecidableEq, Repr

/-- Stop Endpoint Command TRB: the fields of R196. -/
structure StopEndpointTrb where
  rsvdAt0 : BitVec 96
  c : BitVec 1
  rsvdAt97 : BitVec 9
  endpointId : BitVec 5
  rsvdAt117 : BitVec 2
  sp : BitVec 1
  slotId : BitVec 8
deriving DecidableEq, Repr

/-- Set TR Dequeue Pointer Command TRB: the fields of R197. -/
structure SetTrDequeuePointerTrb where
  dcs : BitVec 1
  sct : BitVec 3
  newTrDequeuePointer : BitVec 60
  rsvdAt64 : BitVec 16
  streamId : BitVec 16
  c : BitVec 1
  rsvdAt97 : BitVec 9
  endpointId : BitVec 5
  rsvdAt117 : BitVec 3
  slotId : BitVec 8
deriving DecidableEq, Repr

/-- Reset Device Command TRB: the fields of R198. -/
structure ResetDeviceTrb where
  rsvdAt0 : BitVec 96
  c : BitVec 1
  rsvdAt97 : BitVec 9
  rsvdAt112 : BitVec 8
  slotId : BitVec 8
deriving DecidableEq, Repr

/-- Force Event Command TRB: the fields of R199. -/
structure ForceEventTrb where
  rsvdAt0 : BitVec 4
  eventTrbPointer : BitVec 60
  rsvdAt64 : BitVec 22
  vfInterrupterTarget : BitVec 10
  c : BitVec 1
  rsvdAt97 : BitVec 9
  vfId : BitVec 8
  rsvdAt120 : BitVec 8
deriving DecidableEq, Repr

/-- Negotiate Bandwidth Command TRB: the fields of R200. -/
structure NegotiateBandwidthTrb where
  rsvdAt0 : BitVec 96
  c : BitVec 1
  rsvdAt97 : BitVec 9
  rsvdAt112 : BitVec 8
  slotId : BitVec 8
deriving DecidableEq, Repr

/-- Set Latency Tolerance Value Command TRB: the fields of R201. -/
structure SetLatencyToleranceValueTrb where
  rsvdAt0 : BitVec 96
  c : BitVec 1
  rsvdAt97 : BitVec 9
  bestEffortLatencyToleranceValue : BitVec 12
  rsvdAt124 : BitVec 4
deriving DecidableEq, Repr

/-- Get Port Bandwidth Command TRB: the fields of R202. -/
structure GetPortBandwidthTrb where
  rsvdAt0 : BitVec 4
  portBandwidthContextPointer : BitVec 60
  rsvdAt64 : BitVec 32
  c : BitVec 1
  rsvdAt97 : BitVec 9
  devSpeed : BitVec 4
  rsvdAt116 : BitVec 4
  hubSlotId : BitVec 8
deriving DecidableEq, Repr

/-- Force Header Command TRB: the fields of R203. -/
structure ForceHeaderTrb where
  packetType : BitVec 5
  headerInfoLo : BitVec 27
  headerInfoMid : BitVec 32
  headerInfoHi : BitVec 32
  c : BitVec 1
  rsvdAt97 : BitVec 9
  rsvdAt112 : BitVec 8
  rootHubPortNumber : BitVec 8
deriving DecidableEq, Repr

/-- No Op Command TRB: the fields of R204. -/
structure NoOpCommandTrb where
  rsvdAt0 : BitVec 96
  c : BitVec 1
  rsvdAt97 : BitVec 9
  rsvdAt112 : BitVec 16
deriving DecidableEq, Repr

/-- Get Extended Property Command TRB: the fields of R205. -/
structure GetExtendedPropertyTrb where
  rsvdAt0 : BitVec 4
  extendedPropertyContextPointer : BitVec 60
  extendedCapabilityIdentifier : BitVec 16
  rsvdAt80 : BitVec 16
  c : BitVec 1
  rsvdAt97 : BitVec 9
  commandSubType : BitVec 3
  endpointId : BitVec 5
  slotId : BitVec 8
deriving DecidableEq, Repr

/-- Set Extended Property Command TRB: the fields of R206. -/
structure SetExtendedPropertyTrb where
  rsvdAt0 : BitVec 64
  extendedCapabilityIdentifier : BitVec 16
  capabilityParameter : BitVec 8
  rsvdAt88 : BitVec 8
  c : BitVec 1
  rsvdAt97 : BitVec 9
  commandSubType : BitVec 3
  endpointId : BitVec 5
  slotId : BitVec 8
deriving DecidableEq, Repr

/-- Transfer Event TRB: the fields of R220. -/
structure TransferEventTrb where
  trbPointer : BitVec 64
  trbTransferLength : BitVec 24
  completionCode : BitVec 8
  c : BitVec 1
  rsvdAt97 : BitVec 1
  ed : BitVec 1
  rsvdAt99 : BitVec 7
  endpointId : BitVec 5
  rsvdAt117 : BitVec 3
  slotId : BitVec 8
deriving DecidableEq, Repr

/-- Command Completion Event TRB: the fields of R221. -/
structure CommandCompletionEventTrb where
  rsvdAt0 : BitVec 4
  commandTrbPointer : BitVec 60
  commandCompletionParameter : BitVec 24
  completionCode : BitVec 8
  c : BitVec 1
  rsvdAt97 : BitVec 9
  vfId : BitVec 8
  slotId : BitVec 8
deriving DecidableEq, Repr

/-- Port Status Change Event TRB: the fields of R222. -/
structure PortStatusChangeEventTrb where
  rsvdAt0 : BitVec 24
  portId : BitVec 8
  rsvdAt32 : BitVec 56
  completionCode : BitVec 8
  c : BitVec 1
  rsvdAt97 : BitVec 9
  rsvdAt112 : BitVec 16
deriving DecidableEq, Repr

/-- Bandwidth Request Event TRB: the fields of R223. -/
structure BandwidthRequestEventTrb where
  rsvdAt0 : BitVec 88
  completionCode : BitVec 8
  c : BitVec 1
  rsvdAt97 : BitVec 9
  rsvdAt112 : BitVec 8
  slotId : BitVec 8
deriving DecidableEq, Repr

/-- Doorbell Event TRB: the fields of R224. -/
structure DoorbellEventTrb where
  dbReason : BitVec 5
  rsvdAt5 : BitVec 83
  completionCode : BitVec 8
  c : BitVec 1
  rsvdAt97 : BitVec 9
  vfId : BitVec 8
  slotId : BitVec 8
deriving DecidableEq, Repr

/-- Host Controller Event TRB: the fields of R225. -/
structure HostControllerEventTrb where
  rsvdAt0 : BitVec 88
  completionCode : BitVec 8
  c : BitVec 1
  rsvdAt97 : BitVec 9
  rsvdAt112 : BitVec 16
deriving DecidableEq, Repr

/-- Device Notification Event TRB: the fields of R226. -/
structure DeviceNotificationEventTrb where
  rsvdAt0 : BitVec 4
  notificationType : BitVec 4
  deviceNotificationData : BitVec 56
  rsvdAt64 : BitVec 24
  completionCode : BitVec 8
  c : BitVec 1
  rsvdAt97 : BitVec 9
  rsvdAt112 : BitVec 8
  slotId : BitVec 8
deriving DecidableEq, Repr

/-- MFINDEX Wrap Event TRB: the fields of R227. -/
structure MfindexWrapEventTrb where
  rsvdAt0 : BitVec 88
  completionCode : BitVec 8
  c : BitVec 1
  rsvdAt97 : BitVec 9
  rsvdAt112 : BitVec 16
deriving DecidableEq, Repr

/-- An Unrecognized TRB (R156): the raw bits about the part of the Type that its table row fixes. `low` holds the Type's
bits that the row leaves free. -/
structure UnrecognizedTrb (n : Nat) where
  dw0 : Word
  dw1 : Word
  dw2 : Word
  c : BitVec 1
  at97 : BitVec 9
  low : BitVec n
  at112 : BitVec 16
deriving DecidableEq, Repr

/-! ## Instructions -/

/-- The instructions of the opcode table: the TRBs that the decoder classifies and the requests of the request port. -/
inductive Instr where
  /-- Normal TRB, Type 1 (R170). -/
  | normal (o : NormalTrb)
  /-- Setup Stage TRB, Type 2 (R171). -/
  | setupStage (o : SetupStageTrb)
  /-- Data Stage TRB, Type 3 (R172). -/
  | dataStage (o : DataStageTrb)
  /-- Status Stage TRB, Type 4 (R173). -/
  | statusStage (o : StatusStageTrb)
  /-- Isoch TRB, Type 5 (R174). -/
  | isoch (o : IsochTrb)
  /-- Link TRB, Type 6 (R175). -/
  | link (o : LinkTrb)
  /-- Event Data TRB, Type 7 (R176). -/
  | eventData (o : EventDataTrb)
  /-- No Op TRB (transfer ring), Type 8 (R177). -/
  | noOp (o : NoOpTrb)
  /-- Enable Slot Command TRB, Type 9 (R190). -/
  | enableSlot (o : EnableSlotTrb)
  /-- Disable Slot Command TRB, Type 10 (R191). -/
  | disableSlot (o : DisableSlotTrb)
  /-- Address Device Command TRB, Type 11 (R192). -/
  | addressDevice (o : AddressDeviceTrb)
  /-- Configure Endpoint Command TRB, Type 12 (R193). -/
  | configureEndpoint (o : ConfigureEndpointTrb)
  /-- Evaluate Context Command TRB, Type 13 (R194). -/
  | evaluateContext (o : EvaluateContextTrb)
  /-- Reset Endpoint Command TRB, Type 14 (R195). -/
  | resetEndpoint (o : ResetEndpointTrb)
  /-- Stop Endpoint Command TRB, Type 15 (R196). -/
  | stopEndpoint (o : StopEndpointTrb)
  /-- Set TR Dequeue Pointer Command TRB, Type 16 (R197). -/
  | setTrDequeuePointer (o : SetTrDequeuePointerTrb)
  /-- Reset Device Command TRB, Type 17 (R198). -/
  | resetDevice (o : ResetDeviceTrb)
  /-- Force Event Command TRB, Type 18 (R199). -/
  | forceEvent (o : ForceEventTrb)
  /-- Negotiate Bandwidth Command TRB, Type 19 (R200). -/
  | negotiateBandwidth (o : NegotiateBandwidthTrb)
  /-- Set Latency Tolerance Value Command TRB, Type 20 (R201). -/
  | setLatencyToleranceValue (o : SetLatencyToleranceValueTrb)
  /-- Get Port Bandwidth Command TRB, Type 21 (R202). -/
  | getPortBandwidth (o : GetPortBandwidthTrb)
  /-- Force Header Command TRB, Type 22 (R203). -/
  | forceHeader (o : ForceHeaderTrb)
  /-- No Op Command TRB, Type 23 (R204). -/
  | noOpCommand (o : NoOpCommandTrb)
  /-- Get Extended Property Command TRB, Type 24 (R205). -/
  | getExtendedProperty (o : GetExtendedPropertyTrb)
  /-- Set Extended Property Command TRB, Type 25 (R206). -/
  | setExtendedProperty (o : SetExtendedPropertyTrb)
  /-- Transfer Event TRB, Type 32 (R220). -/
  | transferEvent (o : TransferEventTrb)
  /-- Command Completion Event TRB, Type 33 (R221). -/
  | commandCompletionEvent (o : CommandCompletionEventTrb)
  /-- Port Status Change Event TRB, Type 34 (R222). -/
  | portStatusChangeEvent (o : PortStatusChangeEventTrb)
  /-- Bandwidth Request Event TRB, Type 35 (R223). -/
  | bandwidthRequestEvent (o : BandwidthRequestEventTrb)
  /-- Doorbell Event TRB, Type 36 (R224). -/
  | doorbellEvent (o : DoorbellEventTrb)
  /-- Host Controller Event TRB, Type 37 (R225). -/
  | hostControllerEvent (o : HostControllerEventTrb)
  /-- Device Notification Event TRB, Type 38 (R226). -/
  | deviceNotificationEvent (o : DeviceNotificationEventTrb)
  /-- MFINDEX Wrap Event TRB, Type 39 (R227). -/
  | mfindexWrapEvent (o : MfindexWrapEventTrb)
  /-- Unrecognized TRB, Type 0 (R156). -/
  | unrecognized0 (o : UnrecognizedTrb 0)
  /-- Unrecognized TRB, Type 26-27 (R156). -/
  | unrecognized26 (o : UnrecognizedTrb 1)
  /-- Unrecognized TRB, Type 28-31 (R156). -/
  | unrecognized28 (o : UnrecognizedTrb 2)
  /-- Unrecognized TRB, Type 40-47 (R156). -/
  | unrecognized40 (o : UnrecognizedTrb 3)
  /-- Unrecognized TRB, Type 48-63 (R156). -/
  | unrecognized48 (o : UnrecognizedTrb 4)
  /-- `READ(ra, L)` (R124). -/
  | read (ra : Addr) (L : Layout)
  /-- `GET((L, snap), f)` (R125). -/
  | get (L : Layout) (snap : RegValue) (f : RegField)
  /-- `UPDATE(ra, L, M)` (R126). -/
  | update (ra : Addr) (L : Layout) (M : List Action)
  /-- `WRITE(ra, L, M)` (R127). -/
  | write (ra : Addr) (L : Layout) (M : List Action)
  /-- `TRB_NEW(K)` (R151). -/
  | trbNew (K : Variant)
  /-- `TRB_GET(v, f)` (R152); a TRB value is its 128 bits (R150). -/
  | trbGet (v : Trb) (f : TrbField)
  /-- `TRB_SET(v, f, x)` (R153). -/
  | trbSet (v : Trb) (f : TrbField) (x : SetValue)
  /-- `TRB_ENCODE(v)` (R154). -/
  | trbEncode (v : Trb)
  /-- `TRB_DECODE([w0, w1, w2, w3])` (R155). -/
  | trbDecode (w0 w1 w2 w3 : Word)
  /-- `INIT_PRODUCER(kind, segs)` (R241). -/
  | initProducer (kind : RingKind) (segs : List Segment)
  /-- `ENQUEUE(r, v)` (R245). -/
  | enqueue (r : Nat) (v : Trb)
  /-- `ENQUEUE_POINTER(r)` (R250). -/
  | enqueuePointer (r : Nat)
  /-- `CRCR_VALUE(r)` (R251). -/
  | crcrValue (r : Nat)
  /-- `INIT_EVENT(erst_base, segs)` (R271). -/
  | initEvent (erstBase : Addr) (segs : List Segment)
  /-- `DEQUEUE(r)` (R276). -/
  | dequeue (r : Nat)
  /-- `DEQUEUE_POINTER(r)` (R281). -/
  | dequeuePointer (r : Nat)
  /-- `ERDP_VALUE(r, clear_busy)` (R282). -/
  | erdpValue (r : Nat) (clearBusy : Bool)
  /-- `ERSTSZ_VALUE(r)` (R283). -/
  | erstszValue (r : Nat)
  /-- `ERSTBA_VALUE(r)` (R284). -/
  | erstbaValue (r : Nat)
  /-- `RING_DOORBELL(db, slot, target, stream)` (R315). -/
  | ringDoorbell (db : Addr) (slot target stream : Nat)
deriving DecidableEq, Repr

end Sys2Proof
end

