-- ==== Sys2Proof/Config.lean ====
section
/-! DEFINITION. The parameters of R6: the fixed ones with their values, and what an implementation fixes. -/

namespace Sys2Proof.Config

/-- `SEG_ALIGN` (R6): byte alignment of a ring segment's base and of the ERST base. -/
def segAlign : Nat := 64

/-- `SEG_BOUNDARY` (R6): no segment crosses a multiple of this many bytes. -/
def segBoundary : Nat := 65536

/-- `PROD_SEG_MIN` (R6). -/
def prodSegMin : Nat := 2

/-- `PROD_SEG_MAX` (R6). -/
def prodSegMax : Nat := 4096

/-- `EVT_SEG_MIN` (R6). -/
def evtSegMin : Nat := 16

/-- `EVT_SEG_MAX` (R6). -/
def evtSegMax : Nat := 4096

/-- The largest value the OPEN parameter `ERST_MAX_ENTRIES` may have (R6). -/
def erstMaxLimit : Nat := 32768

/-- `MapPhys` (R6, R12), OPEN: the access address the block uses for a physical address. Nothing is
known of it, so nothing here can assume that it is the identity. Entry 7. -/
opaque mapPhys : Addr → Addr

/-- FREE VALUE: what a register access reads, or leaves behind, where the spec lays out no register. The
first argument makes each access a fresh one. Entry 12. -/
opaque openRegister : Nat → Addr → RegValue

/-- FREE VALUE: which of the fields of a layout with one name that name names, counted modulo how many there are. A
name that one field has names that field. Entry 18. -/
opaque namesake : Layout → RegField → Nat

/-- DESIGN CHOICE, entry 8: `SPLIT64` (R6, OPEN) at reset. -/
def resetSplit64 : Bool := false

/-- DESIGN CHOICE, entry 9: the access address of the Capability registers (R300), as in program P4. -/
def cap : Addr := 0x10000000#64

/-- DESIGN CHOICE, entry 9: CAPLENGTH, an implementation constant (R302), as in program P4. -/
def caplength : RegValue := 0x20#64

/-- DESIGN CHOICE, entry 9: HCIVERSION, an implementation constant (R302), revision 1.2. -/
def hciversion : RegValue := 0x0120#64

/-- DESIGN CHOICE, entry 9: HCSPARAMS1, an implementation constant, R303's example: 64 slots, 8 interrupters, 4 ports. -/
def hcsparams1 : RegValue := 0x04000840#64

/-- DESIGN CHOICE, entry 9: HCSPARAMS2, an implementation constant, R303's example: `erst_max = 15`. -/
def hcsparams2 : RegValue := 0x080000f1#64

/-- DESIGN CHOICE, entry 32: HCSPARAMS3, an implementation constant that R300 names for its offset only. -/
def hcsparams3 : RegValue := 0#64

/-- DESIGN CHOICE, entry 32: HCCPARAMS1, an implementation constant that R300 names for its offset only. -/
def hccparams1 : RegValue := 0#64

/-- DESIGN CHOICE, entry 32: HCCPARAMS2, an implementation constant that R300 names for its offset only. -/
def hccparams2 : RegValue := 0#64

/-- DESIGN CHOICE, entry 32: PAGESIZE after a controller reset; R300 names it for its offset only. -/
def resetPagesize : RegValue := 0#64

/-- DESIGN CHOICE, entry 32: DNCTRL after a controller reset; R300 names it for its offset only. -/
def resetDnctrl : RegValue := 0#64

/-- DESIGN CHOICE, entry 9: DBOFF, an implementation constant, R304's example. -/
def dboff : RegValue := 0x00003000#64

/-- DESIGN CHOICE, entry 9: RTSOFF, an implementation constant, R304's example. -/
def rtsoff : RegValue := 0x00002000#64

end Sys2Proof.Config
end

