-- ==== Sys2Proof/WellFormed.lean ====
section
/-! DEFINITION. What a typed model rejects before a request is made: the arguments the spec gives no meaning to. -/

namespace Sys2Proof

/-- The number of bits of a hardware word (R7). -/
def RegWidth.bits : RegWidth → Nat
  | .w8 => 8
  | .w16 => 16
  | .w32 => 32
  | .w64 => 64

/-- Bit `i` of the word belongs to the field. -/
def LayoutField.covers (f : LayoutField) (i : Nat) : Bool :=
  f.lo ≤ i && i < f.lo + f.width

/-- A well-formed layout (R96): every bit of the word belongs to exactly one field and no field reaches past the word. -/
def Layout.wf (L : Layout) : Bool :=
  ((List.range L.width.bits).all fun i => L.fields.countP (fun f => f.covers i) == 1) &&
    L.fields.all fun f => f.lo + f.width ≤ L.width.bits

/-- The well-formed instructions: every TRB and every request but one with an ill-formed layout (R96). A snapshot is the
`N` low bits of its 64 (R120; entry 18). -/
def Instr.wf : Instr → Bool
  | .normal _ => true
  | .setupStage _ => true
  | .dataStage _ => true
  | .statusStage _ => true
  | .isoch _ => true
  | .link _ => true
  | .eventData _ => true
  | .noOp _ => true
  | .enableSlot _ => true
  | .disableSlot _ => true
  | .addressDevice _ => true
  | .configureEndpoint _ => true
  | .evaluateContext _ => true
  | .resetEndpoint _ => true
  | .stopEndpoint _ => true
  | .setTrDequeuePointer _ => true
  | .resetDevice _ => true
  | .forceEvent _ => true
  | .negotiateBandwidth _ => true
  | .setLatencyToleranceValue _ => true
  | .getPortBandwidth _ => true
  | .forceHeader _ => true
  | .noOpCommand _ => true
  | .getExtendedProperty _ => true
  | .setExtendedProperty _ => true
  | .transferEvent _ => true
  | .commandCompletionEvent _ => true
  | .portStatusChangeEvent _ => true
  | .bandwidthRequestEvent _ => true
  | .doorbellEvent _ => true
  | .hostControllerEvent _ => true
  | .deviceNotificationEvent _ => true
  | .mfindexWrapEvent _ => true
  | .unrecognized0 _ => true
  | .unrecognized26 _ => true
  | .unrecognized28 _ => true
  | .unrecognized40 _ => true
  | .unrecognized48 _ => true
  | .read _ L => L.wf
  | .get L _ _ => L.wf
  | .update _ L _ => L.wf
  | .write _ L _ => L.wf
  | .trbNew _ => true
  | .trbGet _ _ => true
  | .trbSet _ _ _ => true
  | .trbEncode _ => true
  | .trbDecode _ _ _ _ => true
  | .initProducer _ _ => true
  | .enqueue _ _ => true
  | .enqueuePointer _ => true
  | .crcrValue _ => true
  | .initEvent _ _ => true
  | .dequeue _ => true
  | .dequeuePointer _ => true
  | .erdpValue _ _ => true
  | .erstszValue _ => true
  | .erstbaValue _ => true
  | .ringDoorbell _ _ _ _ => true

end Sys2Proof
end

