-- ==== Sys2Proof/Decode.lean ====
section
/-! DEFINITION. Decoding and encoding: TRBs and their fields, the 16 bytes of a slot, the opcode table's words.
The positions are those of the layout tables (R170 to R177, R190 to R206, R220 to R227), bit 0 of `T` the lowest. -/

namespace Sys2Proof

/-! ## Words and bits of a TRB -/

/-- The 128 bits with `x` from bit `lo` up and 0 elsewhere. -/
def place {n : Nat} (x : BitVec n) (lo : Nat) : Trb := x.setWidth 128 <<< lo

/-- The `n` bits of `t` from bit `lo` up. -/
def field (t : Trb) (lo n : Nat) : BitVec n := t.extractLsb' lo n

/-- `T = DW3, DW2, DW1, DW0` from the upper end (R9). -/
def trbOfWords (w0 w1 w2 w3 : Word) : Trb :=
  place w0 0 ||| place w1 32 ||| place w2 64 ||| place w3 96

/-- `DW0` of a TRB (R9). -/
def dw0 (t : Trb) : Word := field t 0 32

/-- `DW1` of a TRB (R9). -/
def dw1 (t : Trb) : Word := field t 32 32

/-- `DW2` of a TRB (R9). -/
def dw2 (t : Trb) : Word := field t 64 32

/-- `DW3` of a TRB (R9). -/
def dw3 (t : Trb) : Word := field t 96 32

/-- The Type, DW3 15:10 (R80). -/
def typeField (t : Trb) : BitVec 6 := field t 106 6

/-- The Cycle bit, DW3 0 (R80). -/
def cycleBit (t : Trb) : Bool := t.getLsbD 96

/-! ## The Type map (R82) -/

/-- The Type of a defined variant (R82). -/
def Variant.code : Variant → Nat
  | .normal => 1
  | .setupStage => 2
  | .dataStage => 3
  | .statusStage => 4
  | .isoch => 5
  | .link => 6
  | .eventData => 7
  | .noOp => 8
  | .enableSlot => 9
  | .disableSlot => 10
  | .addressDevice => 11
  | .configureEndpoint => 12
  | .evaluateContext => 13
  | .resetEndpoint => 14
  | .stopEndpoint => 15
  | .setTrDequeuePointer => 16
  | .resetDevice => 17
  | .forceEvent => 18
  | .negotiateBandwidth => 19
  | .setLatencyToleranceValue => 20
  | .getPortBandwidth => 21
  | .forceHeader => 22
  | .noOpCommand => 23
  | .getExtendedProperty => 24
  | .setExtendedProperty => 25
  | .transferEvent => 32
  | .commandCompletionEvent => 33
  | .portStatusChangeEvent => 34
  | .bandwidthRequestEvent => 35
  | .doorbellEvent => 36
  | .hostControllerEvent => 37
  | .deviceNotificationEvent => 38
  | .mfindexWrapEvent => 39

/-- `TypeMap` (R81, R82): Unrecognized for every Type the table does not list (R83). -/
def typeMap (ty : BitVec 6) : TrbKind :=
  match ty.toNat with
  | 1 => .defined .normal
  | 2 => .defined .setupStage
  | 3 => .defined .dataStage
  | 4 => .defined .statusStage
  | 5 => .defined .isoch
  | 6 => .defined .link
  | 7 => .defined .eventData
  | 8 => .defined .noOp
  | 9 => .defined .enableSlot
  | 10 => .defined .disableSlot
  | 11 => .defined .addressDevice
  | 12 => .defined .configureEndpoint
  | 13 => .defined .evaluateContext
  | 14 => .defined .resetEndpoint
  | 15 => .defined .stopEndpoint
  | 16 => .defined .setTrDequeuePointer
  | 17 => .defined .resetDevice
  | 18 => .defined .forceEvent
  | 19 => .defined .negotiateBandwidth
  | 20 => .defined .setLatencyToleranceValue
  | 21 => .defined .getPortBandwidth
  | 22 => .defined .forceHeader
  | 23 => .defined .noOpCommand
  | 24 => .defined .getExtendedProperty
  | 25 => .defined .setExtendedProperty
  | 32 => .defined .transferEvent
  | 33 => .defined .commandCompletionEvent
  | 34 => .defined .portStatusChangeEvent
  | 35 => .defined .bandwidthRequestEvent
  | 36 => .defined .doorbellEvent
  | 37 => .defined .hostControllerEvent
  | 38 => .defined .deviceNotificationEvent
  | 39 => .defined .mfindexWrapEvent
  | _ => .unrecognized

/-- `kind(T)`: a function of the Type alone (R81). -/
def kindOf (t : Trb) : TrbKind := typeMap (typeField t)

/-! ## The variants, field by field -/

/-- The fields of a Normal TRB at their positions (R170). -/
def decodeNormal (t : Trb) : NormalTrb where
  dataBufferPointer := field t 0 64
  trbTransferLength := field t 64 17
  tdSize := field t 81 5
  interrupterTarget := field t 86 10
  c := field t 96 1
  ent := field t 97 1
  isp := field t 98 1
  ns := field t 99 1
  ch := field t 100 1
  ioc := field t 101 1
  idt := field t 102 1
  rsvdAt103 := field t 103 2
  bei := field t 105 1
  rsvdAt112 := field t 112 16

/-- The 128 bits of a Normal TRB (R170), Type 1. -/
def encodeNormal (o : NormalTrb) : Trb :=
  place o.dataBufferPointer 0 ||| place o.trbTransferLength 64 ||| place o.tdSize 81 |||
    place o.interrupterTarget 86 ||| place o.c 96 ||| place o.ent 97 ||| place o.isp 98 ||| place o.ns 99 |||
    place o.ch 100 ||| place o.ioc 101 ||| place o.idt 102 ||| place o.rsvdAt103 103 ||| place o.bei 105 |||
    place 1#6 106 ||| place o.rsvdAt112 112

/-- The fields of a Setup Stage TRB at their positions (R171). -/
def decodeSetupStage (t : Trb) : SetupStageTrb where
  bmRequestType := field t 0 8
  bRequest := field t 8 8
  wValue := field t 16 16
  wIndex := field t 32 16
  wLength := field t 48 16
  trbTransferLength := field t 64 17
  rsvdAt81 := field t 81 5
  interrupterTarget := field t 86 10
  c := field t 96 1
  rsvdAt97 := field t 97 4
  ioc := field t 101 1
  idt := field t 102 1
  rsvdAt103 := field t 103 3
  trt := field t 112 2
  rsvdAt114 := field t 114 14

/-- The 128 bits of a Setup Stage TRB (R171), Type 2. -/
def encodeSetupStage (o : SetupStageTrb) : Trb :=
  place o.bmRequestType 0 ||| place o.bRequest 8 ||| place o.wValue 16 ||| place o.wIndex 32 |||
    place o.wLength 48 ||| place o.trbTransferLength 64 ||| place o.rsvdAt81 81 |||
    place o.interrupterTarget 86 ||| place o.c 96 ||| place o.rsvdAt97 97 ||| place o.ioc 101 |||
    place o.idt 102 ||| place o.rsvdAt103 103 ||| place 2#6 106 ||| place o.trt 112 ||| place o.rsvdAt114 114

/-- The fields of a Data Stage TRB at their positions (R172). -/
def decodeDataStage (t : Trb) : DataStageTrb where
  dataBufferPointer := field t 0 64
  trbTransferLength := field t 64 17
  tdSize := field t 81 5
  interrupterTarget := field t 86 10
  c := field t 96 1
  ent := field t 97 1
  isp := field t 98 1
  ns := field t 99 1
  ch := field t 100 1
  ioc := field t 101 1
  idt := field t 102 1
  rsvdAt103 := field t 103 3
  dir := field t 112 1
  rsvdAt113 := field t 113 15

/-- The 128 bits of a Data Stage TRB (R172), Type 3. -/
def encodeDataStage (o : DataStageTrb) : Trb :=
  place o.dataBufferPointer 0 ||| place o.trbTransferLength 64 ||| place o.tdSize 81 |||
    place o.interrupterTarget 86 ||| place o.c 96 ||| place o.ent 97 ||| place o.isp 98 ||| place o.ns 99 |||
    place o.ch 100 ||| place o.ioc 101 ||| place o.idt 102 ||| place o.rsvdAt103 103 ||| place 3#6 106 |||
    place o.dir 112 ||| place o.rsvdAt113 113

/-- The fields of a Status Stage TRB at their positions (R173). -/
def decodeStatusStage (t : Trb) : StatusStageTrb where
  rsvdAt0 := field t 0 86
  interrupterTarget := field t 86 10
  c := field t 96 1
  ent := field t 97 1
  rsvdAt98 := field t 98 2
  ch := field t 100 1
  ioc := field t 101 1
  rsvdAt102 := field t 102 4
  dir := field t 112 1
  rsvdAt113 := field t 113 15

/-- The 128 bits of a Status Stage TRB (R173), Type 4. -/
def encodeStatusStage (o : StatusStageTrb) : Trb :=
  place o.rsvdAt0 0 ||| place o.interrupterTarget 86 ||| place o.c 96 ||| place o.ent 97 |||
    place o.rsvdAt98 98 ||| place o.ch 100 ||| place o.ioc 101 ||| place o.rsvdAt102 102 |||
    place 4#6 106 ||| place o.dir 112 ||| place o.rsvdAt113 113

/-- The fields of a Isoch TRB at their positions (R174). -/
def decodeIsoch (t : Trb) : IsochTrb where
  dataBufferPointer := field t 0 64
  trbTransferLength := field t 64 17
  tdSizeTbc := field t 81 5
  interrupterTarget := field t 86 10
  c := field t 96 1
  ent := field t 97 1
  isp := field t 98 1
  ns := field t 99 1
  ch := field t 100 1
  ioc := field t 101 1
  idt := field t 102 1
  tbc := field t 103 2
  bei := field t 105 1
  tlbpc := field t 112 4
  frameId := field t 116 11
  sia := field t 127 1

/-- The 128 bits of a Isoch TRB (R174), Type 5. -/
def encodeIsoch (o : IsochTrb) : Trb :=
  place o.dataBufferPointer 0 ||| place o.trbTransferLength 64 ||| place o.tdSizeTbc 81 |||
    place o.interrupterTarget 86 ||| place o.c 96 ||| place o.ent 97 ||| place o.isp 98 ||| place o.ns 99 |||
    place o.ch 100 ||| place o.ioc 101 ||| place o.idt 102 ||| place o.tbc 103 ||| place o.bei 105 |||
    place 5#6 106 ||| place o.tlbpc 112 ||| place o.frameId 116 ||| place o.sia 127

/-- The fields of a Link TRB at their positions (R175). -/
def decodeLink (t : Trb) : LinkTrb where
  rsvdAt0 := field t 0 4
  ringSegmentPointer := field t 4 60
  rsvdAt64 := field t 64 22
  interrupterTarget := field t 86 10
  c := field t 96 1
  tc := field t 97 1
  rsvdAt98 := field t 98 2
  ch := field t 100 1
  ioc := field t 101 1
  rsvdAt102 := field t 102 4
  rsvdAt112 := field t 112 16

/-- The 128 bits of a Link TRB (R175), Type 6. -/
def encodeLink (o : LinkTrb) : Trb :=
  place o.rsvdAt0 0 ||| place o.ringSegmentPointer 4 ||| place o.rsvdAt64 64 |||
    place o.interrupterTarget 86 ||| place o.c 96 ||| place o.tc 97 ||| place o.rsvdAt98 98 |||
    place o.ch 100 ||| place o.ioc 101 ||| place o.rsvdAt102 102 ||| place 6#6 106 ||| place o.rsvdAt112 112

/-- The fields of a Event Data TRB at their positions (R176). -/
def decodeEventData (t : Trb) : EventDataTrb where
  eventData := field t 0 64
  rsvdAt64 := field t 64 22
  interrupterTarget := field t 86 10
  c := field t 96 1
  ent := field t 97 1
  rsvdAt98 := field t 98 2
  ch := field t 100 1
  ioc := field t 101 1
  rsvdAt102 := field t 102 3
  bei := field t 105 1
  rsvdAt112 := field t 112 16

/-- The 128 bits of a Event Data TRB (R176), Type 7. -/
def encodeEventData (o : EventDataTrb) : Trb :=
  place o.eventData 0 ||| place o.rsvdAt64 64 ||| place o.interrupterTarget 86 ||| place o.c 96 |||
    place o.ent 97 ||| place o.rsvdAt98 98 ||| place o.ch 100 ||| place o.ioc 101 |||
    place o.rsvdAt102 102 ||| place o.bei 105 ||| place 7#6 106 ||| place o.rsvdAt112 112

/-- The fields of a No Op TRB (transfer ring) at their positions (R177). -/
def decodeNoOp (t : Trb) : NoOpTrb where
  rsvdAt0 := field t 0 86
  interrupterTarget := field t 86 10
  c := field t 96 1
  ent := field t 97 1
  rsvdAt98 := field t 98 2
  ch := field t 100 1
  ioc := field t 101 1
  rsvdAt102 := field t 102 4
  rsvdAt112 := field t 112 16

/-- The 128 bits of a No Op TRB (transfer ring) (R177), Type 8. -/
def encodeNoOp (o : NoOpTrb) : Trb :=
  place o.rsvdAt0 0 ||| place o.interrupterTarget 86 ||| place o.c 96 ||| place o.ent 97 |||
    place o.rsvdAt98 98 ||| place o.ch 100 ||| place o.ioc 101 ||| place o.rsvdAt102 102 |||
    place 8#6 106 ||| place o.rsvdAt112 112

/-- The fields of a Enable Slot Command TRB at their positions (R190). -/
def decodeEnableSlot (t : Trb) : EnableSlotTrb where
  rsvdAt0 := field t 0 96
  c := field t 96 1
  rsvdAt97 := field t 97 9
  slotType := field t 112 5
  rsvdAt117 := field t 117 11

/-- The 128 bits of a Enable Slot Command TRB (R190), Type 9. -/
def encodeEnableSlot (o : EnableSlotTrb) : Trb :=
  place o.rsvdAt0 0 ||| place o.c 96 ||| place o.rsvdAt97 97 ||| place 9#6 106 ||| place o.slotType 112 |||
    place o.rsvdAt117 117

/-- The fields of a Disable Slot Command TRB at their positions (R191). -/
def decodeDisableSlot (t : Trb) : DisableSlotTrb where
  rsvdAt0 := field t 0 96
  c := field t 96 1
  rsvdAt97 := field t 97 9
  rsvdAt112 := field t 112 8
  slotId := field t 120 8

/-- The 128 bits of a Disable Slot Command TRB (R191), Type 10. -/
def encodeDisableSlot (o : DisableSlotTrb) : Trb :=
  place o.rsvdAt0 0 ||| place o.c 96 ||| place o.rsvdAt97 97 ||| place 10#6 106 ||| place o.rsvdAt112 112 |||
    place o.slotId 120

/-- The fields of a Address Device Command TRB at their positions (R192). -/
def decodeAddressDevice (t : Trb) : AddressDeviceTrb where
  rsvdAt0 := field t 0 4
  inputContextPointer := field t 4 60
  rsvdAt64 := field t 64 32
  c := field t 96 1
  rsvdAt97 := field t 97 8
  bsr := field t 105 1
  rsvdAt112 := field t 112 8
  slotId := field t 120 8

/-- The 128 bits of a Address Device Command TRB (R192), Type 11. -/
def encodeAddressDevice (o : AddressDeviceTrb) : Trb :=
  place o.rsvdAt0 0 ||| place o.inputContextPointer 4 ||| place o.rsvdAt64 64 ||| place o.c 96 |||
    place o.rsvdAt97 97 ||| place o.bsr 105 ||| place 11#6 106 ||| place o.rsvdAt112 112 |||
    place o.slotId 120

/-- The fields of a Configure Endpoint Command TRB at their positions (R193). -/
def decodeConfigureEndpoint (t : Trb) : ConfigureEndpointTrb where
  rsvdAt0 := field t 0 4
  inputContextPointer := field t 4 60
  rsvdAt64 := field t 64 32
  c := field t 96 1
  rsvdAt97 := field t 97 8
  dc := field t 105 1
  rsvdAt112 := field t 112 8
  slotId := field t 120 8

/-- The 128 bits of a Configure Endpoint Command TRB (R193), Type 12. -/
def encodeConfigureEndpoint (o : ConfigureEndpointTrb) : Trb :=
  place o.rsvdAt0 0 ||| place o.inputContextPointer 4 ||| place o.rsvdAt64 64 ||| place o.c 96 |||
    place o.rsvdAt97 97 ||| place o.dc 105 ||| place 12#6 106 ||| place o.rsvdAt112 112 |||
    place o.slotId 120

/-- The fields of a Evaluate Context Command TRB at their positions (R194). -/
def decodeEvaluateContext (t : Trb) : EvaluateContextTrb where
  rsvdAt0 := field t 0 4
  inputContextPointer := field t 4 60
  rsvdAt64 := field t 64 32
  c := field t 96 1
  rsvdAt97 := field t 97 9
  rsvdAt112 := field t 112 8
  slotId := field t 120 8

/-- The 128 bits of a Evaluate Context Command TRB (R194), Type 13. -/
def encodeEvaluateContext (o : EvaluateContextTrb) : Trb :=
  place o.rsvdAt0 0 ||| place o.inputContextPointer 4 ||| place o.rsvdAt64 64 ||| place o.c 96 |||
    place o.rsvdAt97 97 ||| place 13#6 106 ||| place o.rsvdAt112 112 ||| place o.slotId 120

/-- The fields of a Reset Endpoint Command TRB at their positions (R195). -/
def decodeResetEndpoint (t : Trb) : ResetEndpointTrb where
  rsvdAt0 := field t 0 96
  c := field t 96 1
  rsvdAt97 := field t 97 8
  tsp := field t 105 1
  endpointId := field t 112 5
  rsvdAt117 := field t 117 3
  slotId := field t 120 8

/-- The 128 bits of a Reset Endpoint Command TRB (R195), Type 14. -/
def encodeResetEndpoint (o : ResetEndpointTrb) : Trb :=
  place o.rsvdAt0 0 ||| place o.c 96 ||| place o.rsvdAt97 97 ||| place o.tsp 105 ||| place 14#6 106 |||
    place o.endpointId 112 ||| place o.rsvdAt117 117 ||| place o.slotId 120

/-- The fields of a Stop Endpoint Command TRB at their positions (R196). -/
def decodeStopEndpoint (t : Trb) : StopEndpointTrb where
  rsvdAt0 := field t 0 96
  c := field t 96 1
  rsvdAt97 := field t 97 9
  endpointId := field t 112 5
  rsvdAt117 := field t 117 2
  sp := field t 119 1
  slotId := field t 120 8

/-- The 128 bits of a Stop Endpoint Command TRB (R196), Type 15. -/
def encodeStopEndpoint (o : StopEndpointTrb) : Trb :=
  place o.rsvdAt0 0 ||| place o.c 96 ||| place o.rsvdAt97 97 ||| place 15#6 106 |||
    place o.endpointId 112 ||| place o.rsvdAt117 117 ||| place o.sp 119 ||| place o.slotId 120

/-- The fields of a Set TR Dequeue Pointer Command TRB at their positions (R197). -/
def decodeSetTrDequeuePointer (t : Trb) : SetTrDequeuePointerTrb where
  dcs := field t 0 1
  sct := field t 1 3
  newTrDequeuePointer := field t 4 60
  rsvdAt64 := field t 64 16
  streamId := field t 80 16
  c := field t 96 1
  rsvdAt97 := field t 97 9
  endpointId := field t 112 5
  rsvdAt117 := field t 117 3
  slotId := field t 120 8

/-- The 128 bits of a Set TR Dequeue Pointer Command TRB (R197), Type 16. -/
def encodeSetTrDequeuePointer (o : SetTrDequeuePointerTrb) : Trb :=
  place o.dcs 0 ||| place o.sct 1 ||| place o.newTrDequeuePointer 4 ||| place o.rsvdAt64 64 |||
    place o.streamId 80 ||| place o.c 96 ||| place o.rsvdAt97 97 ||| place 16#6 106 |||
    place o.endpointId 112 ||| place o.rsvdAt117 117 ||| place o.slotId 120

/-- The fields of a Reset Device Command TRB at their positions (R198). -/
def decodeResetDevice (t : Trb) : ResetDeviceTrb where
  rsvdAt0 := field t 0 96
  c := field t 96 1
  rsvdAt97 := field t 97 9
  rsvdAt112 := field t 112 8
  slotId := field t 120 8

/-- The 128 bits of a Reset Device Command TRB (R198), Type 17. -/
def encodeResetDevice (o : ResetDeviceTrb) : Trb :=
  place o.rsvdAt0 0 ||| place o.c 96 ||| place o.rsvdAt97 97 ||| place 17#6 106 ||| place o.rsvdAt112 112 |||
    place o.slotId 120

/-- The fields of a Force Event Command TRB at their positions (R199). -/
def decodeForceEvent (t : Trb) : ForceEventTrb where
  rsvdAt0 := field t 0 4
  eventTrbPointer := field t 4 60
  rsvdAt64 := field t 64 22
  vfInterrupterTarget := field t 86 10
  c := field t 96 1
  rsvdAt97 := field t 97 9
  vfId := field t 112 8
  rsvdAt120 := field t 120 8

/-- The 128 bits of a Force Event Command TRB (R199), Type 18. -/
def encodeForceEvent (o : ForceEventTrb) : Trb :=
  place o.rsvdAt0 0 ||| place o.eventTrbPointer 4 ||| place o.rsvdAt64 64 |||
    place o.vfInterrupterTarget 86 ||| place o.c 96 ||| place o.rsvdAt97 97 ||| place 18#6 106 |||
    place o.vfId 112 ||| place o.rsvdAt120 120

/-- The fields of a Negotiate Bandwidth Command TRB at their positions (R200). -/
def decodeNegotiateBandwidth (t : Trb) : NegotiateBandwidthTrb where
  rsvdAt0 := field t 0 96
  c := field t 96 1
  rsvdAt97 := field t 97 9
  rsvdAt112 := field t 112 8
  slotId := field t 120 8

/-- The 128 bits of a Negotiate Bandwidth Command TRB (R200), Type 19. -/
def encodeNegotiateBandwidth (o : NegotiateBandwidthTrb) : Trb :=
  place o.rsvdAt0 0 ||| place o.c 96 ||| place o.rsvdAt97 97 ||| place 19#6 106 ||| place o.rsvdAt112 112 |||
    place o.slotId 120

/-- The fields of a Set Latency Tolerance Value Command TRB at their positions (R201). -/
def decodeSetLatencyToleranceValue (t : Trb) : SetLatencyToleranceValueTrb where
  rsvdAt0 := field t 0 96
  c := field t 96 1
  rsvdAt97 := field t 97 9
  bestEffortLatencyToleranceValue := field t 112 12
  rsvdAt124 := field t 124 4

/-- The 128 bits of a Set Latency Tolerance Value Command TRB (R201), Type 20. -/
def encodeSetLatencyToleranceValue (o : SetLatencyToleranceValueTrb) : Trb :=
  place o.rsvdAt0 0 ||| place o.c 96 ||| place o.rsvdAt97 97 ||| place 20#6 106 |||
    place o.bestEffortLatencyToleranceValue 112 ||| place o.rsvdAt124 124

/-- The fields of a Get Port Bandwidth Command TRB at their positions (R202). -/
def decodeGetPortBandwidth (t : Trb) : GetPortBandwidthTrb where
  rsvdAt0 := field t 0 4
  portBandwidthContextPointer := field t 4 60
  rsvdAt64 := field t 64 32
  c := field t 96 1
  rsvdAt97 := field t 97 9
  devSpeed := field t 112 4
  rsvdAt116 := field t 116 4
  hubSlotId := field t 120 8

/-- The 128 bits of a Get Port Bandwidth Command TRB (R202), Type 21. -/
def encodeGetPortBandwidth (o : GetPortBandwidthTrb) : Trb :=
  place o.rsvdAt0 0 ||| place o.portBandwidthContextPointer 4 ||| place o.rsvdAt64 64 ||| place o.c 96 |||
    place o.rsvdAt97 97 ||| place 21#6 106 ||| place o.devSpeed 112 ||| place o.rsvdAt116 116 |||
    place o.hubSlotId 120

/-- The fields of a Force Header Command TRB at their positions (R203). -/
def decodeForceHeader (t : Trb) : ForceHeaderTrb where
  packetType := field t 0 5
  headerInfoLo := field t 5 27
  headerInfoMid := field t 32 32
  headerInfoHi := field t 64 32
  c := field t 96 1
  rsvdAt97 := field t 97 9
  rsvdAt112 := field t 112 8
  rootHubPortNumber := field t 120 8

/-- The 128 bits of a Force Header Command TRB (R203), Type 22. -/
def encodeForceHeader (o : ForceHeaderTrb) : Trb :=
  place o.packetType 0 ||| place o.headerInfoLo 5 ||| place o.headerInfoMid 32 |||
    place o.headerInfoHi 64 ||| place o.c 96 ||| place o.rsvdAt97 97 ||| place 22#6 106 |||
    place o.rsvdAt112 112 ||| place o.rootHubPortNumber 120

/-- The fields of a No Op Command TRB at their positions (R204). -/
def decodeNoOpCommand (t : Trb) : NoOpCommandTrb where
  rsvdAt0 := field t 0 96
  c := field t 96 1
  rsvdAt97 := field t 97 9
  rsvdAt112 := field t 112 16

/-- The 128 bits of a No Op Command TRB (R204), Type 23. -/
def encodeNoOpCommand (o : NoOpCommandTrb) : Trb :=
  place o.rsvdAt0 0 ||| place o.c 96 ||| place o.rsvdAt97 97 ||| place 23#6 106 ||| place o.rsvdAt112 112

/-- The fields of a Get Extended Property Command TRB at their positions (R205). -/
def decodeGetExtendedProperty (t : Trb) : GetExtendedPropertyTrb where
  rsvdAt0 := field t 0 4
  extendedPropertyContextPointer := field t 4 60
  extendedCapabilityIdentifier := field t 64 16
  rsvdAt80 := field t 80 16
  c := field t 96 1
  rsvdAt97 := field t 97 9
  commandSubType := field t 112 3
  endpointId := field t 115 5
  slotId := field t 120 8

/-- The 128 bits of a Get Extended Property Command TRB (R205), Type 24. -/
def encodeGetExtendedProperty (o : GetExtendedPropertyTrb) : Trb :=
  place o.rsvdAt0 0 ||| place o.extendedPropertyContextPointer 4 |||
    place o.extendedCapabilityIdentifier 64 ||| place o.rsvdAt80 80 ||| place o.c 96 |||
    place o.rsvdAt97 97 ||| place 24#6 106 ||| place o.commandSubType 112 ||| place o.endpointId 115 |||
    place o.slotId 120

/-- The fields of a Set Extended Property Command TRB at their positions (R206). -/
def decodeSetExtendedProperty (t : Trb) : SetExtendedPropertyTrb where
  rsvdAt0 := field t 0 64
  extendedCapabilityIdentifier := field t 64 16
  capabilityParameter := field t 80 8
  rsvdAt88 := field t 88 8
  c := field t 96 1
  rsvdAt97 := field t 97 9
  commandSubType := field t 112 3
  endpointId := field t 115 5
  slotId := field t 120 8

/-- The 128 bits of a Set Extended Property Command TRB (R206), Type 25. -/
def encodeSetExtendedProperty (o : SetExtendedPropertyTrb) : Trb :=
  place o.rsvdAt0 0 ||| place o.extendedCapabilityIdentifier 64 ||| place o.capabilityParameter 80 |||
    place o.rsvdAt88 88 ||| place o.c 96 ||| place o.rsvdAt97 97 ||| place 25#6 106 |||
    place o.commandSubType 112 ||| place o.endpointId 115 ||| place o.slotId 120

/-- The fields of a Transfer Event TRB at their positions (R220). -/
def decodeTransferEvent (t : Trb) : TransferEventTrb where
  trbPointer := field t 0 64
  trbTransferLength := field t 64 24
  completionCode := field t 88 8
  c := field t 96 1
  rsvdAt97 := field t 97 1
  ed := field t 98 1
  rsvdAt99 := field t 99 7
  endpointId := field t 112 5
  rsvdAt117 := field t 117 3
  slotId := field t 120 8

/-- The 128 bits of a Transfer Event TRB (R220), Type 32. -/
def encodeTransferEvent (o : TransferEventTrb) : Trb :=
  place o.trbPointer 0 ||| place o.trbTransferLength 64 ||| place o.completionCode 88 ||| place o.c 96 |||
    place o.rsvdAt97 97 ||| place o.ed 98 ||| place o.rsvdAt99 99 ||| place 32#6 106 |||
    place o.endpointId 112 ||| place o.rsvdAt117 117 ||| place o.slotId 120

/-- The fields of a Command Completion Event TRB at their positions (R221). -/
def decodeCommandCompletionEvent (t : Trb) : CommandCompletionEventTrb where
  rsvdAt0 := field t 0 4
  commandTrbPointer := field t 4 60
  commandCompletionParameter := field t 64 24
  completionCode := field t 88 8
  c := field t 96 1
  rsvdAt97 := field t 97 9
  vfId := field t 112 8
  slotId := field t 120 8

/-- The 128 bits of a Command Completion Event TRB (R221), Type 33. -/
def encodeCommandCompletionEvent (o : CommandCompletionEventTrb) : Trb :=
  place o.rsvdAt0 0 ||| place o.commandTrbPointer 4 ||| place o.commandCompletionParameter 64 |||
    place o.completionCode 88 ||| place o.c 96 ||| place o.rsvdAt97 97 ||| place 33#6 106 |||
    place o.vfId 112 ||| place o.slotId 120

/-- The fields of a Port Status Change Event TRB at their positions (R222). -/
def decodePortStatusChangeEvent (t : Trb) : PortStatusChangeEventTrb where
  rsvdAt0 := field t 0 24
  portId := field t 24 8
  rsvdAt32 := field t 32 56
  completionCode := field t 88 8
  c := field t 96 1
  rsvdAt97 := field t 97 9
  rsvdAt112 := field t 112 16

/-- The 128 bits of a Port Status Change Event TRB (R222), Type 34. -/
def encodePortStatusChangeEvent (o : PortStatusChangeEventTrb) : Trb :=
  place o.rsvdAt0 0 ||| place o.portId 24 ||| place o.rsvdAt32 32 ||| place o.completionCode 88 |||
    place o.c 96 ||| place o.rsvdAt97 97 ||| place 34#6 106 ||| place o.rsvdAt112 112

/-- The fields of a Bandwidth Request Event TRB at their positions (R223). -/
def decodeBandwidthRequestEvent (t : Trb) : BandwidthRequestEventTrb where
  rsvdAt0 := field t 0 88
  completionCode := field t 88 8
  c := field t 96 1
  rsvdAt97 := field t 97 9
  rsvdAt112 := field t 112 8
  slotId := field t 120 8

/-- The 128 bits of a Bandwidth Request Event TRB (R223), Type 35. -/
def encodeBandwidthRequestEvent (o : BandwidthRequestEventTrb) : Trb :=
  place o.rsvdAt0 0 ||| place o.completionCode 88 ||| place o.c 96 ||| place o.rsvdAt97 97 |||
    place 35#6 106 ||| place o.rsvdAt112 112 ||| place o.slotId 120

/-- The fields of a Doorbell Event TRB at their positions (R224). -/
def decodeDoorbellEvent (t : Trb) : DoorbellEventTrb where
  dbReason := field t 0 5
  rsvdAt5 := field t 5 83
  completionCode := field t 88 8
  c := field t 96 1
  rsvdAt97 := field t 97 9
  vfId := field t 112 8
  slotId := field t 120 8

/-- The 128 bits of a Doorbell Event TRB (R224), Type 36. -/
def encodeDoorbellEvent (o : DoorbellEventTrb) : Trb :=
  place o.dbReason 0 ||| place o.rsvdAt5 5 ||| place o.completionCode 88 ||| place o.c 96 |||
    place o.rsvdAt97 97 ||| place 36#6 106 ||| place o.vfId 112 ||| place o.slotId 120

/-- The fields of a Host Controller Event TRB at their positions (R225). -/
def decodeHostControllerEvent (t : Trb) : HostControllerEventTrb where
  rsvdAt0 := field t 0 88
  completionCode := field t 88 8
  c := field t 96 1
  rsvdAt97 := field t 97 9
  rsvdAt112 := field t 112 16

/-- The 128 bits of a Host Controller Event TRB (R225), Type 37. -/
def encodeHostControllerEvent (o : HostControllerEventTrb) : Trb :=
  place o.rsvdAt0 0 ||| place o.completionCode 88 ||| place o.c 96 ||| place o.rsvdAt97 97 |||
    place 37#6 106 ||| place o.rsvdAt112 112

/-- The fields of a Device Notification Event TRB at their positions (R226). -/
def decodeDeviceNotificationEvent (t : Trb) : DeviceNotificationEventTrb where
  rsvdAt0 := field t 0 4
  notificationType := field t 4 4
  deviceNotificationData := field t 8 56
  rsvdAt64 := field t 64 24
  completionCode := field t 88 8
  c := field t 96 1
  rsvdAt97 := field t 97 9
  rsvdAt112 := field t 112 8
  slotId := field t 120 8

/-- The 128 bits of a Device Notification Event TRB (R226), Type 38. -/
def encodeDeviceNotificationEvent (o : DeviceNotificationEventTrb) : Trb :=
  place o.rsvdAt0 0 ||| place o.notificationType 4 ||| place o.deviceNotificationData 8 |||
    place o.rsvdAt64 64 ||| place o.completionCode 88 ||| place o.c 96 ||| place o.rsvdAt97 97 |||
    place 38#6 106 ||| place o.rsvdAt112 112 ||| place o.slotId 120

/-- The fields of a MFINDEX Wrap Event TRB at their positions (R227). -/
def decodeMfindexWrapEvent (t : Trb) : MfindexWrapEventTrb where
  rsvdAt0 := field t 0 88
  completionCode := field t 88 8
  c := field t 96 1
  rsvdAt97 := field t 97 9
  rsvdAt112 := field t 112 16

/-- The 128 bits of a MFINDEX Wrap Event TRB (R227), Type 39. -/
def encodeMfindexWrapEvent (o : MfindexWrapEventTrb) : Trb :=
  place o.rsvdAt0 0 ||| place o.completionCode 88 ||| place o.c 96 ||| place o.rsvdAt97 97 |||
    place 39#6 106 ||| place o.rsvdAt112 112

/-- The raw bits of an Unrecognized TRB whose table row leaves the lowest `n` bits of the Type free (R156). -/
def decodeUnrecognized (n : Nat) (t : Trb) : UnrecognizedTrb n where
  dw0 := dw0 t
  dw1 := dw1 t
  dw2 := dw2 t
  c := field t 96 1
  at97 := field t 97 9
  low := field t 106 n
  at112 := field t 112 16

/-- The 128 bits of an Unrecognized TRB; `upper` is the part of the Type that its table row fixes (R156). -/
def encodeUnrecognized {n m : Nat} (upper : BitVec m) (o : UnrecognizedTrb n) : Trb :=
  place o.dw0 0 ||| place o.dw1 32 ||| place o.dw2 64 ||| place o.c 96 ||| place o.at97 97 |||
    place o.low 106 ||| place upper (106 + n) ||| place o.at112 112

/-! ## TRBs -/

/-- The TRB of an unlisted Type (R83), by the rows of the opcode table. -/
def decodeUnlisted (t : Trb) : Instr :=
  if typeField t = 0#6 then .unrecognized0 (decodeUnrecognized 0 t)
  else if field t 107 5 = 13#5 then .unrecognized26 (decodeUnrecognized 1 t)
  else if field t 108 4 = 7#4 then .unrecognized28 (decodeUnrecognized 2 t)
  else if field t 109 3 = 5#3 then .unrecognized40 (decodeUnrecognized 3 t)
  else .unrecognized48 (decodeUnrecognized 4 t)

/-- The instruction that the 128 bits are (R81, R155): total, by the Type alone. -/
def decodeTrb (t : Trb) : Instr :=
  match kindOf t with
  | .defined .normal => .normal (decodeNormal t)
  | .defined .setupStage => .setupStage (decodeSetupStage t)
  | .defined .dataStage => .dataStage (decodeDataStage t)
  | .defined .statusStage => .statusStage (decodeStatusStage t)
  | .defined .isoch => .isoch (decodeIsoch t)
  | .defined .link => .link (decodeLink t)
  | .defined .eventData => .eventData (decodeEventData t)
  | .defined .noOp => .noOp (decodeNoOp t)
  | .defined .enableSlot => .enableSlot (decodeEnableSlot t)
  | .defined .disableSlot => .disableSlot (decodeDisableSlot t)
  | .defined .addressDevice => .addressDevice (decodeAddressDevice t)
  | .defined .configureEndpoint => .configureEndpoint (decodeConfigureEndpoint t)
  | .defined .evaluateContext => .evaluateContext (decodeEvaluateContext t)
  | .defined .resetEndpoint => .resetEndpoint (decodeResetEndpoint t)
  | .defined .stopEndpoint => .stopEndpoint (decodeStopEndpoint t)
  | .defined .setTrDequeuePointer => .setTrDequeuePointer (decodeSetTrDequeuePointer t)
  | .defined .resetDevice => .resetDevice (decodeResetDevice t)
  | .defined .forceEvent => .forceEvent (decodeForceEvent t)
  | .defined .negotiateBandwidth => .negotiateBandwidth (decodeNegotiateBandwidth t)
  | .defined .setLatencyToleranceValue => .setLatencyToleranceValue (decodeSetLatencyToleranceValue t)
  | .defined .getPortBandwidth => .getPortBandwidth (decodeGetPortBandwidth t)
  | .defined .forceHeader => .forceHeader (decodeForceHeader t)
  | .defined .noOpCommand => .noOpCommand (decodeNoOpCommand t)
  | .defined .getExtendedProperty => .getExtendedProperty (decodeGetExtendedProperty t)
  | .defined .setExtendedProperty => .setExtendedProperty (decodeSetExtendedProperty t)
  | .defined .transferEvent => .transferEvent (decodeTransferEvent t)
  | .defined .commandCompletionEvent => .commandCompletionEvent (decodeCommandCompletionEvent t)
  | .defined .portStatusChangeEvent => .portStatusChangeEvent (decodePortStatusChangeEvent t)
  | .defined .bandwidthRequestEvent => .bandwidthRequestEvent (decodeBandwidthRequestEvent t)
  | .defined .doorbellEvent => .doorbellEvent (decodeDoorbellEvent t)
  | .defined .hostControllerEvent => .hostControllerEvent (decodeHostControllerEvent t)
  | .defined .deviceNotificationEvent => .deviceNotificationEvent (decodeDeviceNotificationEvent t)
  | .defined .mfindexWrapEvent => .mfindexWrapEvent (decodeMfindexWrapEvent t)
  | .unrecognized => decodeUnlisted t

/-- The 128 bits of a TRB; a request has no bit encoding (R100). -/
def encode : Instr → Option Trb
  | .normal o => some (encodeNormal o)
  | .setupStage o => some (encodeSetupStage o)
  | .dataStage o => some (encodeDataStage o)
  | .statusStage o => some (encodeStatusStage o)
  | .isoch o => some (encodeIsoch o)
  | .link o => some (encodeLink o)
  | .eventData o => some (encodeEventData o)
  | .noOp o => some (encodeNoOp o)
  | .enableSlot o => some (encodeEnableSlot o)
  | .disableSlot o => some (encodeDisableSlot o)
  | .addressDevice o => some (encodeAddressDevice o)
  | .configureEndpoint o => some (encodeConfigureEndpoint o)
  | .evaluateContext o => some (encodeEvaluateContext o)
  | .resetEndpoint o => some (encodeResetEndpoint o)
  | .stopEndpoint o => some (encodeStopEndpoint o)
  | .setTrDequeuePointer o => some (encodeSetTrDequeuePointer o)
  | .resetDevice o => some (encodeResetDevice o)
  | .forceEvent o => some (encodeForceEvent o)
  | .negotiateBandwidth o => some (encodeNegotiateBandwidth o)
  | .setLatencyToleranceValue o => some (encodeSetLatencyToleranceValue o)
  | .getPortBandwidth o => some (encodeGetPortBandwidth o)
  | .forceHeader o => some (encodeForceHeader o)
  | .noOpCommand o => some (encodeNoOpCommand o)
  | .getExtendedProperty o => some (encodeGetExtendedProperty o)
  | .setExtendedProperty o => some (encodeSetExtendedProperty o)
  | .transferEvent o => some (encodeTransferEvent o)
  | .commandCompletionEvent o => some (encodeCommandCompletionEvent o)
  | .portStatusChangeEvent o => some (encodePortStatusChangeEvent o)
  | .bandwidthRequestEvent o => some (encodeBandwidthRequestEvent o)
  | .doorbellEvent o => some (encodeDoorbellEvent o)
  | .hostControllerEvent o => some (encodeHostControllerEvent o)
  | .deviceNotificationEvent o => some (encodeDeviceNotificationEvent o)
  | .mfindexWrapEvent o => some (encodeMfindexWrapEvent o)
  | .unrecognized0 o => some (encodeUnrecognized 0#6 o)
  | .unrecognized26 o => some (encodeUnrecognized 13#5 o)
  | .unrecognized28 o => some (encodeUnrecognized 7#4 o)
  | .unrecognized40 o => some (encodeUnrecognized 5#3 o)
  | .unrecognized48 o => some (encodeUnrecognized 3#2 o)
  | .read _ _ => none
  | .get _ _ _ => none
  | .update _ _ _ => none
  | .write _ _ _ => none
  | .trbNew _ => none
  | .trbGet _ _ => none
  | .trbSet _ _ _ => none
  | .trbEncode _ => none
  | .trbDecode _ _ _ _ => none
  | .initProducer _ _ => none
  | .enqueue _ _ => none
  | .enqueuePointer _ => none
  | .crcrValue _ => none
  | .initEvent _ _ => none
  | .dequeue _ => none
  | .dequeuePointer _ => none
  | .erdpValue _ _ => none
  | .erstszValue _ => none
  | .erstbaValue _ => none
  | .ringDoorbell _ _ _ _ => none

/-! ## Bytes -/

/-- Byte `k` of a TRB in memory is `T[8k+7:8k]` (R53). -/
def trbByte (t : Trb) (k : Nat) : Byte := t.extractLsb' (8 * k) 8

/-- The 16 bytes of a TRB, lowest address first (R53, R99). -/
def trbBytes (t : Trb) : List Byte := (List.range 16).map (trbByte t)

/-- The TRB that 16 bytes hold (R53). -/
def trbOfBytes (bs : List Byte) : Trb := bs.foldr (fun b t => t <<< 8 ||| b.setWidth 128) 0#128

/-- Why a byte string holds no TRB. -/
inductive DecodeError where
  /-- Fewer than the 16 bytes of a TRB (R99). Safe: nothing runs. -/
  | truncated
deriving DecidableEq, Repr

/-- The instruction at the front of a byte string, with the bytes after it. Total: 16 bytes always are a TRB (R98, R99). -/
def decodeBytes (bs : List Byte) : Except DecodeError (Instr × List Byte) :=
  if bs.length < 16 then .error .truncated
  else .ok (decodeTrb (trbOfBytes (bs.take 16)), bs.drop 16)

/-- The bytes of an instruction, if it has an encoding. -/
def encodeBytes (i : Instr) : Option (List Byte) := (encode i).map trbBytes

/-! ## The opcode table's words

The table gives a TRB's row bits of DW3 only ("word": "DW3"), so the table's word is DW3 and DW0 to DW2 are operand
words of zeros; a word of more than 32 bits is `T` itself (entry 3). -/

/-- The 16 bytes of the instruction whose table bits are `w`. -/
def tableBytes (nbits w : Nat) : List Byte :=
  let bits := w % 2 ^ nbits
  trbBytes (if nbits ≤ 32 then trbOfWords 0#32 0#32 0#32 (BitVec.ofNat 32 bits) else BitVec.ofNat 128 bits)

/-- The instruction that the decoder reads from the table's bits. -/
def decodeTableWord (nbits w : Nat) : Option Instr :=
  match decodeBytes (tableBytes nbits w) with
  | .ok (i, _) => some i
  | .error _ => none

end Sys2Proof
end

