-- ==== Sys2Proof/Machine/Bits.lean ====
section
/-! DEFINITION. Bit fields at positions that are data (R8): the fields of a register layout and of a TRB table. -/

namespace Sys2Proof.Machine

/-- `w` ones from bit `lo` up. -/
def maskAt (n lo w : Nat) : BitVec n := BitVec.ofNat n (2 ^ w - 1) <<< lo

/-- The unsigned field of width `w` from bit `lo` up, `x[lo+w-1:lo]` (R8). -/
def getBits {n : Nat} (x : BitVec n) (lo w : Nat) : BitVec n := (x >>> lo) &&& BitVec.ofNat n (2 ^ w - 1)

/-- `x` with the field of width `w` from bit `lo` up replaced by `v`. -/
def putBits {n : Nat} (x : BitVec n) (lo w : Nat) (v : BitVec n) : BitVec n :=
  (x &&& ~~~(maskAt n lo w)) ||| ((v <<< lo) &&& maskAt n lo w)

end Sys2Proof.Machine
end

