-- ==== Sys2Proof/Machine/RegisterMap.lean ====
section
/-! DEFINITION. The register groups (R300 to R316): the layouts with their classes, the reset values, the register map. -/

namespace Sys2Proof.Machine

/-! ## Layouts -/

/-- CAPLENGTH (R302). -/
def caplengthLayout : Layout where
  width := .w8
  fields := [
    ⟨.caplength, 0, 8, .ro⟩]

/-- HCIVERSION (R302). -/
def hciversionLayout : Layout where
  width := .w16
  fields := [
    ⟨.hciversion, 0, 16, .ro⟩]

/-- HCSPARAMS1 (R303). -/
def hcsparams1Layout : Layout where
  width := .w32
  fields := [
    ⟨.maxSlots, 0, 8, .ro⟩,
    ⟨.maxIntrs, 8, 11, .ro⟩,
    ⟨.reserved, 19, 5, .rsvdP⟩,
    ⟨.maxPorts, 24, 8, .ro⟩]

/-- HCSPARAMS2 (R303). -/
def hcsparams2Layout : Layout where
  width := .w32
  fields := [
    ⟨.ist, 0, 4, .ro⟩,
    ⟨.erstMax, 4, 4, .ro⟩,
    ⟨.reserved, 8, 13, .rsvdP⟩,
    ⟨.maxScratchpadBufsHi, 21, 5, .ro⟩,
    ⟨.spr, 26, 1, .ro⟩,
    ⟨.maxScratchpadBufsLo, 27, 5, .ro⟩]

/-- DBOFF (R304). -/
def dboffLayout : Layout where
  width := .w32
  fields := [
    ⟨.reserved, 0, 2, .rsvdP⟩,
    ⟨.doorbellArrayOffset, 2, 30, .ro⟩]

/-- RTSOFF (R304). -/
def rtsoffLayout : Layout where
  width := .w32
  fields := [
    ⟨.reserved, 0, 5, .rsvdP⟩,
    ⟨.runtimeRegisterSpaceOffset, 5, 27, .ro⟩]

/-- A 32-bit register that R300 names for its offset only. PLACEHOLDER, entry 32: one field without a name of the spec
covers it; what a write does to such a register is `RegName.writable`'s to say. -/
def offsetOnlyLayout : Layout where
  width := .w32
  fields := [
    ⟨.other 0, 0, 32, .ro⟩]

/-- USBCMD (R305). DESIGN CHOICE, entry 31: `lhcrst` is RW, that is, Light Host Controller Reset is supported. -/
def usbcmdLayout : Layout where
  width := .w32
  fields := [
    ⟨.runStop, 0, 1, .rw⟩,
    ⟨.hcrst, 1, 1, .rw⟩,
    ⟨.inte, 2, 1, .rw⟩,
    ⟨.hsee, 3, 1, .rw⟩,
    ⟨.reserved, 4, 3, .rsvdP⟩,
    ⟨.lhcrst, 7, 1, .rw⟩,
    ⟨.css, 8, 1, .rw⟩,
    ⟨.crs, 9, 1, .rw⟩,
    ⟨.ewe, 10, 1, .rw⟩,
    ⟨.eu3s, 11, 1, .rw⟩,
    ⟨.reserved, 12, 1, .rsvdP⟩,
    ⟨.cme, 13, 1, .rw⟩,
    ⟨.ete, 14, 1, .rw⟩,
    ⟨.tscEn, 15, 1, .rw⟩,
    ⟨.vtioe, 16, 1, .rw⟩,
    ⟨.reserved, 17, 15, .rsvdP⟩]

/-- USBSTS (R306). -/
def usbstsLayout : Layout where
  width := .w32
  fields := [
    ⟨.hch, 0, 1, .ro⟩,
    ⟨.reserved, 1, 1, .rsvdZ⟩,
    ⟨.hse, 2, 1, .rw1c⟩,
    ⟨.eint, 3, 1, .rw1c⟩,
    ⟨.pcd, 4, 1, .rw1c⟩,
    ⟨.reserved, 5, 3, .rsvdZ⟩,
    ⟨.sss, 8, 1, .ro⟩,
    ⟨.rss, 9, 1, .ro⟩,
    ⟨.sre, 10, 1, .rw1c⟩,
    ⟨.cnr, 11, 1, .ro⟩,
    ⟨.hce, 12, 1, .ro⟩,
    ⟨.reserved, 13, 19, .rsvdP⟩]

/-- CRCR (R307). -/
def crcrLayout : Layout where
  width := .w64
  fields := [
    ⟨.rcs, 0, 1, .rw⟩,
    ⟨.cs, 1, 1, .rw1s⟩,
    ⟨.ca, 2, 1, .rw1s⟩,
    ⟨.crr, 3, 1, .ro⟩,
    ⟨.reserved, 4, 2, .rsvdP⟩,
    ⟨.commandRingPointer, 6, 58, .rw⟩]

/-- DCBAAP (R308). -/
def dcbaapLayout : Layout where
  width := .w64
  fields := [
    ⟨.reserved, 0, 6, .rsvdZ⟩,
    ⟨.dcbaaPointer, 6, 58, .rw⟩]

/-- CONFIG (R308). -/
def configLayout : Layout where
  width := .w32
  fields := [
    ⟨.maxSlotsEn, 0, 8, .rw⟩,
    ⟨.u3e, 8, 1, .rw⟩,
    ⟨.cie, 9, 1, .rw⟩,
    ⟨.reserved, 10, 22, .rsvdP⟩]

/-- MFINDEX (R309). -/
def mfindexLayout : Layout where
  width := .w32
  fields := [
    ⟨.mfindex, 0, 14, .ro⟩,
    ⟨.reserved, 14, 18, .rsvdP⟩]

/-- IMAN (R309). -/
def imanLayout : Layout where
  width := .w32
  fields := [
    ⟨.ip, 0, 1, .rw1c⟩,
    ⟨.ie, 1, 1, .rw⟩,
    ⟨.reserved, 2, 30, .rsvdP⟩]

/-- IMOD (R309). -/
def imodLayout : Layout where
  width := .w32
  fields := [
    ⟨.imodi, 0, 16, .rw⟩,
    ⟨.imodc, 16, 16, .rw⟩]

/-- ERSTSZ (R311). -/
def erstszLayout : Layout where
  width := .w32
  fields := [
    ⟨.erstSize, 0, 16, .rw⟩,
    ⟨.reserved, 16, 16, .rsvdP⟩]

/-- ERSTBA (R311). -/
def erstbaLayout : Layout where
  width := .w64
  fields := [
    ⟨.reserved, 0, 6, .rsvdP⟩,
    ⟨.erstbaPointer, 6, 58, .rw⟩]

/-- ERDP (R312). -/
def erdpLayout : Layout where
  width := .w64
  fields := [
    ⟨.desi, 0, 3, .rw⟩,
    ⟨.ehb, 3, 1, .rw1c⟩,
    ⟨.erdpPointer, 4, 60, .rw⟩]

/-- The Doorbell register `DB`, write-only (R310). -/
def doorbellLayout : Layout where
  width := .w32
  fields := [
    ⟨.dbTarget, 0, 8, .rw⟩,
    ⟨.reserved, 8, 8, .rsvdZ⟩,
    ⟨.dbStreamId, 16, 16, .rw⟩]

/-! ## The registers -/

/-- The registers of the table of R300: interrupter `i`'s and slot `s`'s carry their number. -/
inductive RegName where
  | caplength | hciversion | hcsparams1 | hcsparams2 | hcsparams3 | hccparams1 | dboff | rtsoff | hccparams2
  | usbcmd | usbsts | pagesize | dnctrl | crcr | dcbaap | config
  | mfindex
  | iman (i : Nat) | imod (i : Nat) | erstsz (i : Nat) | erstba (i : Nat) | erdp (i : Nat)
  | doorbell (s : Nat)
deriving DecidableEq, Repr

/-- The register's own layout, by which it reacts to a write (R27). -/
def RegName.layout : RegName → Layout
  | .caplength => caplengthLayout
  | .hciversion => hciversionLayout
  | .hcsparams1 => hcsparams1Layout
  | .hcsparams2 => hcsparams2Layout
  | .hcsparams3 | .hccparams1 | .hccparams2 | .pagesize | .dnctrl => offsetOnlyLayout
  | .dboff => dboffLayout
  | .rtsoff => rtsoffLayout
  | .usbcmd => usbcmdLayout
  | .usbsts => usbstsLayout
  | .crcr => crcrLayout
  | .dcbaap => dcbaapLayout
  | .config => configLayout
  | .mfindex => mfindexLayout
  | .iman _ => imanLayout
  | .imod _ => imodLayout
  | .erstsz _ => erstszLayout
  | .erstba _ => erstbaLayout
  | .erdp _ => erdpLayout
  | .doorbell _ => doorbellLayout

/-- The `reset` columns (R302 to R312, R362); the Capability registers are implementation constants (entry 9). -/
def RegName.resetValue : RegName → RegValue
  | .caplength => Config.caplength
  | .hciversion => Config.hciversion
  | .hcsparams1 => Config.hcsparams1
  | .hcsparams2 => Config.hcsparams2
  | .hcsparams3 => Config.hcsparams3
  | .hccparams1 => Config.hccparams1
  | .hccparams2 => Config.hccparams2
  | .pagesize => Config.resetPagesize
  | .dnctrl => Config.resetDnctrl
  | .dboff => Config.dboff
  | .rtsoff => Config.rtsoff
  | .usbcmd => 0#64
  | .usbsts => 0x801#64
  | .crcr => 0#64
  | .dcbaap => 0#64
  | .config => 0#64
  | .mfindex => 0#64
  | .iman _ => 0#64
  | .imod _ => 0x0fa0#64
  | .erstsz _ => 0#64
  | .erstba _ => 0#64
  | .erdp _ => 0#64
  | .doorbell _ => 0#64

/-- The bits of a register that a read shows; the others read as 0: CRCR's `rcs` and pointer (R307), USBCMD's `css`
and `crs` (R305), a doorbell (R310). Entry 13. -/
def RegName.readMask : RegName → RegValue
  | .usbcmd => ~~~(maskAt 64 8 2)
  | .crcr => maskAt 64 1 5
  | .doorbell _ => 0#64
  | .caplength | .hciversion | .hcsparams1 | .hcsparams2 | .hcsparams3 | .hccparams1 => BitVec.allOnes 64
  | .dboff | .rtsoff | .hccparams2 | .pagesize | .dnctrl => BitVec.allOnes 64
  | .usbsts | .dcbaap | .config | .mfindex => BitVec.allOnes 64
  | .iman _ | .imod _ | .erstsz _ | .erstba _ | .erdp _ => BitVec.allOnes 64

/-- One register of the controller's: where it stands, what it holds, what a controller reset gives it, and, for a 64-bit
register, the low dword that was written last and is not complete yet (R375). -/
structure Reg where
  name : RegName
  addr : Addr
  value : RegValue
  reset : RegValue
  low : Option Word
deriving DecidableEq, Repr

/-! ## The register map (R300) -/

/-- `op = cap + CAPLENGTH.caplength` (R300). -/
def opBase : Addr := Config.cap + Config.caplength

/-- `rt = cap + (RTSOFF.runtime_register_space_offset << 5)` (R300). -/
def rtBase : Addr := Config.cap + (getBits Config.rtsoff 5 27 <<< 5)

/-- `db = cap + (DBOFF.doorbell_array_offset << 2)` (R300). -/
def dbBase : Addr := Config.cap + (getBits Config.dboff 2 30 <<< 2)

/-- HCSPARAMS1.max_intrs (R303). -/
def maxIntrs : Nat := (getBits Config.hcsparams1 8 11).toNat

/-- HCSPARAMS1.max_slots (R303). -/
def maxSlots : Nat := (getBits Config.hcsparams1 0 8).toNat

/-- Where interrupter `i`'s registers begin, `rt + 0x20 + 32*i` (R300). -/
def intrBase (i : Nat) : Addr := rtBase + BitVec.ofNat 64 (0x20 + 32 * i)

/-- The access address of each register (R300). -/
def RegName.address : RegName → Addr
  | .caplength => Config.cap
  | .hciversion => Config.cap + 0x02#64
  | .hcsparams1 => Config.cap + 0x04#64
  | .hcsparams2 => Config.cap + 0x08#64
  | .hcsparams3 => Config.cap + 0x0c#64
  | .hccparams1 => Config.cap + 0x10#64
  | .dboff => Config.cap + 0x14#64
  | .rtsoff => Config.cap + 0x18#64
  | .hccparams2 => Config.cap + 0x1c#64
  | .usbcmd => opBase
  | .usbsts => opBase + 0x04#64
  | .pagesize => opBase + 0x08#64
  | .dnctrl => opBase + 0x14#64
  | .crcr => opBase + 0x18#64
  | .dcbaap => opBase + 0x30#64
  | .config => opBase + 0x38#64
  | .mfindex => rtBase
  | .iman i => intrBase i
  | .imod i => intrBase i + 0x04#64
  | .erstsz i => intrBase i + 0x08#64
  | .erstba i => intrBase i + 0x10#64
  | .erdp i => intrBase i + 0x18#64
  | .doorbell s => dbBase + BitVec.ofNat 64 (4 * s)

/-- The registers of interrupter `i` (R300). -/
def intrNames (i : Nat) : List RegName := [.iman i, .imod i, .erstsz i, .erstba i, .erdp i]

/-- The registers of the map: the interrupters are `0 <= i < max_intrs`, the doorbells `0 <= s <= max_slots` (R300). -/
def regNames : List RegName :=
  [.caplength, .hciversion, .hcsparams1, .hcsparams2, .hcsparams3, .hccparams1, .dboff, .rtsoff, .hccparams2,
    .usbcmd, .usbsts, .pagesize, .dnctrl, .crcr, .dcbaap, .config, .mfindex] ++
    (List.range maxIntrs).flatMap intrNames ++ (List.range (maxSlots + 1)).map .doorbell

/-- A register as a controller reset leaves it (R362). -/
def RegName.atReset (n : RegName) : Reg where
  name := n
  addr := n.address
  value := n.resetValue
  reset := n.resetValue
  low := none

/-- The controller's registers after a controller reset (R362). -/
def resetRegs : List Reg := regNames.map RegName.atReset

/-- The same for an implementation with another HCSPARAMS2 constant, which fixes `ERST_MAX_ENTRIES` (R6, R303). -/
def resetRegsWith (hcsparams2 : RegValue) : List Reg :=
  resetRegs.map fun r => if r.name = .hcsparams2 then { r with value := hcsparams2, reset := hcsparams2 } else r

/-! ## Values of fields -/

/-- The field of a word with a layout, found by name: `s[f]` of R120. -/
def fieldOf (L : Layout) (v : RegValue) (f : RegField) : RegValue :=
  match L.fields.find? (·.name = f) with
  | some p => getBits v p.lo p.width
  | none => 0#64

/-- The field of a register, found by name. -/
def regField (regs : List Reg) (n : RegName) (f : RegField) : RegValue :=
  match regs.find? (·.name = n) with
  | some r => fieldOf n.layout r.value f
  | none => 0#64

/-- Max Scratchpad Buffers, of an HCSPARAMS2 value (R303). -/
def maxScratchpadBuffers (hcsparams2 : RegValue) : Nat :=
  ((fieldOf hcsparams2Layout hcsparams2 .maxScratchpadBufsHi <<< 5) |||
    fieldOf hcsparams2Layout hcsparams2 .maxScratchpadBufsLo).toNat

/-- `ERST_MAX_ENTRIES`, `2^erst_max` of the implementation constant HCSPARAMS2 (R6, R303; entry 8). -/
def erstMaxEntries (regs : List Reg) : Nat :=
  match regs.find? (·.name = .hcsparams2) with
  | some r => 2 ^ (fieldOf hcsparams2Layout r.reset .erstMax).toNat
  | none => 1

end Sys2Proof.Machine
end

