-- ==== Sys2Proof/Machine/State.lean ====
section
/-! DEFINITION. The machine's state as plain data, what a request answers, and how a step can stop (R25, R30 to R40). -/

namespace Sys2Proof.Machine

/-! ## Faults of the block (R331): states of the machine, not stops of the model -/

/-- The fault codes (R331). -/
inductive FaultCode where
  | tooWide | notWritable | misaligned | zeroSegments | zeroAddress | segSize | segBoundary | erstSize
  | notAllowed | wrongRing | dead
deriving DecidableEq, Repr

/-! ## Rings (R31, R36) -/

/-- The phase of a ring (R34, R37): no rule's result depends on it. -/
inductive Phase where
  | empty | running
deriving DecidableEq, Repr

/-- A producer ring (R31). -/
structure ProducerRing where
  kind : RingKind
  segs : List Segment
  seg : Nat
  idx : Nat
  pcs : Bool
  phase : Phase
  lastCh : Bool
deriving DecidableEq, Repr

/-- A consumer ring (R36). -/
structure ConsumerRing where
  segs : List Segment
  erstBase : Addr
  seg : Nat
  idx : Nat
  ccs : Bool
  phase : Phase
deriving DecidableEq, Repr

/-- A ring instance (R25). -/
inductive Ring where
  | producer (p : ProducerRing)
  | consumer (c : ConsumerRing)
deriving DecidableEq, Repr

/-! ## System memory (R28, R50) -/

/-- System memory as (address, byte) pairs, addresses rising; an unlisted byte reads as `unlistedByte` of Ops.lean. -/
abbrev Memory := List Host.Cell

/-! ## Results (R344) -/

/-- The value of a TRB field as `TRB_GET` returns it (R152). -/
inductive FieldValue where
  | num (x : Nat)
  | code (c : CompletionCode)
  | words (w0 w1 w2 w3 : Word)
deriving DecidableEq, Repr

/-- What a request answers (R344). -/
inductive Result where
  /-- The request faulted (R330). -/
  | fault (code : FaultCode)
  /-- A snapshot `(L, s)` (R120, R124). -/
  | snapshot (L : Layout) (s : RegValue)
  /-- A register field's value (R125). -/
  | fieldValue (x : Nat)
  /-- The word sent to a register (R126, R127, R315). -/
  | written (w : RegValue)
  /-- A TRB value `(kind, T)` (R150). -/
  | trb (kind : TrbKind) (t : Trb)
  /-- A TRB field's value (R152). -/
  | trbField (v : FieldValue)
  /-- The four words of a TRB (R154). -/
  | words (w0 w1 w2 w3 : Word)
  /-- A TRB that the decoder classified, with the value of every field its variant has (R152, R155; entry 2). -/
  | decoded (kind : TrbKind) (t : Trb) (fields : List (TrbField × FieldValue))
  /-- A ring identifier (R241, R271). -/
  | ring (id : Nat)
  /-- The physical address of the slot written (R245). -/
  | address (pa : Addr)
  /-- The enqueue pointer and the Cycle State (R250). -/
  | pointer (pa : Addr) (cycle : Bool)
  /-- A mutation list (R251, R282 to R284). -/
  | mutations (M : List Action)
  /-- Nothing produced (R276). -/
  | nothing
  /-- The TRB value dequeued (R276). -/
  | event (kind : TrbKind) (t : Trb)
  /-- The dequeue pointer, the segment index and the Cycle State (R281). -/
  | dequeuePointer (pa : Addr) (seg : Nat) (cycle : Bool)
deriving DecidableEq, Repr

/-- What stands on the request port: a request, or the 16 bytes of a slot for the decoder (R20, R155; entries 1 and 2). -/
inductive PortItem where
  | request (i : Instr)
  | slot (bytes : List Byte)
deriving DecidableEq, Repr

/-! ## The controller agent (R22, R24, R255, R285, R319) -/

/-- The controller's reactions to register writes beyond the field classes (R319). -/
inductive Reaction where
  /-- `run_stop` is 1: the controller starts and clears `hch`. -/
  | run
  /-- `run_stop` is 0: the controller stops and sets `hch`; while `hch` is 1 it consumes and posts nothing. -/
  | halt
  /-- `hcrst` is 1: every register takes its reset value, and the controller forgets its ring pointers (R363). -/
  | reset
  /-- `cs` or `ca` is 1: the Command Ring stops and `crr` is cleared. -/
  | commandStop
  /-- Doorbell 0 was rung with target 0: the Command Ring starts where CRCR says (R307) and `crr` is set. -/
  | commandStart
  /-- ERSTBA of interrupter `i` was written: the controller reads the ERST and (re)starts the Event Ring at entry 0, slot
  0, Cycle State 1 (R311). -/
  | eventStart (i : Nat)
deriving DecidableEq, Repr

/-- One act of the controller (R24): an act that R24 does not admit does nothing (entry 5). -/
inductive CtrlAct where
  /-- Read a byte of system memory (R24 (a)). -/
  | readByte (pa : Addr)
  /-- Write a 32-bit word of a consumer ring's slot (R24 (b)). -/
  | writeWord (pa : Addr) (v : Word)
  /-- Give the RO, RW1C and RW1S bits of the register at `ra` the bits of `v` (R24 (c)). -/
  | status (ra : Addr) (v : RegValue)
  /-- React to a register write (R319). -/
  | react (r : Reaction)
  /-- Begin to read a Transfer Ring at the TR Dequeue Pointer and with the DCS of an Endpoint Context (R250, R255), whose
  content is the driver's (R318; entry 22). -/
  | attach (pa : Addr) (cycle : Bool)
  /-- Consume the Command Ring's slot at the controller's cursor, if its Cycle bit says so (R255). -/
  | consumeCommand
  /-- Consume the slot at endpoint reader `k`'s cursor, if its Cycle bit says so (R255). -/
  | consume (k : Nat)
  /-- Write an event to interrupter `i`'s Event Ring, as a well-behaved controller does (R285, R376). -/
  | post (i : Nat) (ev : Trb)
deriving DecidableEq, Repr

/-- The controller's own cursor on a producer ring (R255), with the TRBs it consumed, newest first. -/
structure HcReader where
  cursor : Addr
  cycle : Bool
  consumed : List Trb
deriving DecidableEq, Repr

/-- The controller's own position on interrupter `intr`'s Event Ring (R285), with the ERST as it read it (R311). -/
structure HcWriter where
  intr : Nat
  segs : List Segment
  seg : Nat
  idx : Nat
  cycle : Bool
deriving DecidableEq, Repr

/-- The controller's own cursors (R41 (c)): on the Command Ring, once it has been started, on the Transfer Rings of the
endpoints, and on the Event Rings, at most one for each interrupter. -/
structure HcCursors where
  command : Option HcReader
  endpoints : List HcReader
  events : List HcWriter
deriving DecidableEq, Repr

/-- The cursors of a controller that has been given no ring. -/
def HcCursors.nowhere : HcCursors where
  command := none
  endpoints := []
  events := []

/-! ## Accesses (R20 (b), (c), R60) -/

/-- The two agents (R22). -/
inductive Agent where
  | block | controller
deriving DecidableEq, Repr

/-- One event of the total order of R60: an access with its value, an ordering point, or a reaction. A block access
carries the access address `view` that `MapPhys` gives (R12). -/
inductive Access where
  | memRead (pa view : Addr) (v : Word)
  | memWrite (pa view : Addr) (v : Word)
  | regRead (ra : Addr) (bytes : Nat) (v : RegValue)
  | regWrite (ra : Addr) (bytes : Nat) (v : RegValue)
  | orderW
  | orderR
  | ctrlRead (pa : Addr) (v : Byte)
  | ctrlWrite (pa : Addr) (v : Word)
  | ctrlStatus (ra : Addr) (v : RegValue)
  | ctrlReact (r : Reaction)
  /-- The controller reports a completion code for interrupter `i`'s Event Ring (R376). -/
  | ctrlReport (i : Nat) (code : CompletionCode)
deriving DecidableEq, Repr

/-- The agent that made an access. -/
def Access.agent : Access → Agent
  | .memRead _ _ _ | .memWrite _ _ _ | .regRead _ _ _ | .regWrite _ _ _ | .orderW | .orderR => .block
  | .ctrlRead _ _ | .ctrlWrite _ _ | .ctrlStatus _ _ | .ctrlReact _ | .ctrlReport _ _ => .controller

/-! ## The state -/

/-- All the state the spec gives the machine (R40), the OPEN parameters a run fixes (R6), and the model's own fields. -/
structure State where
  /-- The fault state (R30). -/
  fault : Option FaultCode
  /-- The ring instances; a ring's identifier is its place in the list (R25; entry 20). -/
  rings : List Ring
  /-- System memory, shared with the controller (R28). -/
  mem : Memory
  /-- The controller's registers (R26). -/
  regs : List Reg
  /-- `SPLIT64` (R6, R55): no step changes it. -/
  split64 : Bool
  /-- What the driver has put on the request port (entry 1). -/
  port : List PortItem
  /-- The result of the latest request (R344; entry 1). -/
  result : Option Result
  /-- What the controller will do, one batch before each access of the block (R22; entry 4). -/
  ctrl : List (List CtrlAct)
  /-- The controller's own cursors (R41 (c), R255, R285; entry 22). -/
  hc : HcCursors
  /-- Every access so far, newest first (R60; entry 6). -/
  trace : List Access
  /-- How many register accesses have been made: it makes each free register value fresh (entry 12). -/
  openReads : Nat
deriving DecidableEq, Repr

/-! ## How a step stops -/

/-- The stops of the machine. The block's own faults (R331) are next states. -/
inductive Fault where
  /-- A ring's cursor names no segment of the ring. Raised by the requests that use a ring's pointer. R31 and R36 bound the cursor,
  so no run from reset reaches it: a stuck state. Safe. -/
  | cursorOutOfRange
deriving DecidableEq, Repr

/-- The refusals of the machine. -/
inductive Refusal where
  /-- Raised by exec for an instruction that has no meaning yet. Safe. -/
  | notModelled (mnemonic : String)
  /-- Raised by the fetch of a request whose layout's fields overlap or do not cover the word: "a layout that is not well
  formed is refused when the layout is defined (a model rejects it statically)" (R96). Safe. -/
  | illFormed
  /-- Raised by the fetch of a byte string that is not the 16 bytes of a TRB (R99). Safe. -/
  | badSlot
deriving DecidableEq, Repr

/-- What a step or an instruction answers. -/
abbrev StepResult := Host.Outcome State Fault Refusal

/-- The machine right after reset (R360, R361, R362): no fault, no rings, the registers at their reset values. The
memory lists nothing, and the fields of the model's own are empty. -/
def State.reset : State where
  fault := none
  rings := []
  mem := []
  regs := resetRegs
  split64 := Config.resetSplit64
  port := []
  result := none
  ctrl := []
  hc := .nowhere
  trace := []
  openReads := 0

/-- The machine right after reset for every choice of the OPEN parameters of R6 that a run fixes: `SPLIT64`, and the
HCSPARAMS2 constant that gives `ERST_MAX_ENTRIES` (R303). -/
def State.resetWith (split64 : Bool) (hcsparams2 : RegValue) : State :=
  { State.reset with split64 := split64, regs := resetRegsWith hcsparams2 }

end Sys2Proof.Machine
end

