-- ==== Sys2Proof/Machine/Codes.lean ====
section
/-! DEFINITION. The numbers of the completion codes (R90, R91) and of the fault codes (R331). -/

namespace Sys2Proof.Machine

/-- `CompletionCode(x)` (R91): total, `unknown` for every number R90 does not name. -/
def completionCode (x : BitVec 8) : CompletionCode :=
  match x.toNat with
  | 0 => .invalid
  | 1 => .success
  | 2 => .dataBufferError
  | 3 => .babbleDetectedError
  | 4 => .usbTransactionError
  | 5 => .trbError
  | 6 => .stallError
  | 7 => .resourceError
  | 8 => .bandwidthError
  | 9 => .noSlotsAvailableError
  | 10 => .invalidStreamTypeError
  | 11 => .slotNotEnabledError
  | 12 => .endpointNotEnabledError
  | 13 => .shortPacket
  | 14 => .ringUnderrun
  | 15 => .ringOverrun
  | 16 => .vfEventRingFullError
  | 17 => .parameterError
  | 18 => .bandwidthOverrunError
  | 19 => .contextStateError
  | 20 => .noPingResponseError
  | 21 => .eventRingFullError
  | 22 => .incompatibleDeviceError
  | 23 => .missedServiceError
  | 24 => .commandRingStopped
  | 25 => .commandAborted
  | 26 => .stopped
  | 27 => .stoppedLengthInvalid
  | 28 => .stoppedShortPacket
  | 29 => .maxExitLatencyTooLargeError
  | 31 => .isochBufferOverrun
  | 32 => .eventLostError
  | 33 => .undefinedError
  | 34 => .invalidStreamIdError
  | 35 => .secondaryBandwidthError
  | 36 => .splitTransactionError
  | _ => .unknown x

/-- The encoding of a completion code is its number (R91). -/
def completionNumber : CompletionCode → Nat
  | .invalid => 0
  | .success => 1
  | .dataBufferError => 2
  | .babbleDetectedError => 3
  | .usbTransactionError => 4
  | .trbError => 5
  | .stallError => 6
  | .resourceError => 7
  | .bandwidthError => 8
  | .noSlotsAvailableError => 9
  | .invalidStreamTypeError => 10
  | .slotNotEnabledError => 11
  | .endpointNotEnabledError => 12
  | .shortPacket => 13
  | .ringUnderrun => 14
  | .ringOverrun => 15
  | .vfEventRingFullError => 16
  | .parameterError => 17
  | .bandwidthOverrunError => 18
  | .contextStateError => 19
  | .noPingResponseError => 20
  | .eventRingFullError => 21
  | .incompatibleDeviceError => 22
  | .missedServiceError => 23
  | .commandRingStopped => 24
  | .commandAborted => 25
  | .stopped => 26
  | .stoppedLengthInvalid => 27
  | .stoppedShortPacket => 28
  | .maxExitLatencyTooLargeError => 29
  | .isochBufferOverrun => 31
  | .eventLostError => 32
  | .undefinedError => 33
  | .invalidStreamIdError => 34
  | .secondaryBandwidthError => 35
  | .splitTransactionError => 36
  | .unknown x => x.toNat

/-- The number that `TRB_SET` writes (R84, R153). -/
def setNumber : SetValue → Nat
  | .num x => x
  | .code c => completionNumber c

/-- The numbers of the fault codes (R331). -/
def faultNumber : FaultCode → Nat
  | .tooWide => 1
  | .notWritable => 2
  | .misaligned => 3
  | .zeroSegments => 4
  | .zeroAddress => 5
  | .segSize => 6
  | .segBoundary => 7
  | .erstSize => 8
  | .notAllowed => 9
  | .wrongRing => 10
  | .dead => 11

end Sys2Proof.Machine
end

