-- ==== Sys2Proof/Machine/Ops.lean ====
section
/-! DEFINITION. The shared operations: raising a fault, system memory, the register space, the controller's turn, the
accesses of the block. Every access of the block first lets the controller take its turn (R21, R22; entry 4). -/

namespace Sys2Proof.Machine

/-! ## Answers and faults -/

/-- `return v` (R10). -/
def answer (r : Result) (s : State) : StepResult := .next { s with result := some r }

/-- `raise Fault(code)` (R330): the block enters the faulted state and the request answers the code; nothing else
is recorded and nothing is accessed. There is no return from it (R330). -/
def raiseFault (code : FaultCode) (s : State) : StepResult :=
  .next { s with fault := some code, result := some (.fault code) }

/-- The check every request makes first (R30, R332): after a fault it answers `F_DEAD` and does nothing else; the
fault state keeps its first code. -/
def request (s : State) (run : State → StepResult) : StepResult :=
  match s.fault with
  | some _ => answer (.fault .dead) s
  | none => run s

/-! ## System memory -/

/-- What a byte that memory does not list reads as. DESIGN CHOICE, entry 11. -/
def unlistedByte : Byte := 0#8

/-- The byte at an address. -/
def memGet : Memory → Nat → Byte
  | [], _ => unlistedByte
  | (k, b) :: m, a => if k = a then b else memGet m a

/-- Memory with the byte at `a` set: the list keeps rising and lists no byte equal to `unlistedByte`. -/
def memSet : Memory → Nat → Byte → Memory
  | [], a, v => if v = unlistedByte then [] else [(a, v)]
  | (k, b) :: m, a, v =>
    if a < k then if v = unlistedByte then (k, b) :: m else (a, v) :: (k, b) :: m
    else if a = k then if v = unlistedByte then m else (a, v) :: m
    else (k, b) :: memSet m a v

/-- The canonical form: addresses of 64 bits, strictly rising from `lo`, and no listed byte that reads as an unlisted one. -/
def memWfFrom : Nat → Memory → Bool
  | _, [] => true
  | lo, (k, b) :: m => lo ≤ k && k < 2 ^ 64 && b != unlistedByte && memWfFrom (k + 1) m

/-- Memory is in its canonical form. -/
def Memory.wf (m : Memory) : Bool := memWfFrom 0 m

/-- Byte `k` of a little-endian word (R52). -/
def wordByte (v : Word) (k : Nat) : Byte := v.extractLsb' (8 * k) 8

/-- The address of byte `k` of the word at `pa`. -/
def byteAddr (pa : Addr) (k : Nat) : Nat := (pa + BitVec.ofNat 64 k).toNat

/-- The little-endian word at `pa` (R52). -/
def memGetWord (m : Memory) (pa : Addr) : Word :=
  memGet m (byteAddr pa 3) ++ memGet m (byteAddr pa 2) ++ memGet m (byteAddr pa 1) ++ memGet m (byteAddr pa 0)

/-- Memory with the little-endian word `v` at `pa` (R52). -/
def memSetWord (m : Memory) (pa : Addr) (v : Word) : Memory :=
  memSet (memSet (memSet (memSet m (byteAddr pa 0) (wordByte v 0)) (byteAddr pa 1) (wordByte v 1))
    (byteAddr pa 2) (wordByte v 2)) (byteAddr pa 3) (wordByte v 3)

/-! ## The state's parts -/

/-- An event of the total order of R60. -/
def State.log (s : State) (a : Access) : State := { s with trace := a :: s.trace }

/-- `ERST_MAX_ENTRIES` (R6, OPEN): what the state's HCSPARAMS2 gives (R303), so any of its values in some state. -/
def State.erstMax (s : State) : Nat := erstMaxEntries s.regs

/-- The ring with an identifier (R25). -/
def State.ring? (s : State) (r : Nat) : Option Ring := s.rings[r]?

/-- The state with the ring of an identifier replaced. -/
def State.setRing (s : State) (r : Nat) (g : Ring) : State := { s with rings := s.rings.set r g }

/-- The state with a new ring; its identifier is its place in the list (R241, R271; entry 20). -/
def State.addRing (s : State) (g : Ring) : State := { s with rings := s.rings ++ [g] }

/-- The byte of system memory at a physical address. -/
def State.byteAt (s : State) (a : Nat) : Byte := memGet s.mem a

/-! ## Registers -/

/-- The number of bytes of a hardware word. -/
def widthBytes (w : RegWidth) : Nat := w.bits / 8

/-- The number of bits of a register. -/
def Reg.bits (r : Reg) : Nat := r.name.layout.width.bits

/-- The bits of a layout of one class. -/
def classMask (L : Layout) (cls : FieldClass) : RegValue :=
  L.fields.foldl (init := 0#64) fun m f => if f.cls = cls then m ||| maskAt 64 f.lo f.width else m

/-- How a register reacts to a write of `w` (R27), field by field by its class. -/
def react (L : Layout) (old w : RegValue) : RegValue :=
  let rw := classMask L .rw
  let stored := (old &&& ~~~rw) ||| (w &&& rw)
  let cleared := stored &&& ~~~(w &&& classMask L .rw1c)
  cleared ||| (w &&& classMask L .rw1s)

/-- The bits of a register that an access of `bytes` bytes at `ra` reaches: all of it, or one 32-bit half of a 64-bit
register (R55), as (lowest bit, width). -/
def laneOf (r : Reg) (ra : Addr) (bytes : Nat) : Option (Nat × Nat) :=
  if ra = r.addr ∧ 8 * bytes = r.bits then some (0, r.bits)
  else if r.bits = 64 ∧ bytes = 4 ∧ ra = r.addr then some (0, 32)
  else if r.bits = 64 ∧ bytes = 4 ∧ ra = r.addr + 4#64 then some (32, 32)
  else none

/-- What a read of `bytes` bytes at `ra` shows of a register (entry 13 for the fields that read as 0). -/
def laneRead (ra : Addr) (bytes : Nat) (r : Reg) : Option RegValue :=
  (laneOf r ra bytes).map fun l => getBits (r.value &&& r.name.readMask) l.1 l.2

/-- The access touches a byte of the register. -/
def Reg.touchedBy (r : Reg) (ra : Addr) (bytes : Nat) : Bool :=
  r.addr.toNat < ra.toNat + bytes && ra.toNat < r.addr.toNat + r.bits / 8

/-- `x` with the bits of `free` at a free value (entry 14). -/
def withOpenBits (free value x : RegValue) : RegValue := if free = 0#64 then x else (x &&& ~~~free) ||| (value &&& free)

/-- A write of `bytes` bytes at `ra` makes the register's value complete (R375): it reaches the register's highest bit. -/
def Reg.completedBy (r : Reg) (ra : Addr) (bytes : Nat) : Bool :=
  match laneOf r ra bytes with
  | some (lo, width) => lo + width == r.bits
  | none => false

/-- What a write of `w` from bit `lo` up completes: the bits from which the register takes it, and the word. A high dword
completes the low dword written before it, if there is one (R375; entry 27). -/
def Reg.completeWord (r : Reg) (lo : Nat) (w : RegValue) : Nat × RegValue :=
  match lo, r.low with
  | 32, some l => (0, (w <<< 32) ||| l.setWidth 64)
  | _, _ => (lo, w <<< lo)

/-- A register after a write of `bytes` bytes at `ra` (R27, R55): the low dword of a 64-bit register waits for the high one
(R375), and a complete value makes the register react in the bits it reaches. The bits of `free` take a free value
(R374, entry 14), and a write that touches the register with another width leaves a free value (entry 12). -/
def regAfterWrite (open_ : Nat) (ra : Addr) (bytes : Nat) (w free : RegValue) (r : Reg) : Reg :=
  match laneOf r ra bytes with
  | some (lo, _) =>
    if r.completedBy ra bytes then
      let c := r.completeWord lo w
      let reacted := withOpenBits free (Config.openRegister open_ r.addr) (react r.name.layout r.value c.2)
      { r with value := putBits r.value c.1 (r.bits - c.1) (reacted >>> c.1), low := none }
    else { r with low := some (w.setWidth 32) }
  | none =>
    if r.touchedBy ra bytes then { r with value := getBits (Config.openRegister open_ r.addr) 0 r.bits, low := none }
    else r

/-- The registers with a field given a value. -/
def setRegField (regs : List Reg) (n : RegName) (f : RegField) (x : RegValue) : List Reg :=
  match n.layout.fields.find? (·.name = f) with
  | some p => regs.map fun r => if r.name = n then { r with value := putBits r.value p.lo p.width x } else r
  | none => regs

/-- The block has written the register, completely (R375) and with a value that `holds` admits, since the last of the
controller's reactions `since`. -/
def State.wrote (s : State) (since : List Reaction) (n : RegName) (holds : RegValue → Bool) : Bool :=
  match s.regs.find? (·.name = n) with
  | none => false
  | some r => (s.trace.takeWhile fun a => !since.any fun x => a == .ctrlReact x).any fun a =>
    match a with
    | .regWrite ra bytes v => r.completedBy ra bytes && holds v
    | .memRead _ _ _ | .memWrite _ _ _ | .regRead _ _ _ | .orderW | .orderR | .ctrlRead _ _ | .ctrlWrite _ _
    | .ctrlStatus _ _ | .ctrlReact _ | .ctrlReport _ _ => false

/-- The block has written the register since the last of the controller's reactions `since`. -/
def State.wroteAny (s : State) (since : List Reaction) (n : RegName) : Bool := s.wrote since n fun _ => true

/-- The bits of a layout that a write can change. -/
def writableMask (L : Layout) : RegValue := classMask L .rw ||| classMask L .rw1c ||| classMask L .rw1s

/-- The bits of a register that a write can change: all of PAGESIZE and DNCTRL, whose layouts R300 leaves out (entry 32). -/
def RegName.writable : RegName → RegValue
  | .pagesize | .dnctrl => maskAt 64 0 32
  | n => writableMask n.layout

/-- The bits that a write of the register leaves at any value, because it breaks a restriction of R374 (row 15 of
93_implementation_defined.md, entry 14): all that a write can change, or CRCR's `rcs` and pointer while `crr` = 1; and
because R300 gives PAGESIZE and DNCTRL no layout (entry 32). -/
def State.openBits (s : State) (n : RegName) : RegValue :=
  let all := n.writable
  if regField s.regs .usbsts .cnr = 1#64 ∧ n ≠ .usbsts then all
  else
    match n with
    | .crcr => if regField s.regs .crcr .crr = 1#64 then classMask n.layout .rw else 0#64
    | .dcbaap | .config => if regField s.regs .usbcmd .runStop = 1#64 then all else 0#64
    | .erstba i =>
      let late := s.wroteAny [.reset] (.erstsz i) && s.wroteAny [.reset] (.erdp i)
      if late ∧ (i = 0 → regField s.regs .usbsts .hch = 1#64) then 0#64 else all
    | .pagesize | .dnctrl => all
    | .caplength | .hciversion | .hcsparams1 | .hcsparams2 | .hcsparams3 | .hccparams1 | .dboff | .rtsoff
    | .hccparams2 | .usbcmd | .usbsts | .mfindex | .iman _ | .imod _ | .erstsz _ | .erdp _ | .doorbell _ => 0#64

/-! ## The controller's turn (R22, R24) -/

/-- `a` is the address of a byte of a segment. -/
def segmentHolds (g : Segment) (a : Nat) : Bool := g.base.toNat ≤ a && a < g.base.toNat + 16 * g.size

/-- `a` is the address of a byte of a slot of the ring, if it is a consumer ring. -/
def Ring.consumerHolds (g : Ring) (a : Nat) : Bool :=
  match g with
  | .producer _ => false
  | .consumer c => c.segs.any fun sg => segmentHolds sg a

/-- `a` is the address of a byte that the controller may write (R24 (b)). -/
def State.ctrlMayWrite (s : State) (a : Nat) : Bool := s.rings.any (·.consumerHolds a)

/-- The word at `pa` is one the controller may write: an aligned 32-bit word of a consumer ring's slots (R24 (b)). -/
def State.ctrlMayWriteWord (s : State) (pa : Addr) : Bool :=
  pa.toNat % 4 == 0 && (List.range 4).all fun k => s.ctrlMayWrite (byteAddr pa k)

/-- The four words of the slot at `pa` are ones the controller may write (R24 (b)). -/
def State.ctrlMayWriteTrb (s : State) (pa : Addr) : Bool :=
  s.ctrlMayWriteWord pa && s.ctrlMayWriteWord (pa + 4#64) && s.ctrlMayWriteWord (pa + 8#64) &&
    s.ctrlMayWriteWord (pa + 12#64)

/-- The controller writes a word (R24 (b)); what R24 does not admit does nothing (entry 5). -/
def ctrlWriteWord (pa : Addr) (v : Word) (s : State) : State :=
  if s.ctrlMayWriteWord pa then { s with mem := memSetWord s.mem pa v, trace := .ctrlWrite pa v :: s.trace } else s

/-- The bits of a register that the controller may change (R24 (c)). -/
def statusMask (L : Layout) : RegValue := classMask L .ro ||| classMask L .rw1c ||| classMask L .rw1s

/-- The controller changes status bits of the register at `ra`, if there is one (R24 (c); entry 5). -/
def ctrlStatus (ra : Addr) (v : RegValue) (s : State) : State :=
  let change (r : Reg) : Reg :=
    if r.addr = ra then
      let m := statusMask r.name.layout
      { r with value := (r.value &&& ~~~m) ||| (v &&& m) }
    else r
  if s.regs.any fun r => r.addr == ra then
    { s with regs := s.regs.map change, trace := .ctrlStatus ra v :: s.trace }
  else s

/-- The reactions that end what CRCR and doorbell 0 were written for: a start, a stop and a reset of the Command Ring. -/
def commandTurns : List Reaction := [.reset, .commandStop, .commandStart]

/-- What must hold for a reaction to happen (R319): what the driver has written since, completely (R375). -/
def reactionEnabled (r : Reaction) (s : State) : Bool :=
  match r with
  | .run => regField s.regs .usbcmd .runStop == 1#64
  | .halt => regField s.regs .usbcmd .runStop == 0#64
  | .reset => regField s.regs .usbcmd .hcrst == 1#64
  | .commandStop => regField s.regs .crcr .cs == 1#64 || regField s.regs .crcr .ca == 1#64
  | .commandStart =>
    regField s.regs .crcr .crr == 0#64 && s.wrote commandTurns (.doorbell 0) fun v => getBits v 0 8 == 0#64
  | .eventStart i => s.wroteAny [.reset, .eventStart i] (.erstba i)

/-- The Command Ring's address and initial Cycle State as CRCR gives them (R255, R307). -/
def crcrReader (regs : List Reg) : HcReader where
  cursor := regField regs .crcr .commandRingPointer <<< 6
  cycle := regField regs .crcr .rcs == 1#64
  consumed := []

/-- Where the Command Ring starts (R255, R307): where CRCR says, if it was written since the last start or stop; else where
the controller stopped. DESIGN CHOICE, entry 21. -/
def commandReader (s : State) : HcReader :=
  match s.hc.command with
  | none => crcrReader s.regs
  | some h => if s.wroteAny commandTurns .crcr then crcrReader s.regs else h

/-- The ERST entry at `e` as the controller reads it: base and size (R95). -/
def erstEntry (m : Memory) (e : Addr) : Segment where
  base := memGetWord m (e + 4#64) ++ (memGetWord m e &&& 0xffffffc0#32)
  size := (memGetWord m (e + 8#64) &&& 0xffff#32).toNat

/-- The reads of a slot or of an ERST entry by the controller, for the total order of R60. -/
def ctrlReads (m : Memory) (pa : Addr) : List Access :=
  (List.range 16).map fun k => .ctrlRead (pa + BitVec.ofNat 64 k) (memGet m (byteAddr pa k))

/-- The address of entry `k` of the ERST at `e` (R95). -/
def erstEntryAddr (e : Addr) (k : Nat) : Addr := e + BitVec.ofNat 64 (16 * k)

/-- An `erst_size` of 0 disables the Event Ring of interrupter `i`, for secondary interrupters only (R311). -/
def eventRingDisabled (regs : List Reg) (i : Nat) : Bool := i != 0 && regField regs (.erstsz i) .erstSize == 0#64

/-- The controller reads the ERST of interrupter `i` and (re)starts its Event Ring at entry 0, slot 0, Cycle State 1
(R311), unless it is disabled. It reads all entries at one instant: DESIGN CHOICE, entry 10. With an `erst_size` of 0 the
primary interrupter's ring has no entry: entry 34. -/
def eventStart (i : Nat) (s : State) : State :=
  let e := regField s.regs (.erstba i) .erstbaPointer <<< 6
  let entries := List.range (regField s.regs (.erstsz i) .erstSize).toNat
  let others := s.hc.events.filter fun w => w.intr != i
  let started :=
    if eventRingDisabled s.regs i then [] else [⟨i, entries.map fun k => erstEntry s.mem (erstEntryAddr e k), 0, 0, true⟩]
  { s with
    hc := { s.hc with events := others ++ started }
    trace := (entries.flatMap fun k => ctrlReads s.mem (erstEntryAddr e k)) ++ s.trace }

/-- The controller's reactions beyond the field classes (R319), when they are enabled (entry 21). -/
def ctrlReact (r : Reaction) (s : State) : State :=
  if reactionEnabled r s then
    let t := s.log (.ctrlReact r)
    match r with
    | .run => { t with regs := setRegField t.regs .usbsts .hch 0#64 }
    | .halt => { t with regs := setRegField t.regs .usbsts .hch 1#64 }
    | .reset => { t with regs := t.regs.map fun r => { r with value := r.reset, low := none }, hc := .nowhere }
    | .commandStop => { t with regs := setRegField t.regs .crcr .crr 0#64 }
    | .commandStart =>
      { t with regs := setRegField t.regs .crcr .crr 1#64, hc := { t.hc with command := some (commandReader s) } }
    | .eventStart i => eventStart i t
  else s

/-- The controller runs: `hch` is 0 (R306, R319). -/
def State.running (s : State) : Bool := regField s.regs .usbsts .hch == 0#64

/-- The TRB in memory at `pa` (R53). -/
def memGetTrb (m : Memory) (pa : Addr) : Trb :=
  trbOfWords (memGetWord m pa) (memGetWord m (pa + 4#64)) (memGetWord m (pa + 8#64)) (memGetWord m (pa + 12#64))

/-- The controller reads its slot and consumes it when its Cycle bit equals its Cycle State; a Link moves it to the
Link's target and flips its Cycle State when TC = 1 (R255). -/
def readerConsume (m : Memory) (h : HcReader) : HcReader :=
  let t := memGetTrb m h.cursor
  if cycleBit t = h.cycle then
    if kindOf t = .defined .link then
      let o := decodeLink t
      { h with cursor := place o.ringSegmentPointer 4 |>.setWidth 64, cycle := h.cycle ^^ (o.tc == 1#1) }
    else { h with cursor := h.cursor + 16#64, consumed := t :: h.consumed }
  else h

/-- A reader of the controller looks at its slot, reading its 16 bytes at one instant. DESIGN CHOICE, entry 10: R255 does
not say in how many reads and in which order, and R56 makes none wider than 32 bits atomic. -/
def ctrlLook (h : HcReader) (hc : HcCursors) (s : State) : State :=
  { s with hc := hc, trace := ctrlReads s.mem h.cursor ++ s.trace }

/-- The controller looks at its Command Ring slot (R255), while it and the ring run (R319). -/
def ctrlConsumeCommand (s : State) : State :=
  match s.hc.command with
  | none => s
  | some h =>
    if s.running && regField s.regs .crcr .crr == 1#64 then
      ctrlLook h { s.hc with command := some (readerConsume s.mem h) } s
    else s

/-- Endpoint reader `k` of the controller looks at its slot (R255), while the controller runs (R319). -/
def ctrlConsume (k : Nat) (s : State) : State :=
  match s.hc.endpoints[k]? with
  | none => s
  | some h =>
    if s.running then ctrlLook h { s.hc with endpoints := s.hc.endpoints.set k (readerConsume s.mem h) } s else s

/-- The address of a writer's position, if its ERST has that entry (R285). -/
def writerSlot (h : HcWriter) : Option Addr := h.segs[h.seg]?.map fun g => g.base + BitVec.ofNat 64 (16 * h.idx)

/-- The next position of a writer: it wraps by the ERST and toggles its Cycle State on leaving the last entry (R278,
R285). -/
def writerAdvance (h : HcWriter) : HcWriter :=
  match h.segs[h.seg]? with
  | none => h
  | some g =>
    if h.idx + 1 = g.size then
      if h.seg + 1 = h.segs.length then { h with idx := 0, seg := 0, cycle := !h.cycle }
      else { h with idx := 0, seg := h.seg + 1 }
    else { h with idx := h.idx + 1 }

/-- The Event Ring Dequeue Pointer that the driver wrote for interrupter `i` (R282, R312). -/
def erdpAddr (regs : List Reg) (i : Nat) : Addr := regField regs (.erdp i) .erdpPointer <<< 4

/-- The Event Ring is full (R376): the slots from ERDP to the writer's position count as occupied, and the one slot left is
kept free, so that equal pointers mean an empty ring. PRESUMED, entry 33. -/
def writerFull (regs : List Reg) (h : HcWriter) : Bool := writerSlot (writerAdvance h) == some (erdpAddr regs h.intr)

/-- The controller writes the four words of an event, DW3 last (R285). -/
def ctrlWriteTrb (pa : Addr) (t : Trb) (s : State) : State :=
  ctrlWriteWord (pa + 12#64) (dw3 t)
    (ctrlWriteWord (pa + 8#64) (dw2 t) (ctrlWriteWord (pa + 4#64) (dw1 t) (ctrlWriteWord pa (dw0 t) s)))

/-- The controller writes an event to interrupter `i`'s Event Ring, its Cycle bit the writer's (R285), while it runs (R319)
and the ring is not disabled (R311); on a full ring it reports Event Ring Full, code 21, instead (R376; entry 33). It
writes the event at one instant (entry 10). Where R24 (b) does not admit its four words, as when ERSTBA points at a table
that INIT_EVENT did not build, the act does nothing and the writer stays: DESIGN CHOICE, entry 35. A disabled ring keeps its writer, which goes on where it
was once `erst_size` is not 0 again: DESIGN CHOICE, entry 34. -/
def ctrlPost (i : Nat) (ev : Trb) (s : State) : State :=
  match s.hc.events.find? fun w => w.intr == i with
  | none => s
  | some h =>
    match writerSlot h with
    | none => s
    | some pa =>
      if !s.running || eventRingDisabled s.regs i then s
      else if writerFull s.regs h then s.log (.ctrlReport i .eventRingFullError)
      else if !s.ctrlMayWriteTrb pa then s
      else
        let s := ctrlWriteTrb pa (putBits ev 96 1 ((BitVec.ofBool h.cycle).setWidth 128)) s
        { s with hc := { s.hc with events := s.hc.events.map fun w => if w.intr = i then writerAdvance h else w } }

/-- One act of the controller (R24, R255, R285, R319). -/
def ctrlAct (a : CtrlAct) (s : State) : State :=
  match a with
  | .readByte pa => s.log (.ctrlRead pa (memGet s.mem pa.toNat))
  | .writeWord pa v => ctrlWriteWord pa v s
  | .status ra v => ctrlStatus ra v s
  | .react r => ctrlReact r s
  | .attach pa cycle => { s with hc := { s.hc with endpoints := s.hc.endpoints ++ [⟨pa, cycle, []⟩] } }
  | .consumeCommand => ctrlConsumeCommand s
  | .consume k => ctrlConsume k s
  | .post i ev => ctrlPost i ev s

/-- A batch of acts, in order. -/
def ctrlActs : List CtrlAct → State → State
  | [], s => s
  | a :: rest, s => ctrlActs rest (ctrlAct a s)

/-- The controller takes its turn: the next batch of its schedule (R22; entry 4). -/
def controllerTurn (s : State) : State :=
  match s.ctrl with
  | [] => s
  | b :: rest => ctrlActs b { s with ctrl := rest }

/-! ## The block's accesses to system memory -/

/-- `MemRead(pa, 4)` (R10, R54): the word, and the state after. -/
def memRead (pa : Addr) (s : State) : Word × State :=
  let s := controllerTurn s
  let v := memGetWord s.mem pa
  (v, s.log (.memRead pa (Config.mapPhys pa) v))

/-- `MemWrite(pa, 4, v)` (R10, R54). -/
def memWrite (pa : Addr) (v : Word) (s : State) : State :=
  let s := controllerTurn s
  { s with mem := memSetWord s.mem pa v, trace := .memWrite pa (Config.mapPhys pa) v :: s.trace }

/-- `ORDER_W` (R61): nothing under the total order of R60. -/
def orderW (s : State) : State := s.log .orderW

/-- `ORDER_R` (R61): nothing under the total order of R60. -/
def orderR (s : State) : State := s.log .orderR

/-- `TRBWrite(pa, T)` (R57): DW0, DW1, DW2, `ORDER_W`, DW3. -/
def trbWrite (pa : Addr) (t : Trb) (s : State) : State :=
  memWrite (pa + 12#64) (dw3 t)
    (orderW (memWrite (pa + 8#64) (dw2 t) (memWrite (pa + 4#64) (dw1 t) (memWrite pa (dw0 t) s))))

/-! ## The block's accesses to register space -/

/-- `RegRead(ra, n)` (R10): the register's value; a free value where the map has no register of that width (entry 12). -/
def regRead (ra : Addr) (bytes : Nat) (s : State) : RegValue × State :=
  let s := controllerTurn s
  let v := (s.regs.findSome? (laneRead ra bytes)).getD (getBits (Config.openRegister s.openReads ra) 0 (8 * bytes))
  (v, { s with trace := .regRead ra bytes v :: s.trace, openReads := s.openReads + 1 })

/-- `RegWrite(ra, n, w)` (R10, R27, R374). -/
def regWrite (ra : Addr) (bytes : Nat) (w : RegValue) (s : State) : State :=
  let s := controllerTurn s
  { s with
    regs := s.regs.map fun r => regAfterWrite s.openReads ra bytes w (s.openBits r.name) r
    trace := .regWrite ra bytes w :: s.trace
    openReads := s.openReads + 1 }

/-- A register access splits in two (R55). -/
def splits (width : RegWidth) (s : State) : Bool := width = .w64 && s.split64

/-- A read of a hardware word of a width: one access, or two of 32 bits, low dword first (R55). -/
def wordRead (ra : Addr) (width : RegWidth) (s : State) : RegValue × State :=
  if splits width s then
    let lo := regRead ra 4 s
    let hi := regRead (ra + 4#64) 4 lo.2
    ((hi.1 <<< 32) ||| lo.1, hi.2)
  else regRead ra (widthBytes width) s

/-- A write of a hardware word of a width: one access, or two of 32 bits, low dword first (R55). -/
def wordWrite (ra : Addr) (width : RegWidth) (w : RegValue) (s : State) : State :=
  if splits width s then regWrite (ra + 4#64) 4 (getBits w 32 32) (regWrite ra 4 (getBits w 0 32) s)
  else regWrite ra (widthBytes width) w s

end Sys2Proof.Machine
end

