-- ==== Sys2Proof/Machine/TrbTables.lean ====
section
/-! DEFINITION. The TRB layout tables as data, by which `TRB_GET`, `TRB_SET` and `TRB_NEW` work (R84, R151 to R153):
R170 to R177, R190 to R206, R220 to R227. What no row covers is RsvdZ. -/

namespace Sys2Proof.Machine

/-- The field kinds (R84); RsvdZ is not a field. -/
inductive TrbFieldKind where
  | value
  | flag
  | pointer (k : Nat)
  | fixed (x : Nat)
  | ccode
deriving DecidableEq, Repr

/-- One row of a variant's layout table. -/
structure TrbRow where
  field : TrbField
  lo : Nat
  width : Nat
  kind : TrbFieldKind
deriving DecidableEq, Repr

/-- The layout table of a variant (R170 to R177, R190 to R206, R220 to R227), low bits first. -/
def variantRows : Variant → List TrbRow
  | .normal => [
      ⟨.dataBufferPointer, 0, 64, .value⟩,
      ⟨.trbTransferLength, 64, 17, .value⟩,
      ⟨.tdSize, 81, 5, .value⟩,
      ⟨.interrupterTarget, 86, 10, .value⟩,
      ⟨.c, 96, 1, .flag⟩,
      ⟨.ent, 97, 1, .flag⟩,
      ⟨.isp, 98, 1, .flag⟩,
      ⟨.ns, 99, 1, .flag⟩,
      ⟨.ch, 100, 1, .flag⟩,
      ⟨.ioc, 101, 1, .flag⟩,
      ⟨.idt, 102, 1, .flag⟩,
      ⟨.bei, 105, 1, .flag⟩,
      ⟨.type, 106, 6, .fixed 1⟩]
  | .setupStage => [
      ⟨.bmRequestType, 0, 8, .value⟩,
      ⟨.bRequest, 8, 8, .value⟩,
      ⟨.wValue, 16, 16, .value⟩,
      ⟨.wIndex, 32, 16, .value⟩,
      ⟨.wLength, 48, 16, .value⟩,
      ⟨.trbTransferLength, 64, 17, .fixed 8⟩,
      ⟨.interrupterTarget, 86, 10, .value⟩,
      ⟨.c, 96, 1, .flag⟩,
      ⟨.ioc, 101, 1, .flag⟩,
      ⟨.idt, 102, 1, .fixed 1⟩,
      ⟨.type, 106, 6, .fixed 2⟩,
      ⟨.trt, 112, 2, .value⟩]
  | .dataStage => [
      ⟨.dataBufferPointer, 0, 64, .value⟩,
      ⟨.trbTransferLength, 64, 17, .value⟩,
      ⟨.tdSize, 81, 5, .value⟩,
      ⟨.interrupterTarget, 86, 10, .value⟩,
      ⟨.c, 96, 1, .flag⟩,
      ⟨.ent, 97, 1, .flag⟩,
      ⟨.isp, 98, 1, .flag⟩,
      ⟨.ns, 99, 1, .flag⟩,
      ⟨.ch, 100, 1, .flag⟩,
      ⟨.ioc, 101, 1, .flag⟩,
      ⟨.idt, 102, 1, .flag⟩,
      ⟨.type, 106, 6, .fixed 3⟩,
      ⟨.dir, 112, 1, .flag⟩]
  | .statusStage => [
      ⟨.interrupterTarget, 86, 10, .value⟩,
      ⟨.c, 96, 1, .flag⟩,
      ⟨.ent, 97, 1, .flag⟩,
      ⟨.ch, 100, 1, .flag⟩,
      ⟨.ioc, 101, 1, .flag⟩,
      ⟨.type, 106, 6, .fixed 4⟩,
      ⟨.dir, 112, 1, .flag⟩]
  | .isoch => [
      ⟨.dataBufferPointer, 0, 64, .value⟩,
      ⟨.trbTransferLength, 64, 17, .value⟩,
      ⟨.tdSizeTbc, 81, 5, .value⟩,
      ⟨.interrupterTarget, 86, 10, .value⟩,
      ⟨.c, 96, 1, .flag⟩,
      ⟨.ent, 97, 1, .flag⟩,
      ⟨.isp, 98, 1, .flag⟩,
      ⟨.ns, 99, 1, .flag⟩,
      ⟨.ch, 100, 1, .flag⟩,
      ⟨.ioc, 101, 1, .flag⟩,
      ⟨.idt, 102, 1, .flag⟩,
      ⟨.tbc, 103, 2, .value⟩,
      ⟨.bei, 105, 1, .flag⟩,
      ⟨.type, 106, 6, .fixed 5⟩,
      ⟨.tlbpc, 112, 4, .value⟩,
      ⟨.frameId, 116, 11, .value⟩,
      ⟨.sia, 127, 1, .flag⟩]
  | .link => [
      ⟨.ringSegmentPointer, 4, 60, .pointer 4⟩,
      ⟨.interrupterTarget, 86, 10, .value⟩,
      ⟨.c, 96, 1, .flag⟩,
      ⟨.tc, 97, 1, .flag⟩,
      ⟨.ch, 100, 1, .flag⟩,
      ⟨.ioc, 101, 1, .flag⟩,
      ⟨.type, 106, 6, .fixed 6⟩]
  | .eventData => [
      ⟨.eventData, 0, 64, .value⟩,
      ⟨.interrupterTarget, 86, 10, .value⟩,
      ⟨.c, 96, 1, .flag⟩,
      ⟨.ent, 97, 1, .flag⟩,
      ⟨.ch, 100, 1, .flag⟩,
      ⟨.ioc, 101, 1, .flag⟩,
      ⟨.bei, 105, 1, .flag⟩,
      ⟨.type, 106, 6, .fixed 7⟩]
  | .noOp => [
      ⟨.interrupterTarget, 86, 10, .value⟩,
      ⟨.c, 96, 1, .flag⟩,
      ⟨.ent, 97, 1, .flag⟩,
      ⟨.ch, 100, 1, .flag⟩,
      ⟨.ioc, 101, 1, .flag⟩,
      ⟨.type, 106, 6, .fixed 8⟩]
  | .enableSlot => [
      ⟨.c, 96, 1, .flag⟩,
      ⟨.type, 106, 6, .fixed 9⟩,
      ⟨.slotType, 112, 5, .value⟩]
  | .disableSlot => [
      ⟨.c, 96, 1, .flag⟩,
      ⟨.type, 106, 6, .fixed 10⟩,
      ⟨.slotId, 120, 8, .value⟩]
  | .addressDevice => [
      ⟨.inputContextPointer, 4, 60, .pointer 4⟩,
      ⟨.c, 96, 1, .flag⟩,
      ⟨.bsr, 105, 1, .flag⟩,
      ⟨.type, 106, 6, .fixed 11⟩,
      ⟨.slotId, 120, 8, .value⟩]
  | .configureEndpoint => [
      ⟨.inputContextPointer, 4, 60, .pointer 4⟩,
      ⟨.c, 96, 1, .flag⟩,
      ⟨.dc, 105, 1, .flag⟩,
      ⟨.type, 106, 6, .fixed 12⟩,
      ⟨.slotId, 120, 8, .value⟩]
  | .evaluateContext => [
      ⟨.inputContextPointer, 4, 60, .pointer 4⟩,
      ⟨.c, 96, 1, .flag⟩,
      ⟨.type, 106, 6, .fixed 13⟩,
      ⟨.slotId, 120, 8, .value⟩]
  | .resetEndpoint => [
      ⟨.c, 96, 1, .flag⟩,
      ⟨.tsp, 105, 1, .flag⟩,
      ⟨.type, 106, 6, .fixed 14⟩,
      ⟨.endpointId, 112, 5, .value⟩,
      ⟨.slotId, 120, 8, .value⟩]
  | .stopEndpoint => [
      ⟨.c, 96, 1, .flag⟩,
      ⟨.type, 106, 6, .fixed 15⟩,
      ⟨.endpointId, 112, 5, .value⟩,
      ⟨.sp, 119, 1, .flag⟩,
      ⟨.slotId, 120, 8, .value⟩]
  | .setTrDequeuePointer => [
      ⟨.dcs, 0, 1, .flag⟩,
      ⟨.sct, 1, 3, .value⟩,
      ⟨.newTrDequeuePointer, 4, 60, .pointer 4⟩,
      ⟨.streamId, 80, 16, .value⟩,
      ⟨.c, 96, 1, .flag⟩,
      ⟨.type, 106, 6, .fixed 16⟩,
      ⟨.endpointId, 112, 5, .value⟩,
      ⟨.slotId, 120, 8, .value⟩]
  | .resetDevice => [
      ⟨.c, 96, 1, .flag⟩,
      ⟨.type, 106, 6, .fixed 17⟩,
      ⟨.slotId, 120, 8, .value⟩]
  | .forceEvent => [
      ⟨.eventTrbPointer, 4, 60, .pointer 4⟩,
      ⟨.vfInterrupterTarget, 86, 10, .value⟩,
      ⟨.c, 96, 1, .flag⟩,
      ⟨.type, 106, 6, .fixed 18⟩,
      ⟨.vfId, 112, 8, .value⟩]
  | .negotiateBandwidth => [
      ⟨.c, 96, 1, .flag⟩,
      ⟨.type, 106, 6, .fixed 19⟩,
      ⟨.slotId, 120, 8, .value⟩]
  | .setLatencyToleranceValue => [
      ⟨.c, 96, 1, .flag⟩,
      ⟨.type, 106, 6, .fixed 20⟩,
      ⟨.bestEffortLatencyToleranceValue, 112, 12, .value⟩]
  | .getPortBandwidth => [
      ⟨.portBandwidthContextPointer, 4, 60, .pointer 4⟩,
      ⟨.c, 96, 1, .flag⟩,
      ⟨.type, 106, 6, .fixed 21⟩,
      ⟨.devSpeed, 112, 4, .value⟩,
      ⟨.hubSlotId, 120, 8, .value⟩]
  | .forceHeader => [
      ⟨.packetType, 0, 5, .value⟩,
      ⟨.headerInfoLo, 5, 27, .value⟩,
      ⟨.headerInfoMid, 32, 32, .value⟩,
      ⟨.headerInfoHi, 64, 32, .value⟩,
      ⟨.c, 96, 1, .flag⟩,
      ⟨.type, 106, 6, .fixed 22⟩,
      ⟨.rootHubPortNumber, 120, 8, .value⟩]
  | .noOpCommand => [
      ⟨.c, 96, 1, .flag⟩,
      ⟨.type, 106, 6, .fixed 23⟩]
  | .getExtendedProperty => [
      ⟨.extendedPropertyContextPointer, 4, 60, .pointer 4⟩,
      ⟨.extendedCapabilityIdentifier, 64, 16, .value⟩,
      ⟨.c, 96, 1, .flag⟩,
      ⟨.type, 106, 6, .fixed 24⟩,
      ⟨.commandSubType, 112, 3, .value⟩,
      ⟨.endpointId, 115, 5, .value⟩,
      ⟨.slotId, 120, 8, .value⟩]
  | .setExtendedProperty => [
      ⟨.extendedCapabilityIdentifier, 64, 16, .value⟩,
      ⟨.capabilityParameter, 80, 8, .value⟩,
      ⟨.c, 96, 1, .flag⟩,
      ⟨.type, 106, 6, .fixed 25⟩,
      ⟨.commandSubType, 112, 3, .value⟩,
      ⟨.endpointId, 115, 5, .value⟩,
      ⟨.slotId, 120, 8, .value⟩]
  | .transferEvent => [
      ⟨.trbPointer, 0, 64, .value⟩,
      ⟨.trbTransferLength, 64, 24, .value⟩,
      ⟨.completionCode, 88, 8, .ccode⟩,
      ⟨.c, 96, 1, .flag⟩,
      ⟨.ed, 98, 1, .flag⟩,
      ⟨.type, 106, 6, .fixed 32⟩,
      ⟨.endpointId, 112, 5, .value⟩,
      ⟨.slotId, 120, 8, .value⟩]
  | .commandCompletionEvent => [
      ⟨.commandTrbPointer, 4, 60, .pointer 4⟩,
      ⟨.commandCompletionParameter, 64, 24, .value⟩,
      ⟨.completionCode, 88, 8, .ccode⟩,
      ⟨.c, 96, 1, .flag⟩,
      ⟨.type, 106, 6, .fixed 33⟩,
      ⟨.vfId, 112, 8, .value⟩,
      ⟨.slotId, 120, 8, .value⟩]
  | .portStatusChangeEvent => [
      ⟨.portId, 24, 8, .value⟩,
      ⟨.completionCode, 88, 8, .ccode⟩,
      ⟨.c, 96, 1, .flag⟩,
      ⟨.type, 106, 6, .fixed 34⟩]
  | .bandwidthRequestEvent => [
      ⟨.completionCode, 88, 8, .ccode⟩,
      ⟨.c, 96, 1, .flag⟩,
      ⟨.type, 106, 6, .fixed 35⟩,
      ⟨.slotId, 120, 8, .value⟩]
  | .doorbellEvent => [
      ⟨.dbReason, 0, 5, .value⟩,
      ⟨.completionCode, 88, 8, .ccode⟩,
      ⟨.c, 96, 1, .flag⟩,
      ⟨.type, 106, 6, .fixed 36⟩,
      ⟨.vfId, 112, 8, .value⟩,
      ⟨.slotId, 120, 8, .value⟩]
  | .hostControllerEvent => [
      ⟨.completionCode, 88, 8, .ccode⟩,
      ⟨.c, 96, 1, .flag⟩,
      ⟨.type, 106, 6, .fixed 37⟩]
  | .deviceNotificationEvent => [
      ⟨.notificationType, 4, 4, .value⟩,
      ⟨.deviceNotificationData, 8, 56, .value⟩,
      ⟨.completionCode, 88, 8, .ccode⟩,
      ⟨.c, 96, 1, .flag⟩,
      ⟨.type, 106, 6, .fixed 38⟩,
      ⟨.slotId, 120, 8, .value⟩]
  | .mfindexWrapEvent => [
      ⟨.completionCode, 88, 8, .ccode⟩,
      ⟨.c, 96, 1, .flag⟩,
      ⟨.type, 106, 6, .fixed 39⟩]

/-- The fields an Unrecognized value has besides `raw` (R156). -/
def unrecognizedRows : List TrbRow :=
  [⟨.c, 96, 1, .flag⟩, ⟨.type, 106, 6, .fixed 0⟩]

/-- The table of a kind. -/
def kindRows : TrbKind → List TrbRow
  | .defined v => variantRows v
  | .unrecognized => unrecognizedRows

/-- The row of a named field, if the kind has the field. -/
def findRow (k : TrbKind) (f : TrbField) : Option TrbRow := (kindRows k).find? (·.field = f)

/-- `group(K)` (R159). -/
def groupOf : TrbKind → Group
  | .unrecognized => .unrecognized
  | .defined .normal => .transfer
  | .defined .setupStage => .transfer
  | .defined .dataStage => .transfer
  | .defined .statusStage => .transfer
  | .defined .isoch => .transfer
  | .defined .link => .link
  | .defined .eventData => .transfer
  | .defined .noOp => .transfer
  | .defined .enableSlot => .command
  | .defined .disableSlot => .command
  | .defined .addressDevice => .command
  | .defined .configureEndpoint => .command
  | .defined .evaluateContext => .command
  | .defined .resetEndpoint => .command
  | .defined .stopEndpoint => .command
  | .defined .setTrDequeuePointer => .command
  | .defined .resetDevice => .command
  | .defined .forceEvent => .command
  | .defined .negotiateBandwidth => .command
  | .defined .setLatencyToleranceValue => .command
  | .defined .getPortBandwidth => .command
  | .defined .forceHeader => .command
  | .defined .noOpCommand => .command
  | .defined .getExtendedProperty => .command
  | .defined .setExtendedProperty => .command
  | .defined .transferEvent => .event
  | .defined .commandCompletionEvent => .event
  | .defined .portStatusChangeEvent => .event
  | .defined .bandwidthRequestEvent => .event
  | .defined .doorbellEvent => .event
  | .defined .hostControllerEvent => .event
  | .defined .deviceNotificationEvent => .event
  | .defined .mfindexWrapEvent => .event

/-- The fixed fields of a variant, the Type among them, in place (R151). -/
def fixedPattern (v : Variant) : Trb :=
  (variantRows v).foldl (init := 0#128) fun t r =>
    match r.kind with
    | .fixed x => putBits t r.lo r.width (BitVec.ofNat 128 x)
    | .value | .flag | .pointer _ | .ccode => t

/-- The bits of the fixed fields of a variant. -/
def fixedMask (v : Variant) : Trb :=
  (variantRows v).foldl (init := 0#128) fun t r =>
    match r.kind with
    | .fixed _ => t ||| maskAt 128 r.lo r.width
    | .value | .flag | .pointer _ | .ccode => t

/-- The RsvdZ bits of a variant: those that no row covers. -/
def reservedMask (v : Variant) : Trb :=
  ~~~((variantRows v).foldl (init := 0#128) fun t r => t ||| maskAt 128 r.lo r.width)

/-- A canonical value of a variant (R158): RsvdZ bits 0, fixed fields at their fixed values. -/
def canonical (v : Variant) (t : Trb) : Bool :=
  (t &&& reservedMask v) == 0#128 && (t &&& fixedMask v) == fixedPattern v

end Sys2Proof.Machine
end

