-- ==== Sys2Proof/Machine/Operands.lean ====
section
/-! DEFINITION. The operands of the codecs: the fields and actions of a mutation list (R121 to R123), the fields of a
TRB (R151 to R153). -/

namespace Sys2Proof.Machine

/-! ## Mutation lists -/

/-- The field that an action names (R121). -/
def actionField : Action → RegField
  | .set f _ | .set0 f | .clear f | .assert f => f

/-- The field of a layout that a name names (R121); a reserved range has none. Of several fields with one name, which R96
does not exclude, it names one, and the spec does not say which (entry 18). -/
def namedField (L : Layout) (f : RegField) : Option LayoutField :=
  if f = .reserved then none
  else
    match L.fields.filter fun p => p.name == f with
    | [] => none
    | [p] => some p
    | ps => ps[Config.namesake L f % ps.length]?

/-- The class is one of the reserved ones. -/
def reservedClass : FieldClass → Bool
  | .rsvdP | .rsvdZ => true
  | .rw | .ro | .rw1c | .rw1s => false

/-- The table of R121: the actions that a class admits. -/
def classAdmits : FieldClass → Action → Bool
  | .rw, .set _ _ => true
  | .rw1c, .set0 _ | .rw1c, .clear _ => true
  | .rw1s, .set0 _ | .rw1s, .assert _ => true
  | .rw, .set0 _ | .rw, .clear _ | .rw, .assert _ => false
  | .rw1c, .set _ _ | .rw1c, .assert _ => false
  | .rw1s, .set _ _ | .rw1s, .clear _ => false
  | .ro, _ | .rsvdP, _ | .rsvdZ, _ => false

/-- The value of an action fits its field (R122 (c)). -/
def actionFits (width : Nat) : Action → Bool
  | .set _ x => x < 2 ^ width
  | .set0 _ | .clear _ | .assert _ => true

/-- The tests of R122 on one action, in their order. -/
def checkAction (L : Layout) (a : Action) : Option FaultCode :=
  match namedField L (actionField a) with
  | none => some .notWritable
  | some p =>
    if reservedClass p.cls then some .notWritable
    else if !classAdmits p.cls a then some .notWritable
    else if !actionFits p.width a then some .tooWide
    else none

/-- `Check(L, M)` (R122): the fault of the first action that fails. -/
def checkMutations (L : Layout) (M : List Action) : Option FaultCode := M.findSome? (checkAction L)

/-- The last action of a list on a field (R121, R123). -/
def lastAction (M : List Action) (f : RegField) : Option Action := M.reverse.find? fun a => actionField a == f

/-- The last action of a list on a field of the layout, if its name names it (R121, R123). -/
def lastOnField (L : Layout) (M : List Action) (p : LayoutField) : Option Action :=
  if namedField L p.name = some p then lastAction M p.name else none

/-- What is sent in one field (R123). -/
def fieldSent (L : Layout) (snap : RegValue) (M : List Action) (p : LayoutField) : RegValue :=
  match p.cls with
  | .rw =>
    match lastOnField L M p with
    | some (.set _ x) => BitVec.ofNat 64 x
    | some (.set0 _) | some (.clear _) | some (.assert _) | none => getBits snap p.lo p.width
  | .ro | .rsvdP => getBits snap p.lo p.width
  | .rsvdZ => 0#64
  | .rw1c =>
    match lastOnField L M p with
    | some (.clear _) => BitVec.allOnes 64
    | some (.set _ _) | some (.set0 _) | some (.assert _) | none => 0#64
  | .rw1s =>
    match lastOnField L M p with
    | some (.assert _) => BitVec.allOnes 64
    | some (.set _ _) | some (.set0 _) | some (.clear _) | none => 0#64

/-- `Compose(L, s, M)` (R123). -/
def compose (L : Layout) (snap : RegValue) (M : List Action) : RegValue :=
  L.fields.foldl (init := 0#64) fun w p => putBits w p.lo p.width (fieldSent L snap M p)

/-- `GET` of a field of a snapshot (R125). -/
def snapshotField (L : Layout) (snap : RegValue) (f : RegField) : Option Nat :=
  match namedField L f with
  | none => none
  | some p => if reservedClass p.cls then none else some (getBits snap p.lo p.width).toNat

/-! ## TRB fields -/

/-- The four words of a TRB (R152, R154). -/
def rawWords (t : Trb) : FieldValue := .words (dw0 t) (dw1 t) (dw2 t) (dw3 t)

/-- A field's value by its kind (R84, R152). -/
def rowValue (t : Trb) (r : TrbRow) : FieldValue :=
  match r.kind with
  | .value | .flag | .fixed _ => .num (getBits t r.lo r.width).toNat
  | .pointer k => .num (getBits t r.lo r.width <<< k).toNat
  | .ccode => .code (completionCode (field t r.lo 8))

/-- `TRB_GET` (R152): none where the kind lacks the field. -/
def trbFieldValue (t : Trb) (f : TrbField) : Option FieldValue :=
  if f = .raw then some (rawWords t) else (findRow (kindOf t) f).map (rowValue t)

/-- `TRB_SET` of a number to a row's field, by its kind (R153). -/
def setRow (t : Trb) (r : TrbRow) (x : Nat) : Except FaultCode Trb :=
  match r.kind with
  | .fixed _ => .error .notWritable
  | .value | .flag =>
    if x ≥ 2 ^ r.width then .error .tooWide else .ok (putBits t r.lo r.width (BitVec.ofNat 128 x))
  | .pointer k =>
    if x ≥ 2 ^ 64 then .error .tooWide
    else if x % 2 ^ k ≠ 0 then .error .misaligned
    else .ok (putBits t r.lo r.width (BitVec.ofNat 128 (x >>> k)))
  | .ccode => if x ≥ 2 ^ 8 then .error .tooWide else .ok (putBits t r.lo r.width (BitVec.ofNat 128 x))

/-- `TRB_SET` (R153): an Unrecognized value has no other settable field than `c`, its `type` being fixed. -/
def trbFieldSet (t : Trb) (f : TrbField) (x : SetValue) : Except FaultCode Trb :=
  match findRow (kindOf t) f with
  | none => .error .notWritable
  | some r => setRow t r (setNumber x)

/-- The value of a decoded field of the kinds value, flag and fixed, by its bits (R152). -/
def numField {n : Nat} (f : TrbField) (x : BitVec n) : TrbField × FieldValue := (f, .num x.toNat)

/-- The value of a decoded pointer field: its 60 bits above four 0 bits (R152). -/
def pointerField (f : TrbField) (x : BitVec 60) : TrbField × FieldValue := (f, .num (16 * x.toNat))

/-- The value of a decoded completion-code field (R91, R152). -/
def codeField (x : BitVec 8) : TrbField × FieldValue := (.completionCode, .code (completionCode x))

end Sys2Proof.Machine
end

