-- ==== Sys2Proof/Machine/Command.lean ====
section
/-! DEFINITION. The command TRBs (R190 to R206). -/

namespace Sys2Proof.Machine

/-- The Enable Slot Command TRB as the decoder classifies it, with its fields (R190, R152, R155; entry 2). -/
def execEnableSlot (o : EnableSlotTrb) (s : State) : StepResult :=
  request s (answer (.decoded (.defined .enableSlot) (encodeEnableSlot o)
    [numField .c o.c, numField .type 9#6, numField .slotType o.slotType]))

/-- The Disable Slot Command TRB as the decoder classifies it, with its fields (R191, R152, R155; entry 2). -/
def execDisableSlot (o : DisableSlotTrb) (s : State) : StepResult :=
  request s (answer (.decoded (.defined .disableSlot) (encodeDisableSlot o)
    [numField .c o.c, numField .type 10#6, numField .slotId o.slotId]))

/-- The Address Device Command TRB as the decoder classifies it, with its fields (R192, R152, R155; entry 2). -/
def execAddressDevice (o : AddressDeviceTrb) (s : State) : StepResult :=
  request s (answer (.decoded (.defined .addressDevice) (encodeAddressDevice o)
    [pointerField .inputContextPointer o.inputContextPointer, numField .c o.c, numField .bsr o.bsr,
     numField .type 11#6, numField .slotId o.slotId]))

/-- The Configure Endpoint Command TRB as the decoder classifies it, with its fields (R193, R152, R155; entry 2). -/
def execConfigureEndpoint (o : ConfigureEndpointTrb) (s : State) : StepResult :=
  request s (answer (.decoded (.defined .configureEndpoint) (encodeConfigureEndpoint o)
    [pointerField .inputContextPointer o.inputContextPointer, numField .c o.c, numField .dc o.dc,
     numField .type 12#6, numField .slotId o.slotId]))

/-- The Evaluate Context Command TRB as the decoder classifies it, with its fields (R194, R152, R155; entry 2). -/
def execEvaluateContext (o : EvaluateContextTrb) (s : State) : StepResult :=
  request s (answer (.decoded (.defined .evaluateContext) (encodeEvaluateContext o)
    [pointerField .inputContextPointer o.inputContextPointer, numField .c o.c, numField .type 13#6,
     numField .slotId o.slotId]))

/-- The Reset Endpoint Command TRB as the decoder classifies it, with its fields (R195, R152, R155; entry 2). -/
def execResetEndpoint (o : ResetEndpointTrb) (s : State) : StepResult :=
  request s (answer (.decoded (.defined .resetEndpoint) (encodeResetEndpoint o)
    [numField .c o.c, numField .tsp o.tsp, numField .type 14#6, numField .endpointId o.endpointId,
     numField .slotId o.slotId]))

/-- The Stop Endpoint Command TRB as the decoder classifies it, with its fields (R196, R152, R155; entry 2). -/
def execStopEndpoint (o : StopEndpointTrb) (s : State) : StepResult :=
  request s (answer (.decoded (.defined .stopEndpoint) (encodeStopEndpoint o)
    [numField .c o.c, numField .type 15#6, numField .endpointId o.endpointId, numField .sp o.sp,
     numField .slotId o.slotId]))

/-- The Set TR Dequeue Pointer Command TRB as the decoder classifies it, with its fields (R197, R152, R155; entry 2). -/
def execSetTrDequeuePointer (o : SetTrDequeuePointerTrb) (s : State) : StepResult :=
  request s (answer (.decoded (.defined .setTrDequeuePointer) (encodeSetTrDequeuePointer o)
    [numField .dcs o.dcs, numField .sct o.sct, pointerField .newTrDequeuePointer o.newTrDequeuePointer,
     numField .streamId o.streamId, numField .c o.c, numField .type 16#6, numField .endpointId o.endpointId,
     numField .slotId o.slotId]))

/-- The Reset Device Command TRB as the decoder classifies it, with its fields (R198, R152, R155; entry 2). -/
def execResetDevice (o : ResetDeviceTrb) (s : State) : StepResult :=
  request s (answer (.decoded (.defined .resetDevice) (encodeResetDevice o)
    [numField .c o.c, numField .type 17#6, numField .slotId o.slotId]))

/-- The Force Event Command TRB as the decoder classifies it, with its fields (R199, R152, R155; entry 2). -/
def execForceEvent (o : ForceEventTrb) (s : State) : StepResult :=
  request s (answer (.decoded (.defined .forceEvent) (encodeForceEvent o)
    [pointerField .eventTrbPointer o.eventTrbPointer, numField .vfInterrupterTarget o.vfInterrupterTarget,
     numField .c o.c, numField .type 18#6, numField .vfId o.vfId]))

/-- The Negotiate Bandwidth Command TRB as the decoder classifies it, with its fields (R200, R152, R155; entry 2). -/
def execNegotiateBandwidth (o : NegotiateBandwidthTrb) (s : State) : StepResult :=
  request s (answer (.decoded (.defined .negotiateBandwidth) (encodeNegotiateBandwidth o)
    [numField .c o.c, numField .type 19#6, numField .slotId o.slotId]))

/-- The Set Latency Tolerance Value Command TRB as the decoder classifies it, with its fields (R201, R152, R155; entry 2). -/
def execSetLatencyToleranceValue (o : SetLatencyToleranceValueTrb) (s : State) : StepResult :=
  request s (answer (.decoded (.defined .setLatencyToleranceValue) (encodeSetLatencyToleranceValue o)
    [numField .c o.c, numField .type 20#6,
     numField .bestEffortLatencyToleranceValue o.bestEffortLatencyToleranceValue]))

/-- The Get Port Bandwidth Command TRB as the decoder classifies it, with its fields (R202, R152, R155; entry 2). -/
def execGetPortBandwidth (o : GetPortBandwidthTrb) (s : State) : StepResult :=
  request s (answer (.decoded (.defined .getPortBandwidth) (encodeGetPortBandwidth o)
    [pointerField .portBandwidthContextPointer o.portBandwidthContextPointer, numField .c o.c, numField .type 21#6,
     numField .devSpeed o.devSpeed, numField .hubSlotId o.hubSlotId]))

/-- The Force Header Command TRB as the decoder classifies it, with its fields (R203, R152, R155; entry 2). -/
def execForceHeader (o : ForceHeaderTrb) (s : State) : StepResult :=
  request s (answer (.decoded (.defined .forceHeader) (encodeForceHeader o)
    [numField .packetType o.packetType, numField .headerInfoLo o.headerInfoLo,
     numField .headerInfoMid o.headerInfoMid, numField .headerInfoHi o.headerInfoHi, numField .c o.c,
     numField .type 22#6, numField .rootHubPortNumber o.rootHubPortNumber]))

/-- The No Op Command TRB as the decoder classifies it, with its fields (R204, R152, R155; entry 2). -/
def execNoOpCommand (o : NoOpCommandTrb) (s : State) : StepResult :=
  request s (answer (.decoded (.defined .noOpCommand) (encodeNoOpCommand o)
    [numField .c o.c, numField .type 23#6]))

/-- The Get Extended Property Command TRB as the decoder classifies it, with its fields (R205, R152, R155; entry 2). -/
def execGetExtendedProperty (o : GetExtendedPropertyTrb) (s : State) : StepResult :=
  request s (answer (.decoded (.defined .getExtendedProperty) (encodeGetExtendedProperty o)
    [pointerField .extendedPropertyContextPointer o.extendedPropertyContextPointer,
     numField .extendedCapabilityIdentifier o.extendedCapabilityIdentifier, numField .c o.c, numField .type 24#6,
     numField .commandSubType o.commandSubType, numField .endpointId o.endpointId, numField .slotId o.slotId]))

/-- The Set Extended Property Command TRB as the decoder classifies it, with its fields (R206, R152, R155; entry 2). -/
def execSetExtendedProperty (o : SetExtendedPropertyTrb) (s : State) : StepResult :=
  request s (answer (.decoded (.defined .setExtendedProperty) (encodeSetExtendedProperty o)
    [numField .extendedCapabilityIdentifier o.extendedCapabilityIdentifier,
     numField .capabilityParameter o.capabilityParameter, numField .c o.c, numField .type 25#6,
     numField .commandSubType o.commandSubType, numField .endpointId o.endpointId, numField .slotId o.slotId]))

end Sys2Proof.Machine
end

