-- ==== Sys2Proof/Machine/Flags.lean ====
section
/-! DEFINITION. The bits by which a slot changes hands: the Cycle bit, the Chain bit, a Link's DW3 (R33, R245 to R248).
The block has no condition codes (R25). -/

namespace Sys2Proof.Machine

/-- A bit of `T`. -/
def trbBit (b : Bool) : Trb := (BitVec.ofBool b).setWidth 128

/-- `T` with the Cycle bit `T[96]` at the ring's Cycle State (R245). -/
def withCycle (t : Trb) (b : Bool) : Trb := putBits t 96 1 (trbBit b)

/-- The variant has a `ch` field (R248). -/
def hasChain (k : TrbKind) : Bool := (findRow k .ch).isSome

/-- The Chain bit that a TRB hands to the Link after it: its own, or 0 where its variant has none (R245, R248). -/
def chainOf (t : Trb) : Bool := hasChain (kindOf t) && t.getLsbD 100

/-- DW3 of a traversed Link: Type 6, CH, TC and the Cycle bit (R247). -/
def linkControl (ch tc cycle : Bool) : Word :=
  (6#32 <<< 10) ||| ((BitVec.ofBool ch).setWidth 32 <<< 4) ||| ((BitVec.ofBool tc).setWidth 32 <<< 1) |||
    (BitVec.ofBool cycle).setWidth 32

/-- A slot is produced in the current pass when its DW3 has the ring's Cycle State at bit 0 (R33, R276). -/
def produced (d3 : Word) (ccs : Bool) : Bool := d3.getLsbD 0 == ccs

/-- A kind of ring accepts a TRB by its group (R244). -/
def accepts : RingKind → Group → Bool
  | .command, .command => true
  | .transfer, .transfer => true
  | .command, .transfer | .command, .link | .command, .event | .command, .unrecognized => false
  | .transfer, .command | .transfer, .link | .transfer, .event | .transfer, .unrecognized => false

end Sys2Proof.Machine
end

