-- ==== Sys2Proof/Machine/Rings.lean ====
section
/-! DEFINITION. The Ring Engine's shared operations: slot addresses, construction checks, construction writes, Link
traversal, the segment indexer (R241, R242, R247, R271, R272, R278). -/

namespace Sys2Proof.Machine

/-- The physical address of slot `j` of a segment (R32, R38). -/
def slotAddr (g : Segment) (j : Nat) : Addr := g.base + BitVec.ofNat 64 (16 * j)

/-! ## Construction checks -/

/-- Tests 2a to 2d of R242 on one segment, in their order. -/
def checkSegment (lo hi : Nat) (g : Segment) : Option FaultCode :=
  let b := g.base.toNat
  if b = 0 then some .zeroAddress
  else if b % Config.segAlign ≠ 0 then some .misaligned
  else if g.size < lo ∨ g.size > hi then some .segSize
  else if b / Config.segBoundary ≠ (b + 16 * g.size - 1) / Config.segBoundary then some .segBoundary
  else none

/-- `CheckSegments(segs, MIN, MAX)` (R242). -/
def checkSegments (segs : List Segment) (lo hi : Nat) : Option FaultCode :=
  if segs.length = 0 then some .zeroSegments else segs.findSome? (checkSegment lo hi)

/-- `CheckERST(erst_base, segs)` (R272). -/
def checkErst (erstMax : Nat) (erstBase : Addr) (segs : List Segment) : Option FaultCode :=
  if segs.length = 0 then some .zeroSegments
  else if segs.length > erstMax then some .erstSize
  else if erstBase.toNat = 0 then some .zeroAddress
  else if erstBase.toNat % Config.segAlign ≠ 0 then some .misaligned
  else if erstBase.toNat + 16 * segs.length - 1 ≥ 2 ^ 64 then some .segBoundary
  else segs.findSome? (checkSegment Config.evtSegMin Config.evtSegMax)

/-! ## Construction writes -/

/-- Zeros into the first `n` slots of a segment (R241, R271). -/
def zeroSlots (g : Segment) (n : Nat) (s : State) : State :=
  (List.range n).foldl (fun s j => trbWrite (slotAddr g j) 0#128 s) s

/-- The Link TRB of a segment at construction (R241, R243). -/
def linkTrb (target : Addr) (tc : Bool) : Trb :=
  place (target.extractLsb' 4 60) 4 ||| place (BitVec.ofBool tc) 97 ||| place 6#6 106

/-- A producer ring's segments, in order, each with zeros and a Link to the next, the last one's to the first (R241). -/
def writeProducer (first : Segment) : List Segment → State → State
  | [], s => s
  | g :: rest, s =>
    let link := linkTrb (rest.headD first).base rest.isEmpty
    writeProducer first rest (trbWrite (slotAddr g (g.size - 1)) link (zeroSlots g (g.size - 1) s))

/-- ERST entry for a segment at `e` (R95, R271). -/
def writeErstEntry (e : Addr) (g : Segment) (s : State) : State :=
  memWrite (e + 12#64) 0#32
    (memWrite (e + 8#64) (BitVec.ofNat 32 g.size)
      (memWrite (e + 4#64) (g.base.extractLsb' 32 32) (memWrite e (g.base.extractLsb' 0 32) s)))

/-- An Event Ring's ERST entries and segments, in order (R271). -/
def writeEvent (e : Addr) : List Segment → State → State
  | [], s => s
  | g :: rest, s => writeEvent (e + 16#64) rest (zeroSlots g g.size (writeErstEntry e g s))

/-! ## Cursors -/

/-- `Traverse(r)` (R247), from the Link slot of the segment `g` that the cursor has filled. -/
def traverse (g : Segment) (p : ProducerRing) (s : State) : ProducerRing × State :=
  let tc := p.seg + 1 == p.segs.length
  let s := memWrite (slotAddr g (g.size - 1) + 12#64) (linkControl p.lastCh tc p.pcs) (orderW s)
  ({ p with pcs := p.pcs ^^ tc, seg := (p.seg + 1) % p.segs.length, idx := 0 }, s)

/-- `Advance(r)` (R278), from the segment `g` of the cursor. -/
def advance (g : Segment) (c : ConsumerRing) : ConsumerRing :=
  if c.idx + 1 = g.size then
    if c.seg + 1 = c.segs.length then { c with idx := 0, seg := 0, ccs := !c.ccs }
    else { c with idx := 0, seg := c.seg + 1 }
  else { c with idx := c.idx + 1 }

/-- The enqueue of `T` at the cursor (R245): the slot, the cursor, the Link when the segment is full. -/
def enqueueAt (g : Segment) (t : Trb) (p : ProducerRing) (s : State) : ProducerRing × State :=
  let t := withCycle t p.pcs
  let s := trbWrite (slotAddr g p.idx) t s
  let p := { p with lastCh := chainOf t, idx := p.idx + 1, phase := .running }
  if p.idx + 1 = g.size then traverse g p s else (p, s)

/-! ## Rings by identifier -/

/-- The producer ring of an identifier, if it names one. -/
def producer? (s : State) (r : Nat) : Option ProducerRing :=
  match s.ring? r with
  | some (.producer p) => some p
  | some (.consumer _) | none => none

/-- The consumer ring of an identifier, if it names one. -/
def consumer? (s : State) (r : Nat) : Option ConsumerRing :=
  match s.ring? r with
  | some (.consumer c) => some c
  | some (.producer _) | none => none

/-- The segment of a producer ring's cursor. -/
def producerSegment (p : ProducerRing) : Option Segment := p.segs[p.seg]?

/-- The segment of a consumer ring's cursor. -/
def consumerSegment (c : ConsumerRing) : Option Segment := c.segs[c.seg]?

/-- A request on a producer ring and the segment of its cursor: `F_WRONG_RING` where the identifier names none (R331). -/
def onProducer (s : State) (r : Nat) (run : ProducerRing → Segment → StepResult) : StepResult :=
  match producer? s r with
  | none => raiseFault .wrongRing s
  | some p =>
    match producerSegment p with
    | none => .fault .cursorOutOfRange
    | some g => run p g

/-- A request on a consumer ring: `F_WRONG_RING` where the identifier names none (R331). -/
def onConsumer (s : State) (r : Nat) (run : ConsumerRing → StepResult) : StepResult :=
  match consumer? s r with
  | none => raiseFault .wrongRing s
  | some c => run c

/-- A request on a consumer ring and the segment of its cursor. -/
def onConsumerSegment (s : State) (r : Nat) (run : ConsumerRing → Segment → StepResult) : StepResult :=
  onConsumer s r fun c =>
    match consumerSegment c with
    | none => .fault .cursorOutOfRange
    | some g => run c g

end Sys2Proof.Machine
end

