-- ==== Sys2Proof/Machine/ConsumerRing.lean ====
section
/-! DEFINITION. The requests on consumer rings (R271, R276, R281 to R284). -/

namespace Sys2Proof.Machine

/-- A consumer ring at construction (R271). -/
def newConsumer (erstBase : Addr) (segs : List Segment) : ConsumerRing where
  segs := segs
  erstBase := erstBase
  seg := 0
  idx := 0
  ccs := true
  phase := .empty

/-- `INIT_EVENT(erst_base, segs)` (R271). -/
def execInitEvent (erstBase : Addr) (segs : List Segment) (s : State) : StepResult :=
  request s fun s =>
    match checkErst s.erstMax erstBase segs with
    | some code => raiseFault code s
    | none =>
      answer (.ring s.rings.length)
        ((orderW (writeEvent erstBase segs s)).addRing (.consumer (newConsumer erstBase segs)))

/-- The three reads after a slot's DW3 matched, DW0 to DW2 (R58, R276). -/
def readRest (pa : Addr) (d3 : Word) (s : State) : Trb × State :=
  let d0 := memRead pa (orderR s)
  let d1 := memRead (pa + 4#64) d0.2
  let d2 := memRead (pa + 8#64) d1.2
  (trbOfWords d0.1 d1.1 d2.1 d3, d2.2)

/-- `DEQUEUE(r)` (R276). -/
def execDequeue (r : Nat) (s : State) : StepResult :=
  request s fun s =>
    onConsumerSegment s r fun c g =>
      let pa := slotAddr g c.idx
      let d3 := memRead (pa + 12#64) s
      if produced d3.1 c.ccs then
        let got := readRest pa d3.1 d3.2
        answer (.event (kindOf got.1) got.1) (got.2.setRing r (.consumer { advance g c with phase := .running }))
      else answer .nothing d3.2

/-- `DEQUEUE_POINTER(r)` (R281). -/
def execDequeuePointer (r : Nat) (s : State) : StepResult :=
  request s fun s => onConsumerSegment s r fun c g => answer (.dequeuePointer (slotAddr g c.idx) c.seg c.ccs) s

/-- The mutation list of a dequeue pointer (R282). -/
def erdpActions (pa : Addr) (seg : Nat) (clearBusy : Bool) : List Action :=
  [.set .erdpPointer (pa.toNat / 16), .set .desi (seg % 8)] ++ if clearBusy then [.clear .ehb] else []

/-- `ERDP_VALUE(r, clear_busy)` (R282). -/
def execErdpValue (r : Nat) (clearBusy : Bool) (s : State) : StepResult :=
  request s fun s =>
    onConsumerSegment s r fun c g => answer (.mutations (erdpActions (slotAddr g c.idx) c.seg clearBusy)) s

/-- `ERSTSZ_VALUE(r)` (R283). -/
def execErstszValue (r : Nat) (s : State) : StepResult :=
  request s fun s => onConsumer s r fun c => answer (.mutations [.set .erstSize c.segs.length]) s

/-- `ERSTBA_VALUE(r)` (R284). -/
def execErstbaValue (r : Nat) (s : State) : StepResult :=
  request s fun s => onConsumer s r fun c => answer (.mutations [.set .erstbaPointer (c.erstBase.toNat / 64)]) s

end Sys2Proof.Machine
end

