-- ==== Sys2Proof/Machine/FieldCodec.lean ====
section
/-! DEFINITION. The Field Codec (R124 to R127). -/

namespace Sys2Proof.Machine

/-- `READ(ra, L)` (R124). -/
def execRead (ra : Addr) (L : Layout) (s : State) : StepResult :=
  request s fun s =>
    let got := wordRead ra L.width s
    answer (.snapshot L got.1) got.2

/-- `GET((L, snap), f)` (R125). -/
def execGet (L : Layout) (snap : RegValue) (f : RegField) (s : State) : StepResult :=
  request s fun s =>
    match snapshotField L snap f with
    | none => raiseFault .notWritable s
    | some x => answer (.fieldValue x) s

/-- `UPDATE(ra, L, M)` (R126): the check before any access, then the read, then the write. -/
def execUpdate (ra : Addr) (L : Layout) (M : List Action) (s : State) : StepResult :=
  request s fun s =>
    match checkMutations L M with
    | some code => raiseFault code s
    | none =>
      let got := wordRead ra L.width s
      let w := compose L got.1 M
      answer (.written w) (wordWrite ra L.width w got.2)

/-- The write of a write-only word, from a snapshot of zeros (R127, R315). -/
def writeOnly (ra : Addr) (L : Layout) (M : List Action) (s : State) : StepResult :=
  match checkMutations L M with
  | some code => raiseFault code s
  | none =>
    let w := compose L 0#64 M
    answer (.written w) (wordWrite ra L.width w s)

/-- `WRITE(ra, L, M)` (R127). -/
def execWrite (ra : Addr) (L : Layout) (M : List Action) (s : State) : StepResult :=
  request s (writeOnly ra L M)

end Sys2Proof.Machine
end

