-- ==== Sys2Proof/Machine/Doorbell.lean ====
section
/-! DEFINITION. The doorbell (R310, R315). -/

namespace Sys2Proof.Machine

/-- The mutation list of a doorbell write (R315). -/
def doorbellActions (target stream : Nat) : List Action := [.set .dbTarget target, .set .dbStreamId stream]

/-- `RING_DOORBELL(db, slot, target, stream)` (R315). -/
def execRingDoorbell (db : Addr) (slot target stream : Nat) (s : State) : StepResult :=
  request s fun s =>
    if slot ≥ 256 then raiseFault .tooWide s
    else writeOnly (db + BitVec.ofNat 64 (4 * slot)) doorbellLayout (doorbellActions target stream) s

end Sys2Proof.Machine
end

