-- ==== Sys2Proof/Machine/Event.lean ====
section
/-! DEFINITION. The event TRBs (R220 to R227). -/

namespace Sys2Proof.Machine

/-- The Transfer Event TRB as the decoder classifies it, with its fields (R220, R152, R155; entry 2). -/
def execTransferEvent (o : TransferEventTrb) (s : State) : StepResult :=
  request s (answer (.decoded (.defined .transferEvent) (encodeTransferEvent o)
    [numField .trbPointer o.trbPointer, numField .trbTransferLength o.trbTransferLength, codeField o.completionCode,
     numField .c o.c, numField .ed o.ed, numField .type 32#6, numField .endpointId o.endpointId,
     numField .slotId o.slotId]))

/-- The Command Completion Event TRB as the decoder classifies it, with its fields (R221, R152, R155; entry 2). -/
def execCommandCompletionEvent (o : CommandCompletionEventTrb) (s : State) : StepResult :=
  request s (answer (.decoded (.defined .commandCompletionEvent) (encodeCommandCompletionEvent o)
    [pointerField .commandTrbPointer o.commandTrbPointer,
     numField .commandCompletionParameter o.commandCompletionParameter, codeField o.completionCode, numField .c o.c,
     numField .type 33#6, numField .vfId o.vfId, numField .slotId o.slotId]))

/-- The Port Status Change Event TRB as the decoder classifies it, with its fields (R222, R152, R155; entry 2). -/
def execPortStatusChangeEvent (o : PortStatusChangeEventTrb) (s : State) : StepResult :=
  request s (answer (.decoded (.defined .portStatusChangeEvent) (encodePortStatusChangeEvent o)
    [numField .portId o.portId, codeField o.completionCode, numField .c o.c, numField .type 34#6]))

/-- The Bandwidth Request Event TRB as the decoder classifies it, with its fields (R223, R152, R155; entry 2). -/
def execBandwidthRequestEvent (o : BandwidthRequestEventTrb) (s : State) : StepResult :=
  request s (answer (.decoded (.defined .bandwidthRequestEvent) (encodeBandwidthRequestEvent o)
    [codeField o.completionCode, numField .c o.c, numField .type 35#6, numField .slotId o.slotId]))

/-- The Doorbell Event TRB as the decoder classifies it, with its fields (R224, R152, R155; entry 2). -/
def execDoorbellEvent (o : DoorbellEventTrb) (s : State) : StepResult :=
  request s (answer (.decoded (.defined .doorbellEvent) (encodeDoorbellEvent o)
    [numField .dbReason o.dbReason, codeField o.completionCode, numField .c o.c, numField .type 36#6,
     numField .vfId o.vfId, numField .slotId o.slotId]))

/-- The Host Controller Event TRB as the decoder classifies it, with its fields (R225, R152, R155; entry 2). -/
def execHostControllerEvent (o : HostControllerEventTrb) (s : State) : StepResult :=
  request s (answer (.decoded (.defined .hostControllerEvent) (encodeHostControllerEvent o)
    [codeField o.completionCode, numField .c o.c, numField .type 37#6]))

/-- The Device Notification Event TRB as the decoder classifies it, with its fields (R226, R152, R155; entry 2). -/
def execDeviceNotificationEvent (o : DeviceNotificationEventTrb) (s : State) : StepResult :=
  request s (answer (.decoded (.defined .deviceNotificationEvent) (encodeDeviceNotificationEvent o)
    [numField .notificationType o.notificationType, numField .deviceNotificationData o.deviceNotificationData,
     codeField o.completionCode, numField .c o.c, numField .type 38#6, numField .slotId o.slotId]))

/-- The MFINDEX Wrap Event TRB as the decoder classifies it, with its fields (R227, R152, R155; entry 2). -/
def execMfindexWrapEvent (o : MfindexWrapEventTrb) (s : State) : StepResult :=
  request s (answer (.decoded (.defined .mfindexWrapEvent) (encodeMfindexWrapEvent o)
    [codeField o.completionCode, numField .c o.c, numField .type 39#6]))

end Sys2Proof.Machine
end

