-- ==== Sys2Proof/Machine/ProducerRing.lean ====
section
/-! DEFINITION. The requests on producer rings (R241, R245, R250, R251). -/

namespace Sys2Proof.Machine

/-- A producer ring at construction (R241). -/
def newProducer (kind : RingKind) (segs : List Segment) : ProducerRing where
  kind := kind
  segs := segs
  seg := 0
  idx := 0
  pcs := true
  phase := .empty
  lastCh := false

/-- The memory writes of `INIT_PRODUCER` (R241). -/
def producerWrites (segs : List Segment) (s : State) : State :=
  match segs with
  | [] => s
  | first :: _ => orderW (writeProducer first segs s)

/-- `INIT_PRODUCER(kind, segs)` (R241). -/
def execInitProducer (kind : RingKind) (segs : List Segment) (s : State) : StepResult :=
  request s fun s =>
    match checkSegments segs Config.prodSegMin Config.prodSegMax with
    | some code => raiseFault code s
    | none => answer (.ring s.rings.length) ((producerWrites segs s).addRing (.producer (newProducer kind segs)))

/-- `ENQUEUE(r, v)` (R245). -/
def execEnqueue (r : Nat) (v : Trb) (s : State) : StepResult :=
  request s fun s =>
    onProducer s r fun p g =>
      if accepts p.kind (groupOf (kindOf v)) then
        let done := enqueueAt g v p s
        answer (.address (slotAddr g p.idx)) (done.2.setRing r (.producer done.1))
      else raiseFault .notAllowed s

/-- `ENQUEUE_POINTER(r)` (R250). -/
def execEnqueuePointer (r : Nat) (s : State) : StepResult :=
  request s fun s => onProducer s r fun p g => answer (.pointer (slotAddr g p.idx) p.pcs) s

/-- The mutation list of a Command Ring pointer (R251). -/
def crcrActions (pa : Addr) (cycle : Bool) : List Action :=
  [.set .commandRingPointer (pa.toNat / 64), .set .rcs cycle.toNat]

/-- `CRCR_VALUE(r)` (R251). -/
def execCrcrValue (r : Nat) (s : State) : StepResult :=
  request s fun s =>
    onProducer s r fun p g =>
      if p.kind ≠ .command then raiseFault .wrongRing s
      else if (slotAddr g p.idx).toNat % 64 ≠ 0 then raiseFault .misaligned s
      else answer (.mutations (crcrActions (slotAddr g p.idx) p.pcs)) s

end Sys2Proof.Machine
end

