-- ==== Sys2Proof/Machine/Transfer.lean ====
section
/-! DEFINITION. The transfer TRBs (R170 to R177) and the Link (R175). -/

namespace Sys2Proof.Machine

/-- The Normal TRB as the decoder classifies it, with its fields (R170, R152, R155; entry 2). -/
def execNormal (o : NormalTrb) (s : State) : StepResult :=
  request s (answer (.decoded (.defined .normal) (encodeNormal o)
    [numField .dataBufferPointer o.dataBufferPointer, numField .trbTransferLength o.trbTransferLength,
     numField .tdSize o.tdSize, numField .interrupterTarget o.interrupterTarget, numField .c o.c,
     numField .ent o.ent, numField .isp o.isp, numField .ns o.ns, numField .ch o.ch, numField .ioc o.ioc,
     numField .idt o.idt, numField .bei o.bei, numField .type 1#6]))

/-- The Setup Stage TRB as the decoder classifies it, with its fields (R171, R152, R155; entry 2). -/
def execSetupStage (o : SetupStageTrb) (s : State) : StepResult :=
  request s (answer (.decoded (.defined .setupStage) (encodeSetupStage o)
    [numField .bmRequestType o.bmRequestType, numField .bRequest o.bRequest, numField .wValue o.wValue,
     numField .wIndex o.wIndex, numField .wLength o.wLength, numField .trbTransferLength o.trbTransferLength,
     numField .interrupterTarget o.interrupterTarget, numField .c o.c, numField .ioc o.ioc, numField .idt o.idt,
     numField .type 2#6, numField .trt o.trt]))

/-- The Data Stage TRB as the decoder classifies it, with its fields (R172, R152, R155; entry 2). -/
def execDataStage (o : DataStageTrb) (s : State) : StepResult :=
  request s (answer (.decoded (.defined .dataStage) (encodeDataStage o)
    [numField .dataBufferPointer o.dataBufferPointer, numField .trbTransferLength o.trbTransferLength,
     numField .tdSize o.tdSize, numField .interrupterTarget o.interrupterTarget, numField .c o.c,
     numField .ent o.ent, numField .isp o.isp, numField .ns o.ns, numField .ch o.ch, numField .ioc o.ioc,
     numField .idt o.idt, numField .type 3#6, numField .dir o.dir]))

/-- The Status Stage TRB as the decoder classifies it, with its fields (R173, R152, R155; entry 2). -/
def execStatusStage (o : StatusStageTrb) (s : State) : StepResult :=
  request s (answer (.decoded (.defined .statusStage) (encodeStatusStage o)
    [numField .interrupterTarget o.interrupterTarget, numField .c o.c, numField .ent o.ent, numField .ch o.ch,
     numField .ioc o.ioc, numField .type 4#6, numField .dir o.dir]))

/-- The Isoch TRB as the decoder classifies it, with its fields (R174, R152, R155; entry 2). -/
def execIsoch (o : IsochTrb) (s : State) : StepResult :=
  request s (answer (.decoded (.defined .isoch) (encodeIsoch o)
    [numField .dataBufferPointer o.dataBufferPointer, numField .trbTransferLength o.trbTransferLength,
     numField .tdSizeTbc o.tdSizeTbc, numField .interrupterTarget o.interrupterTarget, numField .c o.c,
     numField .ent o.ent, numField .isp o.isp, numField .ns o.ns, numField .ch o.ch, numField .ioc o.ioc,
     numField .idt o.idt, numField .tbc o.tbc, numField .bei o.bei, numField .type 5#6, numField .tlbpc o.tlbpc,
     numField .frameId o.frameId, numField .sia o.sia]))

/-- The Link TRB as the decoder classifies it, with its fields (R175, R152, R155; entry 2). -/
def execLink (o : LinkTrb) (s : State) : StepResult :=
  request s (answer (.decoded (.defined .link) (encodeLink o)
    [pointerField .ringSegmentPointer o.ringSegmentPointer, numField .interrupterTarget o.interrupterTarget,
     numField .c o.c, numField .tc o.tc, numField .ch o.ch, numField .ioc o.ioc, numField .type 6#6]))

/-- The Event Data TRB as the decoder classifies it, with its fields (R176, R152, R155; entry 2). -/
def execEventData (o : EventDataTrb) (s : State) : StepResult :=
  request s (answer (.decoded (.defined .eventData) (encodeEventData o)
    [numField .eventData o.eventData, numField .interrupterTarget o.interrupterTarget, numField .c o.c,
     numField .ent o.ent, numField .ch o.ch, numField .ioc o.ioc, numField .bei o.bei, numField .type 7#6]))

/-- The No Op TRB (transfer ring) as the decoder classifies it, with its fields (R177, R152, R155; entry 2). -/
def execNoOp (o : NoOpTrb) (s : State) : StepResult :=
  request s (answer (.decoded (.defined .noOp) (encodeNoOp o)
    [numField .interrupterTarget o.interrupterTarget, numField .c o.c, numField .ent o.ent, numField .ch o.ch,
     numField .ioc o.ioc, numField .type 8#6]))

end Sys2Proof.Machine
end

