-- ==== Sys2Proof/Machine/TrbCodec.lean ====
section
/-! DEFINITION. The TRB Codec (R151 to R155). -/

namespace Sys2Proof.Machine

/-- `TRB_NEW(K)` (R151). -/
def execTrbNew (K : Variant) (s : State) : StepResult :=
  request s (answer (.trb (.defined K) (fixedPattern K)))

/-- `TRB_GET(v, f)` (R152). -/
def execTrbGet (v : Trb) (f : TrbField) (s : State) : StepResult :=
  request s fun s =>
    match trbFieldValue v f with
    | none => raiseFault .notWritable s
    | some x => answer (.trbField x) s

/-- `TRB_SET(v, f, x)` (R153). -/
def execTrbSet (v : Trb) (f : TrbField) (x : SetValue) (s : State) : StepResult :=
  request s fun s =>
    match trbFieldSet v f x with
    | .error code => raiseFault code s
    | .ok t => answer (.trb (kindOf t) t) s

/-- `TRB_ENCODE(v)` (R154). -/
def execTrbEncode (v : Trb) (s : State) : StepResult :=
  request s (answer (.words (dw0 v) (dw1 v) (dw2 v) (dw3 v)))

/-- `TRB_DECODE([w0, w1, w2, w3])` (R155). -/
def execTrbDecode (w0 w1 w2 w3 : Word) (s : State) : StepResult :=
  let t := trbOfWords w0 w1 w2 w3
  request s (answer (.trb (kindOf t) t))

end Sys2Proof.Machine
end

