-- ==== Sys2Proof/Machine/Unrecognized.lean ====
section
/-! DEFINITION. The Unrecognized TRBs (R83, R156): their raw words, Type and Cycle bit are their only fields. -/

namespace Sys2Proof.Machine

/-- The fields of an Unrecognized value (R156). -/
def unrecognizedFields (t : Trb) : List (TrbField × FieldValue) :=
  [(.raw, rawWords t), numField .type (typeField t), numField .c (field t 96 1)]

/-- An Unrecognized TRB of Type 0 (R156). -/
def execUnrecognized0 (o : UnrecognizedTrb 0) (s : State) : StepResult :=
  let t := encodeUnrecognized 0#6 o
  request s (answer (.decoded .unrecognized t (unrecognizedFields t)))

/-- An Unrecognized TRB of Type 26-27 (R156). -/
def execUnrecognized26 (o : UnrecognizedTrb 1) (s : State) : StepResult :=
  let t := encodeUnrecognized 13#5 o
  request s (answer (.decoded .unrecognized t (unrecognizedFields t)))

/-- An Unrecognized TRB of Type 28-31 (R156). -/
def execUnrecognized28 (o : UnrecognizedTrb 2) (s : State) : StepResult :=
  let t := encodeUnrecognized 7#4 o
  request s (answer (.decoded .unrecognized t (unrecognizedFields t)))

/-- An Unrecognized TRB of Type 40-47 (R156). -/
def execUnrecognized40 (o : UnrecognizedTrb 3) (s : State) : StepResult :=
  let t := encodeUnrecognized 5#3 o
  request s (answer (.decoded .unrecognized t (unrecognizedFields t)))

/-- An Unrecognized TRB of Type 48-63 (R156). -/
def execUnrecognized48 (o : UnrecognizedTrb 4) (s : State) : StepResult :=
  let t := encodeUnrecognized 3#2 o
  request s (answer (.decoded .unrecognized t (unrecognizedFields t)))

end Sys2Proof.Machine
end

