-- ==== Sys2Proof/Machine/Dispatch.lean ====
section
/-! DEFINITION. One arm per constructor of `Instr`, each one call of its meaning. -/

namespace Sys2Proof.Machine

def exec (i : Instr) (s : State) : Host.Outcome State Fault Refusal :=
  match i with
  | .normal o => Sys2Proof.Machine.execNormal o s
  | .setupStage o => Sys2Proof.Machine.execSetupStage o s
  | .dataStage o => Sys2Proof.Machine.execDataStage o s
  | .statusStage o => Sys2Proof.Machine.execStatusStage o s
  | .isoch o => Sys2Proof.Machine.execIsoch o s
  | .link o => Sys2Proof.Machine.execLink o s
  | .eventData o => Sys2Proof.Machine.execEventData o s
  | .noOp o => Sys2Proof.Machine.execNoOp o s
  | .enableSlot o => Sys2Proof.Machine.execEnableSlot o s
  | .disableSlot o => Sys2Proof.Machine.execDisableSlot o s
  | .addressDevice o => Sys2Proof.Machine.execAddressDevice o s
  | .configureEndpoint o => Sys2Proof.Machine.execConfigureEndpoint o s
  | .evaluateContext o => Sys2Proof.Machine.execEvaluateContext o s
  | .resetEndpoint o => Sys2Proof.Machine.execResetEndpoint o s
  | .stopEndpoint o => Sys2Proof.Machine.execStopEndpoint o s
  | .setTrDequeuePointer o => Sys2Proof.Machine.execSetTrDequeuePointer o s
  | .resetDevice o => Sys2Proof.Machine.execResetDevice o s
  | .forceEvent o => Sys2Proof.Machine.execForceEvent o s
  | .negotiateBandwidth o => Sys2Proof.Machine.execNegotiateBandwidth o s
  | .setLatencyToleranceValue o => Sys2Proof.Machine.execSetLatencyToleranceValue o s
  | .getPortBandwidth o => Sys2Proof.Machine.execGetPortBandwidth o s
  | .forceHeader o => Sys2Proof.Machine.execForceHeader o s
  | .noOpCommand o => Sys2Proof.Machine.execNoOpCommand o s
  | .getExtendedProperty o => Sys2Proof.Machine.execGetExtendedProperty o s
  | .setExtendedProperty o => Sys2Proof.Machine.execSetExtendedProperty o s
  | .transferEvent o => Sys2Proof.Machine.execTransferEvent o s
  | .commandCompletionEvent o => Sys2Proof.Machine.execCommandCompletionEvent o s
  | .portStatusChangeEvent o => Sys2Proof.Machine.execPortStatusChangeEvent o s
  | .bandwidthRequestEvent o => Sys2Proof.Machine.execBandwidthRequestEvent o s
  | .doorbellEvent o => Sys2Proof.Machine.execDoorbellEvent o s
  | .hostControllerEvent o => Sys2Proof.Machine.execHostControllerEvent o s
  | .deviceNotificationEvent o => Sys2Proof.Machine.execDeviceNotificationEvent o s
  | .mfindexWrapEvent o => Sys2Proof.Machine.execMfindexWrapEvent o s
  | .unrecognized0 o => Sys2Proof.Machine.execUnrecognized0 o s
  | .unrecognized26 o => Sys2Proof.Machine.execUnrecognized26 o s
  | .unrecognized28 o => Sys2Proof.Machine.execUnrecognized28 o s
  | .unrecognized40 o => Sys2Proof.Machine.execUnrecognized40 o s
  | .unrecognized48 o => Sys2Proof.Machine.execUnrecognized48 o s
  | .read ra L => Sys2Proof.Machine.execRead ra L s
  | .get L snap f => Sys2Proof.Machine.execGet L snap f s
  | .update ra L M => Sys2Proof.Machine.execUpdate ra L M s
  | .write ra L M => Sys2Proof.Machine.execWrite ra L M s
  | .trbNew K => Sys2Proof.Machine.execTrbNew K s
  | .trbGet v f => Sys2Proof.Machine.execTrbGet v f s
  | .trbSet v f x => Sys2Proof.Machine.execTrbSet v f x s
  | .trbEncode v => Sys2Proof.Machine.execTrbEncode v s
  | .trbDecode w0 w1 w2 w3 => Sys2Proof.Machine.execTrbDecode w0 w1 w2 w3 s
  | .initProducer kind segs => Sys2Proof.Machine.execInitProducer kind segs s
  | .enqueue r v => Sys2Proof.Machine.execEnqueue r v s
  | .enqueuePointer r => Sys2Proof.Machine.execEnqueuePointer r s
  | .crcrValue r => Sys2Proof.Machine.execCrcrValue r s
  | .initEvent erstBase segs => Sys2Proof.Machine.execInitEvent erstBase segs s
  | .dequeue r => Sys2Proof.Machine.execDequeue r s
  | .dequeuePointer r => Sys2Proof.Machine.execDequeuePointer r s
  | .erdpValue r clearBusy => Sys2Proof.Machine.execErdpValue r clearBusy s
  | .erstszValue r => Sys2Proof.Machine.execErstszValue r s
  | .erstbaValue r => Sys2Proof.Machine.execErstbaValue r s
  | .ringDoorbell db slot target stream => Sys2Proof.Machine.execRingDoorbell db slot target stream s

end Sys2Proof.Machine
end

