-- ==== Sys2Proof/Machine/Fetch.lean ====
section
/-! DEFINITION. What the request port hands to the machine: a request, or a slot's 16 bytes through the decoder (R20,
R99, R155). -/

namespace Sys2Proof.Machine

/-- The decoder on the bytes of a slot. -/
def fetchSlot (bytes : List Byte) : Except Refusal Instr :=
  match decodeBytes bytes with
  | .ok (i, []) => .ok i
  | .ok (_, _ :: _) | .error _ => .error .badSlot

/-- A request with the check a typed model makes statically (R96). -/
def fetchRequest (i : Instr) : Except Refusal Instr := if i.wf then .ok i else .error .illFormed

/-- The instruction an item of the request port stands for. -/
def fetch : PortItem → Except Refusal Instr
  | .request i => fetchRequest i
  | .slot bytes => fetchSlot bytes

end Sys2Proof.Machine
end

