-- ==== Sys2Proof/Machine/Step.lean ====
section
/-! DEFINITION. One step: the next item of the request port, performed to completion (R21); with nothing there, the
controller takes a turn (R22; entries 1 and 4). -/

namespace Sys2Proof.Machine

/-- One step of the machine. -/
def step (s : State) : StepResult :=
  match s.port with
  | [] => .next (controllerTurn s)
  | item :: rest =>
    match fetch item with
    | .error why => .refused why
    | .ok i => exec i { s with port := rest }

/-- The state with the 16 bytes of a TRB first on the request port (entry 3). -/
def State.withFetchWord (s : State) (nbits w : Nat) : State :=
  { s with port := .slot (tableBytes nbits w) :: s.port }

end Sys2Proof.Machine
end

