-- ==== Sys2Proof/Safety.lean ====
section
/-! DEFINITION. What a state of the machine must satisfy, and the terms claims use: the invariants of the rings, the
registers and the access trace (R31, R33, R36, R54, R60, R343), positions and capacities (R252, R280). -/

namespace Sys2Proof.Machine

/-! ## Legal states -/

/-- The bounds of R31 and what construction checked (R242), with the Command Ring's `last_ch` (R248). -/
def producerWf (p : ProducerRing) : Bool :=
  checkSegments p.segs Config.prodSegMin Config.prodSegMax == none &&
    (match producerSegment p with
      | some g => decide (p.idx + 2 ≤ g.size)
      | none => false) &&
    (p.kind == .transfer || !p.lastCh)

/-- The bounds of R36 and what construction checked (R272). -/
def consumerWf (erstMax : Nat) (c : ConsumerRing) : Bool :=
  checkErst erstMax c.erstBase c.segs == none &&
    (match consumerSegment c with
      | some g => decide (c.idx < g.size)
      | none => false)

/-- The bounds of a ring of either side. -/
def ringWf (erstMax : Nat) : Ring → Bool
  | .producer p => producerWf p
  | .consumer c => consumerWf erstMax c

/-- What no step changes of a register. -/
def regShape (r : Reg) : RegName × Addr × RegValue := (r.name, r.addr, r.reset)

/-- A register's value has no bit above its width (R7). -/
def regFits (r : Reg) : Bool := r.value.toNat < 2 ^ r.bits

/-- Which register it is, and where it stands (R300). -/
def regPlace (r : Reg) : RegName × Addr := (r.name, r.addr)

/-- What a controller reset gives a register is what R362 says, and for HCSPARAMS2, the constant that fixes the OPEN
`ERST_MAX_ENTRIES` (R6, R303), any 32-bit value. -/
def resetFits (r : Reg) : Bool :=
  if r.name = .hcsparams2 then r.reset.toNat < 2 ^ 32 else r.reset == r.name.resetValue

/-- The registers are those of the register map (R300), each within its width. -/
def regsWf (regs : List Reg) : Bool :=
  regs.map regPlace == resetRegs.map regPlace && (regs.all resetFits && regs.all regFits)

/-- A legal state of the machine. -/
structure MachineInv (s : State) : Prop where
  /-- Memory is in its canonical form. -/
  memory : Memory.wf s.mem = true
  /-- Every ring is within its bounds (R31, R36). -/
  rings : (s.rings.all (ringWf s.erstMax)) = true
  /-- The registers are those of the map (R300). -/
  registers : regsWf s.regs = true
  /-- The fault state never holds `F_DEAD`: it keeps the first code (R30). -/
  firstFault : s.fault ≠ some .dead

/-! ## The access trace (R60) -/

/-- The accesses of the block. -/
def blockTrace (tr : List Access) : List Access := tr.filter fun a => a.agent == .block

/-- The memory that the writes of a trace, newest first, leave on `m`. -/
def replay : List Access → Memory → Memory
  | [], m => m
  | a :: rest, m =>
    match a with
    | .memWrite pa _ v | .ctrlWrite pa v => memSetWord (replay rest m) pa v
    | .memRead _ _ _ | .regRead _ _ _ | .regWrite _ _ _ | .orderW | .orderR | .ctrlRead _ _ | .ctrlStatus _ _
    | .ctrlReact _ | .ctrlReport _ _ => replay rest m

/-- Every memory read of a trace shows what the writes before it left on `m` (R60). -/
def readsLatest (m : Memory) : List Access → Prop
  | [] => True
  | a :: rest =>
    (match a with
      | .memRead pa _ v => v = memGetWord (replay rest m) pa
      | .ctrlRead pa v => v = memGet (replay rest m) pa.toNat
      | .memWrite _ _ _ | .ctrlWrite _ _ | .regRead _ _ _ | .regWrite _ _ _ | .orderW | .orderR | .ctrlStatus _ _
      | .ctrlReact _ | .ctrlReport _ _ => True) ∧ readsLatest m rest

/-- Sequential consistency of the trace over memory `m` (R60). -/
def TraceOver (m : Memory) (s : State) : Prop := s.mem = replay s.trace m ∧ readsLatest m s.trace

/-! ## Who writes what (R24, R343) -/

/-- `a` is the address of a byte of a ring's segments. -/
def inSegments (segs : List Segment) (a : Nat) : Bool := segs.any fun g => segmentHolds g a

/-- `a` is the address of a byte of an Event Ring's ERST. -/
def inErst (c : ConsumerRing) (a : Nat) : Bool :=
  c.erstBase.toNat ≤ a && a < c.erstBase.toNat + 16 * c.segs.length

/-- `a` is the address of a byte of a ring's segments or ERST. -/
def ringHolds (g : Ring) (a : Nat) : Bool :=
  match g with
  | .producer p => inSegments p.segs a
  | .consumer c => inSegments c.segs a || inErst c a

/-- What R12, R24, R54 and R343 say of one access: the block's are aligned words of its rings, through `MapPhys`, and it
reads Event Ring slots only; the controller writes aligned words of Event Ring slots only. -/
def accessOk (rings : List Ring) : Access → Prop
  | .memRead pa view _ =>
    view = Config.mapPhys pa ∧ pa.toNat % 4 = 0 ∧ ∃ g ∈ rings, ∀ k < 4, g.consumerHolds (byteAddr pa k) = true
  | .memWrite pa view _ =>
    view = Config.mapPhys pa ∧ pa.toNat % 4 = 0 ∧ ∃ g ∈ rings, ∀ k < 4, ringHolds g (byteAddr pa k) = true
  | .ctrlWrite pa _ => pa.toNat % 4 = 0 ∧ ∀ k < 4, ∃ g ∈ rings, g.consumerHolds (byteAddr pa k) = true
  | .regRead _ _ _ | .regWrite _ _ _ | .orderW | .orderR | .ctrlRead _ _ | .ctrlStatus _ _ | .ctrlReact _
  | .ctrlReport _ _ => True

/-- Every access of the trace is one its agent may make. -/
def AccessInv (s : State) : Prop := ∀ a ∈ s.trace, accessOk s.rings a

/-! ## What a request leaves alone -/

/-- Every byte of memory outside `W` that the controller may not write (R24 (b)) is as before; with no act of the
controller scheduled, every byte outside `W` is. -/
def bytesKept (s t : State) (W : Nat → Prop) : Prop :=
  ∀ a, ¬ W a → (s.ctrlMayWrite a = false ∨ s.ctrl = []) → t.byteAt a = s.byteAt a

/-- No byte. -/
def noByte (_ : Nat) : Prop := False

/-- The parameters and the request port are as before (R6, R21). -/
def paramsKept (s t : State) : Prop := t.split64 = s.split64 ∧ t.erstMax = s.erstMax ∧ t.port = s.port

/-- The registers are as before, but for what the controller does in the accesses of the request (R22, R26). -/
def regsKept (s t : State) : Prop :=
  t.regs.map regShape = s.regs.map regShape ∧ (s.ctrl = [] → t.regs = s.regs)

/-- With no act of the controller scheduled, its own cursors are as before (R41 (c)). -/
def cursorsKept (s t : State) : Prop := s.ctrl = [] → t.hc = s.hc

/-- What every request with accesses keeps: the fault state, the parameters, the controller's cursors. -/
def frame (s t : State) (W : Nat → Prop) : Prop :=
  t.fault = s.fault ∧ paramsKept s t ∧ cursorsKept s t ∧ bytesKept s t W

/-- The controller's turn was the reaction `x`: bit `b` of register `n` is `v`, and no other bit of a register, and
nothing else but the trace and the schedule, changed (R319). -/
def reactedBit (s t : State) (x : Reaction) (n : RegName) (b : Nat) (v : Bool) : Prop :=
  t = { s with ctrl := [], regs := t.regs, trace := .ctrlReact x :: s.trace } ∧ t.regs.length = s.regs.length ∧
    ∀ (j : Nat) (q r : Reg), s.regs[j]? = some q → t.regs[j]? = some r →
      regShape r = regShape q ∧ r.low = q.low ∧
        ∀ i < 64, r.value.getLsbD i = if q.name = n ∧ i = b then v else q.value.getLsbD i

/-! ## The Cycle bits of a lap (R33) -/

/-- The memory of a ring: its segments, and its ERST where it has one, as (base, bytes). -/
def ringRegions : Ring → List (Nat × Nat)
  | .producer p => p.segs.map fun g => (g.base.toNat, 16 * g.size)
  | .consumer c =>
    (c.erstBase.toNat, 16 * c.segs.length) :: c.segs.map fun g => (g.base.toNat, 16 * g.size)

/-- Two regions have no byte in common. -/
def apart (x y : Nat × Nat) : Prop := x.1 + x.2 ≤ y.1 ∨ y.1 + y.2 ≤ x.1

/-- The rings' memories are pairwise disjoint, the precondition of R364 (a). -/
def RingsDisjoint (rings : List Ring) : Prop := (rings.flatMap ringRegions).Pairwise apart

/-- The Cycle bit of slot `j` of a segment in memory: bit 0 of its DW3 (R80). -/
def slotCycle (m : Memory) (g : Segment) (j : Nat) : Bool := (memGetWord m (slotAddr g j + 12#64)).getLsbD 0

/-- Slot `j` of segment `i` is before the cursor in ring order (R33). -/
def beforeCursor (p : ProducerRing) (i j : Nat) : Bool := i < p.seg || (i == p.seg && j < p.idx)

/-- R33: the slots before the cursor, passed Links among them, hold `pcs`; the others hold `~pcs`. -/
def LapInv (m : Memory) (p : ProducerRing) : Prop :=
  ∀ i g, p.segs[i]? = some g → ∀ j < g.size,
    slotCycle m g j = if beforeCursor p i j then p.pcs else !p.pcs

/-- R243: the Link of each segment, in its last slot, holds the base of the next segment, or of the first after the last. -/
def LinkInv (m : Memory) (p : ProducerRing) : Prop :=
  ∀ i g g', p.segs[i]? = some g → p.segs[(i + 1) % p.segs.length]? = some g' →
    memGetWord m (slotAddr g (g.size - 1)) = g'.base.extractLsb' 0 32 ∧
      memGetWord m (slotAddr g (g.size - 1) + 4#64) = g'.base.extractLsb' 32 32

/-! ## Positions (R252, R280) -/

/-- The data slots of a producer ring's segments: all but each Link slot (R252). -/
def dataSlots (segs : List Segment) : Nat := (segs.map fun g => g.size - 1).sum

/-- The slots of an Event Ring's segments (R280). -/
def allSlots (segs : List Segment) : Nat := (segs.map fun g => g.size).sum

/-- The enqueue cursor's logical position (R252). -/
def producerPos (p : ProducerRing) : Nat := dataSlots (p.segs.take p.seg) + p.idx

/-- The dequeue cursor's logical position (R280). -/
def consumerPos (c : ConsumerRing) : Nat := allSlots (c.segs.take c.seg) + c.idx

/-- Instructions performed one after another, each with what it answered (R21), as far as each gives a next state. -/
def execLog : List Instr → State → Option (List (Instr × Option Result) × State)
  | [], s => some ([], s)
  | i :: rest, s =>
    match exec i s with
    | .next t =>
      match execLog rest t with
      | some (log, u) => some ((i, t.result) :: log, u)
      | none => none
    | .fault _ | .refused _ => none

/-- The entry is an `ENQUEUE` on ring `r` that answered a slot address. -/
def enqueuedOn (r : Nat) (e : Instr × Option Result) : Bool :=
  match e with
  | (.enqueue q _, some (.address _)) => q == r
  | _ => false

/-- The entry is a `DEQUEUE` on ring `r` that answered a TRB. -/
def dequeuedFrom (r : Nat) (e : Instr × Option Result) : Bool :=
  match e with
  | (.dequeue q, some (.event _ _)) => q == r
  | _ => false

/-! ## Bits, as the tables give them -/

/-- `T[lo+w-1:lo]` as a number (R8). -/
def trbBits (t : Trb) (lo w : Nat) : Nat := t.toNat / 2 ^ lo % 2 ^ w

/-- A number field at a place of `T`. -/
def numAt (f : TrbField) (t : Trb) (lo w : Nat) : TrbField × FieldValue := (f, .num (trbBits t lo w))

/-- A pointer field at a place of `T`: the low bits it does not have are 0 (R84). -/
def ptrAt (f : TrbField) (t : Trb) (lo w : Nat) : TrbField × FieldValue := (f, .num (trbBits t lo w * 2 ^ lo))

/-- The completion code of a TRB, `T[95:88]` (R91). -/
def codeAt (t : Trb) : TrbField × FieldValue :=
  (.completionCode, .code (completionCode (BitVec.ofNat 8 (trbBits t 88 8))))

/-! ## The checks, as the tables give them -/

/-- An action that passes `Check` (R121, R122). -/
def actionOk (L : Layout) (a : Action) : Prop :=
  ∃ p, namedField L (actionField a) = some p ∧
    ((∃ x < 2 ^ p.width, a = .set p.name x ∧ p.cls = .rw) ∨
      (a = .set0 p.name ∧ (p.cls = .rw1c ∨ p.cls = .rw1s)) ∨
      (a = .clear p.name ∧ p.cls = .rw1c) ∨ (a = .assert p.name ∧ p.cls = .rw1s))

/-- A `set` of an RW field, whatever its value (R122 (c)). -/
def setsRw (L : Layout) (a : Action) : Prop :=
  ∃ p, namedField L (actionField a) = some p ∧ p.cls = .rw ∧ ∃ x, a = .set p.name x

/-- `a` is the last action of the list on the field (R121). -/
def lastOn (M : List Action) (f : RegField) (a : Action) : Prop :=
  ∃ pre post, M = pre ++ a :: post ∧ actionField a = f ∧ ∀ b ∈ post, actionField b ≠ f

/-- The list has no action on the field. -/
def noneOn (M : List Action) (f : RegField) : Prop := ∀ b ∈ M, actionField b ≠ f

/-- A segment that passes tests 2a to 2d (R242). -/
def segmentOk (lo hi : Nat) (g : Segment) : Prop :=
  g.base.toNat ≠ 0 ∧ g.base.toNat % 64 = 0 ∧ lo ≤ g.size ∧ g.size ≤ hi ∧
    g.base.toNat / 65536 = (g.base.toNat + 16 * g.size - 1) / 65536

/-- The segments have no byte in common. -/
def segmentsApart (segs : List Segment) : Prop :=
  (segs.map fun g => (g.base.toNat, 16 * g.size)).Pairwise apart

/-- The Types that a kind of producer ring accepts (R244). -/
def acceptedType : RingKind → Nat → Prop
  | .command, ty => 9 ≤ ty ∧ ty ≤ 25
  | .transfer, ty => (1 ≤ ty ∧ ty ≤ 5) ∨ ty = 7 ∨ ty = 8

/-- The Chain bit of a TRB: bit 100 of the Types that have a `ch` field (R170 to R177, R248). -/
def chainBit (t : Trb) : Bool := [1, 3, 4, 5, 6, 7, 8].contains (trbBits t 106 6) && t.getLsbD 100

/-- `T` with the Cycle bit replaced, bit by bit (R245). -/
def cycleSet (t : Trb) (b : Bool) (u : Trb) : Prop := u.getLsbD 96 = b ∧ ∀ i, i ≠ 96 → u.getLsbD i = t.getLsbD i

/-- The next state of a request that answers and changes nothing else. -/
def answered (s : State) (r : Result) : StepResult := .next { s with result := some r }

/-- The next state of a request that faults: the code is recorded and answered, and nothing else changes (R330). -/
def faulted (s : State) (code : FaultCode) : StepResult :=
  .next { s with fault := some code, result := some (.fault code) }

end Sys2Proof.Machine
end

