-- ==== Sys2Proof/Certificates/Slice0/Obligations.lean ====
section
/-! DEFINITION. The statements for the provers. -/

open Sys2Proof Sys2Proof.Machine

/-- For every instruction that has a bit encoding (all 38 TRB constructors) and every value of every field and
reserved piece, the decoder reads back exactly that instruction from its 128 bits. -/
def Obligations.DecodeOfEncode : Prop :=
  ∀ (i : Instr) (t : Trb), encode i = some t → decodeTrb t = i

/-- Every 128-bit TRB decodes to an instruction whose encoding is exactly those 128 bits: no bit is dropped and no
TRB is refused. -/
def Obligations.EncodeOfDecode : Prop :=
  ∀ t : Trb, encode (decodeTrb t) = some t

/-- The bytes of an encoded TRB are 16, byte k holds bits 8k+7 to 8k, and the decoder on them and any bytes after
gives the instruction and those bytes. -/
def Obligations.SlotBytes : Prop :=
  ∀ (i : Instr) (t : Trb) (rest : List Byte), encode i = some t →
    (trbBytes t).length = 16 ∧
    (∀ k < 16, ∃ b, (trbBytes t)[k]? = some b ∧ b.toNat = trbBits t (8 * k) 8) ∧
    decodeBytes (trbBytes t ++ rest) = .ok (i, rest)

/-- Two TRBs with the same bits 111:106 have the same kind, whatever their other bits; a TRB is of a defined variant
exactly when these bits are its code, and Unrecognized exactly for the Types 0, 26 to 31 and 40 to 63. -/
def Obligations.KindByType : Prop :=
  (∀ t t' : Trb, trbBits t 106 6 = trbBits t' 106 6 → kindOf t = kindOf t') ∧
  (∀ (t : Trb) (v : Variant), kindOf t = .defined v ↔ trbBits t 106 6 = v.code) ∧
  (∀ t : Trb, kindOf t = .unrecognized ↔
    trbBits t 106 6 = 0 ∨ (26 ≤ trbBits t 106 6 ∧ trbBits t 106 6 ≤ 31) ∨ 40 ≤ trbBits t 106 6)

/-- The completion code of every 8-bit number has that number, and is the catch-all exactly for 30 and 37 to 255. -/
def Obligations.CompletionCodes : Prop :=
  ∀ x : BitVec 8, completionNumber (completionCode x) = x.toNat ∧
    (completionCode x = .unknown x ↔ x.toNat = 30 ∨ 37 ≤ x.toNat)

/-- A few words of the spec test vectors (V-XFER-1, V-TRB-14, V-TRB-4, V-EVT-2, V-UNREC-1, V-RING-1), written out,
decode to the instructions they stand for. That a table word of at most 32 bits is DW3 over zero words is the
model's choice (log entry 3). -/
def Obligations.SampleWords : Prop :=
  decodeTrb (trbOfWords 0x12345000#32 0x00000000#32 0x00400200#32 0x00000421#32) =
      .normal ⟨0x12345000#64, 0x200#17, 0#5, 1#10, 1#1, 0#1, 0#1, 0#1, 0#1, 1#1, 0#1, 0#2, 0#1, 0#16⟩ ∧
  decodeTrb (trbOfWords 0x00001000#32 0x00000000#32 0x00000000#32 0x00001803#32) =
      .link ⟨0#4, 0x100#60, 0#22, 0#10, 1#1, 1#1, 0#2, 0#1, 0#1, 0#4, 0#16⟩ ∧
  decodeTrb (trbOfWords 0x00000000#32 0x00000000#32 0x00000000#32 0x05002800#32) =
      .disableSlot ⟨0#96, 0#1, 0#9, 0#8, 5#8⟩ ∧
  decodeTrb (trbOfWords 0x00001000#32 0x00000000#32 0x01000000#32 0x01008401#32) =
      .commandCompletionEvent ⟨0#4, 0x100#60, 0#24, 1#8, 1#1, 0#9, 0#8, 1#8⟩ ∧
  decodeTrb (trbOfWords 0x00000000#32 0x00000000#32 0x00000000#32 0x0000fc00#32) =
      .unrecognized48 ⟨0#32, 0#32, 0#32, 0#1, 0#9, 15#4, 0#16⟩ ∧
  decodeTableWord 32 0x5c01 = some (.noOpCommand ⟨0#96, 1#1, 0#9, 0#16⟩)

/-- Normal, Setup Stage, Data Stage, Status Stage, Isoch, Link, Event Data and No Op: performed on any live state,
the decoder answers the variant, the 128 bits, and every field at the bits its layout table gives; nothing else of
the state changes. The list of fields as the answer is the model's form (log entry 2). -/
def Obligations.TransferTrbs : Prop :=
  (∀ (o : NormalTrb) (s : State), s.fault = none →
    let t : Trb := encodeNormal o
    exec (.normal o) s = answered s (.decoded (.defined .normal) t
      [numAt .dataBufferPointer t 0 64, numAt .trbTransferLength t 64 17, numAt .tdSize t 81 5,
       numAt .interrupterTarget t 86 10, numAt .c t 96 1, numAt .ent t 97 1, numAt .isp t 98 1, numAt .ns t 99 1,
       numAt .ch t 100 1, numAt .ioc t 101 1, numAt .idt t 102 1, numAt .bei t 105 1, (.type, .num 1)])) ∧
  (∀ (o : SetupStageTrb) (s : State), s.fault = none →
    let t : Trb := encodeSetupStage o
    exec (.setupStage o) s = answered s (.decoded (.defined .setupStage) t
      [numAt .bmRequestType t 0 8, numAt .bRequest t 8 8, numAt .wValue t 16 16, numAt .wIndex t 32 16,
       numAt .wLength t 48 16, numAt .trbTransferLength t 64 17, numAt .interrupterTarget t 86 10, numAt .c t 96 1,
       numAt .ioc t 101 1, numAt .idt t 102 1, (.type, .num 2), numAt .trt t 112 2])) ∧
  (∀ (o : DataStageTrb) (s : State), s.fault = none →
    let t : Trb := encodeDataStage o
    exec (.dataStage o) s = answered s (.decoded (.defined .dataStage) t
      [numAt .dataBufferPointer t 0 64, numAt .trbTransferLength t 64 17, numAt .tdSize t 81 5,
       numAt .interrupterTarget t 86 10, numAt .c t 96 1, numAt .ent t 97 1, numAt .isp t 98 1, numAt .ns t 99 1,
       numAt .ch t 100 1, numAt .ioc t 101 1, numAt .idt t 102 1, (.type, .num 3), numAt .dir t 112 1])) ∧
  (∀ (o : StatusStageTrb) (s : State), s.fault = none →
    let t : Trb := encodeStatusStage o
    exec (.statusStage o) s = answered s (.decoded (.defined .statusStage) t
      [numAt .interrupterTarget t 86 10, numAt .c t 96 1, numAt .ent t 97 1, numAt .ch t 100 1, numAt .ioc t 101 1,
       (.type, .num 4), numAt .dir t 112 1])) ∧
  (∀ (o : IsochTrb) (s : State), s.fault = none →
    let t : Trb := encodeIsoch o
    exec (.isoch o) s = answered s (.decoded (.defined .isoch) t
      [numAt .dataBufferPointer t 0 64, numAt .trbTransferLength t 64 17, numAt .tdSizeTbc t 81 5,
       numAt .interrupterTarget t 86 10, numAt .c t 96 1, numAt .ent t 97 1, numAt .isp t 98 1, numAt .ns t 99 1,
       numAt .ch t 100 1, numAt .ioc t 101 1, numAt .idt t 102 1, numAt .tbc t 103 2, numAt .bei t 105 1,
       (.type, .num 5), numAt .tlbpc t 112 4, numAt .frameId t 116 11, numAt .sia t 127 1])) ∧
  (∀ (o : LinkTrb) (s : State), s.fault = none →
    let t : Trb := encodeLink o
    exec (.link o) s = answered s (.decoded (.defined .link) t
      [ptrAt .ringSegmentPointer t 4 60, numAt .interrupterTarget t 86 10, numAt .c t 96 1, numAt .tc t 97 1,
       numAt .ch t 100 1, numAt .ioc t 101 1, (.type, .num 6)])) ∧
  (∀ (o : EventDataTrb) (s : State), s.fault = none →
    let t : Trb := encodeEventData o
    exec (.eventData o) s = answered s (.decoded (.defined .eventData) t
      [numAt .eventData t 0 64, numAt .interrupterTarget t 86 10, numAt .c t 96 1, numAt .ent t 97 1,
       numAt .ch t 100 1, numAt .ioc t 101 1, numAt .bei t 105 1, (.type, .num 7)])) ∧
  (∀ (o : NoOpTrb) (s : State), s.fault = none →
    let t : Trb := encodeNoOp o
    exec (.noOp o) s = answered s (.decoded (.defined .noOp) t
      [numAt .interrupterTarget t 86 10, numAt .c t 96 1, numAt .ent t 97 1, numAt .ch t 100 1, numAt .ioc t 101 1,
       (.type, .num 8)]))

/-- Each of the 17 command TRBs (Types 9 to 25, R190 to R206): performed on any live state, the decoder answers the
variant, the 128 bits, and every field at the bits its layout table gives; nothing else of the state changes. The
list of fields as the answer is the model's form (log entry 2). -/
def Obligations.CommandTrbs : Prop :=
  (∀ (o : EnableSlotTrb) (s : State), s.fault = none →
    let t : Trb := encodeEnableSlot o
    exec (.enableSlot o) s = answered s (.decoded (.defined .enableSlot) t
      [numAt .c t 96 1, (.type, .num 9), numAt .slotType t 112 5])) ∧
  (∀ (o : DisableSlotTrb) (s : State), s.fault = none →
    let t : Trb := encodeDisableSlot o
    exec (.disableSlot o) s = answered s (.decoded (.defined .disableSlot) t
      [numAt .c t 96 1, (.type, .num 10), numAt .slotId t 120 8])) ∧
  (∀ (o : AddressDeviceTrb) (s : State), s.fault = none →
    let t : Trb := encodeAddressDevice o
    exec (.addressDevice o) s = answered s (.decoded (.defined .addressDevice) t
      [ptrAt .inputContextPointer t 4 60, numAt .c t 96 1, numAt .bsr t 105 1, (.type, .num 11),
       numAt .slotId t 120 8])) ∧
  (∀ (o : ConfigureEndpointTrb) (s : State), s.fault = none →
    let t : Trb := encodeConfigureEndpoint o
    exec (.configureEndpoint o) s = answered s (.decoded (.defined .configureEndpoint) t
      [ptrAt .inputContextPointer t 4 60, numAt .c t 96 1, numAt .dc t 105 1, (.type, .num 12),
       numAt .slotId t 120 8])) ∧
  (∀ (o : EvaluateContextTrb) (s : State), s.fault = none →
    let t : Trb := encodeEvaluateContext o
    exec (.evaluateContext o) s = answered s (.decoded (.defined .evaluateContext) t
      [ptrAt .inputContextPointer t 4 60, numAt .c t 96 1, (.type, .num 13), numAt .slotId t 120 8])) ∧
  (∀ (o : ResetEndpointTrb) (s : State), s.fault = none →
    let t : Trb := encodeResetEndpoint o
    exec (.resetEndpoint o) s = answered s (.decoded (.defined .resetEndpoint) t
      [numAt .c t 96 1, numAt .tsp t 105 1, (.type, .num 14), numAt .endpointId t 112 5, numAt .slotId t 120 8])) ∧
  (∀ (o : StopEndpointTrb) (s : State), s.fault = none →
    let t : Trb := encodeStopEndpoint o
    exec (.stopEndpoint o) s = answered s (.decoded (.defined .stopEndpoint) t
      [numAt .c t 96 1, (.type, .num 15), numAt .endpointId t 112 5, numAt .sp t 119 1, numAt .slotId t 120 8])) ∧
  (∀ (o : SetTrDequeuePointerTrb) (s : State), s.fault = none →
    let t : Trb := encodeSetTrDequeuePointer o
    exec (.setTrDequeuePointer o) s = answered s (.decoded (.defined .setTrDequeuePointer) t
      [numAt .dcs t 0 1, numAt .sct t 1 3, ptrAt .newTrDequeuePointer t 4 60, numAt .streamId t 80 16,
       numAt .c t 96 1, (.type, .num 16), numAt .endpointId t 112 5, numAt .slotId t 120 8])) ∧
  (∀ (o : ResetDeviceTrb) (s : State), s.fault = none →
    let t : Trb := encodeResetDevice o
    exec (.resetDevice o) s = answered s (.decoded (.defined .resetDevice) t
      [numAt .c t 96 1, (.type, .num 17), numAt .slotId t 120 8])) ∧
  (∀ (o : ForceEventTrb) (s : State), s.fault = none →
    let t : Trb := encodeForceEvent o
    exec (.forceEvent o) s = answered s (.decoded (.defined .forceEvent) t
      [ptrAt .eventTrbPointer t 4 60, numAt .vfInterrupterTarget t 86 10, numAt .c t 96 1, (.type, .num 18),
       numAt .vfId t 112 8])) ∧
  (∀ (o : NegotiateBandwidthTrb) (s : State), s.fault = none →
    let t : Trb := encodeNegotiateBandwidth o
    exec (.negotiateBandwidth o) s = answered s (.decoded (.defined .negotiateBandwidth) t
      [numAt .c t 96 1, (.type, .num 19), numAt .slotId t 120 8])) ∧
  (∀ (o : SetLatencyToleranceValueTrb) (s : State), s.fault = none →
    let t : Trb := encodeSetLatencyToleranceValue o
    exec (.setLatencyToleranceValue o) s = answered s (.decoded (.defined .setLatencyToleranceValue) t
      [numAt .c t 96 1, (.type, .num 20), numAt .bestEffortLatencyToleranceValue t 112 12])) ∧
  (∀ (o : GetPortBandwidthTrb) (s : State), s.fault = none →
    let t : Trb := encodeGetPortBandwidth o
    exec (.getPortBandwidth o) s = answered s (.decoded (.defined .getPortBandwidth) t
      [ptrAt .portBandwidthContextPointer t 4 60, numAt .c t 96 1, (.type, .num 21), numAt .devSpeed t 112 4,
       numAt .hubSlotId t 120 8])) ∧
  (∀ (o : ForceHeaderTrb) (s : State), s.fault = none →
    let t : Trb := encodeForceHeader o
    exec (.forceHeader o) s = answered s (.decoded (.defined .forceHeader) t
      [numAt .packetType t 0 5, numAt .headerInfoLo t 5 27, numAt .headerInfoMid t 32 32,
       numAt .headerInfoHi t 64 32, numAt .c t 96 1, (.type, .num 22), numAt .rootHubPortNumber t 120 8])) ∧
  (∀ (o : NoOpCommandTrb) (s : State), s.fault = none →
    let t : Trb := encodeNoOpCommand o
    exec (.noOpCommand o) s = answered s (.decoded (.defined .noOpCommand) t
      [numAt .c t 96 1, (.type, .num 23)])) ∧
  (∀ (o : GetExtendedPropertyTrb) (s : State), s.fault = none →
    let t : Trb := encodeGetExtendedProperty o
    exec (.getExtendedProperty o) s = answered s (.decoded (.defined .getExtendedProperty) t
      [ptrAt .extendedPropertyContextPointer t 4 60, numAt .extendedCapabilityIdentifier t 64 16, numAt .c t 96 1,
       (.type, .num 24), numAt .commandSubType t 112 3, numAt .endpointId t 115 5, numAt .slotId t 120 8])) ∧
  (∀ (o : SetExtendedPropertyTrb) (s : State), s.fault = none →
    let t : Trb := encodeSetExtendedProperty o
    exec (.setExtendedProperty o) s = answered s (.decoded (.defined .setExtendedProperty) t
      [numAt .extendedCapabilityIdentifier t 64 16, numAt .capabilityParameter t 80 8, numAt .c t 96 1,
       (.type, .num 25), numAt .commandSubType t 112 3, numAt .endpointId t 115 5, numAt .slotId t 120 8]))

/-- Each of the 8 event TRBs (Types 32 to 39): performed on any live state, the decoder answers the variant, the 128
bits, and every field at the bits its layout table gives, the completion code by its name; nothing else of the state
changes. The list of fields as the answer is the model's form (log entry 2). -/
def Obligations.EventTrbs : Prop :=
  (∀ (o : TransferEventTrb) (s : State), s.fault = none →
    let t : Trb := encodeTransferEvent o
    exec (.transferEvent o) s = answered s (.decoded (.defined .transferEvent) t
      [numAt .trbPointer t 0 64, numAt .trbTransferLength t 64 24, codeAt t, numAt .c t 96 1, numAt .ed t 98 1,
       (.type, .num 32), numAt .endpointId t 112 5, numAt .slotId t 120 8])) ∧
  (∀ (o : CommandCompletionEventTrb) (s : State), s.fault = none →
    let t : Trb := encodeCommandCompletionEvent o
    exec (.commandCompletionEvent o) s = answered s (.decoded (.defined .commandCompletionEvent) t
      [ptrAt .commandTrbPointer t 4 60, numAt .commandCompletionParameter t 64 24, codeAt t, numAt .c t 96 1,
       (.type, .num 33), numAt .vfId t 112 8, numAt .slotId t 120 8])) ∧
  (∀ (o : PortStatusChangeEventTrb) (s : State), s.fault = none →
    let t : Trb := encodePortStatusChangeEvent o
    exec (.portStatusChangeEvent o) s = answered s (.decoded (.defined .portStatusChangeEvent) t
      [numAt .portId t 24 8, codeAt t, numAt .c t 96 1, (.type, .num 34)])) ∧
  (∀ (o : BandwidthRequestEventTrb) (s : State), s.fault = none →
    let t : Trb := encodeBandwidthRequestEvent o
    exec (.bandwidthRequestEvent o) s = answered s (.decoded (.defined .bandwidthRequestEvent) t
      [codeAt t, numAt .c t 96 1, (.type, .num 35), numAt .slotId t 120 8])) ∧
  (∀ (o : DoorbellEventTrb) (s : State), s.fault = none →
    let t : Trb := encodeDoorbellEvent o
    exec (.doorbellEvent o) s = answered s (.decoded (.defined .doorbellEvent) t
      [numAt .dbReason t 0 5, codeAt t, numAt .c t 96 1, (.type, .num 36), numAt .vfId t 112 8,
       numAt .slotId t 120 8])) ∧
  (∀ (o : HostControllerEventTrb) (s : State), s.fault = none →
    let t : Trb := encodeHostControllerEvent o
    exec (.hostControllerEvent o) s = answered s (.decoded (.defined .hostControllerEvent) t
      [codeAt t, numAt .c t 96 1, (.type, .num 37)])) ∧
  (∀ (o : DeviceNotificationEventTrb) (s : State), s.fault = none →
    let t : Trb := encodeDeviceNotificationEvent o
    exec (.deviceNotificationEvent o) s = answered s (.decoded (.defined .deviceNotificationEvent) t
      [numAt .notificationType t 4 4, numAt .deviceNotificationData t 8 56, codeAt t, numAt .c t 96 1,
       (.type, .num 38), numAt .slotId t 120 8])) ∧
  (∀ (o : MfindexWrapEventTrb) (s : State), s.fault = none →
    let t : Trb := encodeMfindexWrapEvent o
    exec (.mfindexWrapEvent o) s = answered s (.decoded (.defined .mfindexWrapEvent) t
      [codeAt t, numAt .c t 96 1, (.type, .num 39)]))

/-- The five Unrecognized rows (Types 0, 26-27, 28-31, 40-47, 48-63): the kind is Unrecognized and the answer
carries the raw four words, the Type and the Cycle bit; nothing else changes and nothing faults. The list of fields
as the answer is the model's form (log entry 2). -/
def Obligations.UnrecognizedTrbs : Prop :=
  (∀ (o : UnrecognizedTrb 0) (s : State), s.fault = none →
    let t : Trb := encodeUnrecognized 0#6 o
    kindOf t = .unrecognized ∧
    exec (.unrecognized0 o) s = answered s (.decoded .unrecognized t
      [(.raw, .words (dw0 t) (dw1 t) (dw2 t) (dw3 t)), numAt .type t 106 6, numAt .c t 96 1])) ∧
  (∀ (o : UnrecognizedTrb 1) (s : State), s.fault = none →
    let t : Trb := encodeUnrecognized 13#5 o
    kindOf t = .unrecognized ∧
    exec (.unrecognized26 o) s = answered s (.decoded .unrecognized t
      [(.raw, .words (dw0 t) (dw1 t) (dw2 t) (dw3 t)), numAt .type t 106 6, numAt .c t 96 1])) ∧
  (∀ (o : UnrecognizedTrb 2) (s : State), s.fault = none →
    let t : Trb := encodeUnrecognized 7#4 o
    kindOf t = .unrecognized ∧
    exec (.unrecognized28 o) s = answered s (.decoded .unrecognized t
      [(.raw, .words (dw0 t) (dw1 t) (dw2 t) (dw3 t)), numAt .type t 106 6, numAt .c t 96 1])) ∧
  (∀ (o : UnrecognizedTrb 3) (s : State), s.fault = none →
    let t : Trb := encodeUnrecognized 5#3 o
    kindOf t = .unrecognized ∧
    exec (.unrecognized40 o) s = answered s (.decoded .unrecognized t
      [(.raw, .words (dw0 t) (dw1 t) (dw2 t) (dw3 t)), numAt .type t 106 6, numAt .c t 96 1])) ∧
  (∀ (o : UnrecognizedTrb 4) (s : State), s.fault = none →
    let t : Trb := encodeUnrecognized 3#2 o
    kindOf t = .unrecognized ∧
    exec (.unrecognized48 o) s = answered s (.decoded .unrecognized t
      [(.raw, .words (dw0 t) (dw1 t) (dw2 t) (dw3 t)), numAt .type t 106 6, numAt .c t 96 1]))

/-- For all 38 TRB constructors: performing the TRB answers its kind, its bits and a list that holds a field with a
value exactly when TRB_GET on that field returns the value (raw is listed for Unrecognized values only). That
performing a TRB answers its kind, bits and fields is the model's choice (log entry 2). -/
def Obligations.DecodedFieldsAreTrbGet : Prop :=
  ∀ (i : Instr) (t : Trb) (s : State), encode i = some t → s.fault = none →
    ∃ fields : List (TrbField × FieldValue), exec i s = answered s (.decoded (kindOf t) t fields) ∧
      ∀ (f : TrbField) (x : FieldValue), (f = .raw → kindOf t = .unrecognized) →
        ((f, x) ∈ fields ↔ trbFieldValue t f = some x)

/-- For every defined variant, TRB_NEW answers the TRB whose Type is the code and whose other bits are 0, but for
the Setup Stage, where idt is 1 and trb_transfer_length is 8. -/
def Obligations.TrbNew : Prop :=
  ∀ (K : Variant) (s : State), s.fault = none →
    let t : Trb := BitVec.ofNat 128 (K.code * 2 ^ 106 + if K = .setupStage then 2 ^ 102 + 8 * 2 ^ 64 else 0)
    exec (.trbNew K) s = answered s (.trb (.defined K) t) ∧ kindOf t = .defined K

/-- raw gives the four words of any TRB; a value, flag or fixed field gives its bits; a pointer gives T[63:k] with k
zero bits below; the completion code gives its name; a field the variant lacks faults F_NOT_WRITABLE. -/
def Obligations.TrbGet : Prop :=
  ∀ (v : Trb) (f : TrbField) (s : State), s.fault = none →
    exec (.trbGet v .raw) s = answered s (.trbField (.words (BitVec.ofNat 32 (trbBits v 0 32))
      (BitVec.ofNat 32 (trbBits v 32 32)) (BitVec.ofNat 32 (trbBits v 64 32)) (BitVec.ofNat 32 (trbBits v 96 32)))) ∧
    (∀ r : TrbRow, f ≠ .raw → findRow (kindOf v) f = some r →
      exec (.trbGet v f) s = answered s (.trbField
        (match r.kind with
          | .value | .flag | .fixed _ => .num (trbBits v r.lo r.width)
          | .pointer k => .num (trbBits v k (64 - k) * 2 ^ k)
          | .ccode => .code (completionCode (BitVec.ofNat 8 (trbBits v 88 8)))))) ∧
    (f ≠ .raw → findRow (kindOf v) f = none → exec (.trbGet v f) s = faulted s .notWritable)

/-- A field the kind lacks, and a fixed one, fault F_NOT_WRITABLE; a value too wide faults F_TOO_WIDE; a pointer
with low bits set faults F_MISALIGNED; else the answer is the same kind with the field at the value and every other
bit as before. That a number stands for a completion code and a completion code for its number is the model's choice
(log entry 16). -/
def Obligations.TrbSet : Prop :=
  ∀ (v : Trb) (f : TrbField) (x : SetValue) (s : State), s.fault = none →
    let n : Nat := match x with
      | .num n => n
      | .code c => completionNumber c
    (findRow (kindOf v) f = none → exec (.trbSet v f x) s = faulted s .notWritable) ∧
    (∀ r : TrbRow, findRow (kindOf v) f = some r →
      match r.kind with
      | .fixed _ => exec (.trbSet v f x) s = faulted s .notWritable
      | .value | .flag | .ccode =>
        if 2 ^ r.width ≤ n then exec (.trbSet v f x) s = faulted s .tooWide
        else ∃ t : Trb, exec (.trbSet v f x) s = answered s (.trb (kindOf v) t) ∧ trbBits t r.lo r.width = n ∧
          ∀ i, i < r.lo ∨ r.lo + r.width ≤ i → t.getLsbD i = v.getLsbD i
      | .pointer k =>
        if 2 ^ 64 ≤ n then exec (.trbSet v f x) s = faulted s .tooWide
        else if n % 2 ^ k ≠ 0 then exec (.trbSet v f x) s = faulted s .misaligned
        else ∃ t : Trb, exec (.trbSet v f x) s = answered s (.trb (kindOf v) t) ∧ trbBits t k (64 - k) * 2 ^ k = n ∧
          ∀ i, i < k ∨ 64 ≤ i → t.getLsbD i = v.getLsbD i)

/-- When TRB_SET answers a TRB, it is of the same kind, TRB_GET of the field gives the value set, a completion code
by its name, and TRB_GET of every other field gives what it gave before. That a number may be set on the completion-
code field, and a completion code, as its number, on any other field, is the model's choice (log entry 16). -/
def Obligations.TrbGetAfterSet : Prop :=
  ∀ (v t : Trb) (f : TrbField) (x : SetValue) (k : TrbKind) (s s' : State), s.fault = none →
    exec (.trbSet v f x) s = .next s' → s'.result = some (.trb k t) →
      k = kindOf v ∧ kindOf t = kindOf v ∧
      (∀ g, g ≠ f → g ≠ .raw → trbFieldValue t g = trbFieldValue v g) ∧
      (f ≠ .completionCode → trbFieldValue t f = some (.num (setNumber x))) ∧
      (f = .completionCode →
        trbFieldValue t f = some (.code (completionCode (BitVec.ofNat 8 (setNumber x)))))

/-- A TRB that TRB_NEW answers has its reserved bits 0 and its fixed fields at their values, and so has every TRB
that TRB_SET makes of such a TRB. -/
def Obligations.CanonicalKept : Prop :=
  (∀ (K : Variant) (t : Trb) (s s' : State), s.fault = none → exec (.trbNew K) s = .next s' →
    s'.result = some (.trb (.defined K) t) → canonical K t = true) ∧
  (∀ (K : Variant) (v t : Trb) (f : TrbField) (x : SetValue) (s s' : State), s.fault = none →
    kindOf v = .defined K → canonical K v = true → exec (.trbSet v f x) s = .next s' →
    s'.result = some (.trb (.defined K) t) → canonical K t = true)

/-- TRB_ENCODE answers the four words of the TRB and TRB_DECODE of these words answers the TRB; TRB_DECODE of any
four words answers the TRB they are and TRB_ENCODE of it answers the words. -/
def Obligations.TrbWords : Prop :=
  (∀ (v : Trb) (s : State), s.fault = none → ∃ w0 w1 w2 w3 : Word,
    w0.toNat = trbBits v 0 32 ∧ w1.toNat = trbBits v 32 32 ∧ w2.toNat = trbBits v 64 32 ∧ w3.toNat = trbBits v 96 32 ∧
    exec (.trbEncode v) s = answered s (.words w0 w1 w2 w3) ∧
    exec (.trbDecode w0 w1 w2 w3) s = answered s (.trb (kindOf v) v)) ∧
  (∀ (w0 w1 w2 w3 : Word) (s : State), s.fault = none → ∃ v : Trb,
    v.toNat = w0.toNat + w1.toNat * 2 ^ 32 + w2.toNat * 2 ^ 64 + w3.toNat * 2 ^ 96 ∧
    exec (.trbDecode w0 w1 w2 w3) s = answered s (.trb (kindOf v) v) ∧
    exec (.trbEncode v) s = answered s (.words w0 w1 w2 w3))

/-- READ answers a snapshot of the layout's width, changes no ring, no register and no byte of memory of its own,
and makes one register read of the word's width, or with SPLIT64 a 32-bit read of the low dword and then of the high
one. -/
def Obligations.ReadOrder : Prop :=
  ∀ (ra : Addr) (L : Layout) (s : State), s.fault = none → ∃ (t : State) (v : RegValue),
    exec (.read ra L) s = .next t ∧ t.result = some (.snapshot L v) ∧ v.toNat < 2 ^ L.width.bits ∧
    t.rings = s.rings ∧ regsKept s t ∧ frame s t noByte ∧
    (L.width = .w64 ∧ s.split64 = true → ∃ lo hi : RegValue, v = (hi <<< 32) ||| lo ∧
      blockTrace t.trace = [.regRead (ra + 4#64) 4 hi, .regRead ra 4 lo] ++ blockTrace s.trace) ∧
    (¬ (L.width = .w64 ∧ s.split64 = true) →
      blockTrace t.trace = .regRead ra (L.width.bits / 8) v :: blockTrace s.trace)

/-- With no act of the controller scheduled, READ of any register of the map at its address and with its layout
answers the register's value, with the fields that read as 0 (log entry 13) as 0, whatever SPLIT64 is. The map's
base is the model's choice (log entry 9). -/
def Obligations.ReadRegister : Prop :=
  ∀ (n : RegName) (s : State), n ∈ regNames → regsWf s.regs = true → s.ctrl = [] → s.fault = none →
    ∃ r ∈ s.regs, r.name = n ∧ ∃ t : State, exec (.read n.address n.layout) s = .next t ∧
      t.result = some (.snapshot n.layout (r.value &&& n.readMask)) ∧
      t.regs = s.regs ∧ t.rings = s.rings ∧ frame s t noByte

/-- On every well-formed layout, GET of a field of class RW, RO, RW1C or RW1S answers the field's bits of the
snapshot with nothing else changed, and GET of a reserved field or of a name no field has faults F_NOT_WRITABLE. A
name names the one field that has it; where several have it, one of them, a free value (log entry 18). -/
def Obligations.GetReadsSnapshot : Prop :=
  ∀ (L : Layout) (snap : RegValue) (f : RegField) (s : State), L.wf = true → s.fault = none →
    (∀ p, namedField L f = some p → p ∈ L.fields ∧ p.name = f ∧
      (p.cls ≠ .rsvdP → p.cls ≠ .rsvdZ →
        exec (.get L snap f) s = answered s (.fieldValue (snap.toNat / 2 ^ p.lo % 2 ^ p.width))) ∧
      (p.cls = .rsvdP ∨ p.cls = .rsvdZ → exec (.get L snap f) s = faulted s .notWritable)) ∧
    (namedField L f = none → exec (.get L snap f) s = faulted s .notWritable) ∧
    (namedField L f = none ↔ f = .reserved ∨ ∀ p ∈ L.fields, p.name ≠ f) ∧
    (∀ p ∈ L.fields, p.name = f → f ≠ .reserved → (∀ q ∈ L.fields, q.name = f → q = p) → namedField L f = some p)

/-- A mutation list passes Check exactly when each action names a field whose class admits it, with a value that
fits; UPDATE and WRITE fault with the first action that does not, F_TOO_WIDE for a value too wide of an RW field and
F_NOT_WRITABLE otherwise, and change nothing else. Which of several fields with one name an action names is a free
value (log entry 18). -/
def Obligations.MutationFaults : Prop :=
  ∀ (ra : Addr) (L : Layout) (M : List Action) (s : State), L.wf = true → s.fault = none →
    (checkMutations L M = none ↔ ∀ a ∈ M, actionOk L a) ∧
    ∀ (pre post : List Action) (a : Action), M = pre ++ a :: post → (∀ b ∈ pre, actionOk L b) → ¬ actionOk L a →
      (setsRw L a → exec (.update ra L M) s = faulted s .tooWide ∧ exec (.write ra L M) s = faulted s .tooWide) ∧
      (¬ setsRw L a →
        exec (.update ra L M) s = faulted s .notWritable ∧ exec (.write ra L M) s = faulted s .notWritable)

/-- For every well-formed layout and checked list: RO and RsvdP bits are sent as read, RsvdZ bits as 0, an RW field
as its last set or as read, RW1C and RW1S fields as all ones when the last action on them is clear or assert and as
0 otherwise; no bit is sent above the width. Of several fields with one name the actions are on one, a free value
(log entry 18). -/
def Obligations.ComposeByClass : Prop :=
  ∀ (L : Layout) (snap : RegValue) (M : List Action), L.wf = true → (∀ a ∈ M, actionOk L a) →
    (compose L snap M).toNat < 2 ^ L.width.bits ∧
    ∀ p ∈ L.fields, ∀ i < p.width,
      (p.cls = .ro ∨ p.cls = .rsvdP → (compose L snap M).getLsbD (p.lo + i) = snap.getLsbD (p.lo + i)) ∧
      (p.cls = .rsvdZ → (compose L snap M).getLsbD (p.lo + i) = false) ∧
      (p.cls = .rw → noneOn M p.name ∨ namedField L p.name ≠ some p →
        (compose L snap M).getLsbD (p.lo + i) = snap.getLsbD (p.lo + i)) ∧
      (∀ x, p.cls = .rw → namedField L p.name = some p → lastOn M p.name (.set p.name x) →
        (compose L snap M).getLsbD (p.lo + i) = x.testBit i) ∧
      (p.cls = .rw1c → namedField L p.name = some p → lastOn M p.name (.clear p.name) →
        (compose L snap M).getLsbD (p.lo + i) = true) ∧
      (p.cls = .rw1c → ¬ (namedField L p.name = some p ∧ lastOn M p.name (.clear p.name)) →
        (compose L snap M).getLsbD (p.lo + i) = false) ∧
      (p.cls = .rw1s → namedField L p.name = some p → lastOn M p.name (.assert p.name) →
        (compose L snap M).getLsbD (p.lo + i) = true) ∧
      (p.cls = .rw1s → ¬ (namedField L p.name = some p ∧ lastOn M p.name (.assert p.name)) →
        (compose L snap M).getLsbD (p.lo + i) = false)

/-- Whatever the controller does meanwhile, an UPDATE whose list passes Check makes a read and then a write of the
word (with SPLIT64 low dword before high, two reads before two writes), sends the word composed from what it read,
answers it, and changes no ring and no byte of memory. -/
def Obligations.UpdateOrder : Prop :=
  ∀ (ra : Addr) (L : Layout) (M : List Action) (s : State), L.wf = true → s.fault = none → (∀ a ∈ M, actionOk L a) →
    ∃ (t : State) (v : RegValue), exec (.update ra L M) s = .next t ∧ t.result = some (.written (compose L v M)) ∧
      t.rings = s.rings ∧ t.regs.map regShape = s.regs.map regShape ∧ frame s t noByte ∧
      (L.width = .w64 ∧ s.split64 = true → ∃ lo hi : RegValue, v = (hi <<< 32) ||| lo ∧
        blockTrace t.trace = [.regWrite (ra + 4#64) 4 (compose L v M >>> 32),
          .regWrite ra 4 (compose L v M &&& 0xffffffff#64), .regRead (ra + 4#64) 4 hi, .regRead ra 4 lo] ++
          blockTrace s.trace) ∧
      (¬ (L.width = .w64 ∧ s.split64 = true) →
        blockTrace t.trace = [.regWrite ra (L.width.bits / 8) (compose L v M), .regRead ra (L.width.bits / 8) v] ++
          blockTrace s.trace)

/-- With no act of the controller scheduled, UPDATE of a register of the map sends the word composed from what a
read of it shows; the register reacts by its classes and no other register changes, SPLIT64 or not. The model's own
here: the map's base (log entry 9), which bits a read shows (entry 13), that USBCMD's lhcrst is RW (entry 31), the
bits that a write against R374, or one of PAGESIZE or DNCTRL, leaves open (entries 14 and 32), and that a low dword
waits for its high one (entry 27). -/
def Obligations.UpdateRegister : Prop :=
  ∀ (n : RegName) (M : List Action) (s : State), n ∈ regNames → regsWf s.regs = true → s.ctrl = [] →
    s.fault = none → (∀ a ∈ M, actionOk n.layout a) →
    ∃ r ∈ s.regs, r.name = n ∧ ∃ t : State, exec (.update n.address n.layout M) s = .next t ∧
      t.result = some (.written (compose n.layout (r.value &&& n.readMask) M)) ∧
      t.regs.map regShape = s.regs.map regShape ∧ (∀ q ∈ t.regs, q.name ≠ n → q ∈ s.regs) ∧
      (∀ q ∈ t.regs, q.name = n → ∀ i < 64, (s.openBits n).getLsbD i = false →
        q.value.getLsbD i = (react n.layout r.value (compose n.layout (r.value &&& n.readMask) M)).getLsbD i) ∧
      t.rings = s.rings ∧ frame s t noByte

/-- The reaction of a register of any well-formed layout: RW takes the written bits, RO and reserved bits stay, RW1C
keeps old AND NOT w, RW1S becomes old OR w. -/
def Obligations.ReactByClass : Prop :=
  ∀ (L : Layout) (old w : RegValue), L.wf = true → ∀ p ∈ L.fields, ∀ i < p.width,
    (p.cls = .rw → (react L old w).getLsbD (p.lo + i) = w.getLsbD (p.lo + i)) ∧
    (p.cls = .ro ∨ p.cls = .rsvdP ∨ p.cls = .rsvdZ → (react L old w).getLsbD (p.lo + i) = old.getLsbD (p.lo + i)) ∧
    (p.cls = .rw1c → (react L old w).getLsbD (p.lo + i) = (old.getLsbD (p.lo + i) && !w.getLsbD (p.lo + i))) ∧
    (p.cls = .rw1s → (react L old w).getLsbD (p.lo + i) = (old.getLsbD (p.lo + i) || w.getLsbD (p.lo + i)))

/-- With no act of the controller between and no bit left open (R374 not broken, and neither PAGESIZE nor DNCTRL:
log entries 14 and 32), an UPDATE whose list sets RW fields only: every field it does not name reads back as in the
snapshot, every RsvdP bit is written as read, and no RW1C bit changes. Which bits a read shows (entry 13), the map's
base (entry 9) and that USBCMD's lhcrst is RW (entry 31) are the model's. -/
def Obligations.FieldIsolation : Prop :=
  ∀ (n : RegName) (M : List Action) (s t : State) (r q : Reg), n ∈ regNames → regsWf s.regs = true → s.ctrl = [] →
    s.fault = none → (∀ a ∈ M, actionOk n.layout a ∧ ∃ f x, a = .set f x) → r ∈ s.regs → r.name = n →
    s.openBits n = 0#64 → exec (.update n.address n.layout M) s = .next t → q ∈ t.regs → q.name = n →
    ∀ p ∈ n.layout.fields, ∀ i < p.width,
      (noneOn M p.name →
        (q.value &&& n.readMask).getLsbD (p.lo + i) = (r.value &&& n.readMask).getLsbD (p.lo + i)) ∧
      (p.cls = .rw1c → q.value.getLsbD (p.lo + i) = r.value.getLsbD (p.lo + i)) ∧
      (p.cls = .rsvdP → ∃ w, t.result = some (.written w) ∧
        w.getLsbD (p.lo + i) = (r.value &&& n.readMask).getLsbD (p.lo + i))

/-- With no act of the controller between and none of R374 broken (log entry 14), an UPDATE whose list only clears:
the RW1C fields it names become 0 and every other RW1C field keeps its value. The map's base is the model's choice
(log entry 9). -/
def Obligations.ClearTargeting : Prop :=
  ∀ (n : RegName) (M : List Action) (s t : State) (r q : Reg), n ∈ regNames → regsWf s.regs = true → s.ctrl = [] →
    s.fault = none → (∀ a ∈ M, actionOk n.layout a ∧ ∃ f, a = .clear f) → r ∈ s.regs → r.name = n →
    s.openBits n = 0#64 → exec (.update n.address n.layout M) s = .next t → q ∈ t.regs → q.name = n →
    ∀ p ∈ n.layout.fields, p.cls = .rw1c → ∀ i < p.width,
      (.clear p.name ∈ M → q.value.getLsbD (p.lo + i) = false) ∧
      (.clear p.name ∉ M → q.value.getLsbD (p.lo + i) = r.value.getLsbD (p.lo + i))

/-- A WRITE whose list passes Check sends the word composed from a snapshot of zeros, answers it, makes no read, and
changes no ring and no byte of memory; with SPLIT64 a 64-bit word goes low dword first. With no act of the
controller scheduled, a register of the map so written, a doorbell by RING_DOORBELL too, reacts by its classes and
no other register changes. The model's own here: the map's base (log entry 9), that USBCMD's lhcrst is RW (entry
31), the bits that a write against R374, or one of PAGESIZE or DNCTRL, leaves open (entries 14 and 32), and that a
low dword waits for its high one (entry 27). -/
def Obligations.WriteOrder : Prop :=
  (∀ (ra : Addr) (L : Layout) (M : List Action) (s : State), L.wf = true → s.fault = none → (∀ a ∈ M, actionOk L a) →
    ∃ t : State, exec (.write ra L M) s = .next t ∧ t.result = some (.written (compose L 0#64 M)) ∧
      t.rings = s.rings ∧ t.regs.map regShape = s.regs.map regShape ∧ frame s t noByte ∧
      (L.width = .w64 ∧ s.split64 = true →
        blockTrace t.trace = [.regWrite (ra + 4#64) 4 (compose L 0#64 M >>> 32),
          .regWrite ra 4 (compose L 0#64 M &&& 0xffffffff#64)] ++ blockTrace s.trace) ∧
      (¬ (L.width = .w64 ∧ s.split64 = true) →
        blockTrace t.trace = .regWrite ra (L.width.bits / 8) (compose L 0#64 M) :: blockTrace s.trace)) ∧
  (∀ (n : RegName) (M : List Action) (s : State), n ∈ regNames → regsWf s.regs = true → s.ctrl = [] →
    s.fault = none → (∀ a ∈ M, actionOk n.layout a) →
    ∃ r ∈ s.regs, r.name = n ∧ ∃ t : State, exec (.write n.address n.layout M) s = .next t ∧
      (∀ q ∈ t.regs, q.name ≠ n → q ∈ s.regs) ∧
      (∀ q ∈ t.regs, q.name = n → ∀ i < 64, (s.openBits n).getLsbD i = false →
        q.value.getLsbD i = (react n.layout r.value (compose n.layout 0#64 M)).getLsbD i)) ∧
  (∀ (slot target stream : Nat) (s : State), slot ≤ maxSlots → target < 256 → stream < 65536 →
    regsWf s.regs = true → s.ctrl = [] → s.fault = none →
    ∃ r ∈ s.regs, r.name = .doorbell slot ∧ ∃ t : State, exec (.ringDoorbell dbBase slot target stream) s = .next t ∧
      (∀ q ∈ t.regs, q.name ≠ .doorbell slot → q ∈ s.regs) ∧
      (∀ q ∈ t.regs, q.name = .doorbell slot → ∀ i < 64, (s.openBits (.doorbell slot)).getLsbD i = false →
        q.value.getLsbD i = (react doorbellLayout r.value (BitVec.ofNat 64 (target + stream * 65536))).getLsbD i))

/-- With slot and target below 256 and stream below 65536, one 32-bit register write of target + stream * 2^16 at db
+ 4 * slot, answered, with no read and no change of rings or memory; otherwise F_TOO_WIDE with no access. -/
def Obligations.RingDoorbell : Prop :=
  ∀ (db : Addr) (slot target stream : Nat) (s : State), s.fault = none →
    (slot < 256 ∧ target < 256 ∧ stream < 65536 → ∃ t : State,
      exec (.ringDoorbell db slot target stream) s = .next t ∧
      t.result = some (.written (BitVec.ofNat 64 (target + stream * 65536))) ∧
      blockTrace t.trace =
        .regWrite (db + BitVec.ofNat 64 (4 * slot)) 4 (BitVec.ofNat 64 (target + stream * 65536)) ::
          blockTrace s.trace ∧
      t.rings = s.rings ∧ t.regs.map regShape = s.regs.map regShape ∧ frame s t noByte) ∧
    (256 ≤ slot ∨ 256 ≤ target ∨ 65536 ≤ stream →
      exec (.ringDoorbell db slot target stream) s = faulted s .tooWide)

/-- No segments: F_ZERO_SEGMENTS; else the first segment that fails, by its first failing test: zero base,
misaligned base, size outside 2 to 4096, crossing 64 KiB. The state keeps everything but the fault and the answer.
-/
def Obligations.InitProducerFaults : Prop :=
  ∀ (kind : RingKind) (segs : List Segment) (s : State), s.fault = none →
    (segs = [] → exec (.initProducer kind segs) s = faulted s .zeroSegments) ∧
    ∀ (pre post : List Segment) (g : Segment), segs = pre ++ g :: post → (∀ q ∈ pre, segmentOk 2 4096 q) →
      (g.base.toNat = 0 → exec (.initProducer kind segs) s = faulted s .zeroAddress) ∧
      (g.base.toNat ≠ 0 → g.base.toNat % 64 ≠ 0 → exec (.initProducer kind segs) s = faulted s .misaligned) ∧
      (g.base.toNat ≠ 0 → g.base.toNat % 64 = 0 → g.size < 2 ∨ 4096 < g.size →
        exec (.initProducer kind segs) s = faulted s .segSize) ∧
      (g.base.toNat ≠ 0 → g.base.toNat % 64 = 0 → 2 ≤ g.size → g.size ≤ 4096 →
        g.base.toNat / 65536 ≠ (g.base.toNat + 16 * g.size - 1) / 65536 →
        exec (.initProducer kind segs) s = faulted s .segBoundary)

/-- With segments that pass the tests, a new ring with the next identifier, cursor 0, Cycle State 1, phase Empty; no
byte outside the segments changes; and where the segments are disjoint and no consumer slots, every data slot is
zero and each last slot holds the Link to the next segment, with Toggle Cycle in the last one only. That the
identifier is the ring's place in the list is the model's choice (log entry 20). -/
def Obligations.InitProducer : Prop :=
  ∀ (kind : RingKind) (segs : List Segment) (s : State), s.fault = none → segs ≠ [] →
    (∀ g ∈ segs, segmentOk 2 4096 g) → ∃ t : State, exec (.initProducer kind segs) s = .next t ∧
      t.result = some (.ring s.rings.length) ∧
      t.rings = s.rings ++ [.producer ⟨kind, segs, 0, 0, true, .empty, false⟩] ∧
      regsKept s t ∧ frame s t (fun a => inSegments segs a = true) ∧
      (Memory.wf s.mem = true → segmentsApart segs → (∀ a, inSegments segs a = true → s.ctrlMayWrite a = false) →
        ∀ (i : Nat) (g g' : Segment), segs[i]? = some g → segs[(i + 1) % segs.length]? = some g' →
          (∀ j, j + 1 < g.size → memGetTrb t.mem (slotAddr g j) = 0#128) ∧
          memGetTrb t.mem (slotAddr g (g.size - 1)) = trbOfWords (BitVec.ofNat 32 (g'.base.toNat % 2 ^ 32))
            (BitVec.ofNat 32 (g'.base.toNat / 2 ^ 32)) 0#32
            (BitVec.ofNat 32 (0x1800 + if i + 1 = segs.length then 2 else 0)))

/-- An identifier that names no ring or a consumer ring faults F_WRONG_RING; on a Command Ring every Type but 9 to
25, and on a Transfer Ring every Type but 1 to 5, 7 and 8, faults F_NOT_ALLOWED; nothing is accessed. -/
def Obligations.EnqueueRefused : Prop :=
  ∀ (r : Nat) (v : Trb) (s : State), s.fault = none →
    ((∀ p, s.rings[r]? ≠ some (.producer p)) → exec (.enqueue r v) s = faulted s .wrongRing) ∧
    (∀ (p : ProducerRing) (g : Segment), s.rings[r]? = some (.producer p) → p.segs[p.seg]? = some g → ¬ acceptedType p.kind (trbBits v 106 6) →
      exec (.enqueue r v) s = faulted s .notAllowed)

/-- In every legal state and for every accepted TRB: the answer is the slot's address; the cursor moves by one slot,
or past the Link to the next segment with the Cycle State flipped after the last one; only the slot's 16 bytes and,
when the segment fills, the Link's DW3 change; the slot then holds the TRB with the Cycle bit replaced, and the Link
Type 6, the Chain bit of the TRB, its Toggle Cycle and the Cycle State. -/
def Obligations.Enqueue : Prop :=
  ∀ (r : Nat) (v : Trb) (s : State) (p : ProducerRing) (g : Segment), MachineInv s → s.fault = none →
    s.rings[r]? = some (.producer p) → p.segs[p.seg]? = some g → acceptedType p.kind (trbBits v 106 6) →
    ∃ t : State, exec (.enqueue r v) s = .next t ∧ t.result = some (.address (slotAddr g p.idx)) ∧
      t.rings = s.rings.set r (.producer
        (if p.idx + 2 = g.size then
          { p with
            seg := (p.seg + 1) % p.segs.length, idx := 0, phase := .running, lastCh := chainBit v
            pcs := if p.seg + 1 = p.segs.length then !p.pcs else p.pcs }
        else { p with idx := p.idx + 1, phase := .running, lastCh := chainBit v })) ∧
      regsKept s t ∧
      frame s t (fun a => (∃ k < 16, a = byteAddr (slotAddr g p.idx) k) ∨
        (p.idx + 2 = g.size ∧ ∃ k < 4, a = byteAddr (slotAddr g (g.size - 1) + 12#64) k)) ∧
      ((∀ a, segmentHolds g a = true → s.ctrlMayWrite a = false) →
        cycleSet v p.pcs (memGetTrb t.mem (slotAddr g p.idx)) ∧
        (p.idx + 2 = g.size → (memGetWord t.mem (slotAddr g (g.size - 1) + 12#64)).toNat =
          0x1800 + 16 * (chainBit v).toNat + 2 * (if p.seg + 1 = p.segs.length then 1 else 0) + p.pcs.toNat))

/-- Whatever the controller does meanwhile, the block's accesses of an ENQUEUE are the writes of DW0, DW1, DW2,
ORDER_W, DW3 and, when the segment fills, ORDER_W and the Link's DW3, each at the access address MapPhys gives, and
no others (the trace is newest first). -/
def Obligations.EnqueueOrder : Prop :=
  ∀ (r : Nat) (v : Trb) (s : State) (p : ProducerRing) (g : Segment), s.fault = none →
    s.rings[r]? = some (.producer p) → p.segs[p.seg]? = some g → acceptedType p.kind (trbBits v 106 6) →
    ∃ (t : State) (u : Trb), exec (.enqueue r v) s = .next t ∧ cycleSet v p.pcs u ∧
      let w (k : Nat) (x : Word) : Access :=
        .memWrite (slotAddr g p.idx + BitVec.ofNat 64 k) (Config.mapPhys (slotAddr g p.idx + BitVec.ofNat 64 k)) x
      let l : Addr := slotAddr g (g.size - 1) + 12#64
      blockTrace t.trace =
        (if p.idx + 2 = g.size then
          [.memWrite l (Config.mapPhys l) (linkControl (chainBit v) (p.seg + 1 == p.segs.length) p.pcs), .orderW]
        else []) ++
        [w 12 (dw3 u), .orderW, w 8 (dw2 u), w 4 (dw1 u), w 0 (dw0 u)] ++ blockTrace s.trace

/-- A controller that reads a producer ring at the enqueue cursor with the ring's Cycle State consumes nothing
before an ENQUEUE, and after it exactly the TRB enqueued, with its Cycle bit, moving to the next slot. That slot is
the ring's new enqueue pointer, or, when the segment is full, its Link, by which the reader comes to the new enqueue
pointer with the ring's new Cycle State, where the Links point to their next segments. The reader, which sees the 16
bytes of its slot at one instant, is the model's choice (log entries 10 and 22). -/
def Obligations.EnqueueHandsOver : Prop :=
  ∀ (r : Nat) (v : Trb) (s t : State) (p : ProducerRing) (g : Segment) (h : HcReader), MachineInv s → s.fault = none →
    s.rings[r]? = some (.producer p) → p.segs[p.seg]? = some g → acceptedType p.kind (trbBits v 106 6) →
    LapInv s.mem p → (∀ a, segmentHolds g a = true → s.ctrlMayWrite a = false) →
    h.cursor = slotAddr g p.idx → h.cycle = p.pcs → exec (.enqueue r v) s = .next t →
    readerConsume s.mem h = h ∧
    ∃ (u : Trb) (q : ProducerRing) (g' : Segment), cycleSet v p.pcs u ∧
      readerConsume t.mem h = { cursor := slotAddr g p.idx + 16#64, cycle := h.cycle, consumed := u :: h.consumed } ∧
      t.rings[r]? = some (.producer q) ∧ q.segs[q.seg]? = some g' ∧
      (p.idx + 2 ≠ g.size → slotAddr g' q.idx = slotAddr g p.idx + 16#64 ∧ q.pcs = h.cycle) ∧
      (p.idx + 2 = g.size → LinkInv s.mem p →
        readerConsume t.mem (readerConsume t.mem h) =
          { cursor := slotAddr g' q.idx, cycle := q.pcs, consumed := u :: h.consumed })

/-- On a producer ring ENQUEUE_POINTER answers base + 16 * idx of the cursor's segment and pcs; CRCR_VALUE answers
the two actions when the ring is a Command Ring and the pointer 64-byte aligned, and faults F_WRONG_RING or
F_MISALIGNED otherwise; neither accesses or changes anything. -/
def Obligations.ProducerValues : Prop :=
  ∀ (r : Nat) (s : State), s.fault = none →
    ((∀ p, s.rings[r]? ≠ some (.producer p)) →
      exec (.enqueuePointer r) s = faulted s .wrongRing ∧ exec (.crcrValue r) s = faulted s .wrongRing) ∧
    ∀ (p : ProducerRing) (g : Segment), s.rings[r]? = some (.producer p) → p.segs[p.seg]? = some g →
      let pa : Addr := g.base + BitVec.ofNat 64 (16 * p.idx)
      exec (.enqueuePointer r) s = answered s (.pointer pa p.pcs) ∧
      (p.kind = .transfer → exec (.crcrValue r) s = faulted s .wrongRing) ∧
      (p.kind = .command → pa.toNat % 64 ≠ 0 → exec (.crcrValue r) s = faulted s .misaligned) ∧
      (p.kind = .command → pa.toNat % 64 = 0 → exec (.crcrValue r) s =
        answered s (.mutations [.set .commandRingPointer (pa.toNat / 64), .set .rcs p.pcs.toNat]))

/-- From a freshly constructed producer ring, after any sequence of instructions of which k are ENQUEUEs on it that
answered, whatever the others and the controller do: the cursor's logical position is k mod C, C the ring's data
slots, and the Cycle State is 1 exactly when k / C is even. -/
def Obligations.ProducerPositions : Prop :=
  ∀ (r : Nat) (is : List Instr) (log : List (Instr × Option Result)) (s t : State) (p : ProducerRing),
    MachineInv s → s.rings[r]? = some (.producer p) → p.seg = 0 → p.idx = 0 → p.pcs = true →
    execLog is s = some (log, t) →
    let k := (log.filter (enqueuedOn r)).length
    ∃ q : ProducerRing, t.rings[r]? = some (.producer q) ∧ q.kind = p.kind ∧ q.segs = p.segs ∧
      producerPos q = k % dataSlots p.segs ∧ q.pcs = (k / dataSlots p.segs % 2 == 0)

/-- An INIT_PRODUCER either faults or leaves a ring all of whose slots, Links included, hold ~pcs in their Cycle
bit, and whose Links point to the next segments, provided the rings are disjoint. That the new ring stands at the
end of the list is the model's choice (log entry 20). -/
def Obligations.LapInvAtConstruction : Prop :=
  ∀ (kind : RingKind) (segs : List Segment) (s t : State), MachineInv s → s.fault = none →
    exec (.initProducer kind segs) s = .next t → RingsDisjoint t.rings →
    (∃ code : FaultCode, t = { s with fault := some code, result := some (.fault code) }) ∨
    ∃ p : ProducerRing, t.rings[s.rings.length]? = some (.producer p) ∧ p.segs = segs ∧ LapInv t.mem p ∧
      LinkInv t.mem p

/-- In every legal state with disjoint rings: if in a producer ring the slots before the cursor (passed Links
included) hold pcs and all others ~pcs, so they do after any step, whatever the request and the controller do; and
so do its Links keep pointing to their next segments. -/
def Obligations.LapInvKept : Prop :=
  ∀ (s t : State) (r : Nat) (p : ProducerRing), MachineInv s → RingsDisjoint t.rings →
    s.rings[r]? = some (.producer p) → LapInv s.mem p → Machine.step s = .next t →
    ∃ q : ProducerRing, t.rings[r]? = some (.producer q) ∧ LapInv t.mem q ∧
      (LinkInv s.mem p → LinkInv t.mem q)

/-- No segments, more than ERST_MAX_ENTRIES, a zero, misaligned or too high ERST base, then the tests of each
segment in order with sizes 16 to 4096: the first that applies is the fault, and nothing else changes. -/
def Obligations.InitEventFaults : Prop :=
  ∀ (e : Addr) (segs : List Segment) (s : State), s.fault = none →
    (segs.length = 0 → exec (.initEvent e segs) s = faulted s .zeroSegments) ∧
    (segs.length ≠ 0 → s.erstMax < segs.length → exec (.initEvent e segs) s = faulted s .erstSize) ∧
    (segs.length ≠ 0 → segs.length ≤ s.erstMax →
      (e.toNat = 0 → exec (.initEvent e segs) s = faulted s .zeroAddress) ∧
      (e.toNat ≠ 0 → e.toNat % 64 ≠ 0 → exec (.initEvent e segs) s = faulted s .misaligned) ∧
      (e.toNat ≠ 0 → e.toNat % 64 = 0 → 2 ^ 64 ≤ e.toNat + 16 * segs.length - 1 →
        exec (.initEvent e segs) s = faulted s .segBoundary) ∧
      (e.toNat ≠ 0 → e.toNat % 64 = 0 → e.toNat + 16 * segs.length - 1 < 2 ^ 64 →
        ∀ (pre post : List Segment) (g : Segment), segs = pre ++ g :: post → (∀ q ∈ pre, segmentOk 16 4096 q) →
          (g.base.toNat = 0 → exec (.initEvent e segs) s = faulted s .zeroAddress) ∧
          (g.base.toNat ≠ 0 → g.base.toNat % 64 ≠ 0 → exec (.initEvent e segs) s = faulted s .misaligned) ∧
          (g.base.toNat ≠ 0 → g.base.toNat % 64 = 0 → g.size < 16 ∨ 4096 < g.size →
            exec (.initEvent e segs) s = faulted s .segSize) ∧
          (g.base.toNat ≠ 0 → g.base.toNat % 64 = 0 → 16 ≤ g.size → g.size ≤ 4096 →
            g.base.toNat / 65536 ≠ (g.base.toNat + 16 * g.size - 1) / 65536 →
            exec (.initEvent e segs) s = faulted s .segBoundary)))

/-- With arguments that pass the tests, a new ring with the next identifier, cursor 0, Cycle State 1, phase Empty;
no byte outside the segments and the ERST changes; and where these are disjoint and no other ring's slots, every
slot is zero and ERST entry i holds base and size of segment i. That the identifier is the ring's place in the list
is the model's choice (log entry 20). -/
def Obligations.InitEvent : Prop :=
  ∀ (e : Addr) (segs : List Segment) (s : State), s.fault = none → segs ≠ [] → segs.length ≤ s.erstMax →
    e.toNat ≠ 0 → e.toNat % 64 = 0 → e.toNat + 16 * segs.length - 1 < 2 ^ 64 → (∀ g ∈ segs, segmentOk 16 4096 g) →
    ∃ t : State, exec (.initEvent e segs) s = .next t ∧ t.result = some (.ring s.rings.length) ∧
      t.rings = s.rings ++ [.consumer ⟨segs, e, 0, 0, true, .empty⟩] ∧ regsKept s t ∧
      frame s t (fun a => inSegments segs a = true ∨ (e.toNat ≤ a ∧ a < e.toNat + 16 * segs.length)) ∧
      (Memory.wf s.mem = true → RingsDisjoint [.consumer ⟨segs, e, 0, 0, true, .empty⟩] →
        (∀ a, inSegments segs a = true ∨ (e.toNat ≤ a ∧ a < e.toNat + 16 * segs.length) →
          s.ctrlMayWrite a = false) →
        ∀ (i : Nat) (g : Segment), segs[i]? = some g →
          (∀ j < g.size, memGetTrb t.mem (slotAddr g j) = 0#128) ∧
          memGetTrb t.mem (e + BitVec.ofNat 64 (16 * i)) = trbOfWords (BitVec.ofNat 32 (g.base.toNat % 2 ^ 32))
            (BitVec.ofNat 32 (g.base.toNat / 2 ^ 32)) (BitVec.ofNat 32 g.size) 0#32)

/-- An identifier that names no ring or a producer ring faults F_WRONG_RING. Whatever the controller does meanwhile,
DEQUEUE on a consumer ring completes: either DW3 alone was read, its Cycle bit is not ccs, the answer is None and no
ring changes; or DW3, ORDER_R, DW0, DW1, DW2 were read, the answer is the TRB of these words, and the cursor
advances by the ERST. It writes no memory and no content faults. -/
def Obligations.DequeueAnyTime : Prop :=
  (∀ (r : Nat) (s : State), s.fault = none → (∀ c, s.rings[r]? ≠ some (.consumer c)) →
    exec (.dequeue r) s = faulted s .wrongRing) ∧
  (∀ (r : Nat) (s : State) (c : ConsumerRing) (g : Segment), s.fault = none → s.rings[r]? = some (.consumer c) →
    c.segs[c.seg]? = some g →
    let m (k : Nat) (x : Word) : Access :=
      .memRead (slotAddr g c.idx + BitVec.ofNat 64 k) (Config.mapPhys (slotAddr g c.idx + BitVec.ofNat 64 k)) x
    ∃ t : State, exec (.dequeue r) s = .next t ∧ regsKept s t ∧ frame s t noByte ∧
      ((∃ d3 : Word, d3.getLsbD 0 ≠ c.ccs ∧ t.result = some .nothing ∧ t.rings = s.rings ∧
          blockTrace t.trace = m 12 d3 :: blockTrace s.trace) ∨
        (∃ u : Trb, u.getLsbD 96 = c.ccs ∧ t.result = some (.event (kindOf u) u) ∧
          t.rings = s.rings.set r (.consumer
            (if c.idx + 1 = g.size then
              if c.seg + 1 = c.segs.length then { c with idx := 0, seg := 0, ccs := !c.ccs, phase := .running }
              else { c with idx := 0, seg := c.seg + 1, phase := .running }
            else { c with idx := c.idx + 1, phase := .running })) ∧
          blockTrace t.trace = [m 8 (dw2 u), m 4 (dw1 u), m 0 (dw0 u), .orderR, m 12 (dw3 u)] ++
            blockTrace s.trace)))

/-- With no act of the controller scheduled: if the slot at the cursor has the ring's Cycle State in its Cycle bit,
DEQUEUE answers the TRB that memory holds there, of whatever kind (a Link included); otherwise None and no ring
changes; memory and registers stay as they were. -/
def Obligations.DequeueQuiet : Prop :=
  ∀ (r : Nat) (s : State) (c : ConsumerRing) (g : Segment), s.fault = none → s.ctrl = [] →
    s.rings[r]? = some (.consumer c) → c.segs[c.seg]? = some g →
    ∃ t : State, exec (.dequeue r) s = .next t ∧ t.mem = s.mem ∧ t.regs = s.regs ∧
      (slotCycle s.mem g c.idx = c.ccs → t.result =
        some (.event (kindOf (memGetTrb s.mem (slotAddr g c.idx))) (memGetTrb s.mem (slotAddr g c.idx)))) ∧
      (slotCycle s.mem g c.idx ≠ c.ccs → t.result = some .nothing ∧ t.rings = s.rings)

/-- If the controller's position on an Event Ring is the block's cursor, the controller runs, the ring is neither
disabled nor full by its ERDP, and the controller posts an event just before the DEQUEUE's first access, the DEQUEUE
answers that event with the ring's Cycle bit, and both are again at one position with one Cycle State. The writer,
its post in one batch and the slot kept free are the model's (log entries 22, 10 and 33). -/
def Obligations.DequeuePosted : Prop :=
  ∀ (r i : Nat) (ev : Trb) (s : State) (c : ConsumerRing) (g : Segment) (w : HcWriter), MachineInv s →
    s.fault = none → s.ctrl = [[.post i ev]] → s.rings[r]? = some (.consumer c) → c.segs[c.seg]? = some g →
    s.hc.events.find? (fun x => x.intr == i) = some w → w.segs = c.segs → w.seg = c.seg → w.idx = c.idx →
    w.cycle = c.ccs → regField s.regs .usbsts .hch = 0#64 → i = 0 ∨ regField s.regs (.erstsz i) .erstSize ≠ 0#64 →
    writerFull s.regs w = false →
    ∃ (t : State) (u : Trb) (c' : ConsumerRing) (w' : HcWriter), exec (.dequeue r) s = .next t ∧ cycleSet ev c.ccs u ∧
      t.result = some (.event (kindOf u) u) ∧ t.rings[r]? = some (.consumer c') ∧
      t.hc.events.find? (fun x => x.intr == i) = some w' ∧
      w'.segs = c'.segs ∧ w'.seg = c'.seg ∧ w'.idx = c'.idx ∧ w'.cycle = c'.ccs

/-- On a consumer ring: the dequeue pointer base + 16 * idx with seg and ccs; the ERDP actions with the pointer's
bits 63:4, seg mod 8 and clear_ehb when asked; the ERSTSZ and ERSTBA actions; on anything else F_WRONG_RING; nothing
is accessed or changed. -/
def Obligations.ConsumerValues : Prop :=
  ∀ (r : Nat) (clearBusy : Bool) (s : State), s.fault = none →
    ((∀ c, s.rings[r]? ≠ some (.consumer c)) →
      exec (.dequeuePointer r) s = faulted s .wrongRing ∧ exec (.erdpValue r clearBusy) s = faulted s .wrongRing ∧
      exec (.erstszValue r) s = faulted s .wrongRing ∧ exec (.erstbaValue r) s = faulted s .wrongRing) ∧
    ∀ c : ConsumerRing, s.rings[r]? = some (.consumer c) →
      exec (.erstszValue r) s = answered s (.mutations [.set .erstSize c.segs.length]) ∧
      exec (.erstbaValue r) s = answered s (.mutations [.set .erstbaPointer (c.erstBase.toNat / 64)]) ∧
      ∀ g : Segment, c.segs[c.seg]? = some g →
        let pa : Addr := g.base + BitVec.ofNat 64 (16 * c.idx)
        exec (.dequeuePointer r) s = answered s (.dequeuePointer pa c.seg c.ccs) ∧
        exec (.erdpValue r clearBusy) s = answered s (.mutations
          ([.set .erdpPointer (pa.toNat / 16), .set .desi (c.seg % 8)] ++ if clearBusy then [.clear .ehb] else []))

/-- From a freshly constructed Event Ring, after any sequence of instructions of which k are DEQUEUEs on it that
answered a TRB, whatever the others and the controller do: the cursor's logical position is k mod E, E the ring's
slots, and the Cycle State is 1 exactly when k / E is even. -/
def Obligations.ConsumerPositions : Prop :=
  ∀ (r : Nat) (is : List Instr) (log : List (Instr × Option Result)) (s t : State) (c : ConsumerRing),
    MachineInv s → s.rings[r]? = some (.consumer c) → c.seg = 0 → c.idx = 0 → c.ccs = true →
    execLog is s = some (log, t) →
    let k := (log.filter (dequeuedFrom r)).length
    ∃ d : ConsumerRing, t.rings[r]? = some (.consumer d) ∧ d.segs = c.segs ∧ d.erstBase = c.erstBase ∧
      consumerPos d = k % allSlots c.segs ∧ d.ccs = (k / allSlots c.segs % 2 == 0)

/-- In every legal state, a mutation list that one of the four requests answers makes no UPDATE of its register
fault. -/
def Obligations.MutationListsFit : Prop :=
  ∀ (r : Nat) (clearBusy : Bool) (s t : State) (M : List Action), MachineInv s → s.fault = none →
    t.result = some (.mutations M) →
    (exec (.crcrValue r) s = .next t → checkMutations crcrLayout M = none) ∧
    (exec (.erdpValue r clearBusy) s = .next t → checkMutations erdpLayout M = none) ∧
    (exec (.erstszValue r) s = .next t → checkMutations erstszLayout M = none) ∧
    (exec (.erstbaValue r) s = .next t → checkMutations erstbaLayout M = none)

/-- A step takes the head of the port and performs it: a well-formed request, or the instruction that the decoder
reads from a slot's bytes, on the state without the head; a request with an ill-formed layout is refused by name;
with an empty port the controller takes its turn; and the step of a state with a table word placed on its port
performs what the decoder reads from it. The model's own: the port (log entry 1), the refusal at the fetch (entry
18), the idle turn (entry 4), and a table word as a slot (entry 3). -/
def Obligations.StepRunsTheInstruction : Prop :=
  (∀ (s : State) (i : Instr) (rest : List PortItem), s.port = .request i :: rest → i.wf = true →
    Machine.step s = exec i { s with port := rest }) ∧
  (∀ (s : State) (bytes : List Byte) (i : Instr) (rest : List PortItem), s.port = .slot bytes :: rest →
    decodeBytes bytes = .ok (i, []) → Machine.step s = exec i { s with port := rest }) ∧
  (∀ (s : State) (i : Instr) (rest : List PortItem), s.port = .request i :: rest → i.wf = false →
    Machine.step s = .refused .illFormed) ∧
  (∀ s : State, s.port = [] → Machine.step s = .next (controllerTurn s)) ∧
  (∀ (s : State) (nbits w : Nat) (i : Instr), decodeTableWord nbits w = some i →
    decodeBytes (tableBytes nbits w) = .ok (i, []) → Machine.step (s.withFetchWord nbits w) = exec i s)

/-- No instruction of the table stops the machine in a legal state: a request that faults does so in a next state,
and nothing read from memory or a register stops one. -/
def Obligations.EveryRequestCompletes : Prop :=
  ∀ (i : Instr) (s : State), MachineInv s → ∃ t : State, exec i s = .next t

/-- For every instruction: if it leaves a fault where there was none, the state differs from before in the fault and
the answer only (no access, no ring, no register, no byte); and after a fault every instruction answers F_DEAD and
changes nothing else, the fault included. -/
def Obligations.FaultIsPreciseAndFinal : Prop :=
  (∀ (i : Instr) (s t : State), s.fault = none → exec i s = .next t → t.fault ≠ none →
    ∃ code : FaultCode, code ≠ .dead ∧ t = { s with fault := some code, result := some (.fault code) }) ∧
  (∀ (i : Instr) (s : State), s.fault ≠ none → exec i s = answered s (.fault .dead))

/-- After any instruction other than an ENQUEUE or a DEQUEUE on ring r, ring r is exactly as before, whatever the
controller does meanwhile. -/
def Obligations.RingsIndependent : Prop :=
  ∀ (i : Instr) (s t : State) (r : Nat) (g : Ring), exec i s = .next t → s.rings[r]? = some g →
    (∀ v, i ≠ .enqueue r v) → i ≠ .dequeue r → t.rings[r]? = some g

/-- Whatever is scheduled for the controller, its turn changes nothing of the block's state and no byte of memory
but those of consumer rings' slots, and, apart from its reactions to register writes, no RW or reserved bit of a
register. -/
def Obligations.ControllerTurn : Prop :=
  ∀ s : State,
    (controllerTurn s).fault = s.fault ∧ (controllerTurn s).rings = s.rings ∧ (controllerTurn s).result = s.result ∧
    (controllerTurn s).port = s.port ∧
    (∀ a, s.ctrlMayWrite a = false → (controllerTurn s).byteAt a = s.byteAt a) ∧
    ((∀ b ∈ s.ctrl, ∀ x, .react x ∉ b) → ∀ (j : Nat) (q r : Reg), s.regs[j]? = some q →
      (controllerTurn s).regs[j]? = some r → r.name = q.name ∧
        ∀ p ∈ q.name.layout.fields, p.cls = .rw ∨ p.cls = .rsvdP ∨ p.cls = .rsvdZ → ∀ i < p.width,
          r.value.getLsbD (p.lo + i) = q.value.getLsbD (p.lo + i))

/-- When hcrst is 1 and the controller reacts to it, every register takes its reset value, the controller's ring
pointers are gone, and rings, memory and fault state stay. With run_stop 1 it clears hch, with run_stop 0 it sets
hch, with cs or ca 1 it clears crr, and no other bit of a register and nothing else changes. A reaction whose
register does not ask for it does nothing, nor a start that no write asked for. When it reacts is the model's
schedule (log entry 21), and that it forgets a low dword not yet completed is the model's too (entry 27). -/
def Obligations.ControllerReset : Prop :=
  (∀ s : State, s.ctrl = [[.react .reset]] → regField s.regs .usbcmd .hcrst = 1#64 →
    (controllerTurn s).regs = s.regs.map (fun r => { r with value := r.reset, low := none }) ∧
    (controllerTurn s).hc = .nowhere ∧
    (controllerTurn s).rings = s.rings ∧ (controllerTurn s).mem = s.mem ∧ (controllerTurn s).fault = s.fault) ∧
  (∀ s : State, s.ctrl = [[.react .run]] → regField s.regs .usbcmd .runStop = 1#64 →
    reactedBit s (controllerTurn s) .run .usbsts 0 false) ∧
  (∀ s : State, s.ctrl = [[.react .halt]] → regField s.regs .usbcmd .runStop = 0#64 →
    reactedBit s (controllerTurn s) .halt .usbsts 0 true) ∧
  (∀ s : State, s.ctrl = [[.react .commandStop]] →
    regField s.regs .crcr .cs = 1#64 ∨ regField s.regs .crcr .ca = 1#64 →
    reactedBit s (controllerTurn s) .commandStop .crcr 3 false) ∧
  (∀ (s : State) (x : Reaction) (i : Nat), s.ctrl = [[.react x]] →
    (x = .reset ∧ regField s.regs .usbcmd .hcrst ≠ 1#64) ∨ (x = .run ∧ regField s.regs .usbcmd .runStop ≠ 1#64) ∨
      (x = .halt ∧ regField s.regs .usbcmd .runStop ≠ 0#64) ∨
      (x = .commandStop ∧ regField s.regs .crcr .cs ≠ 1#64 ∧ regField s.regs .crcr .ca ≠ 1#64) ∨
      (x = .commandStart ∧ (regField s.regs .crcr .crr ≠ 0#64 ∨ s.trace = [])) ∨ (x = .eventStart i ∧ s.trace = []) →
    controllerTurn s = { s with ctrl := [] })

/-- The fault state is None, the set of rings is empty, and each register of the map holds the value of its reset
column (shown for the operational registers, interrupter 0 and doorbell 0). -/
def Obligations.ResetState : Prop :=
  State.reset.fault = none ∧ State.reset.rings = [] ∧
  (∀ (n : RegName) (x : RegValue), (n, x) ∈ [(RegName.usbcmd, 0#64), (.usbsts, 0x801#64), (.crcr, 0#64),
      (.dcbaap, 0#64), (.config, 0#64), (.mfindex, 0#64), (.iman 0, 0#64), (.imod 0, 0xfa0#64), (.erstsz 0, 0#64),
      (.erstba 0, 0#64), (.erdp 0, 0#64), (.doorbell 0, 0#64)] →
    ∃ r ∈ State.reset.regs, r.name = n ∧ r.value = x)

/-- The state after reset meets the machine invariant, the access invariant and the consistency of the (empty) trace
over empty memory, and so does the state after reset with any SPLIT64 and any HCSPARAMS2 constant, whose
ERST_MAX_ENTRIES is 2^erst_max. That State.reset has one choice of them is the model's (log entries 8 and 9). -/
def Obligations.ResetIsLegal : Prop :=
  (MachineInv State.reset ∧ AccessInv State.reset ∧ TraceOver [] State.reset ∧ RingsDisjoint State.reset.rings) ∧
  (State.resetWith Config.resetSplit64 Config.hcsparams2 = State.reset) ∧
  ∀ (b : Bool) (x : RegValue), x.toNat < 2 ^ 32 →
    let s : State := State.resetWith b x
    MachineInv s ∧ AccessInv s ∧ TraceOver [] s ∧ RingsDisjoint s.rings ∧ s.split64 = b ∧
      s.erstMax = 2 ^ (x.toNat / 16 % 16)

/-- The canonical form of memory, the bounds of every ring's cursor (never on a Link slot), the construction checks
of every ring, last_ch 0 on Command Rings, the register map with its reset values (for HCSPARAMS2 any constant), the
widths and the first fault code are kept by every step, from every legal state and for every act of the controller.
-/
def Obligations.InvKept : Prop :=
  ∀ s t : State, MachineInv s → Machine.step s = .next t → MachineInv t

/-- For every starting memory: if memory is the replay of the trace's writes and every read in the trace shows what
the writes before it left, so it is after every step, for the accesses of both agents. -/
def Obligations.SequentialConsistency : Prop :=
  ∀ (m : Memory) (s t : State), TraceOver m s → Machine.step s = .next t → TraceOver m t

/-- From legal states every access in the trace stays one its agent may make: the block writes aligned words of its
rings' segments and ERSTs and reads aligned words of Event Ring slots, at the addresses MapPhys gives; the
controller writes aligned words of Event Ring slots only. -/
def Obligations.WhoAccessesWhat : Prop :=
  ∀ s t : State, MachineInv s → AccessInv s → Machine.step s = .next t → AccessInv t

/-- After doorbell 0 was written with target 0 and crr is 0: the controller sets crr and reads the Command Ring at
CRCR's pointer with CRCR's rcs, if it has no place yet or CRCR was written just before; if it stopped just before,
it goes on where it was (log entry 21). After ERSTBA was written, SPLIT64 or not: it reads the ERST and starts the
Event Ring at entry 0, slot 0, Cycle State 1; with erst_size 0 a secondary interrupter has none. The reactions as
acts of the schedule, the cursors, and reading all entries at one instant are the model's (entries 21, 22 and 10),
and the primary interrupter's ring of no entries (entry 34). -/
def Obligations.ControllerStarts : Prop :=
  (∀ (s : State) (w : RegValue) (tr : List Access), regsWf s.regs = true → s.ctrl = [[.react .commandStart]] →
    regField s.regs .crcr .crr = 0#64 → w.toNat % 256 = 0 →
    s.trace = .regWrite (RegName.doorbell 0).address 4 w :: tr →
    let fromCrcr (h : HcReader) : Prop := h.consumed = [] ∧
      h.cursor.toNat = (regField s.regs .crcr .commandRingPointer).toNat * 64 ∧
      (h.cycle = true ↔ regField s.regs .crcr .rcs = 1#64)
    regField (controllerTurn s).regs .crcr .crr = 1#64 ∧ (∃ h, (controllerTurn s).hc.command = some h) ∧
    (controllerTurn s).hc.endpoints = s.hc.endpoints ∧ (controllerTurn s).hc.events = s.hc.events ∧
    (s.hc.command = none → ∀ h, (controllerTurn s).hc.command = some h → fromCrcr h) ∧
    (∀ v tr', tr = .regWrite RegName.crcr.address 8 v :: tr' →
      ∀ h, (controllerTurn s).hc.command = some h → fromCrcr h) ∧
    (∀ v tr', tr = .regWrite (RegName.crcr.address + 4#64) 4 v :: tr' →
      ∀ h, (controllerTurn s).hc.command = some h → fromCrcr h) ∧
    (∀ h tr', s.hc.command = some h → tr = .ctrlReact .commandStop :: tr' →
      (controllerTurn s).hc.command = some h)) ∧
  (∀ (s : State) (i : Nat) (v : RegValue) (tr : List Access), regsWf s.regs = true → i < maxIntrs →
    s.ctrl = [[.react (.eventStart i)]] →
    s.trace = .regWrite (RegName.erstba i).address 8 v :: tr ∨
      s.trace = .regWrite ((RegName.erstba i).address + 4#64) 4 v :: tr →
    let n : Nat := (regField s.regs (.erstsz i) .erstSize).toNat
    let e : Addr := regField s.regs (.erstba i) .erstbaPointer <<< 6
    let writer (t : State) (j : Nat) : Option HcWriter := t.hc.events.find? (fun x => x.intr == j)
    (controllerTurn s).hc.command = s.hc.command ∧ (controllerTurn s).hc.endpoints = s.hc.endpoints ∧
    (∀ j, j ≠ i → writer (controllerTurn s) j = writer s j) ∧
    (i ≠ 0 → n = 0 → writer (controllerTurn s) i = none) ∧
    (i = 0 ∨ n ≠ 0 → ∃ w, writer (controllerTurn s) i = some w ∧ w.seg = 0 ∧ w.idx = 0 ∧ w.cycle = true ∧
      w.segs.length = n ∧
      ∀ k < n, ∃ g, w.segs[k]? = some g ∧
        let pa : Addr := e + BitVec.ofNat 64 (16 * k)
        g.base.toNat = (memGetWord s.mem pa).toNat / 64 * 64 + (memGetWord s.mem (pa + 4#64)).toNat * 2 ^ 32 ∧
        g.size = (memGetWord s.mem (pa + 8#64)).toNat % 65536))

/-- While hch is 1 the controller consumes and posts nothing, and while crr is 0 it consumes no command (how the
model reads R319: log entry 21); with erst_size 0 a secondary interrupter posts nothing; when ERDP is the slot after
the one it would write, it writes nothing and reports Event Ring Full; and where it may not write the slot, it does
nothing (entry 35). The reader and the writer (entry 22), the one slot kept free and where the report goes (entry
33) are the model's. -/
def Obligations.ControllerHoldsBack : Prop :=
  (∀ (s : State) (a : CtrlAct) (k i : Nat) (ev : Trb), s.ctrl = [[a]] → regField s.regs .usbsts .hch ≠ 0#64 →
    a = .consumeCommand ∨ a = .consume k ∨ a = .post i ev → controllerTurn s = { s with ctrl := [] }) ∧
  (∀ s : State, s.ctrl = [[.consumeCommand]] → regField s.regs .crcr .crr ≠ 1#64 →
    controllerTurn s = { s with ctrl := [] }) ∧
  (∀ (s : State) (i : Nat) (ev : Trb), s.ctrl = [[.post i ev]] → i ≠ 0 → regField s.regs (.erstsz i) .erstSize = 0#64 →
    controllerTurn s = { s with ctrl := [] }) ∧
  (∀ (s : State) (i : Nat) (ev : Trb) (w : HcWriter) (g g' : Segment), s.ctrl = [[.post i ev]] →
    regField s.regs .usbsts .hch = 0#64 → i = 0 ∨ regField s.regs (.erstsz i) .erstSize ≠ 0#64 →
    s.hc.events.find? (fun x => x.intr == i) = some w → w.segs[w.seg]? = some g →
    w.segs[if w.idx + 1 = g.size then (if w.seg + 1 = w.segs.length then 0 else w.seg + 1) else w.seg]? = some g' →
    regField s.regs (.erdp i) .erdpPointer <<< 4 = slotAddr g' (if w.idx + 1 = g.size then 0 else w.idx + 1) →
    controllerTurn s = { s with ctrl := [], trace := .ctrlReport i .eventRingFullError :: s.trace }) ∧
  (∀ (s : State) (i : Nat) (ev : Trb) (w : HcWriter) (g : Segment), s.ctrl = [[.post i ev]] →
    s.hc.events.find? (fun x => x.intr == i) = some w → w.segs[w.seg]? = some g → writerFull s.regs w = false →
    (∃ k < 16, s.ctrlMayWrite (byteAddr (slotAddr g w.idx) k) = false) → controllerTurn s = { s with ctrl := [] })
end

