-- ==== Sys2Proof/Laws/Bits.lean ====
section
/-! SUPPORT. The bits of `field`, `place`, `getBits` and `putBits`. -/

namespace Sys2Proof

/-! ## Bits of a TRB -/

theorem getLsbD_place {n : Nat} (x : BitVec n) (lo i : Nat) :
    (place x lo).getLsbD i = (decide (lo ≤ i) && decide (i < 128) && x.getLsbD (i - lo)) := by
  unfold place
  rw [BitVec.getLsbD_shiftLeft, BitVec.getLsbD_setWidth]
  by_cases h1 : i < 128 <;> by_cases h2 : i < lo
  · simp [h1, h2]
  · have h3 : i - lo < 128 := by omega
    have h4 : lo ≤ i := by omega
    simp [h1, h2, h3, h4]
  · simp [h1]
  · simp [h1]

theorem getLsbD_field (t : Trb) (lo n i : Nat) :
    (field t lo n).getLsbD i = (decide (i < n) && t.getLsbD (lo + i)) := by
  simp [field, BitVec.getLsbD_extractLsb']

/-- A field of a combination is the combination of the fields. -/
theorem field_or (s t : Trb) (lo n : Nat) : field (s ||| t) lo n = field s lo n ||| field t lo n := by
  apply BitVec.eq_of_getLsbD_eq
  intro i hi
  rw [BitVec.getLsbD_or, getLsbD_field, getLsbD_field, getLsbD_field, BitVec.getLsbD_or, Bool.and_or_distrib_left]

/-- A value is read back from where it was placed. -/
theorem field_place_same {n : Nat} (x : BitVec n) (lo : Nat) (h : lo + n ≤ 128) : field (place x lo) lo n = x := by
  apply BitVec.eq_of_getLsbD_eq
  intro i hi
  have h1 : lo + i < 128 := by omega
  rw [getLsbD_field, getLsbD_place]
  simp only [hi, h1, Nat.le_add_right, decide_true, Bool.true_and, Nat.add_sub_cancel_left]

/-- A value shows nothing outside the bits where it was placed. -/
theorem field_place_apart {n : Nat} (x : BitVec n) (lo lo' n' : Nat) (h : lo + n ≤ lo' ∨ lo' + n' ≤ lo) :
    field (place x lo) lo' n' = 0#n' := by
  apply BitVec.eq_of_getLsbD_eq
  intro i hi
  rw [getLsbD_field, getLsbD_place]
  rcases h with h | h
  · have h1 : n ≤ lo' + i - lo := by omega
    simp [BitVec.getLsbD_of_ge x _ h1]
  · have h1 : ¬ lo ≤ lo' + i := by omega
    simp [h1]

/-- Two placed values of neighbouring fields are the placed pair. -/
theorem place_field_or {t : Trb} {lo n m : Nat} :
    place (field t lo n) lo ||| place (field t (lo + n) m) (lo + n) = place (field t lo (n + m)) lo := by
  apply BitVec.eq_of_getLsbD_eq
  intro i hi
  rw [BitVec.getLsbD_or, getLsbD_place, getLsbD_place, getLsbD_place, getLsbD_field, getLsbD_field, getLsbD_field]
  by_cases h1 : lo ≤ i
  · have e1 : lo + (i - lo) = i := by omega
    by_cases h2 : lo + n ≤ i
    · have e2 : lo + n + (i - (lo + n)) = i := by omega
      have h3 : ¬ i - lo < n := by omega
      have h4 : (i - (lo + n) < m) ↔ (i - lo < n + m) := by omega
      simp only [e1, e2, h1, h2, h3, h4]; simp
    · have h3 : i - lo < n := by omega
      have h4 : i - lo < n + m := by omega
      simp only [e1, h1, h2, h3, h4]; simp
  · have h2 : ¬ lo + n ≤ i := by omega
    simp [h1, h2]

/-- The same, for a place given as a number. -/
theorem place_field_merge {t : Trb} {lo n lo' m : Nat} (h : lo' = lo + n) :
    place (field t lo n) lo ||| place (field t lo' m) lo' = place (field t lo (n + m)) lo := by
  subst h
  exact place_field_or

/-- All 128 bits, placed, are the TRB. -/
theorem place_field_all (t : Trb) : place (field t 0 128) 0 = t := by
  apply BitVec.eq_of_getLsbD_eq
  intro i hi
  rw [getLsbD_place, getLsbD_field]
  simp [hi]

/-- A field as a number: the bits of `T` by division (R8). -/
theorem field_toNat (t : Trb) (lo n : Nat) : (field t lo n).toNat = t.toNat / 2 ^ lo % 2 ^ n := by
  simp [field, BitVec.extractLsb'_toNat, Nat.shiftRight_eq_div_pow]

end Sys2Proof

namespace Sys2Proof.Machine

/-! ## Bit fields at positions that are data -/

theorem getLsbD_ones (n w i : Nat) : (BitVec.ofNat n (2 ^ w - 1)).getLsbD i = (decide (i < n) && decide (i < w)) := by
  rw [BitVec.getLsbD_ofNat, Nat.testBit_two_pow_sub_one]

theorem getLsbD_maskAt (n lo w i : Nat) :
    (maskAt n lo w).getLsbD i = (decide (i < n) && decide (lo ≤ i) && decide (i < lo + w)) := by
  unfold maskAt
  rw [BitVec.getLsbD_shiftLeft, getLsbD_ones]
  by_cases h1 : i < n <;> by_cases h2 : i < lo
  · simp [h1, h2]
  · have h3 : i - lo < n := by omega
    have h4 : lo ≤ i := by omega
    have h5 : i - lo < w ↔ i < lo + w := by omega
    simp [h1, h2, h3, h4, h5]
  · simp [h1]
  · simp [h1]

/-- Bit `i` of a field. -/
theorem getLsbD_getBits {n : Nat} (x : BitVec n) (lo w i : Nat) :
    (getBits x lo w).getLsbD i = (decide (i < n) && decide (i < w) && x.getLsbD (lo + i)) := by
  unfold getBits
  rw [BitVec.getLsbD_and, BitVec.getLsbD_ushiftRight, getLsbD_ones, Bool.and_comm]

/-- Bit `i` after a field was replaced. -/
theorem getLsbD_putBits {n : Nat} (x : BitVec n) (lo w : Nat) (v : BitVec n) (i : Nat) :
    (putBits x lo w v).getLsbD i =
      if lo ≤ i ∧ i < lo + w then decide (i < n) && v.getLsbD (i - lo) else x.getLsbD i := by
  unfold putBits
  rw [BitVec.getLsbD_or, BitVec.getLsbD_and, BitVec.getLsbD_and, BitVec.getLsbD_not, BitVec.getLsbD_shiftLeft,
    getLsbD_maskAt]
  by_cases hn : i < n
  · by_cases h1 : lo ≤ i <;> by_cases h2 : i < lo + w
    · have h3 : ¬ i < lo := by omega
      simp [hn, h1, h2, h3]
    · simp [hn, h1, h2]
    · simp [hn, h1]
    · simp [hn, h1]
  · simp [hn, BitVec.getLsbD_of_ge x i (by omega)]

/-- A field is read back as written, cut to its width. -/
theorem getBits_putBits_same {n : Nat} (x v : BitVec n) (lo w : Nat) (h : lo + w ≤ n) :
    getBits (putBits x lo w v) lo w = getBits v 0 w := by
  apply BitVec.eq_of_getLsbD_eq
  intro i hi
  rw [getLsbD_getBits, getLsbD_getBits, getLsbD_putBits]
  by_cases h1 : i < w
  · have h2 : lo ≤ lo + i ∧ lo + i < lo + w := by omega
    have h3 : lo + i < n := by omega
    simp [h1, h2, h3]
  · simp [h1]

/-- Another field keeps its bits. -/
theorem getBits_putBits_apart {n : Nat} (x v : BitVec n) (lo w lo' w' : Nat) (h : lo + w ≤ lo' ∨ lo' + w' ≤ lo) :
    getBits (putBits x lo w v) lo' w' = getBits x lo' w' := by
  apply BitVec.eq_of_getLsbD_eq
  intro i hi
  rw [getLsbD_getBits, getLsbD_getBits, getLsbD_putBits]
  by_cases h1 : i < w'
  · have h2 : ¬ (lo ≤ lo' + i ∧ lo' + i < lo + w) := by omega
    simp [h2]
  · simp [h1]

/-- A field as a number (R8). -/
theorem getBits_toNat {n : Nat} (x : BitVec n) (lo w : Nat) (h : lo + w ≤ n) :
    (getBits x lo w).toNat = x.toNat / 2 ^ lo % 2 ^ w := by
  unfold getBits
  have hw : 2 ^ w - 1 < 2 ^ n := by
    have h1 : 2 ^ w ≤ 2 ^ n := Nat.pow_le_pow_right (by omega) (by omega)
    have h2 : 0 < 2 ^ w := Nat.two_pow_pos w
    omega
  rw [BitVec.toNat_and, BitVec.toNat_ushiftRight, BitVec.toNat_ofNat, Nat.mod_eq_of_lt hw,
    Nat.and_two_pow_sub_one_eq_mod, Nat.shiftRight_eq_div_pow]

/-- A field of its own width, as a number. -/
theorem getBits_toNat_lt {n : Nat} (x : BitVec n) (lo w : Nat) : (getBits x lo w).toNat < 2 ^ w := by
  unfold getBits
  rw [BitVec.toNat_and, BitVec.toNat_ofNat]
  refine lt_of_le_of_lt Nat.and_le_right (lt_of_le_of_lt (Nat.mod_le _ _) ?_)
  have h2 : 0 < 2 ^ w := Nat.two_pow_pos w
  omega

end Sys2Proof.Machine
end

