-- ==== Sys2Proof/Laws/Memory.lean ====
section
/-! SUPPORT. System memory: read after write, the canonical form, words. -/

namespace Sys2Proof.Machine

/-! ## Bytes -/

theorem memWfFrom_cons {lo k : Nat} {b : Byte} {m : Memory} :
    memWfFrom lo ((k, b) :: m) = true ↔
      lo ≤ k ∧ k < 2 ^ 64 ∧ b ≠ unlistedByte ∧ memWfFrom (k + 1) m = true := by
  simp [memWfFrom, and_assoc]

/-- The canonical form from a bound holds from every lower one. -/
theorem memWfFrom_mono {lo lo' : Nat} {m : Memory} (h : memWfFrom lo m = true) (hl : lo' ≤ lo) :
    memWfFrom lo' m = true := by
  cases m with
  | nil => rfl
  | cons c m =>
    obtain ⟨k, b⟩ := c
    rw [memWfFrom_cons] at h ⊢
    exact ⟨by omega, h.2⟩

/-- An address below all the listed ones reads as unlisted. -/
theorem memGet_below {lo a : Nat} {m : Memory} (h : memWfFrom lo m = true) (ha : a < lo) :
    memGet m a = unlistedByte := by
  induction m generalizing lo with
  | nil => rfl
  | cons c m ih =>
    obtain ⟨k, b⟩ := c
    rw [memWfFrom_cons] at h
    have h1 : k ≠ a := by omega
    simp only [memGet, h1, if_false]
    exact ih h.2.2.2 (by omega)

/-- The byte written is the byte read. -/
theorem memGet_memSet_same {lo : Nat} {m : Memory} (h : memWfFrom lo m = true) (a : Nat) (v : Byte) :
    memGet (memSet m a v) a = v := by
  induction m generalizing lo with
  | nil =>
    by_cases hv : v = unlistedByte <;> simp [memSet, memGet, hv]
  | cons c m ih =>
    obtain ⟨k, b⟩ := c
    have hh := h
    rw [memWfFrom_cons] at h
    unfold memSet
    by_cases h1 : a < k
    · by_cases hv : v = unlistedByte
      · simp only [h1, hv, if_true]
        exact memGet_below (memWfFrom_cons.mpr ⟨Nat.le_refl k, h.2⟩) h1
      · simp [h1, hv, memGet]
    · by_cases h2 : a = k
      · by_cases hv : v = unlistedByte
        · subst h2
          simp only [lt_irrefl, hv, if_true, if_false]
          exact memGet_below h.2.2.2 (by omega)
        · simp [h2, hv, memGet]
      · have h3 : k ≠ a := fun e => h2 e.symm
        simp only [h1, h2, if_false, memGet, h3]
        exact ih h.2.2.2

/-- Every other byte keeps its value. -/
theorem memGet_memSet_other (m : Memory) {a a' : Nat} (v : Byte) (h : a' ≠ a) :
    memGet (memSet m a v) a' = memGet m a' := by
  induction m with
  | nil =>
    by_cases hv : v = unlistedByte <;> simp [memSet, memGet, hv, h.symm]
  | cons c m ih =>
    obtain ⟨k, b⟩ := c
    unfold memSet
    by_cases h1 : a < k
    · by_cases hv : v = unlistedByte <;> simp [h1, hv, memGet, h.symm]
    · by_cases h2 : a = k
      · have h3 : k ≠ a' := fun e => h (e.symm.trans h2.symm)
        by_cases hv : v = unlistedByte <;> simp [h2, hv, memGet, h3]
      · simp only [h1, h2, if_false, memGet, ih]

/-- A byte of memory after a write. -/
theorem memGet_memSet {lo : Nat} {m : Memory} (h : memWfFrom lo m = true) (a a' : Nat) (v : Byte) :
    memGet (memSet m a v) a' = if a' = a then v else memGet m a' := by
  by_cases e : a' = a
  · rw [if_pos e, e]; exact memGet_memSet_same h a v
  · rw [if_neg e]; exact memGet_memSet_other m v e

theorem memWfFrom_memSet {lo : Nat} {m : Memory} (h : memWfFrom lo m = true) {a : Nat} (v : Byte) (hlo : lo ≤ a)
    (ha : a < 2 ^ 64) : memWfFrom lo (memSet m a v) = true := by
  induction m generalizing lo with
  | nil =>
    by_cases hv : v = unlistedByte
    · simp [memSet, hv, memWfFrom]
    · simp only [memSet, hv, if_false]
      rw [memWfFrom_cons]
      exact ⟨hlo, ha, hv, rfl⟩
  | cons c m ih =>
    obtain ⟨k, b⟩ := c
    have hh := h
    rw [memWfFrom_cons] at h
    unfold memSet
    by_cases h1 : a < k
    · by_cases hv : v = unlistedByte
      · simpa [h1, hv] using hh
      · simp only [h1, hv, if_true, if_false]
        rw [memWfFrom_cons]
        exact ⟨hlo, ha, hv, memWfFrom_cons.mpr ⟨by omega, h.2⟩⟩
    · by_cases h2 : a = k
      · by_cases hv : v = unlistedByte
        · subst h2
          simp only [lt_irrefl, hv, if_true, if_false]
          exact memWfFrom_mono h.2.2.2 (by omega)
        · subst h2
          simp only [lt_irrefl, hv, if_true, if_false]
          rw [memWfFrom_cons]
          exact ⟨hlo, ha, hv, h.2.2.2⟩
      · simp only [h1, h2, if_false]
        rw [memWfFrom_cons]
        exact ⟨h.1, h.2.1, h.2.2.1, ih h.2.2.2 (by omega)⟩

/-- A write keeps the canonical form. -/
theorem memSet_wf {m : Memory} (h : Memory.wf m = true) {a : Nat} (v : Byte) (ha : a < 2 ^ 64) :
    Memory.wf (memSet m a v) = true := memWfFrom_memSet h v (Nat.zero_le a) ha

/-- Memories in canonical form that read alike are equal. -/
theorem memory_ext {lo : Nat} {m m' : Memory} (h : memWfFrom lo m = true) (h' : memWfFrom lo m' = true)
    (e : ∀ a, memGet m a = memGet m' a) : m = m' := by
  induction m generalizing lo m' with
  | nil =>
    cases m' with
    | nil => rfl
    | cons c m' =>
      obtain ⟨k, b⟩ := c
      rw [memWfFrom_cons] at h'
      have := e k
      simp only [memGet, if_true] at this
      exact absurd this.symm h'.2.2.1
  | cons c m ih =>
    obtain ⟨k, b⟩ := c
    rw [memWfFrom_cons] at h
    cases m' with
    | nil =>
      have := e k
      simp only [memGet, if_true] at this
      exact absurd this h.2.2.1
    | cons c' m' =>
      obtain ⟨k', b'⟩ := c'
      have hw' := h'
      rw [memWfFrom_cons] at h'
      rcases lt_trichotomy k k' with hk | hk | hk
      · have h1 := e k
        rw [memGet_below (memWfFrom_cons.mpr ⟨Nat.le_refl k', h'.2⟩) hk] at h1
        simp only [memGet, if_true] at h1
        exact absurd h1 h.2.2.1
      · subst hk
        have h1 := e k
        simp only [memGet, if_true] at h1
        subst h1
        congr 1
        refine ih h.2.2.2 h'.2.2.2 fun a => ?_
        by_cases ha : k = a
        · subst ha
          rw [memGet_below h.2.2.2 (by omega), memGet_below h'.2.2.2 (by omega)]
        · simpa [memGet, ha] using e a
      · have h1 := e k'
        rw [memGet_below (memWfFrom_cons.mpr ⟨Nat.le_refl k, h.2⟩) hk] at h1
        simp only [memGet, if_true] at h1
        exact absurd h1.symm h'.2.2.1

/-! ## Words -/

theorem byteAddr_lt (pa : Addr) (k : Nat) : byteAddr pa k < 2 ^ 64 := (pa + BitVec.ofNat 64 k).isLt

/-- The bytes of a word have different addresses. -/
theorem byteAddr_ne (pa : Addr) {j k : Nat} (hj : j < 16) (hk : k < 16) (h : j ≠ k) :
    byteAddr pa j ≠ byteAddr pa k := by
  unfold byteAddr
  intro e
  have e' := BitVec.eq_of_toNat_eq e
  have : BitVec.ofNat 64 j = BitVec.ofNat 64 k := by
    have := congrArg (fun x => x - pa) e'
    simpa [BitVec.add_sub_cancel, add_comm] using this
  have := congrArg BitVec.toNat this
  simp only [BitVec.toNat_ofNat] at this
  omega

/-- A word's write keeps the canonical form. -/
theorem memSetWord_wf {m : Memory} (h : Memory.wf m = true) (pa : Addr) (v : Word) :
    Memory.wf (memSetWord m pa v) = true :=
  memSet_wf (memSet_wf (memSet_wf (memSet_wf h _ (byteAddr_lt pa 0)) _ (byteAddr_lt pa 1)) _ (byteAddr_lt pa 2)) _
    (byteAddr_lt pa 3)

/-- A byte that no byte of the word is keeps its value. -/
theorem memGet_memSetWord_other (m : Memory) (pa : Addr) (v : Word) {a : Nat} (h : ∀ k < 4, a ≠ byteAddr pa k) :
    memGet (memSetWord m pa v) a = memGet m a := by
  unfold memSetWord
  rw [memGet_memSet_other _ _ (h 3 (by omega)), memGet_memSet_other _ _ (h 2 (by omega)),
    memGet_memSet_other _ _ (h 1 (by omega)), memGet_memSet_other _ _ (h 0 (by omega))]

/-- The bytes of a word after its write, least significant first (R52). -/
theorem memGet_memSetWord_same {m : Memory} (h : Memory.wf m = true) (pa : Addr) (v : Word) {k : Nat} (hk : k < 4) :
    memGet (memSetWord m pa v) (byteAddr pa k) = wordByte v k := by
  have w0 := memSet_wf h (wordByte v 0) (byteAddr_lt pa 0)
  have w1 := memSet_wf w0 (wordByte v 1) (byteAddr_lt pa 1)
  have w2 := memSet_wf w1 (wordByte v 2) (byteAddr_lt pa 2)
  have n {i j : Nat} (hi : i < 4) (hj : j < 4) (e : i ≠ j) := byteAddr_ne pa (by omega : i < 16) (by omega : j < 16) e
  unfold memSetWord
  interval_cases k
  · rw [memGet_memSet_other _ _ (n (by omega) (by omega) (by omega)),
      memGet_memSet_other _ _ (n (by omega) (by omega) (by omega)),
      memGet_memSet_other _ _ (n (by omega) (by omega) (by omega)), memGet_memSet_same h]
  · rw [memGet_memSet_other _ _ (n (by omega) (by omega) (by omega)),
      memGet_memSet_other _ _ (n (by omega) (by omega) (by omega)), memGet_memSet_same w0]
  · rw [memGet_memSet_other _ _ (n (by omega) (by omega) (by omega)), memGet_memSet_same w1]
  · rw [memGet_memSet_same w2]

/-- The four bytes of a word are the word (R52). -/
theorem wordBytes_append (v : Word) : wordByte v 3 ++ wordByte v 2 ++ wordByte v 1 ++ wordByte v 0 = v := by
  apply BitVec.eq_of_getLsbD_eq
  intro i hi
  simp only [BitVec.getLsbD_append, wordByte, BitVec.getLsbD_extractLsb']
  by_cases h0 : i < 8
  · simp [h0]
  · by_cases h1 : i < 16
    · have e : 8 + (i - 8) = i := by omega
      have e1 : i - 8 < 8 := by omega
      simp [h0, e, e1]
    · by_cases h2 : i < 24
      · have e : 16 + (i - 8 - 8) = i := by omega
        have e1 : ¬ i - 8 < 8 := by omega
        have e2 : i - 8 - 8 < 8 := by omega
        simp [h0, e, e1, e2]
      · have e : 24 + (i - 8 - 8 - 8) = i := by omega
        have e1 : ¬ i - 8 < 8 := by omega
        have e2 : ¬ i - 8 - 8 < 8 := by omega
        have e3 : i - 8 - 8 - 8 < 8 := by omega
        simp [h0, e, e1, e2, e3]

/-- The word written is the word read. -/
theorem memGetWord_memSetWord_same {m : Memory} (h : Memory.wf m = true) (pa : Addr) (v : Word) :
    memGetWord (memSetWord m pa v) pa = v := by
  unfold memGetWord
  rw [memGet_memSetWord_same h pa v (by omega), memGet_memSetWord_same h pa v (by omega),
    memGet_memSetWord_same h pa v (by omega), memGet_memSetWord_same h pa v (by omega)]
  exact wordBytes_append v

/-- A word reads alike in memories that agree on its bytes. -/
theorem memGetWord_congr {m m' : Memory} {pa : Addr}
    (h : ∀ k < 4, memGet m (byteAddr pa k) = memGet m' (byteAddr pa k)) : memGetWord m pa = memGetWord m' pa := by
  unfold memGetWord
  rw [h 0 (by omega), h 1 (by omega), h 2 (by omega), h 3 (by omega)]

end Sys2Proof.Machine
end

