-- ==== Sys2Proof/Laws/State.lean ====
section
/-! SUPPORT. One lemma per field per update of State. -/

namespace Sys2Proof.Machine

/-! ## `log` -/

@[simp] theorem State.log_fault (s : State) (a : Access) : (s.log a).fault = s.fault := rfl
@[simp] theorem State.log_rings (s : State) (a : Access) : (s.log a).rings = s.rings := rfl
@[simp] theorem State.log_mem (s : State) (a : Access) : (s.log a).mem = s.mem := rfl
@[simp] theorem State.log_regs (s : State) (a : Access) : (s.log a).regs = s.regs := rfl
@[simp] theorem State.log_split64 (s : State) (a : Access) : (s.log a).split64 = s.split64 := rfl
@[simp] theorem State.log_erstMax (s : State) (a : Access) : (s.log a).erstMax = s.erstMax := rfl
@[simp] theorem State.log_port (s : State) (a : Access) : (s.log a).port = s.port := rfl
@[simp] theorem State.log_result (s : State) (a : Access) : (s.log a).result = s.result := rfl
@[simp] theorem State.log_ctrl (s : State) (a : Access) : (s.log a).ctrl = s.ctrl := rfl
@[simp] theorem State.log_hc (s : State) (a : Access) : (s.log a).hc = s.hc := rfl
@[simp] theorem State.log_trace (s : State) (a : Access) : (s.log a).trace = a :: s.trace := rfl
@[simp] theorem State.log_openReads (s : State) (a : Access) : (s.log a).openReads = s.openReads := rfl

/-! ## `setRing` -/

@[simp] theorem State.setRing_fault (s : State) (r : Nat) (g : Ring) : (s.setRing r g).fault = s.fault := rfl
@[simp] theorem State.setRing_rings (s : State) (r : Nat) (g : Ring) : (s.setRing r g).rings = s.rings.set r g := rfl
@[simp] theorem State.setRing_mem (s : State) (r : Nat) (g : Ring) : (s.setRing r g).mem = s.mem := rfl
@[simp] theorem State.setRing_regs (s : State) (r : Nat) (g : Ring) : (s.setRing r g).regs = s.regs := rfl
@[simp] theorem State.setRing_split64 (s : State) (r : Nat) (g : Ring) : (s.setRing r g).split64 = s.split64 := rfl
@[simp] theorem State.setRing_erstMax (s : State) (r : Nat) (g : Ring) : (s.setRing r g).erstMax = s.erstMax := rfl
@[simp] theorem State.setRing_port (s : State) (r : Nat) (g : Ring) : (s.setRing r g).port = s.port := rfl
@[simp] theorem State.setRing_result (s : State) (r : Nat) (g : Ring) : (s.setRing r g).result = s.result := rfl
@[simp] theorem State.setRing_ctrl (s : State) (r : Nat) (g : Ring) : (s.setRing r g).ctrl = s.ctrl := rfl
@[simp] theorem State.setRing_hc (s : State) (r : Nat) (g : Ring) : (s.setRing r g).hc = s.hc := rfl
@[simp] theorem State.setRing_trace (s : State) (r : Nat) (g : Ring) : (s.setRing r g).trace = s.trace := rfl
@[simp] theorem State.setRing_openReads (s : State) (r : Nat) (g : Ring) : (s.setRing r g).openReads = s.openReads := rfl

/-! ## `addRing` -/

@[simp] theorem State.addRing_fault (s : State) (g : Ring) : (s.addRing g).fault = s.fault := rfl
@[simp] theorem State.addRing_rings (s : State) (g : Ring) : (s.addRing g).rings = s.rings ++ [g] := rfl
@[simp] theorem State.addRing_mem (s : State) (g : Ring) : (s.addRing g).mem = s.mem := rfl
@[simp] theorem State.addRing_regs (s : State) (g : Ring) : (s.addRing g).regs = s.regs := rfl
@[simp] theorem State.addRing_split64 (s : State) (g : Ring) : (s.addRing g).split64 = s.split64 := rfl
@[simp] theorem State.addRing_erstMax (s : State) (g : Ring) : (s.addRing g).erstMax = s.erstMax := rfl
@[simp] theorem State.addRing_port (s : State) (g : Ring) : (s.addRing g).port = s.port := rfl
@[simp] theorem State.addRing_result (s : State) (g : Ring) : (s.addRing g).result = s.result := rfl
@[simp] theorem State.addRing_ctrl (s : State) (g : Ring) : (s.addRing g).ctrl = s.ctrl := rfl
@[simp] theorem State.addRing_hc (s : State) (g : Ring) : (s.addRing g).hc = s.hc := rfl
@[simp] theorem State.addRing_trace (s : State) (g : Ring) : (s.addRing g).trace = s.trace := rfl
@[simp] theorem State.addRing_openReads (s : State) (g : Ring) : (s.addRing g).openReads = s.openReads := rfl

/-! ## `withFetchWord` -/

@[simp] theorem State.withFetchWord_fault (s : State) (nbits w : Nat) : (s.withFetchWord nbits w).fault = s.fault := rfl
@[simp] theorem State.withFetchWord_rings (s : State) (nbits w : Nat) : (s.withFetchWord nbits w).rings = s.rings := rfl
@[simp] theorem State.withFetchWord_mem (s : State) (nbits w : Nat) : (s.withFetchWord nbits w).mem = s.mem := rfl
@[simp] theorem State.withFetchWord_regs (s : State) (nbits w : Nat) : (s.withFetchWord nbits w).regs = s.regs := rfl
@[simp] theorem State.withFetchWord_split64 (s : State) (nbits w : Nat) : (s.withFetchWord nbits w).split64 = s.split64 := rfl
@[simp] theorem State.withFetchWord_erstMax (s : State) (nbits w : Nat) : (s.withFetchWord nbits w).erstMax = s.erstMax := rfl
@[simp] theorem State.withFetchWord_port (s : State) (nbits w : Nat) : (s.withFetchWord nbits w).port = .slot (tableBytes nbits w) :: s.port := rfl
@[simp] theorem State.withFetchWord_result (s : State) (nbits w : Nat) : (s.withFetchWord nbits w).result = s.result := rfl
@[simp] theorem State.withFetchWord_ctrl (s : State) (nbits w : Nat) : (s.withFetchWord nbits w).ctrl = s.ctrl := rfl
@[simp] theorem State.withFetchWord_hc (s : State) (nbits w : Nat) : (s.withFetchWord nbits w).hc = s.hc := rfl
@[simp] theorem State.withFetchWord_trace (s : State) (nbits w : Nat) : (s.withFetchWord nbits w).trace = s.trace := rfl
@[simp] theorem State.withFetchWord_openReads (s : State) (nbits w : Nat) : (s.withFetchWord nbits w).openReads = s.openReads := rfl

/-! ## The ordering points -/

@[simp] theorem orderW_eq (s : State) : orderW s = s.log .orderW := rfl
@[simp] theorem orderR_eq (s : State) : orderR s = s.log .orderR := rfl

/-! ## Answers -/

@[simp] theorem answer_eq (r : Result) (s : State) : answer r s = .next { s with result := some r } := rfl

@[simp] theorem raiseFault_eq (code : FaultCode) (s : State) :
    raiseFault code s = .next { s with fault := some code, result := some (.fault code) } := rfl

/-- A request after a fault (R30). -/
theorem request_dead {s : State} {run : State → StepResult} (h : s.fault ≠ none) :
    request s run = .next { s with result := some (.fault .dead) } := by
  unfold request
  cases hf : s.fault with
  | none => exact absurd hf h
  | some c => simp [answer, hf]

/-- A request with no fault before it runs. -/
theorem request_live {s : State} {run : State → StepResult} (h : s.fault = none) : request s run = run s := by
  simp [request, h]

end Sys2Proof.Machine
end

