-- ==== Sys2Proof/Laws/Effect.lean ====
section
/-! SUPPORT. What each shared operation can do, said once: the fields it keeps, the bytes it may change, the block's
accesses it adds to the trace, and the invariants it keeps. -/

namespace Sys2Proof.Machine

/-- `s'` comes from `s` by accesses: the block wrote no byte outside `W` and made the accesses `evs`, newest first; the
controller did what R24 admits. -/
structure Effect (s s' : State) (W : Nat → Prop) (evs : List Access) : Prop where
  fault : s'.fault = s.fault
  rings : s'.rings = s.rings
  split64 : s'.split64 = s.split64
  port : s'.port = s.port
  result : s'.result = s.result
  memWf : Memory.wf s.mem = true → Memory.wf s'.mem = true
  mem : ∀ a, s.ctrlMayWrite a = false → ¬ W a → s'.byteAt a = s.byteAt a
  shape : s'.regs.map regShape = s.regs.map regShape
  regs : regsWf s.regs = true → regsWf s'.regs = true
  block : blockTrace s'.trace = evs ++ blockTrace s.trace
  trace : ∀ a ∈ s'.trace, a ∈ s.trace ∨ a ∈ evs ∨ (a.agent = .controller ∧ accessOk s.rings a)
  sc : ∀ m, TraceOver m s → TraceOver m s'
  quiet : s.ctrl = [] → s'.ctrl = []

/-- `ERST_MAX_ENTRIES` is a constant of the registers' (R303). -/
theorem erstMaxEntries_congr {regs regs' : List Reg} (h : regs'.map regShape = regs.map regShape) :
    erstMaxEntries regs' = erstMaxEntries regs := by
  have key : (regs'.find? (·.name = .hcsparams2)).map Reg.reset = (regs.find? (·.name = .hcsparams2)).map Reg.reset := by
    induction regs generalizing regs' with
    | nil => simp_all
    | cons r rest ih =>
      obtain _ | ⟨r', rest'⟩ := regs'
      · simp at h
      simp only [List.map_cons, List.cons.injEq, regShape, Prod.mk.injEq] at h
      by_cases e : r.name = .hcsparams2
      · simp [e, h.1.1, h.1.2.2]
      · simpa [e, h.1.1] using ih h.2
  unfold erstMaxEntries
  cases e : regs.find? (·.name = .hcsparams2) <;> cases e' : regs'.find? (·.name = .hcsparams2) <;> simp_all

/-- `ERST_MAX_ENTRIES` is a power of two within its range (R6, R303). -/
theorem erstMax_range (s : State) : 1 ≤ s.erstMax ∧ s.erstMax ≤ Config.erstMaxLimit := by
  unfold State.erstMax erstMaxEntries
  split
  · rename_i r _
    have h : (fieldOf hcsparams2Layout r.reset .erstMax).toNat < 2 ^ 4 := getBits_toNat_lt r.reset 4 4
    exact ⟨Nat.one_le_two_pow, Nat.pow_le_pow_right (by omega) (n := 2) (by omega : _ ≤ 15)⟩
  · decide

theorem Effect.erstMax {s s' : State} {W : Nat → Prop} {evs : List Access} (h : Effect s s' W evs) :
    s'.erstMax = s.erstMax := erstMaxEntries_congr h.shape

/-- Nothing happened. -/
theorem Effect.refl (s : State) : Effect s s (fun _ => False) [] where
  fault := rfl
  rings := rfl
  split64 := rfl
  port := rfl
  result := rfl
  memWf := id
  mem := fun _ _ _ => rfl
  shape := rfl
  regs := id
  block := by simp
  trace := fun _ h => .inl h
  sc := fun _ h => h
  quiet := id

theorem ctrlMayWrite_congr {s s' : State} (h : s'.rings = s.rings) (a : Nat) :
    s'.ctrlMayWrite a = s.ctrlMayWrite a := by
  unfold State.ctrlMayWrite
  rw [h]

/-- One after another. -/
theorem Effect.trans {s s' s'' : State} {W W' : Nat → Prop} {evs evs' : List Access} (h : Effect s s' W evs)
    (h' : Effect s' s'' W' evs') : Effect s s'' (fun a => W a ∨ W' a) (evs' ++ evs) where
  fault := h'.fault.trans h.fault
  rings := h'.rings.trans h.rings
  split64 := h'.split64.trans h.split64
  port := h'.port.trans h.port
  result := h'.result.trans h.result
  memWf := fun x => h'.memWf (h.memWf x)
  mem := fun a ha hw => by
    rw [h'.mem a (by rw [ctrlMayWrite_congr h.rings]; exact ha) (fun x => hw (.inr x)),
      h.mem a ha (fun x => hw (.inl x))]
  shape := h'.shape.trans h.shape
  regs := fun x => h'.regs (h.regs x)
  block := by rw [h'.block, h.block, List.append_assoc]
  trace := fun a ha => by
    rcases h'.trace a ha with x | x | x
    · rcases h.trace a x with y | y | y
      · exact .inl y
      · exact .inr (.inl (List.mem_append.mpr (.inr y)))
      · exact .inr (.inr y)
    · exact .inr (.inl (List.mem_append.mpr (.inl x)))
    · rw [h.rings] at x
      exact .inr (.inr x)
  sc := fun m x => h'.sc m (h.sc m x)
  quiet := fun x => h'.quiet (h.quiet x)

/-- A wider set of bytes. -/
theorem Effect.weaken {s s' : State} {W W' : Nat → Prop} {evs : List Access} (h : Effect s s' W evs)
    (hw : ∀ a, W a → W' a) : Effect s s' W' evs :=
  { h with mem := fun a ha hn => h.mem a ha fun x => hn (hw a x) }

/-! ## Registers -/

theorem regsWf_iff {regs : List Reg} :
    regsWf regs = true ↔ regs.map regPlace = resetRegs.map regPlace ∧ (∀ r ∈ regs, resetFits r = true) ∧
      ∀ r ∈ regs, regFits r = true := by
  simp [regsWf]

/-- An update of the registers one by one that keeps their places and their widths keeps them legal. -/
theorem regsWf_map {regs : List Reg} (f : Reg → Reg) (h : regsWf regs = true) (hs : ∀ r, regShape (f r) = regShape r)
    (hf : ∀ r, resetFits r = true → regFits r = true → regFits (f r) = true) : regsWf (regs.map f) = true := by
  simp only [regShape, Prod.mk.injEq] at hs
  rw [regsWf_iff] at h ⊢
  refine ⟨?_, fun r hr => ?_, fun r hr => ?_⟩
  · rw [List.map_map, ← h.1]
    exact List.map_congr_left fun r _ => by simp [regPlace, hs r]
  · obtain ⟨q, hq, rfl⟩ := List.mem_map.mp hr
    simpa [resetFits, hs q] using h.2.1 q hq
  · obtain ⟨q, hq, rfl⟩ := List.mem_map.mp hr
    exact hf q (h.2.1 q hq) (h.2.2 q hq)

/-- An update of the registers one by one that keeps their places. -/
theorem map_shape (f : Reg → Reg) (regs : List Reg) (h : ∀ r, regShape (f r) = regShape r) :
    (regs.map f).map regShape = regs.map regShape := by
  rw [List.map_map]
  exact List.map_congr_left fun r _ => h r

theorem setRegField_shape (regs : List Reg) (n : RegName) (f : RegField) (x : RegValue) :
    (setRegField regs n f x).map regShape = regs.map regShape := by
  unfold setRegField
  split
  · exact map_shape _ _ fun r => by split <;> rfl
  · rfl

/-- A value within a width has no bit above it. -/
theorem lt_two_pow_iff_bits (x : RegValue) (n : Nat) : x.toNat < 2 ^ n ↔ ∀ i, n ≤ i → x.getLsbD i = false := by
  constructor
  · intro h i hi
    exact Nat.testBit_lt_two_pow (lt_of_lt_of_le h (Nat.pow_le_pow_right (by omega) hi))
  · intro h
    exact Nat.lt_pow_two_of_testBit _ fun i hi => h i hi

/-- The bits of a register's layout classes are within its width. -/
theorem classMask_fits (n : RegName) (cls : FieldClass) :
    (classMask n.layout cls).toNat < 2 ^ n.layout.width.bits := by
  cases n <;> cases cls <;> simp only [RegName.layout] <;> decide

/-- A field of a register's layout is within its width. -/
theorem layout_field_fits (n : RegName) : ∀ p ∈ n.layout.fields, p.lo + p.width ≤ n.layout.width.bits := by
  cases n <;> simp only [RegName.layout] <;> decide

theorem resetValue_fits (n : RegName) : n.resetValue.toNat < 2 ^ n.layout.width.bits := by
  cases n <;> simp only [RegName.layout, RegName.resetValue] <;> decide

/-- A field replaced within the width keeps the value within it. -/
theorem putBits_fits {x v : RegValue} {lo w n : Nat} (h : x.toNat < 2 ^ n) (hw : lo + w ≤ n) :
    (putBits x lo w v).toNat < 2 ^ n := by
  rw [lt_two_pow_iff_bits] at h ⊢
  intro i hi
  rw [getLsbD_putBits, if_neg (by omega)]
  exact h i hi

theorem getBits_fits (x : RegValue) (lo w : Nat) : (getBits x lo w).toNat < 2 ^ w := getBits_toNat_lt x lo w

/-- The lane of an access is within the register. -/
theorem laneOf_fits {r : Reg} {ra : Addr} {bytes lo w : Nat} (h : laneOf r ra bytes = some (lo, w)) :
    lo + w ≤ r.bits := by
  unfold laneOf at h
  split at h
  · simp only [Option.some.injEq, Prod.mk.injEq] at h; omega
  · split at h
    · simp only [Option.some.injEq, Prod.mk.injEq] at h; omega
    · split at h
      · simp only [Option.some.injEq, Prod.mk.injEq] at h; omega
      · exact absurd h (by simp)

theorem regAfterWrite_shape (k : Nat) (ra : Addr) (bytes : Nat) (w m : RegValue) (r : Reg) :
    regShape (regAfterWrite k ra bytes w m r) = regShape r := by
  unfold regAfterWrite
  split <;> split <;> rfl

theorem regAfterWrite_fits (k : Nat) (ra : Addr) (bytes : Nat) (w m : RegValue) {r : Reg} (h : regFits r = true) :
    regFits (regAfterWrite k ra bytes w m r) = true := by
  simp only [regFits, decide_eq_true_eq] at h ⊢
  unfold regAfterWrite
  split
  · rename_i lo width e
    split
    · refine putBits_fits h ?_
      have := laneOf_fits e
      have : (r.completeWord lo w).1 ≤ lo := by unfold Reg.completeWord; split <;> simp
      simp only [Reg.bits] at *
      omega
    · exact h
  · split
    · exact getBits_fits _ _ _
    · exact h

/-- A change within a mask of the width keeps the value within it. -/
theorem masked_fits {x v m : RegValue} {n : Nat} (h : x.toNat < 2 ^ n) (hm : m.toNat < 2 ^ n) :
    ((x &&& ~~~m) ||| (v &&& m)).toNat < 2 ^ n := by
  rw [lt_two_pow_iff_bits] at h hm ⊢
  intro i hi
  rw [BitVec.getLsbD_or, BitVec.getLsbD_and, BitVec.getLsbD_and, h i hi, hm i hi]
  simp

theorem statusMask_fits (n : RegName) : (statusMask n.layout).toNat < 2 ^ n.layout.width.bits := by
  cases n <;> simp only [RegName.layout] <;> decide

theorem setRegField_wf {regs : List Reg} (h : regsWf regs = true) (n : RegName) (f : RegField) (x : RegValue) :
    regsWf (setRegField regs n f x) = true := by
  unfold setRegField
  split
  · rename_i p e
    have hp := layout_field_fits n p (List.mem_of_find?_eq_some e)
    refine regsWf_map _ h (fun r => by split <;> rfl) fun r _ hr => ?_
    by_cases hn : r.name = n
    · simp only [hn, if_true, regFits, decide_eq_true_eq, Reg.bits] at hr ⊢
      exact putBits_fits hr hp
    · simpa [hn] using hr
  · exact h

/-- What a controller reset gives a register is within its width. -/
theorem resetFits_fits {r : Reg} (h : resetFits r = true) : r.reset.toNat < 2 ^ r.bits := by
  unfold resetFits at h
  split at h
  · rename_i e
    simpa [Reg.bits, e, RegName.layout, hcsparams2Layout, RegWidth.bits] using h
  · rw [beq_iff_eq.mp h]
    exact resetValue_fits r.name

theorem resetAll_wf {regs : List Reg} (h : regsWf regs = true) :
    regsWf (regs.map fun r => { r with value := r.reset, low := none }) = true :=
  regsWf_map _ h (fun _ => rfl) fun _ hr _ => decide_eq_true (resetFits_fits hr)

/-- The registers after reset are legal, whatever 32-bit constant HCSPARAMS2 is. -/
theorem resetRegsWith_wf {x : RegValue} (h : x.toNat < 2 ^ 32) : regsWf (resetRegsWith x) = true := by
  have key (r : Reg) (hr : r ∈ resetRegs) : resetFits r = true ∧ regFits r = true := by
    obtain ⟨n, -, rfl⟩ := List.mem_map.mp hr
    have hn := resetValue_fits n
    refine ⟨?_, decide_eq_true hn⟩
    unfold resetFits
    split
    · rename_i e
      cases n <;> simp_all [RegName.atReset]
      decide
    · simp [RegName.atReset]
  rw [regsWf_iff]
  refine ⟨?_, fun r hr => ?_, fun r hr => ?_⟩
  · rw [resetRegsWith, List.map_map]
    exact List.map_congr_left fun r _ => by simp only [Function.comp, regPlace]; split <;> rfl
  · obtain ⟨q, hq, rfl⟩ := List.mem_map.mp hr
    by_cases e : q.name = .hcsparams2
    · simpa [e, resetFits] using h
    · simpa [e] using (key q hq).1
  · obtain ⟨q, hq, rfl⟩ := List.mem_map.mp hr
    by_cases e : q.name = .hcsparams2
    · simpa [e, regFits, Reg.bits, RegName.layout, hcsparams2Layout, RegWidth.bits] using h
    · simpa [e] using (key q hq).2

/-- `ERST_MAX_ENTRIES` of the machine right after reset is what its HCSPARAMS2 gives (R303). -/
theorem resetWith_erstMax (split64 : Bool) (x : RegValue) :
    (State.resetWith split64 x).erstMax = 2 ^ (fieldOf hcsparams2Layout x .erstMax).toNat := rfl

/-! ## The trace -/

theorem blockTrace_cons_block {a : Access} (h : a.agent = .block) (tr : List Access) :
    blockTrace (a :: tr) = a :: blockTrace tr := by simp [blockTrace, h]

theorem blockTrace_cons_controller {a : Access} (h : a.agent = .controller) (tr : List Access) :
    blockTrace (a :: tr) = blockTrace tr := by simp [blockTrace, h]

theorem blockTrace_append_controller {l : List Access} (h : ∀ a ∈ l, a.agent = .controller) (tr : List Access) :
    blockTrace (l ++ tr) = blockTrace tr := by
  induction l with
  | nil => rfl
  | cons a l ih =>
    rw [List.cons_append, blockTrace_cons_controller (h a (by simp)), ih fun b hb => h b (by simp [hb])]

/-! ## The controller's acts -/

/-- A step of the controller that changes neither memory nor what the block holds. -/
theorem Effect.ofCtrl {s : State} (regs' : List Reg) (hc' : HcCursors) (tr : List Access)
    (hs : regs'.map regShape = s.regs.map regShape) (hr : regsWf s.regs = true → regsWf regs' = true)
    (hc : ∀ a ∈ tr, a.agent = .controller ∧ accessOk s.rings a)
    (hrep : ∀ m, replay (tr ++ s.trace) m = replay s.trace m)
    (hlast : ∀ m, TraceOver m s → readsLatest m (tr ++ s.trace)) :
    Effect s { s with regs := regs', hc := hc', trace := tr ++ s.trace } (fun _ => False) [] where
  fault := rfl
  rings := rfl
  split64 := rfl
  port := rfl
  result := rfl
  memWf := id
  mem := fun _ _ _ => rfl
  shape := hs
  regs := hr
  block := by simpa using blockTrace_append_controller (fun a ha => (hc a ha).1) s.trace
  trace := fun a ha => by
    rcases List.mem_append.mp ha with x | x
    · exact .inr (.inr (hc a x))
    · exact .inl x
  sc := fun m h => ⟨by rw [hrep m]; exact h.1, hlast m h⟩
  quiet := id

/-- One controller access that neither writes nor reads memory. -/
theorem Effect.ofCtrlEvent {s : State} (regs' : List Reg) (hc' : HcCursors) (a : Access)
    (hs : regs'.map regShape = s.regs.map regShape) (hr : regsWf s.regs = true → regsWf regs' = true)
    (hc : a.agent = .controller ∧ accessOk s.rings a)
    (hrep : ∀ tr m, replay (a :: tr) m = replay tr m) (hlast : ∀ m tr, readsLatest m tr → readsLatest m (a :: tr)) :
    Effect s { s with regs := regs', hc := hc', trace := a :: s.trace } (fun _ => False) [] :=
  Effect.ofCtrl regs' hc' [a] hs hr (by simpa using hc) (fun m => hrep _ m) (fun m h => hlast m _ h.2)

/-- The reads of a slot by the controller show memory as it is. -/
theorem ctrlReads_sc (pa : Addr) (s : State) :
    (∀ a ∈ ctrlReads s.mem pa, a.agent = .controller ∧ accessOk s.rings a) ∧
      (∀ m, replay (ctrlReads s.mem pa ++ s.trace) m = replay s.trace m) ∧
      ∀ m, TraceOver m s → readsLatest m (ctrlReads s.mem pa ++ s.trace) := by
  have key (l : List Nat) :
      (∀ a ∈ l.map fun k => Access.ctrlRead (pa + BitVec.ofNat 64 k) (memGet s.mem (byteAddr pa k)),
        a.agent = .controller ∧ accessOk s.rings a) ∧
      (∀ m, replay ((l.map fun k => Access.ctrlRead (pa + BitVec.ofNat 64 k) (memGet s.mem (byteAddr pa k))) ++
        s.trace) m = replay s.trace m) ∧
      ∀ m, TraceOver m s → readsLatest m
        ((l.map fun k => Access.ctrlRead (pa + BitVec.ofNat 64 k) (memGet s.mem (byteAddr pa k))) ++ s.trace) := by
    induction l with
    | nil => exact ⟨by simp, fun m => rfl, fun m h => h.2⟩
    | cons k l ih =>
      obtain ⟨i1, i2, i3⟩ := ih
      refine ⟨?_, fun m => ?_, fun m h => ?_⟩
      · intro a ha
        rcases List.mem_cons.mp ha with rfl | ha
        · exact ⟨rfl, trivial⟩
        · exact i1 a ha
      · simpa [replay] using i2 m
      · simp only [List.map_cons, List.cons_append, readsLatest]
        refine ⟨?_, i3 m h⟩
        rw [i2 m, ← h.1]
        rfl
  exact key _

/-- A read of a byte. -/
theorem ctrlReadByte_effect (pa : Addr) (s : State) :
    Effect s (s.log (.ctrlRead pa (memGet s.mem pa.toNat))) (fun _ => False) [] :=
  Effect.ofCtrl (s := s) s.regs s.hc [.ctrlRead pa (memGet s.mem pa.toNat)] rfl id
    (by simp [Access.agent, accessOk]) (fun m => rfl) (fun m h => ⟨congrArg (fun x => memGet x pa.toNat) h.1, h.2⟩)

theorem ctrlMayWriteWord_iff {s : State} {pa : Addr} :
    s.ctrlMayWriteWord pa = true ↔ pa.toNat % 4 = 0 ∧ ∀ k < 4, s.ctrlMayWrite (byteAddr pa k) = true := by
  simp [State.ctrlMayWriteWord]

/-- The controller's write of a word: it changes only bytes it may write (R24 (b)). -/
theorem ctrlWriteWord_effect (pa : Addr) (v : Word) (s : State) :
    Effect s (ctrlWriteWord pa v s) (fun _ => False) [] := by
  unfold ctrlWriteWord
  by_cases h : s.ctrlMayWriteWord pa = true
  · rw [if_pos h]
    rw [ctrlMayWriteWord_iff] at h
    exact {
      fault := rfl, rings := rfl, split64 := rfl, port := rfl, result := rfl
      memWf := fun x => memSetWord_wf x pa v
      mem := fun a ha _ => by
        refine memGet_memSetWord_other _ _ _ fun k hk e => ?_
        rw [e, h.2 k hk] at ha
        exact absurd ha (by simp)
      shape := rfl
      regs := id
      block := blockTrace_cons_controller rfl _
      trace := fun a ha => by
        rcases List.mem_cons.mp ha with rfl | x
        · refine .inr (.inr ⟨rfl, h.1, fun k hk => ?_⟩)
          have := h.2 k hk
          rw [State.ctrlMayWrite, List.any_eq_true] at this
          exact this
        · exact .inl x
      sc := fun m x => ⟨by simp only [replay]; rw [← x.1], ⟨trivial, x.2⟩⟩
      quiet := id }
  · rw [if_neg h]
    exact Effect.refl s

/-- The controller's change of status bits (R24 (c)). -/
theorem ctrlStatus_effect (ra : Addr) (v : RegValue) (s : State) :
    Effect s (ctrlStatus ra v s) (fun _ => False) [] := by
  unfold ctrlStatus
  split
  · refine Effect.ofCtrlEvent _ s.hc (.ctrlStatus ra v) ?_ (fun h => ?_) ⟨rfl, trivial⟩
      (fun _ _ => rfl) (fun _ _ x => ⟨trivial, x⟩)
    · exact map_shape _ _ fun r => by dsimp only; split <;> rfl
    refine regsWf_map _ h (fun r => by dsimp only; split <;> rfl) fun r _ hr => ?_
    by_cases e : r.addr = ra
    · rw [if_pos e]
      exact decide_eq_true (masked_fits (of_decide_eq_true hr) (statusMask_fits r.name))
    · simpa [e] using hr
  · exact Effect.refl s

/-- A change of the controller's own cursors. -/
theorem ctrlCursors_effect (hc' : HcCursors) (s : State) : Effect s { s with hc := hc' } (fun _ => False) [] :=
  Effect.ofCtrl (s := s) s.regs hc' [] rfl id (by simp) (fun _ => rfl) (fun _ h => h.2)

/-- Two controller operations, one after another. -/
theorem Effect.thenCtrl {s s' s'' : State} (h : Effect s s' (fun _ => False) [])
    (h' : Effect s' s'' (fun _ => False) []) : Effect s s'' (fun _ => False) [] := by
  simpa using h.trans h'

/-- The controller's four words of a slot. -/
theorem ctrlWriteTrb_effect (pa : Addr) (t : Trb) (s : State) : Effect s (ctrlWriteTrb pa t s) (fun _ => False) [] :=
  (((ctrlWriteWord_effect _ _ s).thenCtrl (ctrlWriteWord_effect _ _ _)).thenCtrl
    (ctrlWriteWord_effect _ _ _)).thenCtrl (ctrlWriteWord_effect _ _ _)

/-- The reads of several slots or ERST entries by the controller. -/
theorem ctrlReadsAll_effect (l : List Addr) (s : State) :
    Effect s { s with trace := (l.flatMap fun a => ctrlReads s.mem a) ++ s.trace } (fun _ => False) [] := by
  induction l with
  | nil => exact Effect.refl s
  | cons a l ih =>
    obtain ⟨x, y, z⟩ := ctrlReads_sc a { s with trace := (l.flatMap fun a => ctrlReads s.mem a) ++ s.trace }
    rw [List.flatMap_cons, List.append_assoc]
    exact ih.thenCtrl (Effect.ofCtrl _ s.hc _ rfl id x y z)

/-- The start of an Event Ring (R311). -/
theorem eventStart_effect (i : Nat) (s : State) : Effect s (eventStart i s) (fun _ => False) [] := by
  have h := ctrlReadsAll_effect ((List.range (regField s.regs (.erstsz i) .erstSize).toNat).map
    (erstEntryAddr (regField s.regs (.erstba i) .erstbaPointer <<< 6))) s
  rw [List.flatMap_map] at h
  exact h.thenCtrl (ctrlCursors_effect _ _)

/-- The controller's reactions (R319). -/
theorem ctrlReact_effect (r : Reaction) (s : State) : Effect s (ctrlReact r s) (fun _ => False) [] := by
  unfold ctrlReact
  split
  · have ev (regs' : List Reg) (hc' : HcCursors)
        (hs : regs'.map regShape = s.regs.map regShape) (hr : regsWf s.regs = true → regsWf regs' = true) :
        Effect s { s with regs := regs', hc := hc', trace := .ctrlReact r :: s.trace } (fun _ => False) [] :=
      Effect.ofCtrlEvent regs' hc' (.ctrlReact r) hs hr ⟨rfl, trivial⟩ (fun _ _ => rfl) (fun _ _ x => ⟨trivial, x⟩)
    cases r with
    | run => exact ev _ _ (setRegField_shape _ _ _ _) fun h => setRegField_wf h _ _ _
    | halt => exact ev _ _ (setRegField_shape _ _ _ _) fun h => setRegField_wf h _ _ _
    | reset => exact ev _ _ (map_shape _ _ fun _ => rfl) resetAll_wf
    | commandStop => exact ev _ _ (setRegField_shape _ _ _ _) fun h => setRegField_wf h _ _ _
    | commandStart => exact ev _ _ (setRegField_shape _ _ _ _) fun h => setRegField_wf h _ _ _
    | eventStart i => exact (ev s.regs s.hc rfl id).thenCtrl (eventStart_effect i _)
  · exact Effect.refl s

/-- A reader's look at its slot (R255). -/
theorem ctrlLook_effect (h : HcReader) (hc' : HcCursors) (s : State) :
    Effect s (ctrlLook h hc' s) (fun _ => False) [] := by
  obtain ⟨a, b, c⟩ := ctrlReads_sc h.cursor s
  exact Effect.ofCtrl (s := s) s.regs hc' _ rfl id a b c

theorem ctrlConsumeCommand_effect (s : State) : Effect s (ctrlConsumeCommand s) (fun _ => False) [] := by
  unfold ctrlConsumeCommand
  split
  · exact Effect.refl s
  · split
    · exact ctrlLook_effect _ _ s
    · exact Effect.refl s

theorem ctrlConsume_effect (k : Nat) (s : State) : Effect s (ctrlConsume k s) (fun _ => False) [] := by
  unfold ctrlConsume
  split
  · exact Effect.refl s
  · split
    · exact ctrlLook_effect _ _ s
    · exact Effect.refl s

/-- The controller's event (R285, R376). -/
theorem ctrlPost_effect (i : Nat) (ev : Trb) (s : State) : Effect s (ctrlPost i ev s) (fun _ => False) [] := by
  unfold ctrlPost
  split
  · exact Effect.refl s
  · split
    · exact Effect.refl s
    · split
      · exact Effect.refl s
      · split
        · exact Effect.ofCtrlEvent s.regs s.hc (.ctrlReport i .eventRingFullError) rfl id ⟨rfl, trivial⟩
            (fun _ _ => rfl) (fun _ _ x => ⟨trivial, x⟩)
        · split
          · exact Effect.refl s
          · exact (ctrlWriteTrb_effect _ _ s).thenCtrl (ctrlCursors_effect _ _)

/-- An event that is written (R285): the four words, and the writer moves on. -/
theorem ctrlPost_written {i : Nat} {s : State} {h : HcWriter} {pa : Addr} (ev : Trb)
    (hw : s.hc.events.find? (fun w => w.intr == i) = some h) (hs : writerSlot h = some pa) (hr : s.running = true)
    (hd : eventRingDisabled s.regs i = false) (hf : writerFull s.regs h = false) (hm : s.ctrlMayWriteTrb pa = true) :
    ctrlPost i ev s =
      let t := ctrlWriteTrb pa (putBits ev 96 1 ((BitVec.ofBool h.cycle).setWidth 128)) s
      { t with hc := { t.hc with events := t.hc.events.map fun w => if w.intr = i then writerAdvance h else w } } := by
  simp [ctrlPost, hw, hs, hr, hd, hf, hm]

theorem ctrlAct_effect (a : CtrlAct) (s : State) : Effect s (ctrlAct a s) (fun _ => False) [] := by
  cases a with
  | readByte pa => exact ctrlReadByte_effect pa s
  | writeWord pa v => exact ctrlWriteWord_effect pa v s
  | status ra v => exact ctrlStatus_effect ra v s
  | react r => exact ctrlReact_effect r s
  | attach pa cycle => exact ctrlCursors_effect _ s
  | consumeCommand => exact ctrlConsumeCommand_effect s
  | consume k => exact ctrlConsume_effect k s
  | post k ev => exact ctrlPost_effect k ev s

theorem ctrlActs_effect (b : List CtrlAct) (s : State) : Effect s (ctrlActs b s) (fun _ => False) [] := by
  induction b generalizing s with
  | nil => exact Effect.refl s
  | cons a b ih => exact Effect.thenCtrl (ctrlAct_effect a s) (ih _)

/-- The controller's turn (R22). -/
theorem controllerTurn_effect (s : State) : Effect s (controllerTurn s) (fun _ => False) [] := by
  unfold controllerTurn
  split
  · exact Effect.refl s
  · rename_i b rest e
    have h := ctrlActs_effect b { s with ctrl := rest }
    exact { h with quiet := fun x => absurd (e.symm.trans x) (by simp) }

/-- With nothing scheduled the turn changes nothing. -/
theorem controllerTurn_quiet {s : State} (h : s.ctrl = []) : controllerTurn s = s := by
  unfold controllerTurn
  rw [h]

/-! ## The block's accesses -/

/-- One access of the block to memory, a write of a word. -/
theorem memWrite_effect (pa : Addr) (v : Word) (s : State) :
    Effect s (memWrite pa v s) (fun a => ∃ k < 4, a = byteAddr pa k) [.memWrite pa (Config.mapPhys pa) v] := by
  have h := controllerTurn_effect s
  unfold memWrite
  exact {
    fault := h.fault, rings := h.rings, split64 := h.split64, port := h.port
    result := h.result
    memWf := fun x => memSetWord_wf (h.memWf x) pa v
    mem := fun a ha hw => by
      refine (memGet_memSetWord_other _ _ _ fun k hk e => hw ⟨k, hk, e⟩).trans ?_
      exact h.mem a ha id
    shape := h.shape
    regs := h.regs
    block := by
      rw [blockTrace_cons_block (by rfl), h.block]
      rfl
    trace := fun a ha => by
      rcases List.mem_cons.mp ha with rfl | x
      · exact .inr (.inl (by simp))
      · rcases h.trace a x with y | y | y
        · exact .inl y
        · exact absurd y (by simp)
        · exact .inr (.inr y)
    sc := fun m x => ⟨by simp only [replay]; rw [← (h.sc m x).1], ⟨trivial, (h.sc m x).2⟩⟩
    quiet := h.quiet }

/-- The word written is in memory (R60). -/
theorem memWrite_word (pa : Addr) (v : Word) {s : State} (h : Memory.wf s.mem = true) :
    memGetWord (memWrite pa v s).mem pa = v :=
  memGetWord_memSetWord_same ((controllerTurn_effect s).memWf h) pa v

/-- One event of the block that is not a memory write and shows memory as it is. -/
theorem Effect.blockEvent {s : State} (a : Access) (ha : a.agent = .block) (regs' : List Reg) (n : Nat)
    (hs : regs'.map regShape = s.regs.map regShape) (hr : regsWf s.regs = true → regsWf regs' = true)
    (hrep : ∀ tr m, replay (a :: tr) m = replay tr m) (hlast : ∀ m, TraceOver m s → readsLatest m (a :: s.trace)) :
    Effect s { s with regs := regs', openReads := n, trace := a :: s.trace } (fun _ => False) [a] where
  fault := rfl
  rings := rfl
  split64 := rfl
  port := rfl
  result := rfl
  memWf := id
  mem := fun _ _ _ => rfl
  shape := hs
  regs := hr
  block := blockTrace_cons_block ha _
  trace := fun b hb => by
    rcases List.mem_cons.mp hb with rfl | x
    · exact .inr (.inl (by simp))
    · exact .inl x
  sc := fun m h => ⟨by rw [hrep]; exact h.1, hlast m h⟩
  quiet := id

/-- The controller's turn, then the block. -/
theorem Effect.afterTurn {s s' : State} {W : Nat → Prop} {evs : List Access} (h : Effect (controllerTurn s) s' W evs) :
    Effect s s' W evs := by
  have := (controllerTurn_effect s).trans h
  rw [List.append_nil] at this
  exact this.weaken fun a x => x.resolve_left id

/-- A read of a word: memory's word at that access (R60). -/
theorem memRead_effect (pa : Addr) (s : State) :
    Effect s (memRead pa s).2 (fun _ => False) [.memRead pa (Config.mapPhys pa) (memRead pa s).1] :=
  Effect.afterTurn (Effect.blockEvent (s := controllerTurn s) _ rfl _ _ rfl id (fun _ _ => rfl)
    fun m h => ⟨by rw [← h.1], h.2⟩)

/-- The word read is the word in memory after the controller's turn. -/
theorem memRead_value (pa : Addr) (s : State) : (memRead pa s).1 = memGetWord (controllerTurn s).mem pa := rfl

/-- A read leaves memory as it read it. -/
theorem memRead_mem (pa : Addr) (s : State) : (memRead pa s).2.mem = (controllerTurn s).mem := rfl

theorem orderW_effect (s : State) : Effect s (orderW s) (fun _ => False) [.orderW] :=
  Effect.blockEvent (s := s) .orderW rfl s.regs s.openReads rfl id (fun _ _ => rfl) fun _ h => ⟨trivial, h.2⟩

theorem orderR_effect (s : State) : Effect s (orderR s) (fun _ => False) [.orderR] :=
  Effect.blockEvent (s := s) .orderR rfl s.regs s.openReads rfl id (fun _ _ => rfl) fun _ h => ⟨trivial, h.2⟩

/-- A register read. -/
theorem regRead_effect (ra : Addr) (bytes : Nat) (s : State) :
    Effect s (regRead ra bytes s).2 (fun _ => False) [.regRead ra bytes (regRead ra bytes s).1] :=
  Effect.afterTurn (Effect.blockEvent (s := controllerTurn s) _ rfl _ _ rfl id (fun _ _ => rfl)
    fun _ h => ⟨trivial, h.2⟩)

/-- A register write (R27). -/
theorem regWrite_effect (ra : Addr) (bytes : Nat) (w : RegValue) (s : State) :
    Effect s (regWrite ra bytes w s) (fun _ => False) [.regWrite ra bytes w] :=
  Effect.afterTurn (Effect.blockEvent (s := controllerTurn s) _ rfl _ _
    (map_shape _ _ fun _ => regAfterWrite_shape _ _ _ _ _ _)
    (fun h => regsWf_map _ h (fun _ => regAfterWrite_shape _ _ _ _ _ _) fun _ _ hr => regAfterWrite_fits _ _ _ _ _ hr)
    (fun _ _ => rfl) fun _ h => ⟨trivial, h.2⟩)

/-- The accesses of a read of a hardware word, newest first (R55). -/
def wordReadEvents (ra : Addr) (width : RegWidth) (s : State) : List Access :=
  if splits width s then
    [.regRead (ra + 4#64) 4 (regRead (ra + 4#64) 4 (regRead ra 4 s).2).1, .regRead ra 4 (regRead ra 4 s).1]
  else [.regRead ra (widthBytes width) (regRead ra (widthBytes width) s).1]

theorem wordRead_effect (ra : Addr) (width : RegWidth) (s : State) :
    Effect s (wordRead ra width s).2 (fun _ => False) (wordReadEvents ra width s) := by
  unfold wordRead wordReadEvents
  split
  · have := (regRead_effect ra 4 s).trans (regRead_effect (ra + 4#64) 4 (regRead ra 4 s).2)
    exact this.weaken fun a x => x.elim id id
  · exact regRead_effect _ _ _

/-- The accesses of a write of a hardware word, newest first (R55). -/
def wordWriteEvents (ra : Addr) (width : RegWidth) (w : RegValue) (s : State) : List Access :=
  if splits width s then [.regWrite (ra + 4#64) 4 (getBits w 32 32), .regWrite ra 4 (getBits w 0 32)]
  else [.regWrite ra (widthBytes width) w]

theorem wordWrite_effect (ra : Addr) (width : RegWidth) (w : RegValue) (s : State) :
    Effect s (wordWrite ra width w s) (fun _ => False) (wordWriteEvents ra width w s) := by
  unfold wordWrite wordWriteEvents
  split
  · have := (regWrite_effect ra 4 (getBits w 0 32) s).trans (regWrite_effect (ra + 4#64) 4 (getBits w 32 32) _)
    exact this.weaken fun a x => x.elim id id
  · exact regWrite_effect _ _ _ _

/-! ## TRBs -/

/-- `a` is the address of a byte of the 16 at `pa`. -/
def slotByte (pa : Addr) (a : Nat) : Prop := ∃ k < 16, a = byteAddr pa k

theorem byteAddr_add (pa : Addr) (j k : Nat) : byteAddr (pa + BitVec.ofNat 64 j) k = byteAddr pa (j + k) := by
  unfold byteAddr
  rw [BitVec.add_assoc, ← BitVec.ofNat_add]

/-- The accesses of `TRBWrite`, newest first (R57). -/
def trbWriteEvents (pa : Addr) (t : Trb) : List Access :=
  [.memWrite (pa + 12#64) (Config.mapPhys (pa + 12#64)) (dw3 t), .orderW,
    .memWrite (pa + 8#64) (Config.mapPhys (pa + 8#64)) (dw2 t),
    .memWrite (pa + 4#64) (Config.mapPhys (pa + 4#64)) (dw1 t), .memWrite pa (Config.mapPhys pa) (dw0 t)]

theorem trbWrite_effect (pa : Addr) (t : Trb) (s : State) :
    Effect s (trbWrite pa t s) (slotByte pa) (trbWriteEvents pa t) := by
  have h0 := memWrite_effect pa (dw0 t) s
  have h1 := h0.trans (memWrite_effect (pa + 4#64) (dw1 t) _)
  have h2 := h1.trans (memWrite_effect (pa + 8#64) (dw2 t) _)
  have h3 := h2.trans (orderW_effect _)
  have h4 := h3.trans (memWrite_effect (pa + 12#64) (dw3 t) _)
  refine Effect.weaken h4 fun a ha => ?_
  rcases ha with (((⟨k, hk, e⟩ | ⟨k, hk, e⟩) | ⟨k, hk, e⟩) | e) | ⟨k, hk, e⟩
  · exact ⟨k, by omega, e⟩
  · exact ⟨4 + k, by omega, e.trans (byteAddr_add pa 4 k)⟩
  · exact ⟨8 + k, by omega, e.trans (byteAddr_add pa 8 k)⟩
  · exact absurd e id
  · exact ⟨12 + k, by omega, e.trans (byteAddr_add pa 12 k)⟩

/-! ## With nothing scheduled for the controller -/

/-- With no act of the controller scheduled, nothing but the bytes in `W` and the trace changes. -/
structure Still (s s' : State) (W : Nat → Prop) : Prop where
  ctrl : s'.ctrl = []
  regs : s'.regs = s.regs
  hc : s'.hc = s.hc
  mem : ∀ a, ¬ W a → s'.byteAt a = s.byteAt a

theorem Still.refl {s : State} (h : s.ctrl = []) : Still s s (fun _ => False) := ⟨h, rfl, rfl, fun _ _ => rfl⟩

theorem Still.trans {s s' s'' : State} {W W' : Nat → Prop} (h : Still s s' W) (h' : Still s' s'' W') :
    Still s s'' (fun a => W a ∨ W' a) where
  ctrl := h'.ctrl
  regs := h'.regs.trans h.regs
  hc := h'.hc.trans h.hc
  mem := fun a hw => (h'.mem a fun x => hw (.inr x)).trans (h.mem a fun x => hw (.inl x))

theorem Still.weaken {s s' : State} {W W' : Nat → Prop} (h : Still s s' W) (hw : ∀ a, W a → W' a) : Still s s' W' :=
  { h with mem := fun a hn => h.mem a fun x => hn (hw a x) }

theorem memWrite_quiet (pa : Addr) (v : Word) {s : State} (h : s.ctrl = []) :
    memWrite pa v s = { s with mem := memSetWord s.mem pa v, trace := .memWrite pa (Config.mapPhys pa) v :: s.trace } := by
  simp only [memWrite, controllerTurn_quiet h]

theorem memRead_quiet (pa : Addr) {s : State} (h : s.ctrl = []) :
    memRead pa s = (memGetWord s.mem pa, s.log (.memRead pa (Config.mapPhys pa) (memGetWord s.mem pa))) := by
  simp only [memRead, controllerTurn_quiet h]

theorem regRead_quiet (ra : Addr) (bytes : Nat) {s : State} (h : s.ctrl = []) :
    regRead ra bytes s =
      ((s.regs.findSome? (laneRead ra bytes)).getD (getBits (Config.openRegister s.openReads ra) 0 (8 * bytes)),
        { s with
          trace := .regRead ra bytes ((s.regs.findSome? (laneRead ra bytes)).getD
            (getBits (Config.openRegister s.openReads ra) 0 (8 * bytes))) :: s.trace
          openReads := s.openReads + 1 }) := by
  simp only [regRead, controllerTurn_quiet h]

theorem regWrite_quiet (ra : Addr) (bytes : Nat) (w : RegValue) {s : State} (h : s.ctrl = []) :
    regWrite ra bytes w s =
      { s with
        regs := s.regs.map fun r => regAfterWrite s.openReads ra bytes w (s.openBits r.name) r
        trace := .regWrite ra bytes w :: s.trace
        openReads := s.openReads + 1 } := by
  simp only [regWrite, controllerTurn_quiet h]

theorem memWrite_still (pa : Addr) (v : Word) {s : State} (h : s.ctrl = []) :
    Still s (memWrite pa v s) (fun a => ∃ k < 4, a = byteAddr pa k) := by
  rw [memWrite_quiet pa v h]
  exact ⟨h, rfl, rfl, fun a hw => memGet_memSetWord_other _ _ _ fun k hk e => hw ⟨k, hk, e⟩⟩

theorem memRead_still (pa : Addr) {s : State} (h : s.ctrl = []) : Still s (memRead pa s).2 (fun _ => False) := by
  rw [memRead_quiet pa h]
  exact ⟨h, rfl, rfl, fun _ _ => rfl⟩

theorem log_still (a : Access) {s : State} (h : s.ctrl = []) : Still s (s.log a) (fun _ => False) :=
  ⟨h, rfl, rfl, fun _ _ => rfl⟩

theorem regRead_still (ra : Addr) (bytes : Nat) {s : State} (h : s.ctrl = []) :
    Still s (regRead ra bytes s).2 (fun _ => False) := by
  rw [regRead_quiet ra bytes h]
  exact ⟨h, rfl, rfl, fun _ _ => rfl⟩

theorem wordRead_still (ra : Addr) (width : RegWidth) {s : State} (h : s.ctrl = []) :
    Still s (wordRead ra width s).2 (fun _ => False) := by
  unfold wordRead
  split
  · have h1 := regRead_still ra 4 h
    exact (h1.trans (regRead_still (ra + 4#64) 4 h1.ctrl)).weaken fun a x => x.elim id id
  · exact regRead_still _ _ h

theorem trbWrite_still (pa : Addr) (t : Trb) {s : State} (h : s.ctrl = []) : Still s (trbWrite pa t s) (slotByte pa) := by
  have h0 := memWrite_still pa (dw0 t) h
  have h1 := h0.trans (memWrite_still (pa + 4#64) (dw1 t) h0.ctrl)
  have h2 := h1.trans (memWrite_still (pa + 8#64) (dw2 t) h1.ctrl)
  have h3 := h2.trans (log_still .orderW h2.ctrl)
  have h4 := h3.trans (memWrite_still (pa + 12#64) (dw3 t) h3.ctrl)
  refine Still.weaken h4 fun a ha => ?_
  rcases ha with (((⟨k, hk, e⟩ | ⟨k, hk, e⟩) | ⟨k, hk, e⟩) | e) | ⟨k, hk, e⟩
  · exact ⟨k, by omega, e⟩
  · exact ⟨4 + k, by omega, e.trans (byteAddr_add pa 4 k)⟩
  · exact ⟨8 + k, by omega, e.trans (byteAddr_add pa 8 k)⟩
  · exact absurd e id
  · exact ⟨12 + k, by omega, e.trans (byteAddr_add pa 12 k)⟩

end Sys2Proof.Machine
end

