-- ==== Sys2Proof/Laws/Operands.lean ====
section
/-! SUPPORT. What a field name names, and what a write makes of a register. -/

namespace Sys2Proof.Machine

/-! ## Names (R121, R122 (a)) -/

/-- A name names a field that has it. -/
theorem namedField_spec {L : Layout} {f : RegField} {p : LayoutField} (h : namedField L f = some p) :
    p ∈ L.fields ∧ p.name = f ∧ f ≠ .reserved := by
  unfold namedField at h
  split at h
  · simp at h
  · rename_i hf
    have key : p ∈ L.fields.filter fun q => q.name == f := by
      split at h
      · simp at h
      · rename_i q e
        simp_all
      · exact List.mem_of_getElem? h
    simp only [List.mem_filter, beq_iff_eq] at key
    exact ⟨key.1, key.2, hf⟩

/-- A name names nothing exactly when it is the reserved ranges' or no field has it. -/
theorem namedField_none {L : Layout} {f : RegField} :
    namedField L f = none ↔ f = .reserved ∨ ∀ p ∈ L.fields, p.name ≠ f := by
  unfold namedField
  by_cases hf : f = .reserved
  · simp [hf]
  · rw [if_neg hf]
    split
    · rename_i e
      simpa [hf, List.filter_eq_nil_iff] using e
    · rename_i p e
      have : p ∈ L.fields.filter fun q => q.name == f := by simp [e]
      simp only [List.mem_filter, beq_iff_eq] at this
      simp only [reduceCtorEq, false_iff, not_or, not_forall]
      exact ⟨hf, p, this.1, fun h => h this.2⟩
    · rename_i ps h0 _
      have hl : 0 < (L.fields.filter fun q => q.name == f).length := List.length_pos_of_ne_nil h0
      obtain ⟨p, hp⟩ := List.exists_mem_of_ne_nil _ h0
      simp only [List.mem_filter, beq_iff_eq] at hp
      rw [List.getElem?_eq_none_iff]
      have hm := Nat.mod_lt (Config.namesake L f) hl
      refine ⟨fun h => absurd h (by omega), fun h => ?_⟩
      rcases h with h | h
      · exact absurd h hf
      · exact absurd hp.2 (h p hp.1)

/-- A name that one field has names that field. -/
theorem namedField_unique {L : Layout} {p : LayoutField} (hp : p ∈ L.fields) (hn : p.name ≠ .reserved)
    (hu : ∀ q ∈ L.fields, q.name = p.name → q = p) : namedField L p.name = some p := by
  cases h : namedField L p.name with
  | none =>
    rcases namedField_none.mp h with h | h
    · exact absurd h hn
    · exact absurd rfl (h p hp)
  | some q =>
    obtain ⟨h1, h2, -⟩ := namedField_spec h
    rw [hu q h1 h2]

/-! ## A register after a write (R27, R55, R375) -/

/-- A write of the whole register: it reacts, and nothing is left to complete. -/
theorem regAfterWrite_whole {r : Reg} {ra : Addr} {bytes : Nat} (h : laneOf r ra bytes = some (0, r.bits)) (k : Nat)
    (w free : RegValue) :
    regAfterWrite k ra bytes w free r =
      { r with
        value := putBits r.value 0 r.bits
          (withOpenBits free (Config.openRegister k r.addr) (react r.name.layout r.value w))
        low := none } := by
  simp [regAfterWrite, Reg.completedBy, Reg.completeWord, h]

/-- A write of the low dword of a 64-bit register waits for the high one. -/
theorem regAfterWrite_low {r : Reg} {ra : Addr} {bytes : Nat} (h : laneOf r ra bytes = some (0, 32)) (h64 : r.bits = 64)
    (k : Nat) (w free : RegValue) : regAfterWrite k ra bytes w free r = { r with low := some (w.setWidth 32) } := by
  simp [regAfterWrite, Reg.completedBy, h, h64]

/-- A write of the high dword completes the low one written before it: the register reacts to the pair. -/
theorem regAfterWrite_high {r : Reg} {ra : Addr} {bytes : Nat} {l : Word} (h : laneOf r ra bytes = some (32, 32))
    (h64 : r.bits = 64) (hl : r.low = some l) (k : Nat) (w free : RegValue) :
    regAfterWrite k ra bytes w free r =
      { r with
        value := putBits r.value 0 64
          (withOpenBits free (Config.openRegister k r.addr)
            (react r.name.layout r.value ((w <<< 32) ||| l.setWidth 64)))
        low := none } := by
  simp [regAfterWrite, Reg.completedBy, Reg.completeWord, h, h64, hl]

/-- A register that a write does not touch stays as it is. -/
theorem regAfterWrite_apart {r : Reg} {ra : Addr} {bytes : Nat} (h : laneOf r ra bytes = none)
    (ht : r.touchedBy ra bytes = false) (k : Nat) (w free : RegValue) : regAfterWrite k ra bytes w free r = r := by
  simp [regAfterWrite, h, ht]

end Sys2Proof.Machine
end

