-- ==== Sys2Proof/Laws/PerInstr.lean ====
section
/-! SUPPORT. Per-instruction lemmas: the Type of every instruction's encoding is one of its row of the opcode table. -/

namespace Sys2Proof.Laws

/-- The Types of an instruction's row (R82, R83); a request has none (R100). -/
def rowTypes : Instr → List Nat
  | .normal _ => [1]
  | .setupStage _ => [2]
  | .dataStage _ => [3]
  | .statusStage _ => [4]
  | .isoch _ => [5]
  | .link _ => [6]
  | .eventData _ => [7]
  | .noOp _ => [8]
  | .enableSlot _ => [9]
  | .disableSlot _ => [10]
  | .addressDevice _ => [11]
  | .configureEndpoint _ => [12]
  | .evaluateContext _ => [13]
  | .resetEndpoint _ => [14]
  | .stopEndpoint _ => [15]
  | .setTrDequeuePointer _ => [16]
  | .resetDevice _ => [17]
  | .forceEvent _ => [18]
  | .negotiateBandwidth _ => [19]
  | .setLatencyToleranceValue _ => [20]
  | .getPortBandwidth _ => [21]
  | .forceHeader _ => [22]
  | .noOpCommand _ => [23]
  | .getExtendedProperty _ => [24]
  | .setExtendedProperty _ => [25]
  | .transferEvent _ => [32]
  | .commandCompletionEvent _ => [33]
  | .portStatusChangeEvent _ => [34]
  | .bandwidthRequestEvent _ => [35]
  | .doorbellEvent _ => [36]
  | .hostControllerEvent _ => [37]
  | .deviceNotificationEvent _ => [38]
  | .mfindexWrapEvent _ => [39]
  | .unrecognized0 _ => [0]
  | .unrecognized26 _ => [26, 27]
  | .unrecognized28 _ => [28, 29, 30, 31]
  | .unrecognized40 _ => List.range' 40 8
  | .unrecognized48 _ => List.range' 48 16
  | .read _ _ => []
  | .get _ _ _ => []
  | .update _ _ _ => []
  | .write _ _ _ => []
  | .trbNew _ => []
  | .trbGet _ _ => []
  | .trbSet _ _ _ => []
  | .trbEncode _ => []
  | .trbDecode _ _ _ _ => []
  | .initProducer _ _ => []
  | .enqueue _ _ => []
  | .enqueuePointer _ => []
  | .crcrValue _ => []
  | .initEvent _ _ => []
  | .dequeue _ => []
  | .dequeuePointer _ => []
  | .erdpValue _ _ => []
  | .erstszValue _ => []
  | .erstbaValue _ => []
  | .ringDoorbell _ _ _ _ => []

/-- The encoding of an instruction has a Type of its row, and an instruction with no row has no encoding. -/
def TypeField.Statement (i : Instr) : Prop :=
  match encode i with
  | some t => (typeField t).toNat ∈ rowTypes i
  | none => rowTypes i = []

/-- The Type of an Unrecognized encoding: the row's upper bits, then the bits it leaves free. -/
theorem unrecognized_type {n m : Nat} {l : List Nat} (o : UnrecognizedTrb n) (upper : BitVec m)
    (h : ∀ low : BitVec n, (field (place low 106 ||| place upper (106 + n)) 106 6).toNat ∈ l) :
    (typeField (encodeUnrecognized upper o)).toNat ∈ l := by
  have e : typeField (encodeUnrecognized upper o) = field (place o.low 106 ||| place upper (106 + n)) 106 6 := by
    simp (disch := decide) only [typeField, encodeUnrecognized, field_or, field_place_apart, BitVec.or_zero,
      BitVec.zero_or]
  rw [e]
  exact h o.low

theorem TypeField.normal (o : NormalTrb) : TypeField.Statement (.normal o) := by
  show (typeField (encodeNormal o)).toNat ∈ [1]
  simp (disch := decide) [encodeNormal, typeField, field_or, field_place_same,
    field_place_apart]

theorem TypeField.setupStage (o : SetupStageTrb) : TypeField.Statement (.setupStage o) := by
  show (typeField (encodeSetupStage o)).toNat ∈ [2]
  simp (disch := decide) [encodeSetupStage, typeField, field_or, field_place_same,
    field_place_apart]

theorem TypeField.dataStage (o : DataStageTrb) : TypeField.Statement (.dataStage o) := by
  show (typeField (encodeDataStage o)).toNat ∈ [3]
  simp (disch := decide) [encodeDataStage, typeField, field_or, field_place_same,
    field_place_apart]

theorem TypeField.statusStage (o : StatusStageTrb) : TypeField.Statement (.statusStage o) := by
  show (typeField (encodeStatusStage o)).toNat ∈ [4]
  simp (disch := decide) [encodeStatusStage, typeField, field_or, field_place_same,
    field_place_apart]

theorem TypeField.isoch (o : IsochTrb) : TypeField.Statement (.isoch o) := by
  show (typeField (encodeIsoch o)).toNat ∈ [5]
  simp (disch := decide) [encodeIsoch, typeField, field_or, field_place_same,
    field_place_apart]

theorem TypeField.link (o : LinkTrb) : TypeField.Statement (.link o) := by
  show (typeField (encodeLink o)).toNat ∈ [6]
  simp (disch := decide) [encodeLink, typeField, field_or, field_place_same,
    field_place_apart]

theorem TypeField.eventData (o : EventDataTrb) : TypeField.Statement (.eventData o) := by
  show (typeField (encodeEventData o)).toNat ∈ [7]
  simp (disch := decide) [encodeEventData, typeField, field_or, field_place_same,
    field_place_apart]

theorem TypeField.noOp (o : NoOpTrb) : TypeField.Statement (.noOp o) := by
  show (typeField (encodeNoOp o)).toNat ∈ [8]
  simp (disch := decide) [encodeNoOp, typeField, field_or, field_place_same,
    field_place_apart]

theorem TypeField.enableSlot (o : EnableSlotTrb) : TypeField.Statement (.enableSlot o) := by
  show (typeField (encodeEnableSlot o)).toNat ∈ [9]
  simp (disch := decide) [encodeEnableSlot, typeField, field_or, field_place_same,
    field_place_apart]

theorem TypeField.disableSlot (o : DisableSlotTrb) : TypeField.Statement (.disableSlot o) := by
  show (typeField (encodeDisableSlot o)).toNat ∈ [10]
  simp (disch := decide) [encodeDisableSlot, typeField, field_or, field_place_same,
    field_place_apart]

theorem TypeField.addressDevice (o : AddressDeviceTrb) : TypeField.Statement (.addressDevice o) := by
  show (typeField (encodeAddressDevice o)).toNat ∈ [11]
  simp (disch := decide) [encodeAddressDevice, typeField, field_or, field_place_same,
    field_place_apart]

theorem TypeField.configureEndpoint (o : ConfigureEndpointTrb) : TypeField.Statement (.configureEndpoint o) := by
  show (typeField (encodeConfigureEndpoint o)).toNat ∈ [12]
  simp (disch := decide) [encodeConfigureEndpoint, typeField, field_or, field_place_same,
    field_place_apart]

theorem TypeField.evaluateContext (o : EvaluateContextTrb) : TypeField.Statement (.evaluateContext o) := by
  show (typeField (encodeEvaluateContext o)).toNat ∈ [13]
  simp (disch := decide) [encodeEvaluateContext, typeField, field_or, field_place_same,
    field_place_apart]

theorem TypeField.resetEndpoint (o : ResetEndpointTrb) : TypeField.Statement (.resetEndpoint o) := by
  show (typeField (encodeResetEndpoint o)).toNat ∈ [14]
  simp (disch := decide) [encodeResetEndpoint, typeField, field_or, field_place_same,
    field_place_apart]

theorem TypeField.stopEndpoint (o : StopEndpointTrb) : TypeField.Statement (.stopEndpoint o) := by
  show (typeField (encodeStopEndpoint o)).toNat ∈ [15]
  simp (disch := decide) [encodeStopEndpoint, typeField, field_or, field_place_same,
    field_place_apart]

theorem TypeField.setTrDequeuePointer (o : SetTrDequeuePointerTrb) : TypeField.Statement (.setTrDequeuePointer o) := by
  show (typeField (encodeSetTrDequeuePointer o)).toNat ∈ [16]
  simp (disch := decide) [encodeSetTrDequeuePointer, typeField, field_or, field_place_same,
    field_place_apart]

theorem TypeField.resetDevice (o : ResetDeviceTrb) : TypeField.Statement (.resetDevice o) := by
  show (typeField (encodeResetDevice o)).toNat ∈ [17]
  simp (disch := decide) [encodeResetDevice, typeField, field_or, field_place_same,
    field_place_apart]

theorem TypeField.forceEvent (o : ForceEventTrb) : TypeField.Statement (.forceEvent o) := by
  show (typeField (encodeForceEvent o)).toNat ∈ [18]
  simp (disch := decide) [encodeForceEvent, typeField, field_or, field_place_same,
    field_place_apart]

theorem TypeField.negotiateBandwidth (o : NegotiateBandwidthTrb) : TypeField.Statement (.negotiateBandwidth o) := by
  show (typeField (encodeNegotiateBandwidth o)).toNat ∈ [19]
  simp (disch := decide) [encodeNegotiateBandwidth, typeField, field_or, field_place_same,
    field_place_apart]

theorem TypeField.setLatencyToleranceValue (o : SetLatencyToleranceValueTrb) : TypeField.Statement (.setLatencyToleranceValue o) := by
  show (typeField (encodeSetLatencyToleranceValue o)).toNat ∈ [20]
  simp (disch := decide) [encodeSetLatencyToleranceValue, typeField, field_or, field_place_same,
    field_place_apart]

theorem TypeField.getPortBandwidth (o : GetPortBandwidthTrb) : TypeField.Statement (.getPortBandwidth o) := by
  show (typeField (encodeGetPortBandwidth o)).toNat ∈ [21]
  simp (disch := decide) [encodeGetPortBandwidth, typeField, field_or, field_place_same,
    field_place_apart]

theorem TypeField.forceHeader (o : ForceHeaderTrb) : TypeField.Statement (.forceHeader o) := by
  show (typeField (encodeForceHeader o)).toNat ∈ [22]
  simp (disch := decide) [encodeForceHeader, typeField, field_or, field_place_same,
    field_place_apart]

theorem TypeField.noOpCommand (o : NoOpCommandTrb) : TypeField.Statement (.noOpCommand o) := by
  show (typeField (encodeNoOpCommand o)).toNat ∈ [23]
  simp (disch := decide) [encodeNoOpCommand, typeField, field_or, field_place_same,
    field_place_apart]

theorem TypeField.getExtendedProperty (o : GetExtendedPropertyTrb) : TypeField.Statement (.getExtendedProperty o) := by
  show (typeField (encodeGetExtendedProperty o)).toNat ∈ [24]
  simp (disch := decide) [encodeGetExtendedProperty, typeField, field_or, field_place_same,
    field_place_apart]

theorem TypeField.setExtendedProperty (o : SetExtendedPropertyTrb) : TypeField.Statement (.setExtendedProperty o) := by
  show (typeField (encodeSetExtendedProperty o)).toNat ∈ [25]
  simp (disch := decide) [encodeSetExtendedProperty, typeField, field_or, field_place_same,
    field_place_apart]

theorem TypeField.transferEvent (o : TransferEventTrb) : TypeField.Statement (.transferEvent o) := by
  show (typeField (encodeTransferEvent o)).toNat ∈ [32]
  simp (disch := decide) [encodeTransferEvent, typeField, field_or, field_place_same,
    field_place_apart]

theorem TypeField.commandCompletionEvent (o : CommandCompletionEventTrb) : TypeField.Statement (.commandCompletionEvent o) := by
  show (typeField (encodeCommandCompletionEvent o)).toNat ∈ [33]
  simp (disch := decide) [encodeCommandCompletionEvent, typeField, field_or, field_place_same,
    field_place_apart]

theorem TypeField.portStatusChangeEvent (o : PortStatusChangeEventTrb) : TypeField.Statement (.portStatusChangeEvent o) := by
  show (typeField (encodePortStatusChangeEvent o)).toNat ∈ [34]
  simp (disch := decide) [encodePortStatusChangeEvent, typeField, field_or, field_place_same,
    field_place_apart]

theorem TypeField.bandwidthRequestEvent (o : BandwidthRequestEventTrb) : TypeField.Statement (.bandwidthRequestEvent o) := by
  show (typeField (encodeBandwidthRequestEvent o)).toNat ∈ [35]
  simp (disch := decide) [encodeBandwidthRequestEvent, typeField, field_or, field_place_same,
    field_place_apart]

theorem TypeField.doorbellEvent (o : DoorbellEventTrb) : TypeField.Statement (.doorbellEvent o) := by
  show (typeField (encodeDoorbellEvent o)).toNat ∈ [36]
  simp (disch := decide) [encodeDoorbellEvent, typeField, field_or, field_place_same,
    field_place_apart]

theorem TypeField.hostControllerEvent (o : HostControllerEventTrb) : TypeField.Statement (.hostControllerEvent o) := by
  show (typeField (encodeHostControllerEvent o)).toNat ∈ [37]
  simp (disch := decide) [encodeHostControllerEvent, typeField, field_or, field_place_same,
    field_place_apart]

theorem TypeField.deviceNotificationEvent (o : DeviceNotificationEventTrb) : TypeField.Statement (.deviceNotificationEvent o) := by
  show (typeField (encodeDeviceNotificationEvent o)).toNat ∈ [38]
  simp (disch := decide) [encodeDeviceNotificationEvent, typeField, field_or, field_place_same,
    field_place_apart]

theorem TypeField.mfindexWrapEvent (o : MfindexWrapEventTrb) : TypeField.Statement (.mfindexWrapEvent o) := by
  show (typeField (encodeMfindexWrapEvent o)).toNat ∈ [39]
  simp (disch := decide) [encodeMfindexWrapEvent, typeField, field_or, field_place_same,
    field_place_apart]

theorem TypeField.unrecognized0 (o : UnrecognizedTrb 0) : TypeField.Statement (.unrecognized0 o) := by
  show (typeField (encodeUnrecognized 0#6 o)).toNat ∈ [0]
  simp (disch := decide) [encodeUnrecognized, typeField, field_or, field_place_same,
    field_place_apart]

theorem TypeField.unrecognized26 (o : UnrecognizedTrb 1) : TypeField.Statement (.unrecognized26 o) := by
  exact unrecognized_type (l := [26, 27]) o _ (by decide)

theorem TypeField.unrecognized28 (o : UnrecognizedTrb 2) : TypeField.Statement (.unrecognized28 o) := by
  exact unrecognized_type (l := [28, 29, 30, 31]) o _ (by decide)

theorem TypeField.unrecognized40 (o : UnrecognizedTrb 3) : TypeField.Statement (.unrecognized40 o) := by
  exact unrecognized_type (l := List.range' 40 8) o _ (by decide)

theorem TypeField.unrecognized48 (o : UnrecognizedTrb 4) : TypeField.Statement (.unrecognized48 o) := by
  exact unrecognized_type (l := List.range' 48 16) o _ (by decide)

theorem TypeField.read (ra : Addr) (L : Layout) :
    TypeField.Statement (.read ra L) := rfl

theorem TypeField.get (L : Layout) (snap : RegValue) (f : RegField) :
    TypeField.Statement (.get L snap f) := rfl

theorem TypeField.update (ra : Addr) (L : Layout) (M : List Action) :
    TypeField.Statement (.update ra L M) := rfl

theorem TypeField.write (ra : Addr) (L : Layout) (M : List Action) :
    TypeField.Statement (.write ra L M) := rfl

theorem TypeField.trbNew (K : Variant) :
    TypeField.Statement (.trbNew K) := rfl

theorem TypeField.trbGet (v : Trb) (f : TrbField) :
    TypeField.Statement (.trbGet v f) := rfl

theorem TypeField.trbSet (v : Trb) (f : TrbField) (x : SetValue) :
    TypeField.Statement (.trbSet v f x) := rfl

theorem TypeField.trbEncode (v : Trb) :
    TypeField.Statement (.trbEncode v) := rfl

theorem TypeField.trbDecode (w0 : Word) (w1 : Word) (w2 : Word) (w3 : Word) :
    TypeField.Statement (.trbDecode w0 w1 w2 w3) := rfl

theorem TypeField.initProducer (kind : RingKind) (segs : List Segment) :
    TypeField.Statement (.initProducer kind segs) := rfl

theorem TypeField.enqueue (r : Nat) (v : Trb) :
    TypeField.Statement (.enqueue r v) := rfl

theorem TypeField.enqueuePointer (r : Nat) :
    TypeField.Statement (.enqueuePointer r) := rfl

theorem TypeField.crcrValue (r : Nat) :
    TypeField.Statement (.crcrValue r) := rfl

theorem TypeField.initEvent (erstBase : Addr) (segs : List Segment) :
    TypeField.Statement (.initEvent erstBase segs) := rfl

theorem TypeField.dequeue (r : Nat) :
    TypeField.Statement (.dequeue r) := rfl

theorem TypeField.dequeuePointer (r : Nat) :
    TypeField.Statement (.dequeuePointer r) := rfl

theorem TypeField.erdpValue (r : Nat) (clearBusy : Bool) :
    TypeField.Statement (.erdpValue r clearBusy) := rfl

theorem TypeField.erstszValue (r : Nat) :
    TypeField.Statement (.erstszValue r) := rfl

theorem TypeField.erstbaValue (r : Nat) :
    TypeField.Statement (.erstbaValue r) := rfl

theorem TypeField.ringDoorbell (db : Addr) (slot : Nat) (target : Nat) (stream : Nat) :
    TypeField.Statement (.ringDoorbell db slot target stream) := rfl

end Sys2Proof.Laws
end

