-- ==== Sys2Proof/Laws/Rings.lean ====
section
/-! SUPPORT. The Ring Engine's shared operations, said once: what they write and which accesses they make. -/

namespace Sys2Proof.Machine

/-! ## Construction checks -/

/-- What a segment that passes the construction check satisfies (R242). -/
theorem checkSegment_none {lo hi : Nat} {g : Segment} (h : checkSegment lo hi g = none) :
    g.base.toNat ≠ 0 ∧ g.base.toNat % 64 = 0 ∧ lo ≤ g.size ∧ g.size ≤ hi ∧
      g.base.toNat / 65536 = (g.base.toNat + 16 * g.size - 1) / 65536 := by
  unfold checkSegment at h
  dsimp only at h
  split at h
  · simp at h
  · split at h
    · simp at h
    · split at h
      · simp at h
      · split at h
        · simp at h
        · rename_i h1 h2 h3 h4
          simp only [Config.segAlign, Config.segBoundary] at h2 h4
          exact ⟨h1, by omega, by omega, by omega, by omega⟩

/-- A segment that passed the check ends within the address space. -/
theorem checkSegment_top {lo hi : Nat} {g : Segment} (h : checkSegment lo hi g = none) :
    g.base.toNat + 16 * g.size ≤ 2 ^ 64 := by
  obtain ⟨h0, _, _, _, hb⟩ := checkSegment_none h
  have := g.base.isLt
  omega

theorem checkSegments_none {segs : List Segment} {lo hi : Nat} (h : checkSegments segs lo hi = none) :
    segs ≠ [] ∧ ∀ g ∈ segs, checkSegment lo hi g = none := by
  unfold checkSegments at h
  split at h
  · simp at h
  · rename_i h1
    exact ⟨fun e => h1 (by simp [e]), fun g hg => List.findSome?_eq_none_iff.mp h g hg⟩

theorem checkErst_none {erstMax : Nat} {e : Addr} {segs : List Segment} (h : checkErst erstMax e segs = none) :
    segs ≠ [] ∧ segs.length ≤ erstMax ∧ e.toNat ≠ 0 ∧ e.toNat % 64 = 0 ∧ e.toNat + 16 * segs.length ≤ 2 ^ 64 ∧
      ∀ g ∈ segs, checkSegment Config.evtSegMin Config.evtSegMax g = none := by
  unfold checkErst at h
  split at h
  · simp at h
  · split at h
    · simp at h
    · split at h
      · simp at h
      · split at h
        · simp at h
        · split at h
          · simp at h
          · rename_i h1 h2 h3 h4 h5
            have h6 : e.toNat % 64 = 0 := by simpa [Config.segAlign] using h4
            exact ⟨fun e => h1 (by simp [e]), by omega, h3, h6, by omega,
              fun g hg => List.findSome?_eq_none_iff.mp h g hg⟩

/-! ## Slots -/

/-- The bytes of a slot within the address space are its address and the next fifteen (R32, R53). -/
theorem byteAddr_slot {g : Segment} {j k : Nat} (ht : g.base.toNat + 16 * g.size ≤ 2 ^ 64) (hj : j < g.size)
    (hk : k < 16) : byteAddr (slotAddr g j) k = g.base.toNat + 16 * j + k := by
  unfold byteAddr slotAddr
  simp only [BitVec.toNat_add, BitVec.toNat_ofNat]
  omega

/-- A slot's address (R32, R38). -/
theorem slotAddr_toNat {g : Segment} {j : Nat} (ht : g.base.toNat + 16 * g.size ≤ 2 ^ 64) (hj : j < g.size) :
    (slotAddr g j).toNat = g.base.toNat + 16 * j := by
  unfold slotAddr
  simp only [BitVec.toNat_add, BitVec.toNat_ofNat]
  omega

/-- The bytes of a word of a slot. -/
theorem byteAddr_slotWord {g : Segment} {j w k : Nat} (ht : g.base.toNat + 16 * g.size ≤ 2 ^ 64) (hj : j < g.size)
    (hk : w + k < 16) : byteAddr (slotAddr g j + BitVec.ofNat 64 w) k = g.base.toNat + 16 * j + w + k := by
  rw [byteAddr_add, byteAddr_slot ht hj hk]
  omega

/-- The bytes of slot `j`. -/
theorem slotByte_iff {g : Segment} {j a : Nat} (ht : g.base.toNat + 16 * g.size ≤ 2 ^ 64) (hj : j < g.size) :
    slotByte (slotAddr g j) a ↔ g.base.toNat + 16 * j ≤ a ∧ a < g.base.toNat + 16 * j + 16 := by
  constructor
  · rintro ⟨k, hk, rfl⟩
    rw [byteAddr_slot ht hj hk]
    omega
  · rintro ⟨h1, h2⟩
    refine ⟨a - (g.base.toNat + 16 * j), by omega, ?_⟩
    rw [byteAddr_slot ht hj (by omega)]
    omega

theorem segmentHolds_iff {g : Segment} {a : Nat} :
    segmentHolds g a = true ↔ g.base.toNat ≤ a ∧ a < g.base.toNat + 16 * g.size := by simp [segmentHolds]

/-- A slot's bytes are its segment's. -/
theorem slotByte_segment {g : Segment} {j a : Nat} (ht : g.base.toNat + 16 * g.size ≤ 2 ^ 64) (hj : j < g.size)
    (h : slotByte (slotAddr g j) a) : segmentHolds g a = true := by
  rw [slotByte_iff ht hj] at h
  rw [segmentHolds_iff]
  omega

/-! ## Construction writes -/

/-- The accesses of a run of `TRBWrite`s of zeros, newest first. -/
def zeroSlotsEvents (g : Segment) (n : Nat) : List Access :=
  (List.range n).foldl (fun ev j => trbWriteEvents (slotAddr g j) 0#128 ++ ev) []

theorem zeroSlots_succ (g : Segment) (n : Nat) (s : State) :
    zeroSlots g (n + 1) s = trbWrite (slotAddr g n) 0#128 (zeroSlots g n s) := by
  simp [zeroSlots, List.range_succ]

theorem zeroSlotsEvents_succ (g : Segment) (n : Nat) :
    zeroSlotsEvents g (n + 1) = trbWriteEvents (slotAddr g n) 0#128 ++ zeroSlotsEvents g n := by
  simp [zeroSlotsEvents, List.range_succ]

theorem zeroSlots_effect (g : Segment) (n : Nat) (s : State) :
    Effect s (zeroSlots g n s) (fun a => ∃ j < n, slotByte (slotAddr g j) a) (zeroSlotsEvents g n) := by
  induction n with
  | zero => exact (Effect.refl s).weaken fun a h => h.elim
  | succ n ih =>
    rw [zeroSlots_succ, zeroSlotsEvents_succ]
    refine (ih.trans (trbWrite_effect _ _ _)).weaken fun a h => ?_
    rcases h with ⟨j, hj, hs⟩ | hs
    · exact ⟨j, by omega, hs⟩
    · exact ⟨n, by omega, hs⟩

theorem zeroSlots_still (g : Segment) (n : Nat) {s : State} (h : s.ctrl = []) :
    Still s (zeroSlots g n s) (fun a => ∃ j < n, slotByte (slotAddr g j) a) := by
  induction n with
  | zero => exact (Still.refl h).weaken fun a h => h.elim
  | succ n ih =>
    rw [zeroSlots_succ]
    refine (ih.trans (trbWrite_still _ _ ih.ctrl)).weaken fun a h => ?_
    rcases h with ⟨j, hj, hs⟩ | hs
    · exact ⟨j, by omega, hs⟩
    · exact ⟨n, by omega, hs⟩

/-! ## What is in memory afterwards -/

/-- A word that neither agent writes reads as before. -/
theorem Effect.word {s s' : State} {W : Nat → Prop} {evs : List Access} (h : Effect s s' W evs) {pa : Addr}
    (hc : ∀ k < 4, s.ctrlMayWrite (byteAddr pa k) = false) (hw : ∀ k < 4, ¬ W (byteAddr pa k)) :
    memGetWord s'.mem pa = memGetWord s.mem pa :=
  memGetWord_congr fun k hk => h.mem _ (hc k hk) (hw k hk)

/-- The bytes of the four words of a slot differ. -/
theorem slotWords_apart (pa : Addr) {i j : Nat} (hi : i ≤ 12) (hj : j ≤ 12) (h : i + 4 ≤ j ∨ j + 4 ≤ i) {k : Nat}
    (hk : k < 4) : ¬ ∃ l < 4, byteAddr (pa + BitVec.ofNat 64 i) k = byteAddr (pa + BitVec.ofNat 64 j) l := by
  rintro ⟨l, hl, e⟩
  rw [byteAddr_add, byteAddr_add] at e
  exact byteAddr_ne pa (by omega) (by omega) (by omega) e

/-- The four words written are in memory, where the controller may not write (R57, R60). -/
theorem trbWrite_words (pa : Addr) (t : Trb) {s : State} (hm : Memory.wf s.mem = true)
    (hc : ∀ k < 16, s.ctrlMayWrite (byteAddr pa k) = false) :
    memGetWord (trbWrite pa t s).mem pa = dw0 t ∧
      memGetWord (trbWrite pa t s).mem (pa + BitVec.ofNat 64 4) = dw1 t ∧
      memGetWord (trbWrite pa t s).mem (pa + BitVec.ofNat 64 8) = dw2 t ∧
      memGetWord (trbWrite pa t s).mem (pa + BitVec.ofNat 64 12) = dw3 t := by
  have h0 := memWrite_effect pa (dw0 t) s
  have h1 := memWrite_effect (pa + 4#64) (dw1 t) (memWrite pa (dw0 t) s)
  have h2 := memWrite_effect (pa + 8#64) (dw2 t) (memWrite (pa + 4#64) (dw1 t) (memWrite pa (dw0 t) s))
  have h3 := orderW_effect (memWrite (pa + 8#64) (dw2 t) (memWrite (pa + 4#64) (dw1 t) (memWrite pa (dw0 t) s)))
  have h4 := memWrite_effect (pa + 12#64) (dw3 t)
    (orderW (memWrite (pa + 8#64) (dw2 t) (memWrite (pa + 4#64) (dw1 t) (memWrite pa (dw0 t) s))))
  have c0 {s' : State} (hr : s'.rings = s.rings) (k : Nat) (hk : k < 4) : s'.ctrlMayWrite (byteAddr pa k) = false := by
    rw [ctrlMayWrite_congr hr]
    exact hc k (by omega)
  have a0 {j : Nat} (hj : j ≤ 12) (h : 4 ≤ j) (k : Nat) (hk : k < 4) :
      ¬ ∃ l < 4, byteAddr pa k = byteAddr (pa + BitVec.ofNat 64 j) l := by
    simpa using slotWords_apart pa (i := 0) (by omega) hj (.inl h) hk
  have c {s' : State} (hr : s'.rings = s.rings) {i : Nat} (hi : i ≤ 12) (k : Nat) (hk : k < 4) :
      s'.ctrlMayWrite (byteAddr (pa + BitVec.ofNat 64 i) k) = false := by
    rw [ctrlMayWrite_congr hr, byteAddr_add]
    exact hc _ (by omega)
  have r0 := h0.rings
  have r1 := h1.rings.trans r0
  have r2 := h2.rings.trans r1
  have r3 := h3.rings.trans r2
  have m0 := h0.memWf hm
  have m1 := h1.memWf m0
  have m2 := h2.memWf m1
  have m3 := h3.memWf m2
  have a {i j : Nat} (hi : i ≤ 12) (hj : j ≤ 12) (h : i + 4 ≤ j ∨ j + 4 ≤ i) (k : Nat) (hk : k < 4) :=
    slotWords_apart pa hi hj h hk
  unfold trbWrite
  refine ⟨?_, ?_, ?_, memWrite_word _ _ m3⟩
  · rw [h4.word (c0 r3) (a0 (by omega) (by omega)), h3.word (c0 r2) (fun _ _ => id),
      h2.word (c0 r1) (a0 (by omega) (by omega)), h1.word (c0 r0) (a0 (by omega) (by omega))]
    exact memWrite_word _ _ hm
  · rw [h4.word (c r3 (by omega)) (a (by omega) (by omega) (by omega)),
      h3.word (c r2 (by omega)) (fun _ _ => id), h2.word (c r1 (by omega)) (a (by omega) (by omega) (by omega))]
    exact memWrite_word _ _ m0
  · rw [h4.word (c r3 (by omega)) (a (by omega) (by omega) (by omega)), h3.word (c r2 (by omega)) (fun _ _ => id)]
    exact memWrite_word _ _ m1

/-- The words of a TRB put together are the TRB (R9). -/
theorem trbOfWords_dw (t : Trb) : trbOfWords (dw0 t) (dw1 t) (dw2 t) (dw3 t) = t := by
  have h := place_field_all t
  have h1 : place (field t 0 32) 0 ||| place (field t 32 32) 32 = place (field t 0 64) 0 := by
    simpa using place_field_or (t := t) (lo := 0) (n := 32) (m := 32)
  have h2 : place (field t 0 64) 0 ||| place (field t 64 32) 64 = place (field t 0 96) 0 := by
    simpa using place_field_or (t := t) (lo := 0) (n := 64) (m := 32)
  have h3 : place (field t 0 96) 0 ||| place (field t 96 32) 96 = place (field t 0 128) 0 := by
    simpa using place_field_or (t := t) (lo := 0) (n := 96) (m := 32)
  unfold trbOfWords dw0 dw1 dw2 dw3
  rw [h1, h2, h3, h]

/-- The words of the TRB of four words (R9). -/
theorem dw_trbOfWords (w0 w1 w2 w3 : Word) :
    dw0 (trbOfWords w0 w1 w2 w3) = w0 ∧ dw1 (trbOfWords w0 w1 w2 w3) = w1 ∧
      dw2 (trbOfWords w0 w1 w2 w3) = w2 ∧ dw3 (trbOfWords w0 w1 w2 w3) = w3 := by
  refine ⟨?_, ?_, ?_, ?_⟩ <;>
    simp (disch := decide) only [dw0, dw1, dw2, dw3, trbOfWords, field_or, field_place_same, field_place_apart,
      BitVec.or_zero, BitVec.zero_or]

/-- The TRB written is in memory, where the controller may not write (R57, R60). -/
theorem trbWrite_trb (pa : Addr) (t : Trb) {s : State} (hm : Memory.wf s.mem = true)
    (hc : ∀ k < 16, s.ctrlMayWrite (byteAddr pa k) = false) : memGetTrb (trbWrite pa t s).mem pa = t := by
  obtain ⟨h0, h1, h2, h3⟩ := trbWrite_words pa t hm hc
  unfold memGetTrb
  rw [h0, h1, h2, h3]
  exact trbOfWords_dw t

/-- A slot that neither agent writes holds what it held. -/
theorem Effect.trb {s s' : State} {W : Nat → Prop} {evs : List Access} (h : Effect s s' W evs) {pa : Addr}
    (hc : ∀ k < 16, s.ctrlMayWrite (byteAddr pa k) = false) (hw : ∀ k < 16, ¬ W (byteAddr pa k)) :
    memGetTrb s'.mem pa = memGetTrb s.mem pa := by
  have c (i : Nat) (hi : i ≤ 12) (k : Nat) (hk : k < 4) :
      s.ctrlMayWrite (byteAddr (pa + BitVec.ofNat 64 i) k) = false := by
    rw [byteAddr_add]; exact hc _ (by omega)
  have w (i : Nat) (hi : i ≤ 12) (k : Nat) (hk : k < 4) : ¬ W (byteAddr (pa + BitVec.ofNat 64 i) k) := by
    rw [byteAddr_add]; exact hw _ (by omega)
  unfold memGetTrb
  rw [h.word (pa := pa) (fun k hk => hc k (by omega)) (fun k hk => hw k (by omega)),
    h.word (c 4 (by omega)) (w 4 (by omega)), h.word (c 8 (by omega)) (w 8 (by omega)),
    h.word (c 12 (by omega)) (w 12 (by omega))]

/-- Zeroed slots hold 0, where the controller may not write. -/
theorem zeroSlots_zero {g : Segment} {n : Nat} {s : State} (ht : g.base.toNat + 16 * g.size ≤ 2 ^ 64)
    (hn : n ≤ g.size) (hm : Memory.wf s.mem = true)
    (hc : ∀ a, segmentHolds g a = true → s.ctrlMayWrite a = false) :
    ∀ j < n, memGetTrb (zeroSlots g n s).mem (slotAddr g j) = 0#128 := by
  have hcs {s' : State} (hr : s'.rings = s.rings) (j : Nat) (hj : j < g.size) (k : Nat) (hk : k < 16) :
      s'.ctrlMayWrite (byteAddr (slotAddr g j) k) = false := by
    rw [ctrlMayWrite_congr hr]
    exact hc _ (slotByte_segment ht hj ⟨k, hk, rfl⟩)
  induction n with
  | zero => exact fun j hj => absurd hj (by omega)
  | succ n ih =>
    have he := zeroSlots_effect g n s
    intro j hj
    rw [zeroSlots_succ]
    by_cases e : j = n
    · subst e
      exact trbWrite_trb _ _ (he.memWf hm) (hcs he.rings j (by omega))
    · have hw : ∀ k < 16, ¬ slotByte (slotAddr g n) (byteAddr (slotAddr g j) k) := by
        intro k hk hs
        rw [slotByte_iff ht (by omega), byteAddr_slot ht (by omega) hk] at hs
        omega
      rw [(trbWrite_effect (slotAddr g n) 0#128 _).trb (hcs he.rings j (by omega)) hw]
      exact ih (by omega) j (by omega)

/-! ## The writes of a construction -/

/-- The accesses of the construction of a producer ring's segments, newest first. -/
def writeProducerEvents (first : Segment) : List Segment → List Access
  | [] => []
  | g :: rest =>
    writeProducerEvents first rest ++
      (trbWriteEvents (slotAddr g (g.size - 1)) (linkTrb (rest.headD first).base rest.isEmpty) ++
        zeroSlotsEvents g (g.size - 1))

theorem writeProducer_effect (first : Segment) (segs : List Segment)
    (hs : ∀ g ∈ segs, 1 ≤ g.size ∧ g.base.toNat + 16 * g.size ≤ 2 ^ 64) (s : State) :
    Effect s (writeProducer first segs s) (fun a => inSegments segs a = true) (writeProducerEvents first segs) := by
  induction segs generalizing s with
  | nil => exact (Effect.refl s).weaken fun a h => h.elim
  | cons g rest ih =>
    obtain ⟨h1, ht⟩ := hs g (by simp)
    have e := (zeroSlots_effect g (g.size - 1) s).trans
      (trbWrite_effect (slotAddr g (g.size - 1)) (linkTrb (rest.headD first).base rest.isEmpty) _)
    refine (e.trans (ih (fun q hq => hs q (by simp [hq])) _)).weaken fun a h => ?_
    simp only [inSegments, List.any_cons, Bool.or_eq_true] at h ⊢
    rcases h with (⟨j, hj, h⟩ | h) | h
    · exact .inl (slotByte_segment ht (by omega) h)
    · exact .inl (slotByte_segment ht (by omega) h)
    · exact .inr h

theorem writeProducer_still (first : Segment) (segs : List Segment)
    (hs : ∀ g ∈ segs, 1 ≤ g.size ∧ g.base.toNat + 16 * g.size ≤ 2 ^ 64) {s : State} (h : s.ctrl = []) :
    Still s (writeProducer first segs s) (fun a => inSegments segs a = true) := by
  induction segs generalizing s with
  | nil => exact (Still.refl h).weaken fun a h => h.elim
  | cons g rest ih =>
    obtain ⟨h1, ht⟩ := hs g (by simp)
    have z := zeroSlots_still g (g.size - 1) h
    have e := z.trans (trbWrite_still (slotAddr g (g.size - 1)) (linkTrb (rest.headD first).base rest.isEmpty) z.ctrl)
    refine (e.trans (ih (fun q hq => hs q (by simp [hq])) e.ctrl)).weaken fun a h => ?_
    simp only [inSegments, List.any_cons, Bool.or_eq_true] at h ⊢
    rcases h with (⟨j, hj, h⟩ | h) | h
    · exact .inl (slotByte_segment ht (by omega) h)
    · exact .inl (slotByte_segment ht (by omega) h)
    · exact .inr h

/-- `a` is the address of a byte of the `n` ERST entries at `e`. -/
def erstByte (e : Addr) (n a : Nat) : Prop := ∃ i < n, slotByte (e + BitVec.ofNat 64 (16 * i)) a

/-- The accesses of the write of an ERST entry, newest first (R271). -/
def erstEntryEvents (e : Addr) (g : Segment) : List Access :=
  [.memWrite (e + 12#64) (Config.mapPhys (e + 12#64)) 0#32,
    .memWrite (e + 8#64) (Config.mapPhys (e + 8#64)) (BitVec.ofNat 32 g.size),
    .memWrite (e + 4#64) (Config.mapPhys (e + 4#64)) (g.base.extractLsb' 32 32),
    .memWrite e (Config.mapPhys e) (g.base.extractLsb' 0 32)]

theorem writeErstEntry_effect (e : Addr) (g : Segment) (s : State) :
    Effect s (writeErstEntry e g s) (slotByte e) (erstEntryEvents e g) := by
  have h0 := memWrite_effect e (g.base.extractLsb' 0 32) s
  have h1 := h0.trans (memWrite_effect (e + 4#64) (g.base.extractLsb' 32 32) _)
  have h2 := h1.trans (memWrite_effect (e + 8#64) (BitVec.ofNat 32 g.size) _)
  have h3 := h2.trans (memWrite_effect (e + 12#64) 0#32 _)
  refine Effect.weaken h3 fun a ha => ?_
  rcases ha with ((⟨k, hk, x⟩ | ⟨k, hk, x⟩) | ⟨k, hk, x⟩) | ⟨k, hk, x⟩
  · exact ⟨k, by omega, x⟩
  · exact ⟨4 + k, by omega, x.trans (byteAddr_add e 4 k)⟩
  · exact ⟨8 + k, by omega, x.trans (byteAddr_add e 8 k)⟩
  · exact ⟨12 + k, by omega, x.trans (byteAddr_add e 12 k)⟩

theorem writeErstEntry_still (e : Addr) (g : Segment) {s : State} (h : s.ctrl = []) :
    Still s (writeErstEntry e g s) (slotByte e) := by
  have h0 := memWrite_still e (g.base.extractLsb' 0 32) h
  have h1 := h0.trans (memWrite_still (e + 4#64) (g.base.extractLsb' 32 32) h0.ctrl)
  have h2 := h1.trans (memWrite_still (e + 8#64) (BitVec.ofNat 32 g.size) h1.ctrl)
  have h3 := h2.trans (memWrite_still (e + 12#64) 0#32 h2.ctrl)
  refine Still.weaken h3 fun a ha => ?_
  rcases ha with ((⟨k, hk, x⟩ | ⟨k, hk, x⟩) | ⟨k, hk, x⟩) | ⟨k, hk, x⟩
  · exact ⟨k, by omega, x⟩
  · exact ⟨4 + k, by omega, x.trans (byteAddr_add e 4 k)⟩
  · exact ⟨8 + k, by omega, x.trans (byteAddr_add e 8 k)⟩
  · exact ⟨12 + k, by omega, x.trans (byteAddr_add e 12 k)⟩

/-- The accesses of the construction of an Event Ring, newest first. -/
def writeEventEvents (e : Addr) : List Segment → List Access
  | [] => []
  | g :: rest =>
    writeEventEvents (e + 16#64) rest ++ (zeroSlotsEvents g g.size ++ erstEntryEvents e g)

theorem erstByte_cons (e : Addr) (n a : Nat) :
    slotByte e a ∨ erstByte (e + 16#64) n a → erstByte e (n + 1) a := by
  rintro (h | ⟨i, hi, h⟩)
  · exact ⟨0, by omega, by simpa using h⟩
  · refine ⟨i + 1, by omega, ?_⟩
    have : e + BitVec.ofNat 64 (16 * (i + 1)) = e + 16#64 + BitVec.ofNat 64 (16 * i) := by
      rw [BitVec.add_assoc, ← BitVec.ofNat_add, Nat.mul_add, Nat.add_comm]
    rw [this]
    exact h

theorem writeEvent_effect (e : Addr) (segs : List Segment)
    (hs : ∀ g ∈ segs, g.base.toNat + 16 * g.size ≤ 2 ^ 64) (s : State) :
    Effect s (writeEvent e segs s) (fun a => inSegments segs a = true ∨ erstByte e segs.length a)
      (writeEventEvents e segs) := by
  induction segs generalizing e s with
  | nil => exact (Effect.refl s).weaken fun a h => h.elim
  | cons g rest ih =>
    have ht := hs g (by simp)
    have x := (writeErstEntry_effect e g s).trans (zeroSlots_effect g g.size _)
    refine (x.trans (ih (e + 16#64) (fun q hq => hs q (by simp [hq])) _)).weaken fun a h => ?_
    simp only [inSegments, List.any_cons, Bool.or_eq_true, List.length_cons] at h ⊢
    rcases h with (h | ⟨j, hj, h⟩) | h | h
    · exact .inr (erstByte_cons _ _ _ (.inl h))
    · exact .inl (.inl (slotByte_segment ht hj h))
    · exact .inl (.inr h)
    · exact .inr (erstByte_cons _ _ _ (.inr h))

theorem writeEvent_still (e : Addr) (segs : List Segment)
    (hs : ∀ g ∈ segs, g.base.toNat + 16 * g.size ≤ 2 ^ 64) {s : State} (h : s.ctrl = []) :
    Still s (writeEvent e segs s) (fun a => inSegments segs a = true ∨ erstByte e segs.length a) := by
  induction segs generalizing e s with
  | nil => exact (Still.refl h).weaken fun a h => h.elim
  | cons g rest ih =>
    have ht := hs g (by simp)
    have w := writeErstEntry_still e g h
    have x := w.trans (zeroSlots_still g g.size w.ctrl)
    refine (x.trans (ih (e + 16#64) (fun q hq => hs q (by simp [hq])) x.ctrl)).weaken fun a h => ?_
    simp only [inSegments, List.any_cons, Bool.or_eq_true, List.length_cons] at h ⊢
    rcases h with (h | ⟨j, hj, h⟩) | h | h
    · exact .inr (erstByte_cons _ _ _ (.inl h))
    · exact .inl (.inl (slotByte_segment ht hj h))
    · exact .inl (.inr h)
    · exact .inr (erstByte_cons _ _ _ (.inr h))

/-! ## Enqueue and dequeue -/

/-- The bytes of the DW3 of a segment's Link slot. -/
def linkByte (g : Segment) (a : Nat) : Prop := ∃ k < 4, a = byteAddr (slotAddr g (g.size - 1) + 12#64) k

/-- The accesses of a traversal, newest first (R247). -/
def traverseEvents (g : Segment) (p : ProducerRing) : List Access :=
  let pa := slotAddr g (g.size - 1) + 12#64
  [.memWrite pa (Config.mapPhys pa) (linkControl p.lastCh (p.seg + 1 == p.segs.length) p.pcs), .orderW]

theorem traverse_effect (g : Segment) (p : ProducerRing) (s : State) :
    Effect s (traverse g p s).2 (linkByte g) (traverseEvents g p) :=
  ((orderW_effect s).trans (memWrite_effect _ _ _)).weaken fun _ h => h.resolve_left id

theorem traverse_still (g : Segment) (p : ProducerRing) {s : State} (h : s.ctrl = []) :
    Still s (traverse g p s).2 (linkByte g) :=
  ((log_still .orderW h).trans (memWrite_still _ _ h)).weaken fun _ h => h.resolve_left id

/-- The ring of an enqueue before its cursor is looked at. -/
def enqueued (t : Trb) (p : ProducerRing) : ProducerRing :=
  { p with lastCh := chainOf (withCycle t p.pcs), idx := p.idx + 1, phase := .running }

/-- An enqueue fills its segment. -/
def fillsSegment (g : Segment) (p : ProducerRing) : Prop := p.idx + 2 = g.size

theorem enqueueAt_eq (g : Segment) (t : Trb) (p : ProducerRing) (s : State) :
    enqueueAt g t p s =
      if p.idx + 2 = g.size then traverse g (enqueued t p) (trbWrite (slotAddr g p.idx) (withCycle t p.pcs) s)
      else (enqueued t p, trbWrite (slotAddr g p.idx) (withCycle t p.pcs) s) := rfl

/-- The accesses of an enqueue, newest first (R245). -/
def enqueueEvents (g : Segment) (t : Trb) (p : ProducerRing) : List Access :=
  (if p.idx + 2 = g.size then traverseEvents g (enqueued t p) else []) ++
    trbWriteEvents (slotAddr g p.idx) (withCycle t p.pcs)

theorem enqueueAt_effect (g : Segment) (t : Trb) (p : ProducerRing) (s : State) :
    Effect s (enqueueAt g t p s).2 (fun a => slotByte (slotAddr g p.idx) a ∨ (fillsSegment g p ∧ linkByte g a))
      (enqueueEvents g t p) := by
  rw [enqueueAt_eq, enqueueEvents]
  by_cases h : p.idx + 2 = g.size
  · rw [if_pos h, if_pos h]
    exact ((trbWrite_effect _ _ _).trans (traverse_effect _ _ _)).weaken fun a x => x.imp id fun y => ⟨h, y⟩
  · rw [if_neg h, if_neg h]
    exact (trbWrite_effect _ _ _).weaken fun a x => .inl x

theorem enqueueAt_still (g : Segment) (t : Trb) (p : ProducerRing) {s : State} (hq : s.ctrl = []) :
    Still s (enqueueAt g t p s).2 (fun a => slotByte (slotAddr g p.idx) a ∨ (fillsSegment g p ∧ linkByte g a)) := by
  rw [enqueueAt_eq]
  have x := trbWrite_still (slotAddr g p.idx) (withCycle t p.pcs) hq
  by_cases h : p.idx + 2 = g.size
  · rw [if_pos h]
    exact (x.trans (traverse_still _ _ x.ctrl)).weaken fun a x => x.imp id fun y => ⟨h, y⟩
  · rw [if_neg h]
    exact x.weaken fun a x => .inl x

/-- The accesses of the reads after a matching DW3, newest first (R58). -/
def readRestEvents (pa : Addr) (d3 : Word) (s : State) : List Access :=
  let t := (readRest pa d3 s).1
  [.memRead (pa + 8#64) (Config.mapPhys (pa + 8#64)) (dw2 t), .memRead (pa + 4#64) (Config.mapPhys (pa + 4#64)) (dw1 t),
    .memRead pa (Config.mapPhys pa) (dw0 t), .orderR]

theorem readRest_effect (pa : Addr) (d3 : Word) (s : State) :
    Effect s (readRest pa d3 s).2 (fun _ => False) (readRestEvents pa d3 s) := by
  have h0 := (orderR_effect s).trans (memRead_effect pa _)
  have h1 := h0.trans (memRead_effect (pa + 4#64) _)
  have h2 := h1.trans (memRead_effect (pa + 8#64) _)
  obtain ⟨d0, d1, d2, _⟩ := dw_trbOfWords (memRead pa (orderR s)).1 (memRead (pa + 4#64) (memRead pa (orderR s)).2).1
    (memRead (pa + 8#64) (memRead (pa + 4#64) (memRead pa (orderR s)).2).2).1 d3
  unfold readRestEvents readRest
  dsimp only
  rw [d0, d1, d2]
  exact Effect.weaken h2 fun a x => by tauto

theorem readRest_still (pa : Addr) (d3 : Word) {s : State} (h : s.ctrl = []) :
    Still s (readRest pa d3 s).2 (fun _ => False) := by
  have h0 := (log_still .orderR h).trans (memRead_still pa h)
  have h1 := h0.trans (memRead_still (pa + 4#64) h0.ctrl)
  have h2 := h1.trans (memRead_still (pa + 8#64) h1.ctrl)
  exact Still.weaken h2 fun a x => by tauto

/-! ## The controller's reader (R255) -/

/-- What a reader can do at its slot: wait, follow a Link, or consume a TRB. -/
theorem readerConsume_cases (m : Memory) (h : HcReader) :
    (cycleBit (memGetTrb m h.cursor) ≠ h.cycle ∧ readerConsume m h = h) ∨
    (cycleBit (memGetTrb m h.cursor) = h.cycle ∧ kindOf (memGetTrb m h.cursor) = .defined .link ∧
      readerConsume m h =
        { h with
          cursor := (place (decodeLink (memGetTrb m h.cursor)).ringSegmentPointer 4).setWidth 64
          cycle := h.cycle ^^ ((decodeLink (memGetTrb m h.cursor)).tc == 1#1) }) ∨
    (cycleBit (memGetTrb m h.cursor) = h.cycle ∧ kindOf (memGetTrb m h.cursor) ≠ .defined .link ∧
      readerConsume m h =
        { h with cursor := h.cursor + 16#64, consumed := memGetTrb m h.cursor :: h.consumed }) := by
  by_cases hc : cycleBit (memGetTrb m h.cursor) = h.cycle
  · by_cases hk : kindOf (memGetTrb m h.cursor) = .defined .link
    · exact .inr (.inl ⟨hc, hk, by simp [readerConsume, hc, hk]⟩)
    · exact .inr (.inr ⟨hc, hk, by simp [readerConsume, hc, hk]⟩)
  · exact .inl ⟨hc, by simp [readerConsume, hc]⟩

end Sys2Proof.Machine
end

