-- ==== Sys2Proof/Machine/Textual.lean ====
section
/-! DEFINITION. The textual syntax of R101: the printer of TRBs and the `ENQ` pseudo-request. No step uses it. -/

namespace Sys2Proof.Machine

/-- The name of a variant in a literal (R82, R101). -/
def variantName : Variant → String
  | .normal => "Normal"
  | .setupStage => "SetupStage"
  | .dataStage => "DataStage"
  | .statusStage => "StatusStage"
  | .isoch => "Isoch"
  | .link => "Link"
  | .eventData => "EventData"
  | .noOp => "NoOp"
  | .enableSlot => "EnableSlot"
  | .disableSlot => "DisableSlot"
  | .addressDevice => "AddressDevice"
  | .configureEndpoint => "ConfigureEndpoint"
  | .evaluateContext => "EvaluateContext"
  | .resetEndpoint => "ResetEndpoint"
  | .stopEndpoint => "StopEndpoint"
  | .setTrDequeuePointer => "SetTrDequeuePointer"
  | .resetDevice => "ResetDevice"
  | .forceEvent => "ForceEvent"
  | .negotiateBandwidth => "NegotiateBandwidth"
  | .setLatencyToleranceValue => "SetLatencyToleranceValue"
  | .getPortBandwidth => "GetPortBandwidth"
  | .forceHeader => "ForceHeader"
  | .noOpCommand => "NoOpCommand"
  | .getExtendedProperty => "GetExtendedProperty"
  | .setExtendedProperty => "SetExtendedProperty"
  | .transferEvent => "TransferEvent"
  | .commandCompletionEvent => "CommandCompletionEvent"
  | .portStatusChangeEvent => "PortStatusChangeEvent"
  | .bandwidthRequestEvent => "BandwidthRequestEvent"
  | .doorbellEvent => "DoorbellEvent"
  | .hostControllerEvent => "HostControllerEvent"
  | .deviceNotificationEvent => "DeviceNotificationEvent"
  | .mfindexWrapEvent => "MfindexWrapEvent"

/-- The name of a field in a literal, as its layout table has it (R101). -/
def fieldName : TrbField → String
  | .raw => "raw"
  | .dataBufferPointer => "data_buffer_pointer"
  | .trbTransferLength => "trb_transfer_length"
  | .tdSize => "td_size"
  | .interrupterTarget => "interrupter_target"
  | .c => "c"
  | .ent => "ent"
  | .isp => "isp"
  | .ns => "ns"
  | .ch => "ch"
  | .ioc => "ioc"
  | .idt => "idt"
  | .bei => "bei"
  | .type => "type"
  | .bmRequestType => "bm_request_type"
  | .bRequest => "b_request"
  | .wValue => "w_value"
  | .wIndex => "w_index"
  | .wLength => "w_length"
  | .trt => "trt"
  | .dir => "dir"
  | .tdSizeTbc => "td_size_tbc"
  | .tbc => "tbc"
  | .tlbpc => "tlbpc"
  | .frameId => "frame_id"
  | .sia => "sia"
  | .ringSegmentPointer => "ring_segment_pointer"
  | .tc => "tc"
  | .eventData => "event_data"
  | .slotType => "slot_type"
  | .slotId => "slot_id"
  | .inputContextPointer => "input_context_pointer"
  | .bsr => "bsr"
  | .dc => "dc"
  | .tsp => "tsp"
  | .endpointId => "endpoint_id"
  | .sp => "sp"
  | .dcs => "dcs"
  | .sct => "sct"
  | .newTrDequeuePointer => "new_tr_dequeue_pointer"
  | .streamId => "stream_id"
  | .eventTrbPointer => "event_trb_pointer"
  | .vfInterrupterTarget => "vf_interrupter_target"
  | .vfId => "vf_id"
  | .bestEffortLatencyToleranceValue => "best_effort_latency_tolerance_value"
  | .portBandwidthContextPointer => "port_bandwidth_context_pointer"
  | .devSpeed => "dev_speed"
  | .hubSlotId => "hub_slot_id"
  | .packetType => "packet_type"
  | .headerInfoLo => "header_info_lo"
  | .headerInfoMid => "header_info_mid"
  | .headerInfoHi => "header_info_hi"
  | .rootHubPortNumber => "root_hub_port_number"
  | .extendedPropertyContextPointer => "extended_property_context_pointer"
  | .extendedCapabilityIdentifier => "extended_capability_identifier"
  | .commandSubType => "command_sub_type"
  | .capabilityParameter => "capability_parameter"
  | .trbPointer => "trb_pointer"
  | .completionCode => "completion_code"
  | .ed => "ed"
  | .commandTrbPointer => "command_trb_pointer"
  | .commandCompletionParameter => "command_completion_parameter"
  | .portId => "port_id"
  | .dbReason => "db_reason"
  | .notificationType => "notification_type"
  | .deviceNotificationData => "device_notification_data"

/-- A hexadecimal digit. -/
def hexDigit (x : Nat) : Char := if x < 10 then Char.ofNat (48 + x) else Char.ofNat (87 + x)

/-- A number in hexadecimal, without leading zeros; `fuel` bounds its digits. -/
def hexNumber : Nat → Nat → List Char
  | 0, _ => []
  | fuel + 1, x => (if x < 16 then [] else hexNumber fuel (x / 16)) ++ [hexDigit (x % 16)]

/-- A word as eight hexadecimal digits (R101). -/
def hexWord (w : Word) : List Char := (List.range 8).map fun k => hexDigit (w.toNat / 16 ^ (7 - k) % 16)

/-- `[DW0, DW1, DW2, DW3]` (R101). -/
def printRaw (t : Trb) : List Char :=
  "[".toList ++ hexWord (dw0 t) ++ ", ".toList ++ hexWord (dw1 t) ++ ", ".toList ++ hexWord (dw2 t) ++ ", ".toList ++
    hexWord (dw3 t) ++ "]".toList

/-- The number a field is printed as: a completion code by its number. -/
def printedNumber (t : Trb) (r : TrbRow) : Nat :=
  match rowValue t r with
  | .num x => x
  | .code c => completionNumber c
  | .words _ _ _ _ => 0

/-- The fields a literal shows: those it may omit are 0, and the fixed ones the variant fixes (R101, R151). -/
def shownFields (v : Variant) (t : Trb) : List (List Char) :=
  (variantRows v).filterMap fun r =>
    match r.kind with
    | .fixed _ => none
    | .value | .flag | .pointer _ | .ccode =>
      if printedNumber t r = 0 then none
      else some ((fieldName r.field).toList ++ "=0x".toList ++ hexNumber 17 (printedNumber t r))

/-- A canonical TRB as its literal, an Unrecognized TRB or one that is not canonical as its raw words (R101). -/
def printTrb (t : Trb) : List Char :=
  match kindOf t with
  | .unrecognized => "Unrecognized".toList ++ printRaw t
  | .defined v =>
    if canonical v t then
      (variantName v).toList ++ [Char.ofNat 123] ++ (", ".toList.intercalate (shownFields v t)) ++ [Char.ofNat 125]
    else printRaw t

/-- The requests after `TRB_NEW` that `ENQ r, Variant with f = x, ...` stands for, in field order (R101): they stop at the
first setter that faults, since every later request would answer `F_DEAD`. -/
def enqSetters (r : Nat) : List (TrbField × SetValue) → Trb → List Instr
  | [], v => [.enqueue r v]
  | (f, x) :: rest, v =>
    .trbSet v f x ::
      match trbFieldSet v f x with
      | .ok t => enqSetters r rest t
      | .error _ => []

/-- `ENQ r, Variant with f = x, ...` (R101). -/
def enqRequests (r : Nat) (K : Variant) (fields : List (TrbField × SetValue)) : List Instr :=
  .trbNew K :: enqSetters r fields (fixedPattern K)

end Sys2Proof.Machine
end

