-- ==== Sys2Proof/Tests/Slice0.lean ====
section
/-! SUPPORT. The model's own tests: what WellFormed refuses, words of the spec's vectors decoded, one-step tests with the
results of 95_test_vectors.md, and a witness for every obligation that has hypotheses. -/

namespace Sys2Proof.Tests

open Sys2Proof Sys2Proof.Machine

/-! ## Helpers -/

/-- What a request answered. -/
def resultOf : StepResult → Option Result
  | .next t => t.result
  | .fault _ | .refused _ => none

/-- The fault state after a request. -/
def faultOf : StepResult → Option FaultCode
  | .next t => t.fault
  | .fault _ | .refused _ => none

/-- The word in memory after a request. -/
def wordAfter (a : Addr) : StepResult → Option Word
  | .next t => some (memGetWord t.mem a)
  | .fault _ | .refused _ => none

/-- A ring after a request. -/
def ringAfter (r : Nat) : StepResult → Option Ring
  | .next t => t.rings[r]?
  | .fault _ | .refused _ => none

/-- A register's value after a request. -/
def regAfter (n : RegName) : StepResult → Option RegValue
  | .next t => (t.regs.find? fun r => r.name == n).map Reg.value
  | .fault _ | .refused _ => none

/-- How many accesses the block has made after a request. -/
def accessesAfter : StepResult → Option Nat
  | .next t => some (blockTrace t.trace).length
  | .fault _ | .refused _ => none

/-- The state after a request. -/
def stateAfter (o : StepResult) (s : State) : State :=
  match o with
  | .next t => t
  | .fault _ | .refused _ => s

/-- Why a step was refused. -/
def refusalOf : StepResult → Option Refusal
  | .refused why => some why
  | .next _ | .fault _ => none

/-- The reset state with one register holding a value. -/
def withReg (n : RegName) (x : RegValue) : State := { State.reset with regs := [⟨n, n.address, x, 0#64, none⟩] }

/-- The registers after reset, the controller ready (`cnr` = 0) and USBSTS at V-FC-2's value. -/
def ready : State :=
  { State.reset with regs := State.reset.regs.map fun r => if r.name = .usbsts then { r with value := 0x1d#64 } else r }

/-- The Command Ring of V-RING-1 before its first enqueue. -/
def commandRing : ProducerRing := ⟨.command, [⟨0x1000#64, 5⟩], 0, 0, true, .empty, false⟩

/-- The Transfer Ring of V-RING-9. -/
def transferRing : ProducerRing := ⟨.transfer, [⟨0x2000#64, 2⟩], 0, 0, true, .empty, false⟩

/-- The Event Ring of V-ERING-1. -/
def eventRing : ConsumerRing := ⟨[⟨0x4000#64, 16⟩], 0x3000#64, 0, 0, true, .empty⟩

/-- Three rings over empty memory: 0 the Command Ring, 1 the Transfer Ring, 2 the Event Ring. -/
def small : State :=
  { State.reset with rings := [.producer commandRing, .producer transferRing, .consumer eventRing] }

/-- `small` with the Link of the Transfer Ring pointing to its only segment (R243). -/
def linked : State := { small with mem := [(0x2011, 0x20#8)] }

/-- The event of V-EVT-2, as in V-ERING-8. -/
def event : Trb := trbOfWords 0x00001000#32 0x00000000#32 0x01000000#32 0x01008401#32

/-- `small` with the ERST entry of V-ERING-1 and the words of V-EVT-2 in slot 0 (V-ERING-8). -/
def posted : State :=
  { small with mem := [(0x3001, 0x40#8), (0x3008, 0x10#8), (0x4001, 0x10#8), (0x400b, 0x01#8), (0x400c, 0x01#8),
    (0x400d, 0x84#8), (0x400f, 0x01#8)] }

/-- The registers after reset, with the controller running and an ERST of one entry for interrupter 0. -/
def runningRegs : List Reg := setRegField (setRegField resetRegs .usbsts .hch 0#64) (.erstsz 0) .erstSize 1#64

/-- The controller's writer on the Event Ring of V-ERING-1, at its start. -/
def writer : HcWriter := ⟨0, [⟨0x4000#64, 16⟩], 0, 0, true⟩

/-- `small` with the ERST entry of V-ERING-1 and a running controller about to post the event. -/
def posting : State :=
  { small with
    mem := [(0x3001, 0x40#8), (0x3008, 0x10#8)]
    regs := runningRegs
    ctrl := [[.post 0 event]]
    hc := { HcCursors.nowhere with events := [writer] } }

/-- A CRCR of pointer `0x1000` and `rcs` 1 with doorbell 0 just rung, after `tr`; the controller at `h` about to start. -/
def rung (h : Option HcReader) (tr : List Access) : State :=
  { State.reset with
    regs := setRegField (setRegField resetRegs .crcr .commandRingPointer 0x40#64) .crcr .rcs 1#64
    trace := .regWrite (RegName.doorbell 0).address 4 0#64 :: tr
    ctrl := [[.react .commandStart]]
    hc := { HcCursors.nowhere with command := h } }

/-- `small` with the ERST of V-ERING-1 and the ERSTBA of interrupter `i` that points at it, written by `a`, with its ERSTSZ
at `n`. -/
def tabled (i : Nat) (n : RegValue) (a : Access) : State :=
  { small with
    mem := [(0x3001, 0x40#8), (0x3008, 0x10#8)]
    regs := setRegField (setRegField resetRegs (.erstba i) .erstbaPointer 0xc0#64) (.erstsz i) .erstSize n
    trace := [a]
    ctrl := [[.react (.eventStart i)]]
    hc := { HcCursors.nowhere with events := [writer, { writer with intr := 1 }] } }

/-- `TRB_NEW(NoOp)`, V-TRB-18. -/
def noOpTrb : Trb := trbOfWords 0#32 0#32 0#32 0x2000#32

/-- `TRB_NEW(NoOpCommand)`, V-TRB-1. -/
def noOpCommandTrb : Trb := trbOfWords 0#32 0#32 0#32 0x5c00#32

/-- A layout of one field over the 8 bits. -/
def wholeByte (f : LayoutField) : Layout := ⟨.w8, [f]⟩

/-! ## WellFormed refuses (R96, R120) -/

/-- Two fields share bit 4. -/
theorem test_wf_overlap : (Instr.read 0#64 ⟨.w8, [⟨.ip, 0, 5, .rw⟩, ⟨.ie, 4, 4, .rw⟩]⟩).wf = false := by decide

/-- Bit 4 has no field. -/
theorem test_wf_gap : (Instr.read 0#64 ⟨.w8, [⟨.ip, 0, 4, .rw⟩, ⟨.ie, 5, 3, .rw⟩]⟩).wf = false := by decide

/-- A field past the word's width. -/
theorem test_wf_past_width : (Instr.update 0#64 ⟨.w8, [⟨.ip, 0, 9, .rw⟩]⟩ []).wf = false := by decide

/-- R96 asks for nothing but disjoint fields that cover the word: two fields may have one name. -/
theorem test_wf_names : (Instr.write 0#64 ⟨.w8, [⟨.ip, 0, 4, .rw⟩, ⟨.ip, 4, 4, .rw⟩]⟩ []).wf = true := by decide

/-- `READ` of a layout that repeats a name answers the word (R124). -/
theorem test_read_names : resultOf (exec (.read Config.cap ⟨.w8, [⟨.ip, 0, 4, .rw⟩, ⟨.ip, 4, 4, .rw⟩]⟩) State.reset) =
    some (.snapshot ⟨.w8, [⟨.ip, 0, 4, .rw⟩, ⟨.ip, 4, 4, .rw⟩]⟩ 0x20#64) := by decide

/-- The layouts of the register map are well-formed. -/
theorem test_wf_layouts : (regNames.all fun n => n.layout.wf) = true := by decide

/-- A step refuses an ill-formed request by name. -/
theorem test_wf_step : refusalOf (Machine.step
    { State.reset with port := [.request (.read 0#64 ⟨.w8, [⟨.ip, 0, 4, .rw⟩]⟩)] }) = some .illFormed := by decide

/-- A step refuses a slot of 15 bytes by name (R99). -/
theorem test_wf_slot : refusalOf (Machine.step
    { State.reset with port := [.slot (List.replicate 15 0#8)] }) = some .badSlot := by decide

/-! ## Decoding: the words of Parts 2.3 to 2.5, one for every defined variant -/

/-- V-XFER-1. -/
theorem test_decode_xfer_1 : decodeTrb (trbOfWords 0x12345000#32 0x00000000#32 0x00400200#32 0x00000421#32) =
    .normal ⟨0x12345000#64, 0x200#17, 0#5, 1#10, 1#1, 0#1, 0#1, 0#1, 0#1, 1#1, 0#1, 0#2, 0#1, 0#16⟩ := by decide

/-- V-XFER-2. -/
theorem test_decode_xfer_2 : decodeTrb (trbOfWords 0x01000680#32 0x00120000#32 0x00000008#32 0x00030841#32) =
    .setupStage ⟨0x80#8, 6#8, 0x100#16, 0#16, 0x12#16, 8#17, 0#5, 0#10, 1#1, 0#4, 0#1, 1#1, 0#3, 3#2, 0#14⟩ := by
      decide

/-- V-XFER-3. -/
theorem test_decode_xfer_3 : decodeTrb (trbOfWords 0x00008000#32 0x00000000#32 0x00000012#32 0x00010c01#32) =
    .dataStage ⟨0x8000#64, 0x12#17, 0#5, 0#10, 1#1, 0#1, 0#1, 0#1, 0#1, 0#1, 0#1, 0#3, 1#1, 0#15⟩ := by decide

/-- V-XFER-4. -/
theorem test_decode_xfer_4 : decodeTrb (trbOfWords 0x00000000#32 0x00000000#32 0x00000000#32 0x00001021#32) =
    .statusStage ⟨0#86, 0#10, 1#1, 0#1, 0#2, 0#1, 1#1, 0#4, 0#1, 0#15⟩ := by decide

/-- V-XFER-5. -/
theorem test_decode_xfer_5 : decodeTrb (trbOfWords 0x00020000#32 0x00000000#32 0x00000400#32 0x92301421#32) =
    .isoch ⟨0x20000#64, 0x400#17, 0#5, 0#10, 1#1, 0#1, 0#1, 0#1, 0#1, 1#1, 0#1, 0#2, 0#1, 0#4, 0x123#11, 1#1⟩ := by
      decide

/-- V-XFER-6. -/
theorem test_decode_xfer_6 : decodeTrb (trbOfWords 0x00001000#32 0x00000000#32 0x00000000#32 0x00001803#32) =
    .link ⟨0#4, 0x100#60, 0#22, 0#10, 1#1, 1#1, 0#2, 0#1, 0#1, 0#4, 0#16⟩ := by decide

/-- V-XFER-7. -/
theorem test_decode_xfer_7 : decodeTrb (trbOfWords 0xdeadbeef#32 0x00000000#32 0x00000000#32 0x00001c21#32) =
    .eventData ⟨0xdeadbeef#64, 0#22, 0#10, 1#1, 0#1, 0#2, 0#1, 1#1, 0#3, 0#1, 0#16⟩ := by decide

/-- V-XFER-8. -/
theorem test_decode_xfer_8 : decodeTrb (trbOfWords 0x00000000#32 0x00000000#32 0x00000000#32 0x00002021#32) =
    .noOp ⟨0#86, 0#10, 1#1, 0#1, 0#2, 0#1, 1#1, 0#4, 0#16⟩ := by decide

/-- V-CMD-1. -/
theorem test_decode_cmd_1 : decodeTrb (trbOfWords 0x00000000#32 0x00000000#32 0x00000000#32 0x00002401#32) =
    .enableSlot ⟨0#96, 1#1, 0#9, 0#5, 0#11⟩ := by decide

/-- V-CMD-2. -/
theorem test_decode_cmd_2 : decodeTrb (trbOfWords 0x00000000#32 0x00000000#32 0x00000000#32 0x03002801#32) =
    .disableSlot ⟨0#96, 1#1, 0#9, 0#8, 3#8⟩ := by decide

/-- V-CMD-3. -/
theorem test_decode_cmd_3 : decodeTrb (trbOfWords 0x00004000#32 0x00000000#32 0x00000000#32 0x01002e01#32) =
    .addressDevice ⟨0#4, 0x400#60, 0#32, 1#1, 0#8, 1#1, 0#8, 1#8⟩ := by decide

/-- V-CMD-4. -/
theorem test_decode_cmd_4 : decodeTrb (trbOfWords 0x00004000#32 0x00000000#32 0x00000000#32 0x01003001#32) =
    .configureEndpoint ⟨0#4, 0x400#60, 0#32, 1#1, 0#8, 0#1, 0#8, 1#8⟩ := by decide

/-- V-CMD-5. -/
theorem test_decode_cmd_5 : decodeTrb (trbOfWords 0x00004040#32 0x00000000#32 0x00000000#32 0x02003401#32) =
    .evaluateContext ⟨0#4, 0x404#60, 0#32, 1#1, 0#9, 0#8, 2#8⟩ := by decide

/-- V-CMD-6. -/
theorem test_decode_cmd_6 : decodeTrb (trbOfWords 0x00000000#32 0x00000000#32 0x00000000#32 0x01033a01#32) =
    .resetEndpoint ⟨0#96, 1#1, 0#8, 1#1, 3#5, 0#3, 1#8⟩ := by decide

/-- V-CMD-7. -/
theorem test_decode_cmd_7 : decodeTrb (trbOfWords 0x00000000#32 0x00000000#32 0x00000000#32 0x01813c01#32) =
    .stopEndpoint ⟨0#96, 1#1, 0#9, 1#5, 0#2, 1#1, 1#8⟩ := by decide

/-- V-CMD-8. -/
theorem test_decode_cmd_8 : decodeTrb (trbOfWords 0x00006011#32 0x00000000#32 0x00000000#32 0x01014001#32) =
    .setTrDequeuePointer ⟨1#1, 0#3, 0x601#60, 0#16, 0#16, 1#1, 0#9, 1#5, 0#3, 1#8⟩ := by decide

/-- V-CMD-9. -/
theorem test_decode_cmd_9 : decodeTrb (trbOfWords 0x00000000#32 0x00000000#32 0x00000000#32 0x04004401#32) =
    .resetDevice ⟨0#96, 1#1, 0#9, 0#8, 4#8⟩ := by decide

/-- V-CMD-10. -/
theorem test_decode_cmd_10 : decodeTrb (trbOfWords 0x00007000#32 0x00000000#32 0x00800000#32 0x00014801#32) =
    .forceEvent ⟨0#4, 0x700#60, 0#22, 2#10, 1#1, 0#9, 1#8, 0#8⟩ := by decide

/-- V-CMD-11. -/
theorem test_decode_cmd_11 : decodeTrb (trbOfWords 0x00000000#32 0x00000000#32 0x00000000#32 0x02004c01#32) =
    .negotiateBandwidth ⟨0#96, 1#1, 0#9, 0#8, 2#8⟩ := by decide

/-- V-CMD-12. -/
theorem test_decode_cmd_12 : decodeTrb (trbOfWords 0x00000000#32 0x00000000#32 0x00000000#32 0x03ff5001#32) =
    .setLatencyToleranceValue ⟨0#96, 1#1, 0#9, 0x3ff#12, 0#4⟩ := by decide

/-- V-CMD-13. -/
theorem test_decode_cmd_13 : decodeTrb (trbOfWords 0x00009000#32 0x00000000#32 0x00000000#32 0x00045401#32) =
    .getPortBandwidth ⟨0#4, 0x900#60, 0#32, 1#1, 0#9, 4#4, 0#4, 0#8⟩ := by decide

/-- V-CMD-14. -/
theorem test_decode_cmd_14 : decodeTrb (trbOfWords 0x00000024#32 0x00000002#32 0x00000003#32 0x05005801#32) =
    .forceHeader ⟨4#5, 1#27, 2#32, 3#32, 1#1, 0#9, 0#8, 5#8⟩ := by decide

/-- V-CMD-15. -/
theorem test_decode_cmd_15 : decodeTrb (trbOfWords 0x00000000#32 0x00000000#32 0x00000000#32 0x00005c01#32) =
    .noOpCommand ⟨0#96, 1#1, 0#9, 0#16⟩ := by decide

/-- V-CMD-16. -/
theorem test_decode_cmd_16 : decodeTrb (trbOfWords 0x0000a000#32 0x00000000#32 0x00000010#32 0x01116001#32) =
    .getExtendedProperty ⟨0#4, 0xa00#60, 0x10#16, 0#16, 1#1, 0#9, 1#3, 2#5, 1#8⟩ := by decide

/-- V-CMD-17. -/
theorem test_decode_cmd_17 : decodeTrb (trbOfWords 0x00000000#32 0x00000000#32 0x00050010#32 0x01116401#32) =
    .setExtendedProperty ⟨0#64, 0x10#16, 5#8, 0#8, 1#1, 0#9, 1#3, 2#5, 1#8⟩ := by decide

/-- V-EVT-1. -/
theorem test_decode_evt_1 : decodeTrb (trbOfWords 0x00002010#32 0x00000000#32 0x01000000#32 0x01018001#32) =
    .transferEvent ⟨0x2010#64, 0#24, 1#8, 1#1, 0#1, 0#1, 0#7, 1#5, 0#3, 1#8⟩ := by decide

/-- V-EVT-2. -/
theorem test_decode_evt_2 : decodeTrb (trbOfWords 0x00001000#32 0x00000000#32 0x01000000#32 0x01008401#32) =
    .commandCompletionEvent ⟨0#4, 0x100#60, 0#24, 1#8, 1#1, 0#9, 0#8, 1#8⟩ := by decide

/-- V-EVT-3. -/
theorem test_decode_evt_3 : decodeTrb (trbOfWords 0x03000000#32 0x00000000#32 0x01000000#32 0x00008801#32) =
    .portStatusChangeEvent ⟨0#24, 3#8, 0#56, 1#8, 1#1, 0#9, 0#16⟩ := by decide

/-- V-EVT-4. -/
theorem test_decode_evt_4 : decodeTrb (trbOfWords 0x00000000#32 0x00000000#32 0x01000000#32 0x02008c01#32) =
    .bandwidthRequestEvent ⟨0#88, 1#8, 1#1, 0#9, 0#8, 2#8⟩ := by decide

/-- V-EVT-5. -/
theorem test_decode_evt_5 : decodeTrb (trbOfWords 0x00000001#32 0x00000000#32 0x01000000#32 0x00019001#32) =
    .doorbellEvent ⟨1#5, 0#83, 1#8, 1#1, 0#9, 1#8, 0#8⟩ := by decide

/-- V-EVT-6. -/
theorem test_decode_evt_6 : decodeTrb (trbOfWords 0x00000000#32 0x00000000#32 0x15000000#32 0x00009401#32) =
    .hostControllerEvent ⟨0#88, 0x15#8, 1#1, 0#9, 0#16⟩ := by decide

/-- V-EVT-7. -/
theorem test_decode_evt_7 : decodeTrb (trbOfWords 0xabcdef10#32 0x00000000#32 0x01000000#32 0x01009801#32) =
    .deviceNotificationEvent ⟨0#4, 1#4, 0xabcdef#56, 0#24, 1#8, 1#1, 0#9, 0#8, 1#8⟩ := by decide

/-- V-EVT-8. -/
theorem test_decode_evt_8 : decodeTrb (trbOfWords 0x00000000#32 0x00000000#32 0x01000000#32 0x00009c01#32) =
    .mfindexWrapEvent ⟨0#88, 1#8, 1#1, 0#9, 0#16⟩ := by decide

/-- Type 0 (V-TRB-16). -/
theorem test_decode_type_0 : decodeTrb (trbOfWords 0#32 0#32 0#32 0x00000000#32) =
    .unrecognized0 ⟨0#32, 0#32, 0#32, 0#1, 0#9, 0#0, 0#16⟩ := by decide

/-- Type 26 (V-TRB-16). -/
theorem test_decode_type_26 : decodeTrb (trbOfWords 0#32 0#32 0#32 0x00006800#32) =
    .unrecognized26 ⟨0#32, 0#32, 0#32, 0#1, 0#9, 0#1, 0#16⟩ := by decide

/-- Type 31 (V-TRB-16). -/
theorem test_decode_type_31 : decodeTrb (trbOfWords 0#32 0#32 0#32 0x00007c00#32) =
    .unrecognized28 ⟨0#32, 0#32, 0#32, 0#1, 0#9, 3#2, 0#16⟩ := by decide

/-- Type 47 (V-TRB-16). -/
theorem test_decode_type_47 : decodeTrb (trbOfWords 0#32 0#32 0#32 0x0000bc00#32) =
    .unrecognized40 ⟨0#32, 0#32, 0#32, 0#1, 0#9, 7#3, 0#16⟩ := by decide

/-- Type 48 (V-TRB-16). -/
theorem test_decode_type_48 : decodeTrb (trbOfWords 0#32 0#32 0#32 0x0000c000#32) =
    .unrecognized48 ⟨0#32, 0#32, 0#32, 0#1, 0#9, 0#4, 0#16⟩ := by decide

/-- A reserved bit is kept (V-TRB-12). -/
theorem test_decode_reserved : decodeTrb (trbOfWords 0#32 0#32 0#32 0x00005c81#32) =
    .noOpCommand ⟨0#96, 1#1, 0x40#9, 0#16⟩ := by decide

/-- The bytes of a slot, lowest address first (R52, R53): the words of V-CMD-8. -/
theorem test_decode_bytes : (match decodeBytes [0x11#8, 0x60#8, 0#8, 0#8, 0#8, 0#8, 0#8, 0#8, 0#8, 0#8, 0#8, 0#8, 0x01#8,
    0x40#8, 0x01#8, 0x01#8, 0xff#8] with
    | .ok (i, rest) => i == .setTrDequeuePointer ⟨1#1, 0#3, 0x601#60, 0#16, 0#16, 1#1, 0#9, 1#5, 0#3, 1#8⟩ &&
        rest == [0xff#8]
    | .error _ => false) = true := by decide

/-- The table's word is DW3 (V-CMD-2). -/
theorem test_decode_table : decodeTableWord 32 0x03002801 = some (.disableSlot ⟨0#96, 1#1, 0#9, 0#8, 3#8⟩) := by decide

/-- A step runs the table's word as the first instruction after reset. -/
theorem test_step_table : resultOf (Machine.step (State.reset.withFetchWord 32 0x03002801)) =
    some (.decoded (.defined .disableSlot) (trbOfWords 0#32 0#32 0#32 0x03002801#32)
      [(.c, .num 1), (.type, .num 10), (.slotId, .num 3)]) := by decide

/-! ## The TRB Codec (Part 2.2) -/

/-- V-TRB-2. -/
theorem test_new_setup : resultOf (exec (.trbNew .setupStage) State.reset) =
    some (.trb (.defined .setupStage) (trbOfWords 0#32 0#32 8#32 0x840#32)) := by decide

/-- V-TRB-13. -/
theorem test_get_pointer : resultOf (exec (.trbGet (trbOfWords 0x1007#32 0#32 0#32 0x1800#32) .ringSegmentPointer)
    State.reset) = some (.trbField (.num 0x1000)) := by decide

/-- V-EVT-10. -/
theorem test_get_code : resultOf (exec (.trbGet (trbOfWords 0#32 0#32 0xc0000000#32 0x8801#32) .completionCode)
    State.reset) = some (.trbField (.code (.unknown 192#8))) := by decide

/-- V-CMD-18. -/
theorem test_set_pointer : resultOf (exec (.trbSet (trbOfWords 0x6011#32 0#32 0#32 0x01014001#32) .newTrDequeuePointer
    (.num 0x7000)) State.reset) =
    some (.trb (.defined .setTrDequeuePointer) (trbOfWords 0x7001#32 0#32 0#32 0x01014001#32)) := by decide

/-- V-TRB-6. -/
theorem test_set_misaligned : faultOf (exec (.trbSet (trbOfWords 0#32 0#32 0#32 0x1800#32) .ringSegmentPointer
    (.num 0x1008)) State.reset) = some .misaligned := by decide

/-- V-UNREC-1. -/
theorem test_encode : resultOf (exec (.trbEncode (trbOfWords 0#32 0#32 0#32 0xfc00#32)) State.reset) =
    some (.words 0#32 0#32 0#32 0xfc00#32) := by decide

/-- V-EVT-12. -/
theorem test_decode_request : resultOf (exec (.trbDecode 0#32 0#32 0#32 0x2401#32) State.reset) =
    some (.trb (.defined .enableSlot) (trbOfWords 0#32 0#32 0#32 0x2401#32)) := by decide

/-! ## The Field Codec (Part 2.1) -/

/-- V-FC-1. -/
theorem test_read : resultOf (exec (.read RegName.usbsts.address usbstsLayout) (withReg .usbsts 0x9#64)) =
    some (.snapshot usbstsLayout 0x9#64) := by decide

/-- V-REG-2. -/
theorem test_get : resultOf (exec (.get hcsparams2Layout 0x080000f1#64 .maxScratchpadBufsLo) State.reset) =
    some (.fieldValue 1) := by decide

/-- V-FC-2. -/
theorem test_update_clear : regAfter .usbsts (exec (.update RegName.usbsts.address usbstsLayout [.clear .eint])
    (withReg .usbsts 0x1d#64)) = some 0x15#64 := by decide

/-- V-FC-16 with `SPLIT64` true, its argument read as `0x10000401` (NOTES.md): low `0x4018`, high `1`. -/
theorem test_update_split : regAfter (.erdp 0) (exec (.update (RegName.erdp 0).address erdpLayout
    [.set .erdpPointer 0x10000401, .clear .ehb]) { withReg (.erdp 0) 0x100004008#64 with split64 := true }) =
    some 0x100004010#64 := by decide

/-- V-FC-15. -/
theorem test_write : resultOf (exec (.write (RegName.doorbell 2).address doorbellLayout
    [.set .dbTarget 4, .set .dbStreamId 7]) (withReg (.doorbell 2) 0#64)) = some (.written 0x00070004#64) := by decide

/-- V-FC-14: the check runs before any access. -/
theorem test_update_fault : exec (.update RegName.usbsts.address usbstsLayout [.clear .hse, .set0 (.other 0)])
    (withReg .usbsts 0x1d#64) = faulted (withReg .usbsts 0x1d#64) .notWritable := by rfl

/-- R303: Max Scratchpad Buffers of its example, and `2^15` ERST entries. -/
theorem test_hcsparams2 : maxScratchpadBuffers 0x080000f1#64 = 1 ∧ State.reset.erstMax = 32768 := by decide

/-- R375: the low dword alone changes nothing yet. -/
theorem test_low_dword : regAfter (.erdp 0) (exec (.ringDoorbell (RegName.erdp 0).address 0 16 0)
    (withReg (.erdp 0) 0x100004000#64)) = some 0x100004000#64 := by decide

/-- V-REG-6. -/
theorem test_doorbell : resultOf (exec (.ringDoorbell dbBase 2 4 7) State.reset) = some (.written 0x00070004#64) := by
  decide

/-- V-REG-6: the doorbell then holds the word. -/
theorem test_doorbell_register : regAfter (.doorbell 2) (exec (.ringDoorbell dbBase 2 4 7) ready) = some 0x00070004#64 := by
  decide

/-- V-REG-7. -/
theorem test_doorbell_fault : faultOf (exec (.ringDoorbell dbBase 256 0 0) State.reset) = some .tooWide := by decide

/-! ## Producer rings (Part 2.6) -/

/-- V-RING-1, step 0. -/
theorem test_init_producer_link : wordAfter 0x104c#64 (exec (.initProducer .command [⟨0x1000#64, 5⟩]) State.reset) =
    some 0x1802#32 := by decide

/-- V-FLT-2: the first failing segment, its first failing test. -/
theorem test_init_producer_fault : faultOf (exec (.initProducer .command [⟨0x1008#64, 1⟩, ⟨0#64, 5⟩]) State.reset) =
    some .misaligned := by decide

/-- V-RING-1, step 4, in the state after step 3: the fourth enqueue traverses the Link and flips `pcs`. -/
theorem test_enqueue_traverses : ringAfter 0 (exec (.enqueue 0 noOpCommandTrb)
    { small with rings := [.producer { commandRing with idx := 3, phase := .running }] }) =
    some (.producer { commandRing with pcs := false, phase := .running }) := by decide

/-- V-RING-17: the Cycle bit is replaced, a reserved bit is written as it is. -/
theorem test_enqueue_cycle : wordAfter 0x100c#64 (exec (.enqueue 0 (trbOfWords 0#32 0#32 0#32 0x5c80#32)) small) =
    some 0x5c81#32 := by decide

/-- V-RING-10. -/
theorem test_enqueue_pointer : resultOf (exec (.enqueuePointer 0)
    { small with rings := [.producer { commandRing with idx := 1 }] }) = some (.pointer 0x1010#64 true) := by decide

/-- V-RING-11. -/
theorem test_crcr_value : resultOf (exec (.crcrValue 0) small) =
    some (.mutations [.set .commandRingPointer 0x40, .set .rcs 1]) := by decide

/-- V-RING-12. -/
theorem test_crcr_value_fault : faultOf (exec (.crcrValue 0)
    { small with rings := [.producer { commandRing with idx := 1 }] }) = some .misaligned := by decide

/-! ## Event Rings (Part 2.7) -/

set_option maxRecDepth 8000 in
/-- V-ERING-1. -/
theorem test_init_event_erst : wordAfter 0x3008#64 (exec (.initEvent 0x3000#64 [⟨0x4000#64, 16⟩]) State.reset) =
    some 0x10#32 := by decide

/-- V-ERING-5. -/
theorem test_init_event_fault : faultOf (exec (.initEvent 0x3010#64 [⟨0x4000#64, 16⟩]) State.reset) =
    some .misaligned := by decide

/-- V-ERING-3, in a legal state: an HCSPARAMS2 of `erst_max` 0 makes `ERST_MAX_ENTRIES` 1. -/
theorem test_init_event_limit : faultOf (exec (.initEvent 0x3000#64 [⟨0x4000#64, 16⟩, ⟨0x5000#64, 16⟩])
    (State.resetWith false 0#64)) = some .erstSize ∧ regsWf (State.resetWith false 0#64).regs = true := by decide

/-- R276: DEQUEUE on a producer ring, and on no ring. -/
theorem test_dequeue_wrong : faultOf (exec (.dequeue 0) small) = some .wrongRing ∧
    faultOf (exec (.dequeue 3) small) = some .wrongRing := by decide

/-- V-ERING-8. -/
theorem test_dequeue_event : resultOf (exec (.dequeue 2) posted) =
    some (.event (.defined .commandCompletionEvent) event) := by decide

/-- V-ERING-10, the sixteenth: the last slot of the last entry was left. -/
theorem test_dequeue_wraps : ringAfter 0 (exec (.dequeue 0)
    { small with rings := [.consumer { eventRing with idx := 15, ccs := false }] }) =
    some (.consumer { eventRing with ccs := true, phase := .running }) := by decide

/-- V-ERING-11. -/
theorem test_dequeue_pointer : resultOf (exec (.dequeuePointer 0)
    { small with rings := [.consumer { eventRing with idx := 1 }] }) = some (.dequeuePointer 0x4010#64 0 true) := by decide

/-- V-ERING-11. -/
theorem test_erdp_value : resultOf (exec (.erdpValue 0 true)
    { small with rings := [.consumer { eventRing with idx := 1 }] }) =
    some (.mutations [.set .erdpPointer 0x401, .set .desi 0, .clear .ehb]) := by decide

/-- V-ERING-12. -/
theorem test_erstsz_value : resultOf (exec (.erstszValue 2) small) = some (.mutations [.set .erstSize 1]) := by decide

/-- V-ERING-12. -/
theorem test_erstba_value : resultOf (exec (.erstbaValue 2) small) = some (.mutations [.set .erstbaPointer 0xc0]) := by
  decide

/-! ## After a fault, and the controller -/

/-- V-FLT-1: the second request answers `F_DEAD` and the fault state keeps the first code. -/
theorem test_dead : exec (.trbNew .noOp) { State.reset with fault := some .zeroSegments } =
    answered { State.reset with fault := some .zeroSegments } (.fault .dead) := by rfl

/-- A controller with Cycle State 1 consumes nothing from an empty ring (R255). -/
theorem test_reader_waits : readerConsume small.mem ⟨0x1000#64, true, []⟩ = ⟨0x1000#64, true, []⟩ := by decide

/-! ## The textual syntax (R101) -/

/-- V-CMD-2's literal. -/
theorem test_print : printTrb (trbOfWords 0#32 0#32 0#32 0x03002801#32) =
    "DisableSlot".toList ++ [Char.ofNat 123] ++ "c=0x1, slot_id=0x3".toList ++ [Char.ofNat 125] := by decide

/-! ## Witnesses: states and operands that meet the hypotheses of the obligations -/

/-- TransferTrbs, CommandTrbs, EventTrbs, UnrecognizedTrbs, TrbNew, TrbWords, RingDoorbell and every other statement
whose one hypothesis is a live state. -/
theorem witness_live : State.reset.fault = none ∧ small.fault = none ∧ posted.fault = none := by decide

/-- The second clause of FaultIsPreciseAndFinal. -/
theorem witness_dead : ({ State.reset with fault := some .zeroSegments } : State).fault ≠ none := by decide

/-- DecodeOfEncode, SlotBytes, DecodedFieldsAreTrbGet (a Command TRB and an Unrecognized one). -/
theorem witness_encode : encode (.disableSlot ⟨0#96, 0#1, 0#9, 0#8, 5#8⟩) = some (trbOfWords 0#32 0#32 0#32 0x05002800#32) ∧
    encode (.unrecognized48 ⟨0#32, 0#32, 0#32, 0#1, 0#9, 15#4, 0#16⟩) = some (trbOfWords 0#32 0#32 0#32 0xfc00#32) := by
  decide

/-- KindByType: different TRBs with one Type; Types at the ends of the ranges. -/
theorem witness_KindByType : trbBits (trbOfWords 1#32 2#32 3#32 0x5c01#32) 106 6 = trbBits noOpCommandTrb 106 6 ∧
    trbBits (trbOfWords 0#32 0#32 0#32 0x6800#32) 106 6 = 26 ∧ trbBits (trbOfWords 0#32 0#32 0#32 0x7c00#32) 106 6 = 31 ∧
    trbBits (trbOfWords 0#32 0#32 0#32 0xa000#32) 106 6 = 40 ∧ kindOf noOpTrb = .defined .noOp := by decide

/-- TrbGet: a row of every kind, and a field that the variant lacks. -/
theorem witness_TrbGet : (findRow (kindOf event) .slotId).map TrbRow.kind = some .value ∧
    (findRow (kindOf event) .c).map TrbRow.kind = some .flag ∧
    (findRow (kindOf event) .commandTrbPointer).map TrbRow.kind = some (.pointer 4) ∧
    (findRow (kindOf event) .completionCode).map TrbRow.kind = some .ccode ∧
    (findRow (kindOf event) .type).map TrbRow.kind = some (.fixed 33) ∧ findRow (kindOf event) .sia = none := by decide

/-- TrbSet: the values at the boundaries of the clauses. -/
theorem witness_TrbSet : ¬ 2 ^ 8 ≤ 255 ∧ 2 ^ 8 ≤ 256 ∧ ¬ 2 ^ 64 ≤ 2 ^ 64 - 16 ∧ (2 ^ 64 - 16) % 2 ^ 4 = 0 ∧
    (2 ^ 64 - 15) % 2 ^ 4 ≠ 0 ∧ 2 ^ 64 ≤ 2 ^ 64 := by decide

/-- TrbGetAfterSet: a number field and the completion code. -/
theorem witness_TrbGetAfterSet :
    resultOf (exec (.trbSet event .slotId (.num 255)) State.reset) =
      some (.trb (.defined .commandCompletionEvent) (trbOfWords 0x1000#32 0#32 0x01000000#32 0xff008401#32)) ∧
    resultOf (exec (.trbSet event .completionCode (.code (completionCode 36#8))) State.reset) =
      some (.trb (.defined .commandCompletionEvent) (trbOfWords 0x1000#32 0#32 0x24000000#32 0x01008401#32)) := by decide

/-- CanonicalKept, both clauses. -/
theorem witness_CanonicalKept :
    resultOf (exec (.trbNew .noOp) State.reset) = some (.trb (.defined .noOp) noOpTrb) ∧
    kindOf noOpTrb = .defined .noOp ∧ canonical .noOp noOpTrb = true ∧
    resultOf (exec (.trbSet noOpTrb .ioc (.num 1)) State.reset) =
      some (.trb (.defined .noOp) (trbOfWords 0#32 0#32 0#32 0x2020#32)) := by decide

/-- ReadOrder and WriteOrder: a 64-bit word that splits, one that does not, and a 32-bit word. -/
theorem witness_splits : ({ State.reset with split64 := true } : State).fault = none ∧
    (crcrLayout.width = .w64 ∧ ({ State.reset with split64 := true } : State).split64 = true) ∧
    ¬ (crcrLayout.width = .w64 ∧ State.reset.split64 = true) ∧
    ¬ (usbcmdLayout.width = .w64 ∧ ({ State.reset with split64 := true } : State).split64 = true) := by decide

/-- ReadRegister: a 32-bit and a 64-bit register, with both values of `SPLIT64`. -/
theorem witness_ReadRegister : RegName.usbcmd ∈ regNames ∧ RegName.erdp 7 ∈ regNames ∧ regsWf State.reset.regs = true ∧
    State.reset.ctrl = [] ∧ State.reset.fault = none ∧ ({ State.reset with split64 := true } : State).ctrl = [] := by
  decide

/-- GetReadsSnapshot: a field of each kind of clause. -/
theorem witness_GetReadsSnapshot : usbstsLayout.wf = true ∧ (⟨.hch, 0, 1, .ro⟩ : LayoutField) ∈ usbstsLayout.fields ∧
    (⟨.eint, 3, 1, .rw1c⟩ : LayoutField) ∈ usbstsLayout.fields ∧
    namedField usbstsLayout .hch = some ⟨.hch, 0, 1, .ro⟩ ∧ namedField usbstsLayout .runStop = none ∧
    namedField usbstsLayout .reserved = none ∧ namedField (wholeByte ⟨.ip, 0, 8, .rsvdP⟩) .ip = some ⟨.ip, 0, 8, .rsvdP⟩ ∧
    (∀ q ∈ usbstsLayout.fields, q.name = .hch → q = ⟨.hch, 0, 1, .ro⟩) := by decide

/-- The set of the whole value of MAX_SLOTS_EN, at the top of its range. -/
theorem witness_set : actionOk configLayout (.set .maxSlotsEn 255) :=
  ⟨⟨.maxSlotsEn, 0, 8, .rw⟩, by decide, .inl ⟨255, by decide, rfl, rfl⟩⟩

/-- MutationFaults: one above the range, and an action that no field admits. -/
theorem witness_MutationFaults : configLayout.wf = true ∧ setsRw configLayout (.set .maxSlotsEn 256) ∧
    ¬ actionOk configLayout (.set .maxSlotsEn 256) ∧ ¬ actionOk configLayout (.clear .u3e) ∧
    ¬ setsRw configLayout (.clear .u3e) := by
  have named : namedField configLayout .maxSlotsEn = some ⟨.maxSlotsEn, 0, 8, .rw⟩ := by decide
  have u3e : namedField configLayout .u3e = some ⟨.u3e, 8, 1, .rw⟩ := by decide
  refine ⟨by decide, ⟨_, named, rfl, 256, rfl⟩, ?_, ?_, ?_⟩
  · rintro ⟨p, hp, h⟩
    obtain rfl := Option.some.inj (named.symm.trans hp)
    simp_all
  · rintro ⟨p, hp, h⟩
    obtain rfl := Option.some.inj (u3e.symm.trans hp)
    simp_all
  · rintro ⟨p, -, -, x, e⟩
    exact absurd e (by simp)

/-- UpdateOrder, WriteOrder, UpdateRegister, FieldIsolation: a list of one set, in a state that R374 admits it in. -/
theorem witness_UpdateRegister : RegName.config ∈ regNames ∧ configLayout.wf = true ∧ regsWf ready.regs = true ∧
    ready.ctrl = [] ∧ ready.fault = none ∧ ready.openBits .config = 0#64 ∧
    ∀ a ∈ [Action.set .maxSlotsEn 255], actionOk RegName.config.layout a ∧ ∃ f x, a = .set f x := by
  refine ⟨by decide, by decide, by decide, rfl, rfl, by decide, ?_⟩
  intro a ha
  rw [List.mem_singleton] at ha
  exact ha ▸ ⟨witness_set, _, _, rfl⟩

/-- WriteOrder: a register that takes the word, and a doorbell at the end of its array. -/
theorem witness_WriteOrder : RegName.doorbell 64 ∈ regNames ∧ 64 ≤ maxSlots ∧ ready.openBits (.doorbell 64) = 0#64 ∧
    regAfter .config (exec (.write RegName.config.address configLayout [.set .maxSlotsEn 255]) ready) = some 0xff#64 := by
  decide

/-- ComposeByClass: the last action of a list, a field with none, an RW1C field cleared and one not. -/
theorem witness_ComposeByClass : (∀ a ∈ [Action.set .ie 1, .clear .ip], actionOk imanLayout a) ∧
    lastOn [Action.set .ie 1, .clear .ip] .ip (.clear .ip) ∧ lastOn [Action.set .ie 1, .clear .ip] .ie (.set .ie 1) ∧
    noneOn [Action.clear .ip] .ie ∧ namedField imanLayout .ip = some ⟨.ip, 0, 1, .rw1c⟩ ∧
    namedField imanLayout .ie = some ⟨.ie, 1, 1, .rw⟩ ∧
    namedField crcrLayout .cs = some ⟨.cs, 1, 1, .rw1s⟩ ∧ lastOn [Action.assert .cs] .cs (.assert .cs) := by
  refine ⟨?_, ⟨[.set .ie 1], [], rfl, rfl, by simp⟩, ⟨[], [.clear .ip], rfl, rfl, by simp [actionField]⟩, ?_, by decide,
    by decide, by decide, ⟨[], [], rfl, rfl, by simp⟩⟩
  · intro a ha
    simp only [List.mem_cons, List.not_mem_nil, or_false] at ha
    rcases ha with rfl | rfl
    · exact ⟨⟨.ie, 1, 1, .rw⟩, by decide, .inl ⟨1, by decide, rfl, rfl⟩⟩
    · exact ⟨⟨.ip, 0, 1, .rw1c⟩, by decide, .inr (.inr (.inl ⟨rfl, rfl⟩))⟩
  · simp [noneOn, actionField]

/-- ReactByClass. -/
theorem witness_ReactByClass : imanLayout.wf = true ∧ (⟨.ip, 0, 1, .rw1c⟩ : LayoutField) ∈ imanLayout.fields := by decide

/-- UpdateRegister: bits that R374 leaves open and bits that it does not. -/
theorem witness_openBits : (State.reset.openBits .config).getLsbD 0 = true ∧
    (State.reset.openBits .config).getLsbD 10 = false ∧ State.reset.openBits .usbsts = 0#64 := by decide

/-- FieldIsolation and ClearTargeting: the register before and after. -/
theorem witness_registers : (∃ r ∈ ready.regs, r.name = .usbsts ∧ r.value = 0x1d#64) ∧
    (∃ q ∈ (stateAfter (exec (.update RegName.usbsts.address RegName.usbsts.layout [.clear .eint]) ready) ready).regs,
      q.name = .usbsts ∧ q.value = 0x15#64) ∧
    (∃ q ∈ (stateAfter (exec (.update RegName.config.address RegName.config.layout [.set .maxSlotsEn 255]) ready)
      ready).regs, q.name = .config ∧ q.value = 0xff#64) := by decide

/-- ClearTargeting. -/
theorem witness_ClearTargeting : RegName.usbsts ∈ regNames ∧ ready.openBits .usbsts = 0#64 ∧
    ∀ a ∈ [Action.clear .eint], actionOk RegName.usbsts.layout a ∧ ∃ f, a = .clear f := by
  refine ⟨by decide, by decide, fun a ha => ?_⟩
  rw [List.mem_singleton] at ha
  exact ha ▸ ⟨⟨⟨.eint, 3, 1, .rw1c⟩, by decide, .inr (.inr (.inl ⟨rfl, rfl⟩))⟩, _, rfl⟩

/-- RingDoorbell: the boundaries of the three arguments. -/
theorem witness_RingDoorbell : (255 < 256 ∧ 255 < 256 ∧ 65535 < 65536) ∧ 256 ≤ 256 ∧ 65536 ≤ 65536 := by decide

/-- InitProducer and InitProducerFaults: the smallest and the largest segment that pass, and one for each fault. -/
theorem witness_InitProducer : segmentOk 2 4096 ⟨0x2000#64, 2⟩ ∧ segmentOk 2 4096 ⟨0x10000#64, 4096⟩ ∧
    (⟨0#64, 5⟩ : Segment).base.toNat = 0 ∧ (⟨0x1008#64, 1⟩ : Segment).base.toNat % 64 ≠ 0 ∧
    (⟨0x1000#64, 4097⟩ : Segment).size > 4096 ∧ (⟨0x1000#64, 1⟩ : Segment).size < 2 ∧
    (0x10040#64 : Addr).toNat / 65536 ≠ ((0x10040#64 : Addr).toNat + 16 * 4096 - 1) / 65536 := by
  simp only [segmentOk]
  decide

/-- InitProducer: segments apart from each other and from the Event Ring's slots. -/
theorem witness_InitProducer_places : segmentsApart [⟨0x2000#64, 2⟩, ⟨0x2040#64, 3⟩] ∧ Memory.wf small.mem = true ∧
    ∀ a, inSegments [⟨0x2000#64, 2⟩, ⟨0x2040#64, 3⟩] a = true → small.ctrlMayWrite a = false := by
  refine ⟨by simp [segmentsApart, apart], rfl, fun a ha => ?_⟩
  simp [inSegments, segmentHolds] at ha
  simp [State.ctrlMayWrite, small, Ring.consumerHolds, eventRing, segmentHolds]
  omega

/-- A ring on two slots with the state of `small` is legal. -/
theorem witness_small : MachineInv small where
  memory := rfl
  rings := by decide
  registers := by decide
  firstFault := by decide

/-- The bytes of the Transfer Ring are no slots of the Event Ring. -/
theorem witness_small_apart : ∀ a, segmentHolds ⟨0x2000#64, 2⟩ a = true → small.ctrlMayWrite a = false := by
  intro a ha
  simp [segmentHolds] at ha
  simp [State.ctrlMayWrite, small, Ring.consumerHolds, eventRing, segmentHolds]
  omega

/-- Enqueue, EnqueueOrder, EnqueueHandsOver, EnqueueRefused, ProducerValues, RingsIndependent: the rings of `small` and the
Types at the ends of the accepted ranges. -/
theorem witness_Enqueue : small.fault = none ∧ small.rings[1]? = some (.producer transferRing) ∧
    transferRing.segs[transferRing.seg]? = some ⟨0x2000#64, 2⟩ ∧ acceptedType transferRing.kind (trbBits noOpTrb 106 6) ∧
    acceptedType .command 9 ∧ acceptedType .command 25 ∧ ¬ acceptedType .command 26 ∧ ¬ acceptedType .transfer 6 ∧
    (∀ p, small.rings[2]? ≠ some (.producer p)) ∧ (∀ p, small.rings[3]? ≠ some (.producer p)) := by
  simp only [acceptedType, transferRing]
  refine ⟨rfl, rfl, rfl, by decide, by decide, by decide, by decide, by decide, fun p => ?_, fun p => ?_⟩ <;>
    simp [small]

/-- LapInv at the start, for EnqueueHandsOver and LapInvKept. -/
theorem witness_LapInv : LapInv small.mem transferRing := by
  intro i g hg j hj
  have hi : i = 0 := by
    by_contra h
    rw [List.getElem?_eq_none (by simp [transferRing]; omega)] at hg
    simp at hg
  subst hi
  simp only [transferRing, List.getElem?_cons_zero, Option.some.injEq] at hg
  subst hg
  have : j = 0 ∨ j = 1 := by simp at hj; omega
  rcases this with rfl | rfl <;> decide

/-- EnqueueHandsOver: a controller at the cursor, and an ENQUEUE that completes. -/
theorem witness_EnqueueHandsOver : (⟨0x2000#64, true, []⟩ : HcReader).cursor = slotAddr ⟨0x2000#64, 2⟩ transferRing.idx ∧
    (⟨0x2000#64, true, []⟩ : HcReader).cycle = transferRing.pcs ∧
    resultOf (exec (.enqueue 1 noOpTrb) small) = some (.address 0x2000#64) := by decide

/-- EnqueueHandsOver, LapInvKept: a ring whose Links point to their next segments. -/
theorem witness_LinkInv : LinkInv linked.mem transferRing := by
  intro i g g' hg hg'
  have hi : i = 0 := by
    by_contra h
    rw [List.getElem?_eq_none (by simp [transferRing]; omega)] at hg
    simp at hg
  subst hi
  simp only [transferRing, List.length_cons, List.length_nil, Nat.zero_add, Nat.mod_one, List.getElem?_cons_zero,
    Option.some.injEq] at hg hg'
  subst hg hg'
  decide

/-- EnqueueHandsOver: after an ENQUEUE that fills the segment, the reader comes by the Link to the ring's cursor (R255). -/
theorem witness_EnqueueHandsOver_link :
    (let t := stateAfter (exec (.enqueue 1 noOpTrb) linked) linked;
      readerConsume t.mem (readerConsume t.mem ⟨0x2000#64, true, []⟩) =
        ⟨0x2000#64, false, [trbOfWords 0#32 0#32 0#32 0x2001#32]⟩ ∧
      t.rings[1]? = some (.producer { transferRing with pcs := false, phase := .running })) ∧
    Memory.wf linked.mem = true ∧ transferRing.idx + 2 = (⟨0x2000#64, 2⟩ : Segment).size ∧
    commandRing.idx + 2 ≠ (⟨0x1000#64, 5⟩ : Segment).size := by decide

/-- ProducerValues: an unaligned pointer of a Command Ring. -/
theorem witness_ProducerValues : small.rings[0]? = some (.producer commandRing) ∧ commandRing.kind = .command ∧
    (0x1000#64 : Addr).toNat % 64 = 0 ∧ (0x1010#64 : Addr).toNat % 64 ≠ 0 := ⟨rfl, rfl, by decide, by decide⟩

/-- ProducerPositions: a log of two enqueues on the Transfer Ring with one on the Command Ring between. -/
theorem witness_ProducerPositions : transferRing.seg = 0 ∧ transferRing.idx = 0 ∧ transferRing.pcs = true ∧
    ((execLog [.enqueue 1 noOpTrb, .enqueue 0 noOpCommandTrb, .enqueue 1 noOpTrb] small).map fun p =>
      (p.1.filter (enqueuedOn 1)).length) = some 2 := by decide

/-- The rings of `small` are disjoint. -/
theorem witness_disjoint : RingsDisjoint small.rings := by
  unfold RingsDisjoint
  simp [small, commandRing, transferRing, eventRing, ringRegions, apart]

/-- LapInvAtConstruction and LapInvKept: a request that constructs a ring apart from the others. -/
theorem witness_LapInvKept : resultOf (exec (.initProducer .transfer [⟨0x2000#64, 2⟩]) State.reset) = some (.ring 0) ∧
    resultOf (Machine.step { small with port := [.request (.enqueue 1 noOpTrb)] }) = some (.address 0x2000#64) := by decide

/-- LapInvAtConstruction: the rings after it are disjoint. -/
theorem witness_LapInvAtConstruction :
    RingsDisjoint (stateAfter (exec (.initProducer .transfer [⟨0x2000#64, 2⟩]) State.reset) State.reset).rings := by
  have h : (stateAfter (exec (.initProducer .transfer [⟨0x2000#64, 2⟩]) State.reset) State.reset).rings =
    [.producer transferRing] := by decide
  rw [h]
  unfold RingsDisjoint
  simp [transferRing, ringRegions]

/-- InitEvent and InitEventFaults: the boundaries of the table's length, its base and its end, and of a segment. -/
theorem witness_InitEvent : segmentOk 16 4096 ⟨0x4000#64, 16⟩ ∧ segmentOk 16 4096 ⟨0x10000#64, 4096⟩ ∧
    [(⟨0x4000#64, 16⟩ : Segment)].length ≤ State.reset.erstMax ∧
    (State.resetWith false 0#64).erstMax < [(⟨0x4000#64, 16⟩ : Segment), ⟨0x5000#64, 16⟩].length ∧
    (0x3010#64 : Addr).toNat % 64 ≠ 0 ∧ (0xffffffffffffffc0#64 : Addr).toNat + 16 * 4 - 1 < 2 ^ 64 ∧
    2 ^ 64 ≤ (0xffffffffffffffc0#64 : Addr).toNat + 16 * 5 - 1 ∧ (⟨0x4000#64, 15⟩ : Segment).size < 16 ∧
    4096 < (⟨0x4000#64, 4097⟩ : Segment).size := by
  simp only [segmentOk]
  decide

/-- InitEvent: ERST and segment apart. -/
theorem witness_InitEvent_places : RingsDisjoint [.consumer eventRing] ∧ Memory.wf State.reset.mem = true ∧
    ∀ a, inSegments eventRing.segs a = true → State.reset.ctrlMayWrite a = false := by
  refine ⟨?_, rfl, fun a _ => rfl⟩
  unfold RingsDisjoint
  simp [eventRing, ringRegions, apart]

/-- DequeueAnyTime, DequeueQuiet, ConsumerValues: a slot with the ring's Cycle State, and one without. -/
theorem witness_Dequeue : posted.rings[2]? = some (.consumer eventRing) ∧ posted.ctrl = [] ∧
    eventRing.segs[eventRing.seg]? = some ⟨0x4000#64, 16⟩ ∧ slotCycle posted.mem ⟨0x4000#64, 16⟩ 0 = eventRing.ccs ∧
    slotCycle small.mem ⟨0x4000#64, 16⟩ 0 ≠ eventRing.ccs := ⟨rfl, rfl, rfl, by decide, by decide⟩

/-- ConsumerValues, DequeueAnyTime: identifiers of no consumer ring. -/
theorem witness_ConsumerValues : (∀ c, small.rings[0]? ≠ some (.consumer c)) ∧
    ∀ c, small.rings[3]? ≠ some (.consumer c) := ⟨fun c => by simp [small], fun c => by simp [small]⟩

/-- DequeuePosted. -/
theorem witness_DequeuePosted : posting.fault = none ∧ posting.ctrl = [[.post 0 event]] ∧
    posting.rings[2]? = some (.consumer eventRing) ∧ posting.hc.events.find? (fun x => x.intr == 0) = some writer ∧
    writer.segs = eventRing.segs ∧ writer.seg = eventRing.seg ∧ writer.idx = eventRing.idx ∧
    writer.cycle = eventRing.ccs ∧ regField posting.regs .usbsts .hch = 0#64 ∧
    (0 = 0 ∨ regField posting.regs (.erstsz 0) .erstSize ≠ 0#64) ∧ writerFull posting.regs writer = false ∧
    resultOf (exec (.dequeue 2) posting) = some (.event (.defined .commandCompletionEvent) event) := by
  refine ⟨rfl, rfl, rfl, rfl, rfl, rfl, rfl, rfl, by decide, by decide, by decide, by decide⟩

/-- DequeuePosted: the state is legal. -/
theorem witness_posting : MachineInv posting where
  memory := by decide
  rings := by decide
  registers := by decide
  firstFault := by decide

/-- ConsumerPositions: a log of one DEQUEUE that answered a TRB and one that answered None. -/
theorem witness_ConsumerPositions : eventRing.seg = 0 ∧ eventRing.idx = 0 ∧ eventRing.ccs = true ∧
    ((execLog [.dequeue 2, .dequeue 2] posted).map fun p => (p.1.filter (dequeuedFrom 2)).length) = some 1 := by decide

/-- MutationListsFit: each of the four answers a list. -/
theorem witness_MutationListsFit :
    resultOf (exec (.crcrValue 0) small) = some (.mutations [.set .commandRingPointer 0x40, .set .rcs 1]) ∧
    resultOf (exec (.erdpValue 2 false) small) = some (.mutations [.set .erdpPointer 0x400, .set .desi 0]) ∧
    resultOf (exec (.erstszValue 2) small) = some (.mutations [.set .erstSize 1]) ∧
    resultOf (exec (.erstbaValue 2) small) = some (.mutations [.set .erstbaPointer 0xc0]) := by decide

/-- StepRunsTheInstruction: each clause's request or slot. -/
theorem witness_StepRunsTheInstruction : (Instr.dequeue 2).wf = true ∧
    (Instr.read 0#64 ⟨.w8, [⟨.ip, 0, 4, .rw⟩]⟩).wf = false ∧ State.reset.port = [] ∧
    decodeTableWord 32 0x5c01 = some (.noOpCommand ⟨0#96, 1#1, 0#9, 0#16⟩) ∧
    (match decodeBytes (tableBytes 32 0x5c01) with
      | .ok (i, rest) => i == .noOpCommand ⟨0#96, 1#1, 0#9, 0#16⟩ && rest.isEmpty
      | .error _ => false) = true := by decide

/-- FaultIsPreciseAndFinal: a request that faults. -/
theorem witness_FaultIsPreciseAndFinal : faultOf (exec (.initProducer .command []) State.reset) = some .zeroSegments := by
  decide

/-- RingsIndependent: a request that is not an ENQUEUE or a DEQUEUE on ring 0. -/
theorem witness_RingsIndependent : resultOf (exec (.enqueue 1 noOpTrb) small) = some (.address 0x2000#64) ∧
    (∀ v, Instr.enqueue 1 noOpTrb ≠ .enqueue 0 v) ∧ Instr.enqueue 1 noOpTrb ≠ .dequeue 0 := by
  refine ⟨by decide, by simp, by simp⟩

/-- ControllerTurn: a byte that the controller may not write, and a schedule without reactions. -/
theorem witness_ControllerTurn : posting.ctrlMayWrite 0x3000 = false ∧
    ∀ b ∈ posting.ctrl, ∀ x, CtrlAct.react x ∉ b := ⟨by decide, by simp [posting]⟩

/-- ControllerReset. -/
theorem witness_ControllerReset : ({ withReg .usbcmd 2#64 with ctrl := [[.react .reset]] } : State).ctrl =
    [[.react .reset]] ∧ regField (withReg .usbcmd 2#64).regs .usbcmd .hcrst = 1#64 := by decide

/-- ControllerStarts: a first start, starts after CRCR was written whole and by its high dword, and one after a stop. -/
theorem witness_ControllerStarts : regsWf (rung none []).regs = true ∧
    regField (rung none []).regs .crcr .crr = 0#64 ∧
    (controllerTurn (rung none [])).hc.command = some ⟨0x1000#64, true, []⟩ ∧
    (controllerTurn (rung (some ⟨0x2000#64, false, []⟩) [.regWrite RegName.crcr.address 8 0x1001#64])).hc.command =
      some ⟨0x1000#64, true, []⟩ ∧
    (controllerTurn (rung (some ⟨0x2000#64, false, []⟩)
      [.regWrite (RegName.crcr.address + 4#64) 4 0#64])).hc.command = some ⟨0x1000#64, true, []⟩ ∧
    (controllerTurn (rung (some ⟨0x2000#64, false, []⟩) [.ctrlReact .commandStop])).hc.command =
      some ⟨0x2000#64, false, []⟩ := by decide

/-- ControllerStarts: an Event Ring of one entry and one of none, primary and secondary, beside another's. -/
theorem witness_ControllerStarts_events :
    regsWf (tabled 0 1#64 (.regWrite (RegName.erstba 0).address 8 0x3000#64)).regs = true ∧ 1 < maxIntrs ∧
    (controllerTurn (tabled 0 1#64 (.regWrite (RegName.erstba 0).address 8 0x3000#64))).hc.events =
      [{ writer with intr := 1 }, writer] ∧
    (controllerTurn (tabled 0 0#64 (.regWrite ((RegName.erstba 0).address + 4#64) 4 0#64))).hc.events =
      [{ writer with intr := 1 }, { writer with segs := [] }] ∧
    (controllerTurn (tabled 1 0#64 (.regWrite ((RegName.erstba 1).address + 4#64) 4 0#64))).hc.events =
      [writer] := by decide

/-- ControllerHoldsBack: a halted controller, a Command Ring not running, a disabled Event Ring, a full one, and one whose
slots are no consumer ring's. -/
theorem witness_ControllerHoldsBack : regField State.reset.regs .usbsts .hch ≠ 0#64 ∧
    regField State.reset.regs .crcr .crr ≠ 1#64 ∧ regField State.reset.regs (.erstsz 1) .erstSize = 0#64 ∧
    writerFull runningRegs ⟨0, [⟨0x9000#64, 16⟩], 0, 0, true⟩ = false ∧
    posting.ctrlMayWrite (byteAddr (slotAddr ⟨0x9000#64, 16⟩ 0) 0) = false ∧
    regField (setRegField runningRegs (.erdp 0) .erdpPointer 0x401#64) (.erdp 0) .erdpPointer <<< 4 =
      slotAddr ⟨0x4000#64, 16⟩ 1 ∧
    (controllerTurn { posting with regs := setRegField runningRegs (.erdp 0) .erdpPointer 0x401#64 }).trace =
      [.ctrlReport 0 .eventRingFullError] := by decide

/-- ControllerReset: the register that asks for each reaction, and one that does not. -/
theorem witness_ControllerReset_reactions : regField (withReg .usbcmd 1#64).regs .usbcmd .runStop = 1#64 ∧
    regField State.reset.regs .usbcmd .runStop = 0#64 ∧ regField (withReg .crcr 2#64).regs .crcr .cs = 1#64 ∧
    regField (withReg .crcr 4#64).regs .crcr .ca = 1#64 ∧ regField (withReg .usbcmd 1#64).regs .usbcmd .hcrst ≠ 1#64 ∧
    regField State.reset.regs .crcr .cs ≠ 1#64 ∧ regField State.reset.regs .crcr .ca ≠ 1#64 ∧
    regField (withReg .crcr 8#64).regs .crcr .crr ≠ 0#64 ∧ State.reset.trace = [] ∧
    (controllerTurn { withReg .crcr 0xa#64 with ctrl := [[.react .commandStop]] }).regs =
      (withReg .crcr 2#64).regs := by decide

/-- InvKept, SequentialConsistency, WhoAccessesWhat, EveryRequestCompletes: the reset state with a request, and `small`. -/
theorem witness_InvKept : AccessInv small ∧ TraceOver [] small ∧
    resultOf (Machine.step { small with port := [.request (.enqueue 1 noOpTrb)] }) = some (.address 0x2000#64) :=
  ⟨fun a ha => absurd ha (by simp [small, State.reset]), ⟨rfl, trivial⟩, by decide⟩

end Sys2Proof.Tests
end

/-! O58: the trace holds only accesses its agent may make. The ring that an access falls in is a region of memory
that no request takes away (`regionsKept`), and every word the block touches stands in a run of aligned slots of such
a region (`SlotsOf`): a segment, or an ERST read as a segment of 16-byte entries. -/

namespace Sys2Proof.Machine

/-! ## Runs of slots that a ring holds -/

/-- The slots of `sg` stand at aligned words within the address space, and `holds` puts all their bytes in one of
`rings`. -/
structure SlotsOf (holds : Ring → Nat → Bool) (rings : List Ring) (sg : Segment) : Prop where
  aligned : sg.base.toNat % 4 = 0
  top : sg.base.toNat + 16 * sg.size ≤ 2 ^ 64
  held : ∃ g ∈ rings, ∀ a, segmentHolds sg a = true → holds g a = true

/-- A segment that passed the construction check, with its bytes in a ring (R242). -/
theorem SlotsOf.ofCheck {holds : Ring → Nat → Bool} {rings : List Ring} {lo hi : Nat} {sg : Segment}
    (hc : checkSegment lo hi sg = none) (held : ∃ g ∈ rings, ∀ a, segmentHolds sg a = true → holds g a = true) :
    SlotsOf holds rings sg := by
  obtain ⟨-, h64, -⟩ := checkSegment_none hc
  exact ⟨by omega, checkSegment_top hc, held⟩

/-- The word at offset `w` of a slot is aligned and in the ring. -/
theorem SlotsOf.word {holds : Ring → Nat → Bool} {rings : List Ring} {sg : Segment} (h : SlotsOf holds rings sg)
    {j w : Nat} (hj : j < sg.size) (hw : w + 4 ≤ 16) (h4 : w % 4 = 0) :
    (slotAddr sg j + BitVec.ofNat 64 w).toNat % 4 = 0 ∧
      ∃ g ∈ rings, ∀ k < 4, holds g (byteAddr (slotAddr sg j + BitVec.ofNat 64 w) k) = true := by
  obtain ⟨ha, ht, g, hg, hh⟩ := h
  refine ⟨?_, g, hg, fun k hk => hh _ ?_⟩
  · rw [BitVec.toNat_add, slotAddr_toNat ht hj, BitVec.toNat_ofNat]
    omega
  · rw [byteAddr_slotWord ht hj (by omega), segmentHolds_iff]
    omega

/-- The block may write any word of a ring's slots (R343). -/
theorem memWrite_ok {rings : List Ring} {sg : Segment} (h : SlotsOf ringHolds rings sg) {j w : Nat} (hj : j < sg.size)
    (hw : w + 4 ≤ 16) (h4 : w % 4 = 0) (v : Word) :
    accessOk rings
      (.memWrite (slotAddr sg j + BitVec.ofNat 64 w) (Config.mapPhys (slotAddr sg j + BitVec.ofNat 64 w)) v) :=
  ⟨rfl, h.word hj hw h4⟩

/-- The block may read any word of an Event Ring's slots (R343). -/
theorem memRead_ok {rings : List Ring} {sg : Segment} (h : SlotsOf Ring.consumerHolds rings sg) {j w : Nat}
    (hj : j < sg.size) (hw : w + 4 ≤ 16) (h4 : w % 4 = 0) (v : Word) :
    accessOk rings
      (.memRead (slotAddr sg j + BitVec.ofNat 64 w) (Config.mapPhys (slotAddr sg j + BitVec.ofNat 64 w)) v) :=
  ⟨rfl, h.word hj hw h4⟩

theorem slotAddr_zeroOffset (sg : Segment) (j : Nat) : slotAddr sg j + BitVec.ofNat 64 0 = slotAddr sg j :=
  BitVec.add_zero _

/-! ## The accesses of the Ring Engine's operations -/

/-- `TRBWrite` on a slot of a ring (R57). -/
theorem trbWriteEvents_ok {rings : List Ring} {sg : Segment} (h : SlotsOf ringHolds rings sg) {j : Nat}
    (hj : j < sg.size) (t : Trb) : ∀ a ∈ trbWriteEvents (slotAddr sg j) t, accessOk rings a := by
  have dw0_ok := memWrite_ok h (w := 0) hj (by omega) rfl (dw0 t)
  rw [slotAddr_zeroOffset] at dw0_ok
  simp only [trbWriteEvents, List.forall_mem_cons]
  exact ⟨memWrite_ok h hj (by omega) rfl _, trivial, memWrite_ok h hj (by omega) rfl _,
    memWrite_ok h hj (by omega) rfl _, dw0_ok, List.forall_mem_nil _⟩

/-- The entry of an ERST, taken as slot `i` of the segment that the table is (R95). -/
theorem erstEntryEvents_ok {rings : List Ring} {table : Segment} (h : SlotsOf ringHolds rings table) {i : Nat}
    (hi : i < table.size) (g : Segment) : ∀ a ∈ erstEntryEvents (slotAddr table i) g, accessOk rings a := by
  have dw0_ok := memWrite_ok h (w := 0) hi (by omega) rfl (g.base.extractLsb' 0 32)
  rw [slotAddr_zeroOffset] at dw0_ok
  simp only [erstEntryEvents, List.forall_mem_cons]
  exact ⟨memWrite_ok h hi (by omega) rfl _, memWrite_ok h hi (by omega) rfl _, memWrite_ok h hi (by omega) rfl _,
    dw0_ok, List.forall_mem_nil _⟩

theorem zeroSlotsEvents_ok {rings : List Ring} {sg : Segment} (h : SlotsOf ringHolds rings sg) {n : Nat}
    (hn : n ≤ sg.size) : ∀ a ∈ zeroSlotsEvents sg n, accessOk rings a := by
  induction n with
  | zero => exact List.forall_mem_nil _
  | succ n ih =>
    rw [zeroSlotsEvents_succ, List.forall_mem_append]
    exact ⟨trbWriteEvents_ok h (by omega) _, ih (by omega)⟩

theorem writeProducerEvents_ok {rings : List Ring} (first : Segment) {segs : List Segment}
    (h : ∀ g ∈ segs, 1 ≤ g.size ∧ SlotsOf ringHolds rings g) :
    ∀ a ∈ writeProducerEvents first segs, accessOk rings a := by
  induction segs with
  | nil => exact List.forall_mem_nil _
  | cons g rest ih =>
    obtain ⟨⟨hsize, hg⟩, hrest⟩ := List.forall_mem_cons.mp h
    simp only [writeProducerEvents, List.forall_mem_append]
    exact ⟨ih hrest, trbWriteEvents_ok hg (by omega) _, zeroSlotsEvents_ok hg (by omega)⟩

/-- The construction of an Event Ring whose entries stand from entry `i` of the table on. -/
theorem writeEventEvents_ok {rings : List Ring} {table : Segment} (ht : SlotsOf ringHolds rings table)
    {segs : List Segment} (h : ∀ g ∈ segs, SlotsOf ringHolds rings g) {i : Nat}
    (hi : i + segs.length ≤ table.size) :
    ∀ a ∈ writeEventEvents (slotAddr table i) segs, accessOk rings a := by
  induction segs generalizing i with
  | nil => exact List.forall_mem_nil _
  | cons g rest ih =>
    obtain ⟨hg, hrest⟩ := List.forall_mem_cons.mp h
    have next : slotAddr table i + 16#64 = slotAddr table (i + 1) := by
      rw [slotAddr, slotAddr, BitVec.add_assoc, ← BitVec.ofNat_add, Nat.mul_add]
    rw [List.length_cons] at hi
    simp only [writeEventEvents, List.forall_mem_append, next]
    exact ⟨ih hrest (by omega), zeroSlotsEvents_ok hg (Nat.le_refl _), erstEntryEvents_ok ht (by omega) g⟩

/-- An enqueue at a cursor that leaves the Link slot free (R31, R245). -/
theorem enqueueEvents_ok {rings : List Ring} {sg : Segment} (h : SlotsOf ringHolds rings sg) {p : ProducerRing}
    (hp : p.idx + 2 ≤ sg.size) (t : Trb) : ∀ a ∈ enqueueEvents sg t p, accessOk rings a := by
  rw [enqueueEvents, List.forall_mem_append]
  refine ⟨?_, trbWriteEvents_ok h (by omega) _⟩
  split
  · simp only [traverseEvents, List.forall_mem_cons]
    exact ⟨memWrite_ok h (by omega) (by omega) rfl _, trivial, List.forall_mem_nil _⟩
  · exact List.forall_mem_nil _

theorem readRestEvents_ok {rings : List Ring} {sg : Segment} (h : SlotsOf Ring.consumerHolds rings sg) {j : Nat}
    (hj : j < sg.size) (d3 : Word) (s : State) : ∀ a ∈ readRestEvents (slotAddr sg j) d3 s, accessOk rings a := by
  have dw0_ok := memRead_ok h (w := 0) hj (by omega) rfl (dw0 (readRest (slotAddr sg j) d3 s).1)
  rw [slotAddr_zeroOffset] at dw0_ok
  simp only [readRestEvents, List.forall_mem_cons]
  exact ⟨memRead_ok h hj (by omega) rfl _, memRead_ok h hj (by omega) rfl _, dw0_ok, trivial, List.forall_mem_nil _⟩

/-- Register accesses are no memory's. -/
theorem wordReadEvents_ok (rings : List Ring) (ra : Addr) (width : RegWidth) (s : State) :
    ∀ a ∈ wordReadEvents ra width s, accessOk rings a := by
  unfold wordReadEvents
  split <;> simp [accessOk]

theorem wordWriteEvents_ok (rings : List Ring) (ra : Addr) (width : RegWidth) (w : RegValue) (s : State) :
    ∀ a ∈ wordWriteEvents ra width w s, accessOk rings a := by
  unfold wordWriteEvents
  split <;> simp [accessOk]

/-! ## The slots of a ring that passed its construction check -/

/-- A producer ring's segments are its slots, and they passed the construction check. -/
theorem SlotsOf.ofProducer {rings : List Ring} {p : ProducerRing} (hp : .producer p ∈ rings) {lo hi : Nat}
    {sg : Segment} (hsg : sg ∈ p.segs) (hc : checkSegment lo hi sg = none) : SlotsOf ringHolds rings sg :=
  .ofCheck hc ⟨_, hp, fun _ ha => List.any_eq_true.mpr ⟨sg, hsg, ha⟩⟩

theorem SlotsOf.ofConsumer {rings : List Ring} {c : ConsumerRing} (hcr : .consumer c ∈ rings) {lo hi : Nat}
    {sg : Segment} (hsg : sg ∈ c.segs) (hc : checkSegment lo hi sg = none) : SlotsOf Ring.consumerHolds rings sg :=
  .ofCheck hc ⟨_, hcr, fun _ ha => List.any_eq_true.mpr ⟨sg, hsg, ha⟩⟩

theorem ringHolds_of_consumerHolds {g : Ring} {a : Nat} (h : g.consumerHolds a = true) : ringHolds g a = true := by
  cases g with
  | producer p => exact absurd h (by simp [Ring.consumerHolds])
  | consumer c => exact Bool.or_eq_true_iff.mpr (.inl h)

/-- The block may write where it may read. -/
theorem SlotsOf.writable {rings : List Ring} {sg : Segment} (h : SlotsOf Ring.consumerHolds rings sg) :
    SlotsOf ringHolds rings sg := by
  obtain ⟨ha, ht, g, hg, hh⟩ := h
  exact ⟨ha, ht, g, hg, fun a x => ringHolds_of_consumerHolds (hh a x)⟩

/-- The ERST of an Event Ring, as a segment of one slot for each entry (R95). -/
def erstTable (erstBase : Addr) (segs : List Segment) : Segment := ⟨erstBase, segs.length⟩

theorem SlotsOf.ofErst {rings : List Ring} {c : ConsumerRing} (hcr : .consumer c ∈ rings) {erstMax : Nat}
    (hc : checkErst erstMax c.erstBase c.segs = none) : SlotsOf ringHolds rings (erstTable c.erstBase c.segs) := by
  obtain ⟨-, -, -, h64, ht, -⟩ := checkErst_none hc
  exact ⟨by simp only [erstTable]; omega, ht, _, hcr, fun _ ha => Bool.or_eq_true_iff.mpr (.inr ha)⟩

/-! ## The accesses of a construction -/

/-- A segment of a producer ring has a Link slot (R242). -/
theorem producerSegment_pos {sg : Segment} (h : checkSegment Config.prodSegMin Config.prodSegMax sg = none) :
    1 ≤ sg.size := by
  obtain ⟨-, -, hmin, -⟩ := checkSegment_none h
  exact le_trans (by decide) hmin

/-- The writes of INIT_PRODUCER fall in the segments of the ring it adds (R241). -/
theorem initProducerEvents_ok {rings : List Ring} {kind : RingKind} {segs : List Segment}
    (hnew : .producer (newProducer kind segs) ∈ rings) (first : Segment)
    (hsegs : ∀ g ∈ segs, checkSegment Config.prodSegMin Config.prodSegMax g = none) :
    ∀ a ∈ [Access.orderW] ++ writeProducerEvents first segs, accessOk rings a :=
  List.forall_mem_append.mpr ⟨List.forall_mem_singleton.mpr trivial,
    writeProducerEvents_ok first fun g hg => ⟨producerSegment_pos (hsegs g hg), .ofProducer hnew hg (hsegs g hg)⟩⟩

/-- The writes of INIT_EVENT fall in the segments and the ERST of the ring it adds (R271). -/
theorem initEventEvents_ok {rings : List Ring} {erstMax : Nat} {erstBase : Addr} {segs : List Segment}
    (hnew : .consumer (newConsumer erstBase segs) ∈ rings) (hcheck : checkErst erstMax erstBase segs = none) :
    ∀ a ∈ [Access.orderW] ++ writeEventEvents erstBase segs, accessOk rings a := by
  obtain ⟨-, -, -, -, -, hsegs⟩ := checkErst_none hcheck
  have htable : SlotsOf ringHolds rings (erstTable erstBase segs) := .ofErst hnew hcheck
  have hwrites := writeEventEvents_ok htable (fun g hg => (SlotsOf.ofConsumer hnew hg (hsegs g hg)).writable) (i := 0)
    (Nat.le_of_eq (Nat.zero_add _))
  have hfirst : slotAddr (erstTable erstBase segs) 0 = erstBase := BitVec.add_zero _
  rw [hfirst] at hwrites
  exact List.forall_mem_append.mpr ⟨List.forall_mem_singleton.mpr trivial, hwrites⟩

/-! ## The cursors of a legal state -/

/-- The slots of the cursor's segment of a producer ring, with the Link slot after the cursor (R31). -/
theorem MachineInv.producerSlots {s : State} (h : MachineInv s) {r : Nat} {p : ProducerRing} {sg : Segment}
    (hr : s.rings[r]? = some (.producer p)) (hsg : producerSegment p = some sg) :
    SlotsOf ringHolds s.rings sg ∧ p.idx + 2 ≤ sg.size := by
  have hmem := List.mem_of_getElem? hr
  have hwf : producerWf p = true := List.all_eq_true.mp h.rings _ hmem
  simp only [producerWf, hsg, Bool.and_eq_true, beq_iff_eq, decide_eq_true_eq] at hwf
  obtain ⟨⟨hcheck, hidx⟩, -⟩ := hwf
  have hin : sg ∈ p.segs := List.mem_of_getElem? hsg
  exact ⟨.ofProducer hmem hin ((checkSegments_none hcheck).2 sg hin), hidx⟩

/-- The slots of the cursor's segment of a consumer ring (R36). -/
theorem MachineInv.consumerSlots {s : State} (h : MachineInv s) {r : Nat} {c : ConsumerRing} {sg : Segment}
    (hr : s.rings[r]? = some (.consumer c)) (hsg : consumerSegment c = some sg) :
    SlotsOf Ring.consumerHolds s.rings sg ∧ c.idx < sg.size := by
  have hmem := List.mem_of_getElem? hr
  have hwf : consumerWf s.erstMax c = true := List.all_eq_true.mp h.rings _ hmem
  simp only [consumerWf, hsg, Bool.and_eq_true, beq_iff_eq, decide_eq_true_eq] at hwf
  obtain ⟨hcheck, hidx⟩ := hwf
  obtain ⟨-, -, -, -, -, hsegs⟩ := checkErst_none hcheck
  have hin : sg ∈ c.segs := List.mem_of_getElem? hsg
  exact ⟨.ofConsumer hmem hin (hsegs sg hin), hidx⟩

/-! ## The regions of rings -/

/-- Two rings hold the same bytes, of slots and in all. -/
def sameRegion (g g' : Ring) : Prop :=
  ∀ a, g'.consumerHolds a = g.consumerHolds a ∧ ringHolds g' a = ringHolds g a

/-- Every ring is still there, with the same bytes of memory. -/
def regionsKept (rings rings' : List Ring) : Prop := ∀ g ∈ rings, ∃ g' ∈ rings', sameRegion g g'

theorem regionsKept_refl (rings : List Ring) : regionsKept rings rings := fun g hg => ⟨g, hg, fun _ => ⟨rfl, rfl⟩⟩

theorem regionsKept_append (rings more : List Ring) : regionsKept rings (rings ++ more) :=
  fun g hg => ⟨g, List.mem_append_left _ hg, fun _ => ⟨rfl, rfl⟩⟩

theorem regionsKept_set {rings : List Ring} {r : Nat} {g g' : Ring} (hr : rings[r]? = some g) (hs : sameRegion g g') :
    regionsKept rings (rings.set r g') := by
  intro q hq
  obtain ⟨i, hi⟩ := List.mem_iff_getElem?.mp hq
  by_cases e : r = i
  · subst e
    obtain rfl : g = q := Option.some.inj (hr.symm.trans hi)
    exact ⟨g', List.mem_iff_getElem?.mpr ⟨r, by simp [List.getElem?_eq_some_iff.mp hr |>.1]⟩, hs⟩
  · exact ⟨q, List.mem_iff_getElem?.mpr ⟨i, by rw [List.getElem?_set_ne e, hi]⟩, fun _ => ⟨rfl, rfl⟩⟩

/-- An access stays one its agent may make while every ring keeps its bytes. -/
theorem accessOk_mono {rings rings' : List Ring} (h : regionsKept rings rings') {a : Access} (ha : accessOk rings a) :
    accessOk rings' a := by
  cases a with
  | memRead pa view v =>
    obtain ⟨hview, h4, g, hg, hh⟩ := ha
    obtain ⟨g', hg', hs⟩ := h g hg
    exact ⟨hview, h4, g', hg', fun k hk => (hs _).1.trans (hh k hk)⟩
  | memWrite pa view v =>
    obtain ⟨hview, h4, g, hg, hh⟩ := ha
    obtain ⟨g', hg', hs⟩ := h g hg
    exact ⟨hview, h4, g', hg', fun k hk => (hs _).2.trans (hh k hk)⟩
  | ctrlWrite pa v =>
    obtain ⟨h4, hh⟩ := ha
    refine ⟨h4, fun k hk => ?_⟩
    obtain ⟨g, hg, hb⟩ := hh k hk
    obtain ⟨g', hg', hs⟩ := h g hg
    exact ⟨g', hg', (hs _).1.trans hb⟩
  | regRead | regWrite | orderW | orderR | ctrlRead | ctrlStatus | ctrlReact | ctrlReport => trivial

/-- An advance moves the cursor and nothing else (R278). -/
theorem advance_sameRegion (sg : Segment) (c : ConsumerRing) (phase : Phase) :
    sameRegion (.consumer c) (.consumer { advance sg c with phase := phase }) := by
  have hkeeps : (advance sg c).segs = c.segs ∧ (advance sg c).erstBase = c.erstBase := by
    unfold advance
    split
    · split <;> exact ⟨rfl, rfl⟩
    · exact ⟨rfl, rfl⟩
  obtain ⟨hsegs, herst⟩ := hkeeps
  intro a
  simp only [Ring.consumerHolds, ringHolds, inErst, hsegs, herst, and_self]

/-- An enqueue moves the cursor and nothing else (R245, R247). -/
theorem enqueueAt_sameRegion (sg : Segment) (t : Trb) (p : ProducerRing) (s : State) :
    sameRegion (.producer p) (.producer (enqueueAt sg t p s).1) := by
  have hsegs : (enqueueAt sg t p s).1.segs = p.segs := by
    rw [enqueueAt_eq]
    split <;> rfl
  intro a
  simp only [Ring.consumerHolds, ringHolds, hsegs, and_self]

/-! ## Instructions -/

/-- What an instruction run from `s` answers leaves only accesses in the trace that their agents may make. -/
def KeepsAccess (s : State) (o : StepResult) : Prop := ∀ t, o = .next t → AccessInv s → AccessInv t

/-- The next state is that of accesses the block may make, with every ring's bytes kept; what the controller did
meanwhile is in the `Effect`. -/
theorem KeepsAccess.next {s s' t : State} {W : Nat → Prop} {evs : List Access} {rings' : List Ring}
    (e : Effect s s' W evs) (htrace : t.trace = s'.trace) (hrings : t.rings = rings')
    (hkept : regionsKept s.rings rings') (hevs : ∀ a ∈ evs, accessOk rings' a) : KeepsAccess s (.next t) := by
  subst hrings
  rintro _ ⟨⟩ hinv a ha
  rw [htrace] at ha
  rcases e.trace a ha with hold | hblock | ⟨-, hctrl⟩
  · exact accessOk_mono hkept (hinv a hold)
  · exact hevs a hblock
  · exact accessOk_mono hkept hctrl

/-- An answer that leaves the rings as they are. -/
theorem KeepsAccess.answer {s s' : State} {W : Nat → Prop} {evs : List Access} (e : Effect s s' W evs)
    (hevs : ∀ a ∈ evs, accessOk s.rings a) (result : Result) : KeepsAccess s (answer result s') :=
  .next e rfl e.rings (regionsKept_refl _) hevs

/-- An answer that adds a ring: the block's accesses may already be in it. -/
theorem KeepsAccess.answerAddRing {s s' : State} {W : Nat → Prop} {evs : List Access} (e : Effect s s' W evs)
    {g : Ring} (hevs : ∀ a ∈ evs, accessOk (s.rings ++ [g]) a) (result : Result) :
    KeepsAccess s (Machine.answer result (s'.addRing g)) :=
  .next e rfl (congrArg (· ++ [g]) e.rings) (regionsKept_append _ _) hevs

/-- An answer that moves the cursor of a ring. -/
theorem KeepsAccess.answerSetRing {s s' : State} {W : Nat → Prop} {evs : List Access} (e : Effect s s' W evs)
    {r : Nat} {g g' : Ring} (hr : s.rings[r]? = some g) (hsame : sameRegion g g')
    (hevs : ∀ a ∈ evs, accessOk s.rings a) (result : Result) :
    KeepsAccess s (Machine.answer result (s'.setRing r g')) :=
  have hkept := regionsKept_set hr hsame
  .next e rfl (congrArg (·.set r g') e.rings) hkept fun a ha => accessOk_mono hkept (hevs a ha)

theorem KeepsAccess.answerOnly (s : State) (r : Result) : KeepsAccess s (Machine.answer r s) :=
  .answer (Effect.refl s) (List.forall_mem_nil _) r

theorem KeepsAccess.raiseFault (s : State) (code : FaultCode) : KeepsAccess s (raiseFault code s) :=
  .next (Effect.refl s) rfl rfl (regionsKept_refl _) (List.forall_mem_nil _)

theorem KeepsAccess.fault (s : State) (f : Fault) : KeepsAccess s (.fault f) := fun _ h => nomatch h

theorem KeepsAccess.request {s : State} {run : State → StepResult} (h : KeepsAccess s (run s)) :
    KeepsAccess s (request s run) := by
  unfold Machine.request
  split
  · exact .answerOnly s _
  · exact h

/-- A request that only answers: every TRB's, and those on values (R152 to R155). -/
theorem KeepsAccess.requestAnswer (s : State) (r : Result) : KeepsAccess s (Machine.request s (Machine.answer r)) :=
  .request (.answerOnly s r)

theorem producer?_eq_some {s : State} {r : Nat} {p : ProducerRing} :
    producer? s r = some p ↔ s.rings[r]? = some (.producer p) := by
  unfold producer? State.ring?
  split <;> simp_all

theorem consumer?_eq_some {s : State} {r : Nat} {c : ConsumerRing} :
    consumer? s r = some c ↔ s.rings[r]? = some (.consumer c) := by
  unfold consumer? State.ring?
  split <;> simp_all

theorem KeepsAccess.onProducer {s : State} {r : Nat} {run : ProducerRing → Segment → StepResult}
    (h : ∀ p sg, s.rings[r]? = some (.producer p) → producerSegment p = some sg → KeepsAccess s (run p sg)) :
    KeepsAccess s (onProducer s r run) := by
  unfold Machine.onProducer
  split
  · exact .raiseFault s _
  · rename_i p hp
    split
    · exact .fault s _
    · rename_i sg hsg
      exact h p sg (producer?_eq_some.mp hp) hsg

theorem KeepsAccess.onConsumer {s : State} {r : Nat} {run : ConsumerRing → StepResult}
    (h : ∀ c, s.rings[r]? = some (.consumer c) → KeepsAccess s (run c)) : KeepsAccess s (onConsumer s r run) := by
  unfold Machine.onConsumer
  split
  · exact .raiseFault s _
  · rename_i c hc
    exact h c (consumer?_eq_some.mp hc)

theorem KeepsAccess.onConsumerSegment {s : State} {r : Nat} {run : ConsumerRing → Segment → StepResult}
    (h : ∀ c sg, s.rings[r]? = some (.consumer c) → consumerSegment c = some sg → KeepsAccess s (run c sg)) :
    KeepsAccess s (onConsumerSegment s r run) := by
  refine .onConsumer fun c hc => ?_
  split
  · exact .fault s _
  · rename_i sg hsg
    exact h c sg hc hsg

/-! ## The Field Codec and the TRB Codec -/

theorem execRead_keepsAccess (ra : Addr) (L : Layout) (s : State) : KeepsAccess s (execRead ra L s) :=
  .request (.answer (wordRead_effect ra L.width s) (wordReadEvents_ok _ _ _ _) _)

theorem execGet_keepsAccess (L : Layout) (snap : RegValue) (f : RegField) (s : State) :
    KeepsAccess s (execGet L snap f s) := by
  refine .request ?_
  split
  · exact .raiseFault s _
  · exact .answerOnly s _

theorem execUpdate_keepsAccess (ra : Addr) (L : Layout) (M : List Action) (s : State) :
    KeepsAccess s (execUpdate ra L M s) := by
  refine .request ?_
  split
  · exact .raiseFault s _
  · exact .answer ((wordRead_effect ra L.width s).trans (wordWrite_effect ra L.width _ _))
      (List.forall_mem_append.mpr ⟨wordWriteEvents_ok _ _ _ _ _, wordReadEvents_ok _ _ _ _⟩) _

theorem writeOnly_keepsAccess (ra : Addr) (L : Layout) (M : List Action) (s : State) :
    KeepsAccess s (writeOnly ra L M s) := by
  unfold writeOnly
  split
  · exact .raiseFault s _
  · exact .answer (wordWrite_effect ra L.width _ s) (wordWriteEvents_ok _ _ _ _ _) _

theorem execRingDoorbell_keepsAccess (db : Addr) (slot target stream : Nat) (s : State) :
    KeepsAccess s (execRingDoorbell db slot target stream s) := by
  refine .request ?_
  split
  · exact .raiseFault s _
  · exact writeOnly_keepsAccess _ _ _ s

theorem execTrbGet_keepsAccess (v : Trb) (f : TrbField) (s : State) : KeepsAccess s (execTrbGet v f s) := by
  refine .request ?_
  split
  · exact .raiseFault s _
  · exact .answerOnly s _

theorem execTrbSet_keepsAccess (v : Trb) (f : TrbField) (x : SetValue) (s : State) :
    KeepsAccess s (execTrbSet v f x s) := by
  refine .request ?_
  split
  · exact .raiseFault s _
  · exact .answerOnly s _

/-! ## Producer rings -/

theorem execInitProducer_keepsAccess (kind : RingKind) (segs : List Segment) (s : State) :
    KeepsAccess s (execInitProducer kind segs s) := by
  refine .request ?_
  split
  · exact .raiseFault s _
  · rename_i hcheck
    obtain ⟨hne, hsegs⟩ := checkSegments_none hcheck
    obtain ⟨first, rest, rfl⟩ := List.exists_cons_of_ne_nil hne
    have hbounds (g : Segment) (hg : g ∈ first :: rest) : 1 ≤ g.size ∧ g.base.toNat + 16 * g.size ≤ 2 ^ 64 :=
      ⟨producerSegment_pos (hsegs g hg), checkSegment_top (hsegs g hg)⟩
    exact .answerAddRing ((writeProducer_effect first (first :: rest) hbounds s).trans (orderW_effect _))
      (initProducerEvents_ok (List.mem_append_right _ (List.mem_singleton_self _)) first hsegs) _

/-- The writes of an enqueue fall in the cursor's segment, which the ring keeps (R245). -/
theorem execEnqueue_keepsAccess (r : Nat) (v : Trb) {s : State} (h : MachineInv s) :
    KeepsAccess s (execEnqueue r v s) := by
  refine .request (.onProducer fun p sg hr hsg => ?_)
  split
  · obtain ⟨hslots, hidx⟩ := h.producerSlots hr hsg
    exact .answerSetRing (enqueueAt_effect sg v p s) hr (enqueueAt_sameRegion sg v p s)
      (enqueueEvents_ok hslots hidx v) _
  · exact .raiseFault s _

theorem execEnqueuePointer_keepsAccess (r : Nat) (s : State) : KeepsAccess s (execEnqueuePointer r s) :=
  .request (.onProducer fun _ _ _ _ => .answerOnly s _)

theorem execCrcrValue_keepsAccess (r : Nat) (s : State) : KeepsAccess s (execCrcrValue r s) := by
  refine .request (.onProducer fun p sg _ _ => ?_)
  split
  · exact .raiseFault s _
  · split
    · exact .raiseFault s _
    · exact .answerOnly s _

/-! ## Consumer rings -/

theorem execInitEvent_keepsAccess (erstBase : Addr) (segs : List Segment) (s : State) :
    KeepsAccess s (execInitEvent erstBase segs s) := by
  refine .request ?_
  split
  · exact .raiseFault s _
  · rename_i hcheck
    obtain ⟨-, -, -, -, -, hsegs⟩ := checkErst_none hcheck
    have e := writeEvent_effect erstBase segs (fun g hg => checkSegment_top (hsegs g hg)) s
    exact .answerAddRing (e.trans (orderW_effect _))
      (initEventEvents_ok (List.mem_append_right _ (List.mem_singleton_self _)) hcheck) _

/-- The reads of a dequeue fall in the cursor's slot, and the ring keeps its segments (R276). -/
theorem execDequeue_keepsAccess (r : Nat) {s : State} (h : MachineInv s) : KeepsAccess s (execDequeue r s) := by
  refine .request (.onConsumerSegment fun c sg hr hsg => ?_)
  obtain ⟨hslots, hidx⟩ := h.consumerSlots hr hsg
  have e3 := memRead_effect (slotAddr sg c.idx + 12#64) s
  have hd3 : ∀ a ∈ [Access.memRead (slotAddr sg c.idx + 12#64) (Config.mapPhys (slotAddr sg c.idx + 12#64))
      (memRead (slotAddr sg c.idx + 12#64) s).1], accessOk s.rings a :=
    List.forall_mem_singleton.mpr (memRead_ok hslots hidx (by omega) rfl _)
  dsimp only
  split
  · exact .answerSetRing (e3.trans (readRest_effect (slotAddr sg c.idx) _ _)) hr (advance_sameRegion sg c .running)
      (List.forall_mem_append.mpr ⟨readRestEvents_ok hslots hidx _ _, hd3⟩) _
  · exact .answer e3 hd3 _

theorem execDequeuePointer_keepsAccess (r : Nat) (s : State) : KeepsAccess s (execDequeuePointer r s) :=
  .request (.onConsumerSegment fun _ _ _ _ => .answerOnly s _)

theorem execErdpValue_keepsAccess (r : Nat) (clearBusy : Bool) (s : State) :
    KeepsAccess s (execErdpValue r clearBusy s) :=
  .request (.onConsumerSegment fun _ _ _ _ => .answerOnly s _)

theorem execErstszValue_keepsAccess (r : Nat) (s : State) : KeepsAccess s (execErstszValue r s) :=
  .request (.onConsumer fun _ _ => .answerOnly s _)

theorem execErstbaValue_keepsAccess (r : Nat) (s : State) : KeepsAccess s (execErstbaValue r s) :=
  .request (.onConsumer fun _ _ => .answerOnly s _)

/-! ## Every instruction, every step -/

/-- Only ENQUEUE and DEQUEUE use that the state is legal: they access slots of a ring that is there. -/
theorem exec_keepsAccess (i : Instr) {s : State} (h : MachineInv s) : KeepsAccess s (exec i s) := by
  cases i with
  | normal | setupStage | dataStage | statusStage | isoch | link | eventData | noOp => exact .requestAnswer s _
  | enableSlot | disableSlot | addressDevice | configureEndpoint | evaluateContext | resetEndpoint | stopEndpoint
  | setTrDequeuePointer | resetDevice | forceEvent | negotiateBandwidth | setLatencyToleranceValue | getPortBandwidth
  | forceHeader | noOpCommand | getExtendedProperty | setExtendedProperty => exact .requestAnswer s _
  | transferEvent | commandCompletionEvent | portStatusChangeEvent | bandwidthRequestEvent | doorbellEvent
  | hostControllerEvent | deviceNotificationEvent | mfindexWrapEvent => exact .requestAnswer s _
  | unrecognized0 | unrecognized26 | unrecognized28 | unrecognized40 | unrecognized48 => exact .requestAnswer s _
  | trbNew | trbEncode | trbDecode => exact .requestAnswer s _
  | trbGet v f => exact execTrbGet_keepsAccess v f s
  | trbSet v f x => exact execTrbSet_keepsAccess v f x s
  | read ra L => exact execRead_keepsAccess ra L s
  | get L snap f => exact execGet_keepsAccess L snap f s
  | update ra L M => exact execUpdate_keepsAccess ra L M s
  | write ra L M => exact .request (writeOnly_keepsAccess ra L M s)
  | ringDoorbell db slot target stream => exact execRingDoorbell_keepsAccess db slot target stream s
  | initProducer kind segs => exact execInitProducer_keepsAccess kind segs s
  | enqueue r v => exact execEnqueue_keepsAccess r v h
  | enqueuePointer r => exact execEnqueuePointer_keepsAccess r s
  | crcrValue r => exact execCrcrValue_keepsAccess r s
  | initEvent erstBase segs => exact execInitEvent_keepsAccess erstBase segs s
  | dequeue r => exact execDequeue_keepsAccess r h
  | dequeuePointer r => exact execDequeuePointer_keepsAccess r s
  | erdpValue r clearBusy => exact execErdpValue_keepsAccess r clearBusy s
  | erstszValue r => exact execErstszValue_keepsAccess r s
  | erstbaValue r => exact execErstbaValue_keepsAccess r s

/-- The request port is no part of what makes a state legal. -/
theorem MachineInv.withPort {s : State} (h : MachineInv s) (port : List PortItem) : MachineInv { s with port := port } :=
  ⟨h.memory, h.rings, h.registers, h.firstFault⟩

/-- Settles O58: a step is the controller's turn or one instruction, and both make only accesses they may make. -/
theorem whoAccessesWhat : Obligations.WhoAccessesWhat := by
  intro s t hm hinv hstep
  unfold Machine.step at hstep
  split at hstep
  · have e := controllerTurn_effect s
    exact KeepsAccess.next e rfl e.rings (regionsKept_refl _) (List.forall_mem_nil _) t hstep hinv
  · rename_i rest _
    split at hstep
    · cases hstep
    · rename_i i _
      exact exec_keepsAccess i (hm.withPort rest) t hstep hinv

end Sys2Proof.Machine

/-! The statements of 10_state.md. What an instruction can do from a live state is said once (`LiveResult`, by
`exec_live`), and what it does after a fault is `exec_dead`; every statement about all instructions is a case split on
these. The bytes of different rings are told apart by `ringHolds_disjoint`. -/

namespace Sys2Proof.Machine

/-! ## The codes of faults (R331) -/

theorem checkAction_ne_dead (L : Layout) (a : Action) : checkAction L a ≠ some .dead := by
  unfold checkAction
  split
  · simp
  · split
    · simp
    · split
      · simp
      · split <;> simp

theorem checkMutations_ne_dead {L : Layout} {M : List Action} {code : FaultCode}
    (h : checkMutations L M = some code) : code ≠ .dead := by
  rintro rfl
  obtain ⟨a, -, ha⟩ := List.exists_of_findSome?_eq_some h
  exact checkAction_ne_dead L a ha

theorem checkSegment_ne_dead (lo hi : Nat) (g : Segment) : checkSegment lo hi g ≠ some .dead := by
  unfold checkSegment
  dsimp only
  split
  · simp
  · split
    · simp
    · split
      · simp
      · split <;> simp

/-- The tests of each segment, the last of both construction checks, never give `F_DEAD`. -/
theorem findSome_checkSegment_ne_dead (lo hi : Nat) (segs : List Segment) :
    segs.findSome? (checkSegment lo hi) ≠ some .dead := by
  intro h
  obtain ⟨g, -, hg⟩ := List.exists_of_findSome?_eq_some h
  exact checkSegment_ne_dead lo hi g hg

theorem checkSegments_ne_dead {segs : List Segment} {lo hi : Nat} {code : FaultCode}
    (h : checkSegments segs lo hi = some code) : code ≠ .dead := by
  rintro rfl
  unfold checkSegments at h
  split at h
  · cases h
  · exact findSome_checkSegment_ne_dead lo hi segs h

theorem checkErst_ne_dead {erstMax : Nat} {erstBase : Addr} {segs : List Segment} {code : FaultCode}
    (h : checkErst erstMax erstBase segs = some code) : code ≠ .dead := by
  rintro rfl
  unfold checkErst at h
  split at h
  · cases h
  · split at h
    · cases h
    · split at h
      · cases h
      · split at h
        · cases h
        · split at h
          · cases h
          · exact findSome_checkSegment_ne_dead _ _ segs h

theorem setRow_ne_dead (t : Trb) (r : TrbRow) (x : Nat) : setRow t r x ≠ .error .dead := by
  unfold setRow
  split
  · simp
  · split <;> simp
  · split <;> simp
  · split
    · simp
    · split <;> simp
  · split <;> simp

theorem trbFieldSet_ne_dead {t : Trb} {f : TrbField} {x : SetValue} {code : FaultCode}
    (h : trbFieldSet t f x = .error code) : code ≠ .dead := by
  rintro rfl
  unfold trbFieldSet at h
  split at h
  · cases h
  · exact setRow_ne_dead _ _ _ h

/-! ## New rings are within their bounds (R241, R271) -/

theorem newProducer_wf {kind : RingKind} {segs : List Segment}
    (h : checkSegments segs Config.prodSegMin Config.prodSegMax = none) :
    producerWf (newProducer kind segs) = true := by
  obtain ⟨hne, hsegs⟩ := checkSegments_none h
  obtain ⟨first, rest, rfl⟩ := List.exists_cons_of_ne_nil hne
  obtain ⟨-, -, hmin, -⟩ := checkSegment_none (hsegs first (by simp))
  simp only [Config.prodSegMin] at hmin
  simp [producerWf, producerSegment, newProducer, h, hmin]

theorem newConsumer_wf {erstMax : Nat} {erstBase : Addr} {segs : List Segment}
    (h : checkErst erstMax erstBase segs = none) : consumerWf erstMax (newConsumer erstBase segs) = true := by
  obtain ⟨hne, -, -, -, -, hsegs⟩ := checkErst_none h
  obtain ⟨first, rest, rfl⟩ := List.exists_cons_of_ne_nil hne
  obtain ⟨-, -, hmin, -⟩ := checkSegment_none (hsegs first (by simp))
  simp only [Config.evtSegMin] at hmin
  have hpos : 0 < first.size := by omega
  simp [consumerWf, consumerSegment, newConsumer, h, hpos]

theorem inErst_iff {c : ConsumerRing} {a : Nat} :
    inErst c a = true ↔ c.erstBase.toNat ≤ a ∧ a < c.erstBase.toNat + 16 * c.segs.length := by simp [inErst]

/-- The bytes of an ERST whose end is within the address space (R95, R272). -/
theorem erstByte_range {e : Addr} {n a : Nat} (ht : e.toNat + 16 * n ≤ 2 ^ 64) (h : erstByte e n a) :
    e.toNat ≤ a ∧ a < e.toNat + 16 * n := by
  obtain ⟨i, hi, hs⟩ := h
  have := (slotByte_iff (g := ⟨e, n⟩) ht hi).mp hs
  simp only at this
  omega

/-! ## What an instruction can answer -/

/-- What the instruction `i` can answer in a state `s` without a fault: a fault of the block, a stop at a cursor that
names no segment, an answer after accesses that write no memory, a new ring with writes in its own bytes only, an
enqueue, or a dequeue that advanced. -/
inductive LiveResult (i : Instr) (s : State) : StepResult → Prop where
  | faults {code : FaultCode} (hcode : code ≠ .dead) :
      LiveResult i s (.next { s with fault := some code, result := some (.fault code) })
  | producerStuck {r : Nat} {p : ProducerRing} (hr : s.rings[r]? = some (.producer p))
      (hg : producerSegment p = none) : LiveResult i s (.fault .cursorOutOfRange)
  | consumerStuck {r : Nat} {c : ConsumerRing} (hr : s.rings[r]? = some (.consumer c))
      (hg : consumerSegment c = none) : LiveResult i s (.fault .cursorOutOfRange)
  | answers {s' : State} {evs : List Access} (e : Effect s s' (fun _ => False) evs) (result : Result) :
      LiveResult i s (.next { s' with result := some result })
  | addsRing {s' : State} {W : Nat → Prop} {evs : List Access} {g : Ring} (e : Effect s s' W evs)
      (hW : ∀ a, W a → ringHolds g a = true) (hwf : ringWf s.erstMax g = true) (result : Result) :
      LiveResult i s (.next { s'.addRing g with result := some result })
  | enqueues {r : Nat} {v : Trb} {p : ProducerRing} {g : Segment} (hi : i = .enqueue r v)
      (hr : s.rings[r]? = some (.producer p)) (hg : producerSegment p = some g)
      (ha : accepts p.kind (groupOf (kindOf v)) = true) (result : Result) :
      LiveResult i s (.next
        { (enqueueAt g v p s).2.setRing r (.producer (enqueueAt g v p s).1) with result := some result })
  | dequeues {r : Nat} {c : ConsumerRing} {g : Segment} {s' : State} {evs : List Access} (hi : i = .dequeue r)
      (hr : s.rings[r]? = some (.consumer c)) (hg : consumerSegment c = some g)
      (e : Effect s s' (fun _ => False) evs) (result : Result) :
      LiveResult i s (.next
        { s'.setRing r (.consumer { advance g c with phase := .running }) with result := some result })

namespace LiveResult

variable {i : Instr} {s : State}

/-- An answer without any access. -/
theorem answersOnly (result : Result) : LiveResult i s (answer result s) := .answers (Effect.refl s) result

theorem request {run : State → StepResult} (hlive : s.fault = none) (h : LiveResult i s (run s)) :
    LiveResult i s (Machine.request s run) := by
  rw [request_live hlive]
  exact h

/-- A request that only answers: every TRB's, and those on values (R152 to R155). -/
theorem requestAnswer (hlive : s.fault = none) (result : Result) :
    LiveResult i s (Machine.request s (answer result)) := request hlive (answersOnly result)

theorem onProducer {r : Nat} {run : ProducerRing → Segment → StepResult}
    (h : ∀ p g, s.rings[r]? = some (.producer p) → producerSegment p = some g → LiveResult i s (run p g)) :
    LiveResult i s (Machine.onProducer s r run) := by
  unfold Machine.onProducer
  split
  · exact .faults (by decide)
  · rename_i p hp
    have hr := producer?_eq_some.mp hp
    split
    · exact .producerStuck hr ‹_›
    · exact h p _ hr ‹_›

theorem onConsumer {r : Nat} {run : ConsumerRing → StepResult}
    (h : ∀ c, s.rings[r]? = some (.consumer c) → LiveResult i s (run c)) :
    LiveResult i s (Machine.onConsumer s r run) := by
  unfold Machine.onConsumer
  split
  · exact .faults (by decide)
  · exact h _ (consumer?_eq_some.mp ‹_›)

theorem onConsumerSegment {r : Nat} {run : ConsumerRing → Segment → StepResult}
    (h : ∀ c g, s.rings[r]? = some (.consumer c) → consumerSegment c = some g → LiveResult i s (run c g)) :
    LiveResult i s (Machine.onConsumerSegment s r run) := by
  refine onConsumer fun c hr => ?_
  split
  · exact .consumerStuck hr ‹_›
  · exact h c _ hr ‹_›

/-- A write of a write-only word (R127, R315). -/
theorem writeOnly (ra : Addr) (L : Layout) (M : List Action) : LiveResult i s (Machine.writeOnly ra L M s) := by
  unfold Machine.writeOnly
  split
  · exact .faults (checkMutations_ne_dead ‹_›)
  · exact .answers (wordWrite_effect ra L.width _ s) _

end LiveResult

section

variable {i : Instr} {s : State}

theorem execRead_live (hlive : s.fault = none) (ra : Addr) (L : Layout) : LiveResult i s (execRead ra L s) :=
  .request hlive (.answers (wordRead_effect ra L.width s) _)

theorem execGet_live (hlive : s.fault = none) (L : Layout) (snap : RegValue) (f : RegField) :
    LiveResult i s (execGet L snap f s) := by
  refine .request hlive ?_
  split
  · exact .faults (by decide)
  · exact .answersOnly _

theorem execUpdate_live (hlive : s.fault = none) (ra : Addr) (L : Layout) (M : List Action) :
    LiveResult i s (execUpdate ra L M s) := by
  refine .request hlive ?_
  split
  · exact .faults (checkMutations_ne_dead ‹_›)
  · exact .answers (((wordRead_effect ra L.width s).trans (wordWrite_effect ra L.width _ _)).weaken
      fun _ x => x.elim id id) _

theorem execRingDoorbell_live (hlive : s.fault = none) (db : Addr) (slot target stream : Nat) :
    LiveResult i s (execRingDoorbell db slot target stream s) := by
  refine .request hlive ?_
  split
  · exact .faults (by decide)
  · exact .writeOnly _ _ _

theorem execTrbGet_live (hlive : s.fault = none) (v : Trb) (f : TrbField) : LiveResult i s (execTrbGet v f s) := by
  refine .request hlive ?_
  split
  · exact .faults (by decide)
  · exact .answersOnly _

theorem execTrbSet_live (hlive : s.fault = none) (v : Trb) (f : TrbField) (x : SetValue) :
    LiveResult i s (execTrbSet v f x s) := by
  refine .request hlive ?_
  split
  · exact .faults (trbFieldSet_ne_dead ‹_›)
  · exact .answersOnly _

/-- The construction of a producer ring writes in its segments only (R241). -/
theorem producerWrites_effect {segs : List Segment}
    (h : checkSegments segs Config.prodSegMin Config.prodSegMax = none) (s : State) :
    ∃ evs, Effect s (producerWrites segs s) (fun a => inSegments segs a = true) evs := by
  obtain ⟨hne, hsegs⟩ := checkSegments_none h
  obtain ⟨first, rest, rfl⟩ := List.exists_cons_of_ne_nil hne
  have hbounds (g : Segment) (hg : g ∈ first :: rest) : 1 ≤ g.size ∧ g.base.toNat + 16 * g.size ≤ 2 ^ 64 :=
    ⟨producerSegment_pos (hsegs g hg), checkSegment_top (hsegs g hg)⟩
  have e := (writeProducer_effect first (first :: rest) hbounds s).trans (orderW_effect _)
  exact ⟨_, e.weaken fun _ x => x.elim id False.elim⟩

theorem execInitProducer_live (hlive : s.fault = none) (kind : RingKind) (segs : List Segment) :
    LiveResult i s (execInitProducer kind segs s) := by
  refine .request hlive ?_
  split
  · exact .faults (checkSegments_ne_dead ‹_›)
  · rename_i hcheck
    obtain ⟨evs, e⟩ := producerWrites_effect hcheck s
    exact .addsRing (g := .producer (newProducer kind segs)) e (fun _ h => h) (newProducer_wf hcheck) _

theorem execInitEvent_live (hlive : s.fault = none) (erstBase : Addr) (segs : List Segment) :
    LiveResult i s (execInitEvent erstBase segs s) := by
  refine .request hlive ?_
  split
  · exact .faults (checkErst_ne_dead ‹_›)
  · rename_i hcheck
    obtain ⟨-, -, -, -, htop, hsegs⟩ := checkErst_none hcheck
    have e := writeEvent_effect erstBase segs (fun g hg => checkSegment_top (hsegs g hg)) s
    refine .addsRing (g := .consumer (newConsumer erstBase segs)) (e.trans (orderW_effect _)) (fun a ha => ?_)
      (newConsumer_wf hcheck) _
    exact Bool.or_eq_true_iff.mpr ((ha.resolve_right id).imp_right fun hb => inErst_iff.mpr (erstByte_range htop hb))

theorem execEnqueue_live (hlive : s.fault = none) (r : Nat) (v : Trb) :
    LiveResult (.enqueue r v) s (execEnqueue r v s) := by
  refine .request hlive (.onProducer fun p g hr hg => ?_)
  split
  · exact .enqueues rfl hr hg ‹_› _
  · exact .faults (by decide)

theorem execCrcrValue_live (hlive : s.fault = none) (r : Nat) : LiveResult i s (execCrcrValue r s) := by
  refine .request hlive (.onProducer fun p g _ _ => ?_)
  split
  · exact .faults (by decide)
  · split
    · exact .faults (by decide)
    · exact .answersOnly _

theorem execDequeue_live (hlive : s.fault = none) (r : Nat) : LiveResult (.dequeue r) s (execDequeue r s) := by
  refine .request hlive (.onConsumerSegment fun c g hr hg => ?_)
  have d3 := memRead_effect (slotAddr g c.idx + 12#64) s
  dsimp only
  split
  · exact .dequeues rfl hr hg
      ((d3.trans (readRest_effect (slotAddr g c.idx) _ _)).weaken fun _ x => x.elim id id) _
  · exact .answers d3 _

end

/-- What every instruction can answer in a state without a fault. -/
theorem exec_live (i : Instr) {s : State} (hlive : s.fault = none) : LiveResult i s (exec i s) := by
  unfold exec
  cases i with
  | normal | setupStage | dataStage | statusStage | isoch | link | eventData | noOp => exact .requestAnswer hlive _
  | enableSlot | disableSlot | addressDevice | configureEndpoint | evaluateContext | resetEndpoint | stopEndpoint
  | setTrDequeuePointer | resetDevice | forceEvent | negotiateBandwidth | setLatencyToleranceValue | getPortBandwidth
  | forceHeader | noOpCommand | getExtendedProperty | setExtendedProperty => exact .requestAnswer hlive _
  | transferEvent | commandCompletionEvent | portStatusChangeEvent | bandwidthRequestEvent | doorbellEvent
  | hostControllerEvent | deviceNotificationEvent | mfindexWrapEvent => exact .requestAnswer hlive _
  | unrecognized0 | unrecognized26 | unrecognized28 | unrecognized40 | unrecognized48 =>
    exact .requestAnswer hlive _
  | trbNew | trbEncode | trbDecode => exact .requestAnswer hlive _
  | trbGet v f => exact execTrbGet_live hlive v f
  | trbSet v f x => exact execTrbSet_live hlive v f x
  | read ra L => exact execRead_live hlive ra L
  | get L snap f => exact execGet_live hlive L snap f
  | update ra L M => exact execUpdate_live hlive ra L M
  | write ra L M => exact .request hlive (.writeOnly ra L M)
  | ringDoorbell db slot target stream => exact execRingDoorbell_live hlive db slot target stream
  | initProducer kind segs => exact execInitProducer_live hlive kind segs
  | initEvent erstBase segs => exact execInitEvent_live hlive erstBase segs
  | enqueue r v => exact execEnqueue_live hlive r v
  | enqueuePointer r => exact .request hlive (.onProducer fun _ _ _ _ => .answersOnly _)
  | crcrValue r => exact execCrcrValue_live hlive r
  | dequeue r => exact execDequeue_live hlive r
  | dequeuePointer r => exact .request hlive (.onConsumerSegment fun _ _ _ _ => .answersOnly _)
  | erdpValue r clearBusy => exact .request hlive (.onConsumerSegment fun _ _ _ _ => .answersOnly _)
  | erstszValue r => exact .request hlive (.onConsumer fun _ _ => .answersOnly _)
  | erstbaValue r => exact .request hlive (.onConsumer fun _ _ => .answersOnly _)

/-- Every instruction is a `request`, so after a fault it answers `F_DEAD` and does nothing else (R30, R332). -/
theorem exec_dead (i : Instr) {s : State} (h : s.fault ≠ none) :
    exec i s = .next { s with result := some (.fault .dead) } := by
  unfold exec
  cases i <;> exact request_dead h

/-! ## The port, faults, and which rings an instruction changes -/

/-- Settles O48: `step` and `fetch` opened once, one clause for each thing the port can hold. -/
theorem stepRunsTheInstruction : Obligations.StepRunsTheInstruction := by
  refine ⟨fun s i rest hport hwf => ?_, fun s bytes i rest hport hdec => ?_, fun s i rest hport hwf => ?_,
    fun s hport => ?_, fun s nbits w i _ hdec => ?_⟩
  · simp [Machine.step, hport, fetch, fetchRequest, hwf]
  · simp [Machine.step, hport, fetch, fetchSlot, hdec]
  · simp [Machine.step, hport, fetch, fetchRequest, hwf]
  · simp [Machine.step, hport]
  · simp [Machine.step, State.withFetchWord, fetch, fetchSlot, hdec]

/-- Settles O50: of the answers from a live state, only a fault of the block leaves the fault state set. -/
theorem faultIsPreciseAndFinal : Obligations.FaultIsPreciseAndFinal := by
  refine ⟨fun i s t hlive hexec hfault => ?_, fun i s hdead => exec_dead i hdead⟩
  have hres := exec_live i hlive
  rw [hexec] at hres
  cases hres with
  | faults hcode => exact ⟨_, hcode, rfl⟩
  | answers e => exact absurd (e.fault.trans hlive) hfault
  | addsRing e => exact absurd (e.fault.trans hlive) hfault
  | enqueues => exact absurd ((enqueueAt_effect _ _ _ s).fault.trans hlive) hfault
  | dequeues _ _ _ e => exact absurd (e.fault.trans hlive) hfault

/-- Settles O51: a request leaves the list of rings, appends to it, or sets the place of the ring it names. -/
theorem ringsIndependent : Obligations.RingsIndependent := by
  intro i s t r g hexec hr henq hdeq
  by_cases hlive : s.fault = none
  · have hres := exec_live i hlive
    rw [hexec] at hres
    cases hres with
    | faults => exact hr
    | answers e => exact e.rings ▸ hr
    | addsRing e =>
      obtain ⟨hlt, -⟩ := List.getElem?_eq_some_iff.mp hr
      simpa [e.rings, List.getElem?_append_left hlt] using hr
    | @enqueues q v _ _ hi =>
      have hne : q ≠ r := fun hq => henq v (hq ▸ hi)
      simpa [(enqueueAt_effect _ _ _ s).rings, List.getElem?_set_ne hne] using hr
    | @dequeues q _ _ _ _ hi _ _ e =>
      have hne : q ≠ r := fun hq => hdeq (hq ▸ hi)
      simpa [e.rings, List.getElem?_set_ne hne] using hr
  · rw [exec_dead i hlive] at hexec
    cases hexec
    exact hr

/-! ## Legal states -/

/-- Every ring of a legal state is within its bounds. -/
theorem MachineInv.ringWf {s : State} (h : MachineInv s) {r : Nat} {g : Ring} (hr : s.rings[r]? = some g) :
    ringWf s.erstMax g = true := List.all_eq_true.mp h.rings g (List.mem_of_getElem? hr)

/-- The bounds of R31 and the checks of R242, by name. -/
theorem producerWf_iff {p : ProducerRing} : producerWf p = true ↔
    checkSegments p.segs Config.prodSegMin Config.prodSegMax = none ∧
      (∃ g, producerSegment p = some g ∧ p.idx + 2 ≤ g.size) ∧ (p.kind = .transfer ∨ p.lastCh = false) := by
  unfold producerWf
  cases producerSegment p <;> simp [and_assoc]

/-- The bounds of R36 and the checks of R272, by name. -/
theorem consumerWf_iff {erstMax : Nat} {c : ConsumerRing} : consumerWf erstMax c = true ↔
    checkErst erstMax c.erstBase c.segs = none ∧ ∃ g, consumerSegment c = some g ∧ c.idx < g.size := by
  unfold consumerWf
  cases consumerSegment c <;> simp

/-- Settles O49: a legal state's cursors name segments, so no request stops. -/
theorem everyRequestCompletes : Obligations.EveryRequestCompletes := by
  intro i s hinv
  by_cases hlive : s.fault = none
  · have hres := exec_live i hlive
    generalize exec i s = o at hres ⊢
    cases hres with
    | producerStuck hr hg =>
      obtain ⟨-, ⟨g, hsome, -⟩, -⟩ := producerWf_iff.mp (hinv.ringWf hr)
      exact absurd (hg.symm.trans hsome) (by simp)
    | consumerStuck hr hg =>
      obtain ⟨-, g, hsome, -⟩ := consumerWf_iff.mp (hinv.ringWf hr)
      exact absurd (hg.symm.trans hsome) (by simp)
    | faults | answers | addsRing | enqueues | dequeues => exact ⟨_, rfl⟩
  · exact ⟨_, exec_dead i hlive⟩

/-- Accesses lead from a legal state to a legal state. -/
theorem MachineInv.afterEffect {s s' : State} {W : Nat → Prop} {evs : List Access} (h : MachineInv s)
    (e : Effect s s' W evs) : MachineInv s' where
  memory := e.memWf h.memory
  rings := by rw [e.rings, e.erstMax]; exact h.rings
  registers := e.regs h.registers
  firstFault := by rw [e.fault]; exact h.firstFault

theorem MachineInv.withResult {s : State} (h : MachineInv s) (result : Option Result) :
    MachineInv { s with result := result } := ⟨h.memory, h.rings, h.registers, h.firstFault⟩

theorem MachineInv.addRing {s : State} (h : MachineInv s) {g : Ring} (hg : Machine.ringWf s.erstMax g = true) :
    MachineInv (s.addRing g) :=
  ⟨h.memory, by simpa [hg] using h.rings, h.registers, h.firstFault⟩

theorem MachineInv.setRing {s : State} (h : MachineInv s) (r : Nat) {g : Ring}
    (hg : Machine.ringWf s.erstMax g = true) : MachineInv (s.setRing r g) := by
  refine ⟨h.memory, List.all_eq_true.mpr fun q hq => ?_, h.registers, h.firstFault⟩
  rcases List.mem_or_eq_of_mem_set hq with hold | rfl
  · exact List.all_eq_true.mp h.rings q hold
  · exact hg

/-- The Cycle bit is no bit of the Type (R80, R245). -/
theorem kindOf_withCycle (t : Trb) (b : Bool) : kindOf (withCycle t b) = kindOf t := by
  have htype : typeField (withCycle t b) = typeField t := by
    apply BitVec.eq_of_getLsbD_eq
    intro i _
    rw [typeField, typeField, getLsbD_field, getLsbD_field, withCycle, getLsbD_putBits, if_neg (by omega)]
  rw [kindOf, kindOf, htype]

/-- No command TRB has a Chain bit (R190 to R206, R248). -/
theorem hasChain_command {k : TrbKind} (h : groupOf k = .command) : hasChain k = false := by
  rcases k with v | _
  · revert h
    cases v <;> decide
  · cases h

/-- A TRB that a Command Ring accepts leaves `last_ch` 0 (R244, R248). -/
theorem chainOf_command {t : Trb} (h : accepts .command (groupOf (kindOf t)) = true) (b : Bool) :
    chainOf (withCycle t b) = false := by
  have hgroup : groupOf (kindOf t) = .command := by
    revert h
    cases groupOf (kindOf t) <;> decide
  rw [chainOf, kindOf_withCycle, hasChain_command hgroup, Bool.false_and]

/-- The ring after an enqueue that does not fill its segment, and after one that does (R245, R247). -/
theorem enqueueAt_ring (g : Segment) (t : Trb) (p : ProducerRing) (s : State) :
    (enqueueAt g t p s).1 =
      if p.idx + 2 = g.size then
        { enqueued t p with pcs := p.pcs ^^ (p.seg + 1 == p.segs.length), seg := (p.seg + 1) % p.segs.length, idx := 0 }
      else enqueued t p := by
  rw [enqueueAt_eq]
  split <;> rfl

/-- An enqueue keeps a ring within its bounds (R31): its cursor passes the Link slot. -/
theorem enqueueAt_wf {g : Segment} {v : Trb} {p : ProducerRing} (s : State) (hwf : producerWf p = true)
    (hg : producerSegment p = some g) (ha : accepts p.kind (groupOf (kindOf v)) = true) :
    producerWf (enqueueAt g v p s).1 = true := by
  obtain ⟨hcheck, ⟨g', hg', hidx⟩, -⟩ := producerWf_iff.mp hwf
  obtain rfl : g = g' := Option.some.inj (hg.symm.trans hg')
  obtain ⟨hne, hsegs⟩ := checkSegments_none hcheck
  have hchain : p.kind = .transfer ∨ chainOf (withCycle v p.pcs) = false := by
    cases hk : p.kind with
    | transfer => exact .inl rfl
    | command => exact .inr (chainOf_command (hk ▸ ha) _)
  rw [enqueueAt_ring]
  split
  · have hlt : (p.seg + 1) % p.segs.length < p.segs.length := Nat.mod_lt _ (List.length_pos_of_ne_nil hne)
    obtain ⟨-, -, hmin, -⟩ := checkSegment_none (hsegs _ (List.getElem_mem hlt))
    exact producerWf_iff.mpr
      ⟨hcheck, ⟨_, List.getElem?_eq_getElem hlt, by simpa [Config.prodSegMin] using hmin⟩, hchain⟩
  · refine producerWf_iff.mpr ⟨hcheck, ⟨g, hg, ?_⟩, hchain⟩
    simp only [enqueued]
    omega

/-- An advance keeps a ring within its bounds (R36, R278). -/
theorem advance_wf {erstMax : Nat} {g : Segment} {c : ConsumerRing} (hwf : consumerWf erstMax c = true)
    (hg : consumerSegment c = some g) (phase : Phase) :
    consumerWf erstMax { advance g c with phase := phase } = true := by
  obtain ⟨hcheck, g', hg', hidx⟩ := consumerWf_iff.mp hwf
  obtain rfl : g = g' := Option.some.inj (hg.symm.trans hg')
  obtain ⟨hne, -, -, -, -, hsegs⟩ := checkErst_none hcheck
  have hseg : c.seg < c.segs.length := (List.getElem?_eq_some_iff.mp hg).1
  have hfirst {k : Nat} (hk : k < c.segs.length) : ∃ g, c.segs[k]? = some g ∧ 0 < g.size := by
    obtain ⟨-, -, hmin, -⟩ := checkSegment_none (hsegs _ (List.getElem_mem hk))
    exact ⟨_, List.getElem?_eq_getElem hk, lt_of_lt_of_le (by decide) hmin⟩
  unfold advance
  split
  · split
    · exact consumerWf_iff.mpr ⟨hcheck, hfirst (List.length_pos_of_ne_nil hne)⟩
    · exact consumerWf_iff.mpr ⟨hcheck, hfirst (show c.seg + 1 < _ by omega)⟩
  · exact consumerWf_iff.mpr ⟨hcheck, g, hg, by dsimp only; omega⟩

/-- Every instruction leads from a legal state to a legal state. -/
theorem exec_keepsInv {i : Instr} {s t : State} (hinv : MachineInv s) (hexec : exec i s = .next t) :
    MachineInv t := by
  by_cases hlive : s.fault = none
  · have hres := exec_live i hlive
    rw [hexec] at hres
    cases hres with
    | faults hcode => exact ⟨hinv.memory, hinv.rings, hinv.registers, fun h => hcode (Option.some.inj h)⟩
    | answers e => exact (hinv.afterEffect e).withResult _
    | addsRing e _ hwf => exact ((hinv.afterEffect e).addRing (e.erstMax ▸ hwf)).withResult _
    | @enqueues r v p g _ hr hg ha =>
      exact ((hinv.afterEffect (enqueueAt_effect g v p s)).setRing r (g := .producer _)
        (enqueueAt_wf s (hinv.ringWf hr) hg ha)).withResult _
    | @dequeues r c g _ _ _ hr hg e =>
      have hwf := advance_wf (hinv.ringWf hr) hg .running
      exact ((hinv.afterEffect e).setRing r (g := .consumer _) (e.erstMax ▸ hwf)).withResult _
  · rw [exec_dead i hlive] at hexec
    cases hexec
    exact hinv.withResult _

/-- A step is the controller's turn, or one instruction on the state with another port. -/
theorem step_cases {s t : State} (h : Machine.step s = .next t) :
    t = controllerTurn s ∨ ∃ i port, exec i { s with port := port } = .next t := by
  unfold Machine.step at h
  split at h
  · cases h
    exact .inl rfl
  · split at h
    · cases h
    · exact .inr ⟨_, _, h⟩

/-- Settles O56: the controller's turn and every instruction keep the invariant. -/
theorem invKept : Obligations.InvKept := by
  intro s t hinv hstep
  rcases step_cases hstep with rfl | ⟨i, port, hexec⟩
  · exact hinv.afterEffect (controllerTurn_effect s)
  · exact exec_keepsInv (hinv.withPort port) hexec

/-! ## The bits of a layout, by class (R27, R96) -/

/-- Two entries that pass a test which one place of the list passes are equal. -/
theorem eq_of_countP_eq_one {α : Type} {q : α → Bool} {l : List α} (h : l.countP q = 1) {x y : α} (hx : x ∈ l)
    (hy : y ∈ l) (qx : q x = true) (qy : q y = true) : x = y := by
  rw [List.countP_eq_length_filter, List.length_eq_one_iff] at h
  obtain ⟨z, hz⟩ := h
  have key {w : α} (hw : w ∈ l) (qw : q w = true) : w = z := by
    simpa [hz] using List.mem_filter.mpr ⟨hw, qw⟩
  rw [key hx qx, key hy qy]

theorem covers_iff {p : LayoutField} {b : Nat} : p.covers b = true ↔ p.lo ≤ b ∧ b < p.lo + p.width := by
  simp [LayoutField.covers]

/-- The bits of a class are those of its fields. -/
theorem getLsbD_classMask (L : Layout) (cls : FieldClass) (b : Nat) :
    (classMask L cls).getLsbD b = (decide (b < 64) && L.fields.any fun p => decide (p.cls = cls) && p.covers b) := by
  have key (fields : List LayoutField) (m : RegValue) :
      (fields.foldl (fun m p => if p.cls = cls then m ||| maskAt 64 p.lo p.width else m) m).getLsbD b =
        (m.getLsbD b || (decide (b < 64) && fields.any fun p => decide (p.cls = cls) && p.covers b)) := by
    induction fields generalizing m with
    | nil => simp
    | cons p fields ih =>
      rw [List.foldl_cons, ih, List.any_cons]
      by_cases h : p.cls = cls
      · simp [h, getLsbD_maskAt, LayoutField.covers, Bool.and_or_distrib_left, Bool.or_assoc, Bool.and_assoc]
      · simp [h]
  rw [classMask, key]
  simp

/-- The width of every hardware word is at most 64 (R7). -/
theorem RegWidth.bits_le (w : RegWidth) : w.bits ≤ 64 := by cases w <;> decide

/-- In a well-formed layout a bit of a field is in the mask of the field's class and in no other (R96). -/
theorem getLsbD_classMask_field {L : Layout} (hwf : L.wf = true) {p : LayoutField} (hp : p ∈ L.fields) {i : Nat}
    (hi : i < p.width) (cls : FieldClass) : (classMask L cls).getLsbD (p.lo + i) = decide (p.cls = cls) := by
  simp only [Layout.wf, Bool.and_eq_true, List.all_eq_true, List.mem_range, beq_iff_eq, decide_eq_true_eq] at hwf
  obtain ⟨honce, hinside⟩ := hwf
  have hbit : p.lo + i < L.width.bits := lt_of_lt_of_le (by omega) (hinside p hp)
  have hcover : p.covers (p.lo + i) = true := covers_iff.mpr (by omega)
  have h64 : p.lo + i < 64 := lt_of_lt_of_le hbit (RegWidth.bits_le _)
  rw [getLsbD_classMask, decide_eq_true h64, Bool.true_and]
  by_cases hc : p.cls = cls
  · rw [decide_eq_true hc]
    exact List.any_eq_true.mpr ⟨p, hp, by simp [hc, hcover]⟩
  · rw [decide_eq_false hc, List.any_eq_false]
    intro q hq
    by_cases hqc : q.covers (p.lo + i) = true
    · rw [eq_of_countP_eq_one (honce _ hbit) hq hp hqc hcover]
      simp [hc]
    · simp [hqc]

/-- A bit after a reaction, by the masks of the classes (R27). -/
theorem getLsbD_react (L : Layout) (old w : RegValue) (b : Nat) (hb : b < 64) :
    (react L old w).getLsbD b =
      (((if (classMask L .rw).getLsbD b then w.getLsbD b else old.getLsbD b) &&
          !(w.getLsbD b && (classMask L .rw1c).getLsbD b)) ||
        (w.getLsbD b && (classMask L .rw1s).getLsbD b)) := by
  unfold react
  simp only [BitVec.getLsbD_or, BitVec.getLsbD_and, BitVec.getLsbD_not, hb, decide_true, Bool.true_and]
  cases (classMask L .rw).getLsbD b <;> simp

/-- Settles O25: a bit of a field is in the mask of its own class only. -/
theorem reactByClass : Obligations.ReactByClass := by
  intro L old w hwf p hp i hi
  have hmask := getLsbD_classMask_field hwf hp hi
  have h64 : p.lo + i < 64 := by
    have := hmask p.cls
    simp only [decide_true, getLsbD_classMask, Bool.and_eq_true, decide_eq_true_eq] at this
    exact this.1
  rw [getLsbD_react L old w _ h64, hmask, hmask, hmask]
  refine ⟨fun h => ?_, fun h => ?_, fun h => ?_, fun h => ?_⟩
  · simp [h]
  · rcases h with h | h | h <;> simp [h]
  · cases hw : w.getLsbD (p.lo + i) <;> simp [h]
  · simp [h]

/-! ## The controller's turn (R24, R343) -/

/-- The layouts of the register map are well formed (R96, R300). -/
theorem RegName.layout_wf (n : RegName) : n.layout.wf = true := by
  cases n <;> simp only [RegName.layout] <;> decide

/-- What no status change of the controller touches of a register: its name and the bits outside `statusMask`. -/
def fixedBits (r : Reg) : RegName × RegValue := (r.name, r.value &&& ~~~(statusMask r.name.layout))

/-- A change within a mask keeps the bits outside it. -/
theorem masked_outside (x v m : RegValue) : ((x &&& ~~~m) ||| (v &&& m)) &&& ~~~m = x &&& ~~~m := by
  apply BitVec.eq_of_getLsbD_eq
  intro i hi
  simp only [BitVec.getLsbD_and, BitVec.getLsbD_or, BitVec.getLsbD_not, hi, decide_true, Bool.true_and]
  cases m.getLsbD i <;> simp

theorem ctrlStatus_fixedBits (ra : Addr) (v : RegValue) (s : State) :
    (ctrlStatus ra v s).regs.map fixedBits = s.regs.map fixedBits := by
  unfold ctrlStatus
  dsimp only
  split
  · rw [List.map_map]
    refine List.map_congr_left fun r _ => ?_
    by_cases e : r.addr = ra
    · simp only [Function.comp, e, if_true, fixedBits, masked_outside]
    · simp only [Function.comp, e, if_false]
  · rfl

@[simp] theorem ctrlWriteWord_regs (pa : Addr) (v : Word) (s : State) : (ctrlWriteWord pa v s).regs = s.regs := by
  unfold ctrlWriteWord
  split <;> rfl

@[simp] theorem ctrlWriteTrb_regs (pa : Addr) (t : Trb) (s : State) : (ctrlWriteTrb pa t s).regs = s.regs := by
  simp [ctrlWriteTrb]

theorem ctrlConsumeCommand_regs (s : State) : (ctrlConsumeCommand s).regs = s.regs := by
  unfold ctrlConsumeCommand
  split
  · rfl
  · split <;> rfl

theorem ctrlConsume_regs (k : Nat) (s : State) : (ctrlConsume k s).regs = s.regs := by
  unfold ctrlConsume
  split
  · rfl
  · split <;> rfl

theorem ctrlPost_regs (i : Nat) (ev : Trb) (s : State) : (ctrlPost i ev s).regs = s.regs := by
  unfold ctrlPost
  split
  · rfl
  · split
    · rfl
    · split
      · rfl
      · split
        · rfl
        · split
          · rfl
          · exact ctrlWriteTrb_regs _ _ s

/-- An act that is no reaction keeps the bits that only register writes change. -/
theorem ctrlAct_fixedBits {a : CtrlAct} (h : ∀ x, a ≠ .react x) (s : State) :
    (ctrlAct a s).regs.map fixedBits = s.regs.map fixedBits := by
  cases a with
  | react x => exact absurd rfl (h x)
  | status ra v => exact ctrlStatus_fixedBits ra v s
  | writeWord pa v => exact congrArg _ (ctrlWriteWord_regs pa v s)
  | consumeCommand => exact congrArg _ (ctrlConsumeCommand_regs s)
  | consume k => exact congrArg _ (ctrlConsume_regs k s)
  | post i ev => exact congrArg _ (ctrlPost_regs i ev s)
  | readByte | attach => rfl

theorem ctrlActs_fixedBits {b : List CtrlAct} (h : ∀ x, .react x ∉ b) (s : State) :
    (ctrlActs b s).regs.map fixedBits = s.regs.map fixedBits := by
  induction b generalizing s with
  | nil => rfl
  | cons a b ih =>
    have ha (x : Reaction) : a ≠ .react x := fun e => h x (e ▸ List.mem_cons_self)
    have hb (x : Reaction) : .react x ∉ b := fun hx => h x (List.mem_cons_of_mem _ hx)
    exact (ih hb _).trans (ctrlAct_fixedBits ha s)

theorem controllerTurn_fixedBits {s : State} (h : ∀ b ∈ s.ctrl, ∀ x, .react x ∉ b) :
    (controllerTurn s).regs.map fixedBits = s.regs.map fixedBits := by
  unfold controllerTurn
  split
  · rfl
  · rename_i b rest e
    exact ctrlActs_fixedBits (h b (e ▸ List.mem_cons_self)) { s with ctrl := rest }

/-- RW and reserved bits are none that the controller may change (R24 (c), R26). -/
theorem getLsbD_statusMask_field {L : Layout} (hwf : L.wf = true) {p : LayoutField} (hp : p ∈ L.fields)
    (hc : p.cls = .rw ∨ p.cls = .rsvdP ∨ p.cls = .rsvdZ) {i : Nat} (hi : i < p.width) :
    (statusMask L).getLsbD (p.lo + i) = false := by
  simp only [statusMask, BitVec.getLsbD_or, getLsbD_classMask_field hwf hp hi]
  rcases hc with h | h | h <;> simp [h]

/-- Registers with the same fixed bits have the same RW and reserved bits. -/
theorem fixedBits_field {q r : Reg} (h : fixedBits r = fixedBits q) {p : LayoutField} (hp : p ∈ q.name.layout.fields)
    (hc : p.cls = .rw ∨ p.cls = .rsvdP ∨ p.cls = .rsvdZ) {i : Nat} (hi : i < p.width) :
    r.value.getLsbD (p.lo + i) = q.value.getLsbD (p.lo + i) := by
  obtain ⟨hname, hvalue⟩ := Prod.mk.inj h
  have hmask := getLsbD_statusMask_field q.name.layout_wf hp hc hi
  have hbit := congrArg (fun x => x.getLsbD (p.lo + i)) hvalue
  by_cases h64 : p.lo + i < 64
  · simpa only [BitVec.getLsbD_and, BitVec.getLsbD_not, hname, hmask, h64, decide_true, Bool.not_false, Bool.and_true]
      using hbit
  · rw [BitVec.getLsbD_of_ge _ _ (by omega), BitVec.getLsbD_of_ge _ _ (by omega)]

/-- Settles O52 (`controllerTurn` itself is the model's): the frame is the `Effect` of a turn, and its acts but the
reactions keep the fixed bits. -/
theorem controllerTurn_frame : Obligations.ControllerTurn := by
  intro s
  have e := controllerTurn_effect s
  refine ⟨e.fault, e.rings, e.result, e.port, fun a ha => e.mem a ha id, fun hreact j q r hq hr => ?_⟩
  have hfixed : fixedBits r = fixedBits q := by
    have hj := congrArg (·[j]?) (controllerTurn_fixedBits hreact)
    simpa [hq, hr] using hj
  exact ⟨congrArg Prod.fst hfixed, fun p hp hc i hi => fixedBits_field hfixed hp hc hi⟩

/-! ## The bytes of different rings (R364 (a)) -/

/-- Two different places of a list that is pairwise related by a symmetric relation. -/
theorem pairwise_getElem? {α : Type} {R : α → α → Prop} (hsymm : ∀ x y, R x y → R y x) {l : List α} (h : l.Pairwise R)
    {i j : Nat} {x y : α} (hi : l[i]? = some x) (hj : l[j]? = some y) (hne : i ≠ j) : R x y := by
  obtain ⟨hil, rfl⟩ := List.getElem?_eq_some_iff.mp hi
  obtain ⟨hjl, rfl⟩ := List.getElem?_eq_some_iff.mp hj
  rcases Nat.lt_or_gt_of_ne hne with hlt | hlt
  · exact List.pairwise_iff_getElem.mp h i j hil hjl hlt
  · exact hsymm _ _ (List.pairwise_iff_getElem.mp h j i hjl hil hlt)

theorem apart_symm (x y : Nat × Nat) (h : apart x y) : apart y x := Or.symm h

/-- `a` is the address of a byte of the region. -/
def regionHolds (x : Nat × Nat) (a : Nat) : Prop := x.1 ≤ a ∧ a < x.1 + x.2

theorem not_regionHolds_of_apart {x y : Nat × Nat} (h : apart x y) {a : Nat} (hx : regionHolds x a) :
    ¬ regionHolds y a := by
  unfold regionHolds at *
  rcases h with h | h <;> omega

/-- A segment's bytes, as a region. -/
theorem segmentHolds_iff_region {g : Segment} {a : Nat} :
    segmentHolds g a = true ↔ regionHolds (g.base.toNat, 16 * g.size) a := segmentHolds_iff

/-- A ring's bytes are those of its regions. -/
theorem ringHolds_iff {g : Ring} {a : Nat} : ringHolds g a = true ↔ ∃ x ∈ ringRegions g, regionHolds x a := by
  cases g with
  | producer p => simp [ringHolds, ringRegions, inSegments, segmentHolds_iff_region]
  | consumer c =>
    simp [ringHolds, ringRegions, inSegments, segmentHolds_iff_region, inErst_iff, regionHolds, or_comm]

/-- A byte of one ring is none of another's. -/
theorem ringHolds_disjoint {rings : List Ring} (h : RingsDisjoint rings) {i j : Nat} {g g' : Ring}
    (hi : rings[i]? = some g) (hj : rings[j]? = some g') (hne : i ≠ j) {a : Nat} (ha : ringHolds g a = true) :
    ringHolds g' a = false := by
  have hrings := (List.pairwise_flatMap.mp h).2
  have hapart := pairwise_getElem? (fun _ _ hxy y hy x hx => apart_symm _ _ (hxy x hx y hy)) hrings hi hj hne
  rw [← Bool.not_eq_true, ringHolds_iff]
  rintro ⟨y, hy, hya⟩
  obtain ⟨x, hx, hxa⟩ := ringHolds_iff.mp ha
  exact not_regionHolds_of_apart (hapart x hx y hy) hxa hya

/-- The controller may not write a byte of a producer ring that is apart from the others (R24 (b)). -/
theorem consumerHolds_disjoint {rings : List Ring} (h : RingsDisjoint rings) {r : Nat} {p : ProducerRing}
    (hr : rings[r]? = some (.producer p)) {a : Nat} (ha : inSegments p.segs a = true) :
    rings.any (·.consumerHolds a) = false := by
  rw [List.any_eq_false]
  intro g hg hheld
  obtain ⟨i, hi⟩ := List.mem_iff_getElem?.mp hg
  by_cases e : r = i
  · subst e
    obtain rfl : Ring.producer p = g := Option.some.inj (hr.symm.trans hi)
    exact absurd hheld (by simp [Ring.consumerHolds])
  · have hother := ringHolds_disjoint h hr hi e ha
    exact absurd (ringHolds_of_consumerHolds hheld) (by simp [hother])

/-- A byte of one segment of a producer ring is none of another's. -/
theorem segmentHolds_disjoint {segs : List Segment} (h : segmentsApart segs) {i j : Nat} {g g' : Segment}
    (hi : segs[i]? = some g) (hj : segs[j]? = some g') (hne : i ≠ j) {a : Nat} (ha : segmentHolds g a = true) :
    segmentHolds g' a = false := by
  have hapart := pairwise_getElem? apart_symm h (i := i) (j := j) (by simp [hi]; rfl) (by simp [hj]; rfl) hne
  rw [← Bool.not_eq_true, segmentHolds_iff_region]
  exact not_regionHolds_of_apart hapart (segmentHolds_iff_region.mp ha)

theorem RingsDisjoint.segmentsApart {rings : List Ring} (h : RingsDisjoint rings) {r : Nat} {p : ProducerRing}
    (hr : rings[r]? = some (.producer p)) : segmentsApart p.segs :=
  (List.pairwise_flatMap.mp h).1 _ (List.mem_of_getElem? hr)

/-- Rings that are disjoint with more rings are disjoint without them. -/
theorem RingsDisjoint.of_append {rings more : List Ring} (h : RingsDisjoint (rings ++ more)) : RingsDisjoint rings := by
  unfold RingsDisjoint at h
  rw [List.flatMap_append, List.pairwise_append] at h
  exact h.1

/-- A ring replaced by one with the same memory leaves the rings as disjoint as they were. -/
theorem RingsDisjoint.of_set {rings : List Ring} {r : Nat} {g g' : Ring} (hr : rings[r]? = some g)
    (hregions : ringRegions g' = ringRegions g) (h : RingsDisjoint (rings.set r g')) : RingsDisjoint rings := by
  obtain ⟨hlt, hget⟩ := List.getElem?_eq_some_iff.mp hr
  have hmap : (rings.set r g').map ringRegions = rings.map ringRegions := by
    rw [List.map_set, hregions, ← hget, ← List.map_set, List.set_getElem_self]
  unfold RingsDisjoint at *
  rwa [List.flatMap_def, hmap, ← List.flatMap_def] at h

/-! ## The Cycle bits and the Links of a ring, by its bytes (R33, R243) -/

/-- A word of a slot reads alike in memories that agree on the segment. -/
theorem memGetWord_segment_congr {m m' : Memory} {g : Segment} (ht : g.base.toNat + 16 * g.size ≤ 2 ^ 64)
    (h : ∀ a, segmentHolds g a = true → memGet m' a = memGet m a) {j w : Nat} (hj : j < g.size) (hw : w + 4 ≤ 16) :
    memGetWord m' (slotAddr g j + BitVec.ofNat 64 w) = memGetWord m (slotAddr g j + BitVec.ofNat 64 w) := by
  refine memGetWord_congr fun k hk => h _ ?_
  rw [byteAddr_slotWord ht hj (by omega), segmentHolds_iff]
  omega

/-- What construction checked of the segments of a ring of a legal state (R242). -/
theorem MachineInv.producerSegs {s : State} (h : MachineInv s) {r : Nat} {p : ProducerRing}
    (hr : s.rings[r]? = some (.producer p)) {i : Nat} {g : Segment} (hg : p.segs[i]? = some g) :
    2 ≤ g.size ∧ g.base.toNat + 16 * g.size ≤ 2 ^ 64 := by
  obtain ⟨hcheck, -, -⟩ := producerWf_iff.mp (h.ringWf hr)
  have hseg := (checkSegments_none hcheck).2 g (List.mem_of_getElem? hg)
  obtain ⟨-, -, hmin, -⟩ := checkSegment_none hseg
  exact ⟨hmin, checkSegment_top hseg⟩

/-- The Cycle bits of a lap are those of the ring's bytes. -/
theorem LapInv.congr {m m' : Memory} {p : ProducerRing} (hl : LapInv m p)
    (ht : ∀ (i : Nat) (g : Segment), p.segs[i]? = some g → g.base.toNat + 16 * g.size ≤ 2 ^ 64)
    (h : ∀ a, inSegments p.segs a = true → memGet m' a = memGet m a) : LapInv m' p := by
  intro i g hg j hj
  have hseg (a : Nat) (ha : segmentHolds g a = true) : memGet m' a = memGet m a :=
    h a (List.any_eq_true.mpr ⟨g, List.mem_of_getElem? hg, ha⟩)
  rw [← hl i g hg j hj, slotCycle, slotCycle, memGetWord_segment_congr (ht i g hg) hseg hj (by omega)]

/-- The Links' targets are in words 0 and 1 of their slots, wherever the rest of the ring changes. -/
theorem LinkInv.congr {m m' : Memory} {p q : ProducerRing} (hl : LinkInv m p) (hsegs : q.segs = p.segs)
    (h : ∀ (i : Nat) (g : Segment), p.segs[i]? = some g → ∀ w ∈ [0, 4],
      memGetWord m' (slotAddr g (g.size - 1) + BitVec.ofNat 64 w) =
        memGetWord m (slotAddr g (g.size - 1) + BitVec.ofNat 64 w)) : LinkInv m' q := by
  intro i g g' hg hg'
  rw [hsegs] at hg hg'
  have h0 := h i g hg 0 (by simp)
  rw [slotAddr_zeroOffset] at h0
  obtain ⟨hlow, hhigh⟩ := hl i g g' hg hg'
  exact ⟨h0.trans hlow, (h i g hg 4 (by simp)).trans hhigh⟩

/-! ## A new producer ring (R33, R243) -/

/-- The Cycle bit of a slot is the Cycle bit of the TRB in it (R80). -/
theorem slotCycle_eq (m : Memory) (g : Segment) (j : Nat) :
    slotCycle m g j = cycleBit (memGetTrb m (slotAddr g j)) := by
  obtain ⟨-, -, -, h3⟩ := dw_trbOfWords (memGetWord m (slotAddr g j)) (memGetWord m (slotAddr g j + 4#64))
    (memGetWord m (slotAddr g j + 8#64)) (memGetWord m (slotAddr g j + 12#64))
  rw [slotCycle, ← h3, dw3, getLsbD_field]
  simp [cycleBit, memGetTrb]

/-- A segment as its construction leaves it: zeros, and a Link in the last slot (R241). -/
structure FreshSegment (m : Memory) (g : Segment) (target : Addr) (tc : Bool) : Prop where
  zeros : ∀ j < g.size - 1, memGetTrb m (slotAddr g j) = 0#128
  link : memGetTrb m (slotAddr g (g.size - 1)) = linkTrb target tc

/-- The writes of one segment's construction, where the controller may not write. -/
theorem writeSegment_fresh {g : Segment} {s : State} (target : Addr) (tc : Bool) (hsize : 1 ≤ g.size)
    (ht : g.base.toNat + 16 * g.size ≤ 2 ^ 64) (hm : Memory.wf s.mem = true)
    (hc : ∀ a, segmentHolds g a = true → s.ctrlMayWrite a = false) :
    FreshSegment (trbWrite (slotAddr g (g.size - 1)) (linkTrb target tc) (zeroSlots g (g.size - 1) s)).mem g target
      tc := by
  have e := zeroSlots_effect g (g.size - 1) s
  have hslot {j : Nat} (hj : j < g.size) (k : Nat) (hk : k < 16) :
      (zeroSlots g (g.size - 1) s).ctrlMayWrite (byteAddr (slotAddr g j) k) = false := by
    rw [ctrlMayWrite_congr e.rings]
    exact hc _ (slotByte_segment ht hj ⟨k, hk, rfl⟩)
  refine ⟨fun j hj => ?_, trbWrite_trb _ _ (e.memWf hm) (hslot (by omega))⟩
  rw [(trbWrite_effect (slotAddr g (g.size - 1)) (linkTrb target tc) _).trb (hslot (by omega)) fun k hk hs => ?_]
  · exact zeroSlots_zero ht (by omega) hm hc j hj
  · rw [slotByte_iff ht (by omega), byteAddr_slot ht (by omega) hk] at hs
    omega

/-- A fresh segment stays so where neither agent writes. -/
theorem FreshSegment.afterEffect {s s' : State} {W : Nat → Prop} {evs : List Access} {g : Segment} {target : Addr}
    {tc : Bool} (h : FreshSegment s.mem g target tc) (e : Effect s s' W evs) (hsize : 1 ≤ g.size)
    (ht : g.base.toNat + 16 * g.size ≤ 2 ^ 64) (hc : ∀ a, segmentHolds g a = true → s.ctrlMayWrite a = false)
    (hw : ∀ a, segmentHolds g a = true → ¬ W a) : FreshSegment s'.mem g target tc := by
  have hkept {j : Nat} (hj : j < g.size) : memGetTrb s'.mem (slotAddr g j) = memGetTrb s.mem (slotAddr g j) :=
    e.trb (fun k hk => hc _ (slotByte_segment ht hj ⟨k, hk, rfl⟩)) fun k hk =>
      hw _ (slotByte_segment ht hj ⟨k, hk, rfl⟩)
  exact ⟨fun j hj => (hkept (by omega)).trans (h.zeros j hj), (hkept (by omega)).trans h.link⟩

/-- Every segment of a new ring is fresh, its Link to the next one, the last one's to the first (R241, R243). -/
theorem writeProducer_fresh (first : Segment) {segs : List Segment}
    (hs : ∀ g ∈ segs, 1 ≤ g.size ∧ g.base.toNat + 16 * g.size ≤ 2 ^ 64) (hapart : segmentsApart segs) {s : State}
    (hm : Memory.wf s.mem = true) (hc : ∀ a, inSegments segs a = true → s.ctrlMayWrite a = false) {i : Nat}
    {g : Segment} (hg : segs[i]? = some g) :
    FreshSegment (writeProducer first segs s).mem g (segs[i + 1]?.getD first).base (i + 1 == segs.length) := by
  induction segs generalizing s i with
  | nil => simp at hg
  | cons x rest ih =>
    obtain ⟨⟨hsize, ht⟩, hrest⟩ := List.forall_mem_cons.mp hs
    have e := (zeroSlots_effect x (x.size - 1) s).trans
      (trbWrite_effect (slotAddr x (x.size - 1)) (linkTrb (rest.headD first).base rest.isEmpty) _)
    have hcx (a : Nat) (ha : segmentHolds x a = true) : s.ctrlMayWrite a = false := hc a (by simp [inSegments, ha])
    cases i with
    | zero =>
      obtain rfl : x = g := by simpa using hg
      have hfresh := writeSegment_fresh (rest.headD first).base rest.isEmpty hsize ht hm hcx
      have hlater := hfresh.afterEffect (writeProducer_effect first rest hrest _) hsize ht
        (fun a ha => (ctrlMayWrite_congr e.rings a).trans (hcx a ha)) fun a ha hin => by
          obtain ⟨y, hy, hya⟩ := List.any_eq_true.mp hin
          obtain ⟨j, hj⟩ := List.mem_iff_getElem?.mp hy
          have := segmentHolds_disjoint hapart (i := 0) (j := j + 1) rfl (by simpa using hj) (by omega) ha
          exact absurd hya (by simp [this])
      rw [writeProducer]
      cases rest with
      | nil => exact hlater
      | cons y rest =>
        have hend : (0 + 1 == (x :: y :: rest).length) = false := by simp
        rw [hend]
        exact hlater
    | succ i =>
      have hcrest (a : Nat) (ha : inSegments rest a = true) : s.ctrlMayWrite a = false :=
        hc a (Bool.or_eq_true_iff.mpr (.inr ha))
      have := ih hrest (List.pairwise_cons.mp hapart).2 (e.memWf hm)
        (fun a ha => (ctrlMayWrite_congr e.rings a).trans (hcrest a ha)) (by simpa using hg)
      have hend : (i + 1 + 1 == (x :: rest).length) = (i + 1 == rest.length) := by simp
      rw [writeProducer, hend, List.getElem?_cons_succ]
      exact this

/-- An aligned address has no low bits. -/
theorem getLsbD_aligned {x : Addr} (h : x.toNat % 64 = 0) {i : Nat} (hi : i < 6) : x.getLsbD i = false := by
  have : x.toNat = 2 ^ 6 * (x.toNat / 64) := by omega
  rw [BitVec.getLsbD, this, Nat.testBit_two_pow_mul]
  simp [hi]

/-- The bits of a Link at construction, by its three pieces (R175, R241). -/
theorem getLsbD_linkTrb (target : Addr) (tc : Bool) (k : Nat) :
    (linkTrb target tc).getLsbD k =
      ((decide (4 ≤ k) && decide (k < 128) && (decide (k - 4 < 60) && target.getLsbD (4 + (k - 4)))) ||
        (decide (97 ≤ k) && decide (k < 128) && (BitVec.ofBool tc).getLsbD (k - 97)) ||
        (decide (106 ≤ k) && decide (k < 128) && (6#6).getLsbD (k - 106))) := by
  simp only [linkTrb, BitVec.getLsbD_or, getLsbD_place, BitVec.getLsbD_extractLsb']

/-- The Cycle bits of a fresh segment are 0. -/
theorem FreshSegment.slotCycle {m : Memory} {g : Segment} {target : Addr} {tc : Bool}
    (h : FreshSegment m g target tc) {j : Nat} (hj : j < g.size) : slotCycle m g j = false := by
  rw [slotCycle_eq]
  by_cases hlast : j = g.size - 1
  · rw [hlast, h.link]
    rw [cycleBit, getLsbD_linkTrb]
    simp
  · rw [h.zeros j (by omega)]
    rfl

/-- The pointer of a Link is the base that it was made for, if that is aligned (R84, R241). -/
theorem linkTrb_words {target : Addr} (h : target.toNat % 64 = 0) (tc : Bool) :
    dw0 (linkTrb target tc) = target.extractLsb' 0 32 ∧ dw1 (linkTrb target tc) = target.extractLsb' 32 32 := by
  have hbit {k : Nat} (hk : k < 64) : (linkTrb target tc).getLsbD k = target.getLsbD k := by
    have h97 : ¬ 97 ≤ k := by omega
    have h106 : ¬ 106 ≤ k := by omega
    have h128 : k < 128 := by omega
    by_cases h4 : 4 ≤ k
    · have h60 : k - 4 < 60 := by omega
      have hback : 4 + (k - 4) = k := by omega
      rw [getLsbD_linkTrb]
      simp [h97, h106, h128, h4, h60, hback]
    · rw [getLsbD_linkTrb, getLsbD_aligned (i := k) h (by omega)]
      simp [h97, h106, h4]
  constructor
  · apply BitVec.eq_of_getLsbD_eq
    intro i hi
    rw [dw0, getLsbD_field, BitVec.getLsbD_extractLsb', hbit (by omega)]
  · apply BitVec.eq_of_getLsbD_eq
    intro i hi
    rw [dw1, getLsbD_field, BitVec.getLsbD_extractLsb', hbit (by omega)]

/-- The Link words of a fresh segment are its target (R243). -/
theorem FreshSegment.linkWords {m : Memory} {g : Segment} {target : Addr} {tc : Bool}
    (h : FreshSegment m g target tc) (haligned : target.toNat % 64 = 0) :
    memGetWord m (slotAddr g (g.size - 1)) = target.extractLsb' 0 32 ∧
      memGetWord m (slotAddr g (g.size - 1) + 4#64) = target.extractLsb' 32 32 := by
  obtain ⟨w0, w1, -, -⟩ := dw_trbOfWords (memGetWord m (slotAddr g (g.size - 1)))
    (memGetWord m (slotAddr g (g.size - 1) + 4#64)) (memGetWord m (slotAddr g (g.size - 1) + 8#64))
    (memGetWord m (slotAddr g (g.size - 1) + 12#64))
  obtain ⟨l0, l1⟩ := linkTrb_words haligned tc
  have hlink := h.link
  rw [memGetTrb] at hlink
  rw [hlink] at w0 w1
  exact ⟨w0.symm.trans l0, w1.symm.trans l1⟩

/-- The segment after one of a list, the first after the last. -/
theorem nextSegment {first : Segment} {rest : List Segment} {i : Nat} {g g' : Segment}
    (hg : (first :: rest)[i]? = some g) (hg' : (first :: rest)[(i + 1) % (first :: rest).length]? = some g') :
    (first :: rest)[i + 1]?.getD first = g' := by
  have hlt : i < (first :: rest).length := (List.getElem?_eq_some_iff.mp hg).1
  by_cases hlast : i + 1 = (first :: rest).length
  · rw [hlast, Nat.mod_self] at hg'
    rw [hlast, List.getElem?_eq_none (Nat.le_refl _)]
    simpa using hg'
  · rw [Nat.mod_eq_of_lt (by omega)] at hg'
    rw [hg', Option.getD_some]

/-- The memory that the construction of a ring leaves, if the ring is apart from every slot the controller may write:
no Cycle bit is the ring's, and every Link points to the next segment (R33, R243). -/
theorem producerWrites_lap {kind : RingKind} {segs : List Segment} {s : State} (hm : Memory.wf s.mem = true)
    (hcheck : checkSegments segs Config.prodSegMin Config.prodSegMax = none) (hapart : segmentsApart segs)
    (hctrl : ∀ a, inSegments segs a = true → s.ctrlMayWrite a = false) :
    LapInv (producerWrites segs s).mem (newProducer kind segs) ∧
      LinkInv (producerWrites segs s).mem (newProducer kind segs) := by
  obtain ⟨hne, hsegs⟩ := checkSegments_none hcheck
  obtain ⟨first, rest, rfl⟩ := List.exists_cons_of_ne_nil hne
  have hfresh {i : Nat} {g : Segment} (hg : (first :: rest)[i]? = some g) :=
    writeProducer_fresh first (fun g hg => ⟨producerSegment_pos (hsegs g hg), checkSegment_top (hsegs g hg)⟩) hapart
      hm hctrl hg
  refine ⟨fun i g hg j hj => ?_, fun i g g' hg hg' => ?_⟩
  · have hbefore : beforeCursor (newProducer kind (first :: rest)) i j = false := by simp [beforeCursor, newProducer]
    rw [hbefore]
    exact (hfresh hg).slotCycle hj
  · obtain ⟨-, haligned, -⟩ := checkSegment_none (hsegs g' (List.mem_of_getElem? hg'))
    have hwords := (hfresh hg).linkWords (by rw [nextSegment hg hg']; exact haligned)
    rwa [nextSegment hg hg'] at hwords

/-- Settles O38: the new ring is disjoint from the others, so from every slot the controller may write. -/
theorem lapInvAtConstruction : Obligations.LapInvAtConstruction := by
  intro kind segs s t hinv hlive hexec hdis
  change execInitProducer kind segs s = .next t at hexec
  rw [execInitProducer, request_live hlive] at hexec
  split at hexec
  · cases hexec
    exact .inl ⟨_, rfl⟩
  · rename_i hcheck
    cases hexec
    obtain ⟨evs, e⟩ := producerWrites_effect hcheck s
    have hrings : ((producerWrites segs s).addRing (.producer (newProducer kind segs))).rings =
        s.rings ++ [.producer (newProducer kind segs)] := congrArg (· ++ _) e.rings
    replace hdis : RingsDisjoint (s.rings ++ [.producer (newProducer kind segs)]) := hrings ▸ hdis
    have hnew : (s.rings ++ [Ring.producer (newProducer kind segs)])[s.rings.length]? =
        some (.producer (newProducer kind segs)) := by simp
    have hctrl (a : Nat) (ha : inSegments segs a = true) : s.ctrlMayWrite a = false := by
      have hnone := consumerHolds_disjoint hdis hnew ha
      rw [List.any_append, Bool.or_eq_false_iff] at hnone
      exact hnone.1
    obtain ⟨hlap, hlink⟩ := producerWrites_lap (kind := kind) hinv.memory hcheck (hdis.segmentsApart hnew) hctrl
    exact .inr ⟨newProducer kind segs, (congrArg (·[s.rings.length]?) hrings).trans hnew, rfl, hlap, hlink⟩

/-! ## The Cycle bits after a step (R33, R247) -/

/-- What O39 says of producer ring `r`, which was `p`: it is there, at a lap, and its Links are kept. -/
def LapKept (s t : State) (r : Nat) (p : ProducerRing) : Prop :=
  ∃ q : ProducerRing, t.rings[r]? = some (.producer q) ∧ LapInv t.mem q ∧ (LinkInv s.mem p → LinkInv t.mem q)

/-- An enqueue writes the Cycle bit of slot `j` of segment `i`: at the cursor, and of the Link after it when that is the
next slot (R245, R247). -/
def setsCycle (g : Segment) (p : ProducerRing) (i j : Nat) : Bool :=
  i == p.seg && (j == p.idx || (p.idx + 2 == g.size && j == p.idx + 1))

theorem setsCycle_iff {g : Segment} {p : ProducerRing} {i j : Nat} :
    setsCycle g p i j = true ↔ i = p.seg ∧ (j = p.idx ∨ (p.idx + 2 = g.size ∧ j = p.idx + 1)) := by simp [setsCycle]

theorem beforeCursor_iff {p : ProducerRing} {i j : Nat} :
    beforeCursor p i j = true ↔ i < p.seg ∨ (i = p.seg ∧ j < p.idx) := by simp [beforeCursor]

/-- The Cycle bit that an enqueue gives its TRB (R245). -/
theorem dw3_withCycle (t : Trb) (b : Bool) : (dw3 (withCycle t b)).getLsbD 0 = b := by
  rw [dw3, getLsbD_field, withCycle, getLsbD_putBits]
  simp [trbBit]

/-- The Cycle bit of a traversed Link (R247). -/
theorem linkControl_cycle (ch tc cycle : Bool) : (linkControl ch tc cycle).getLsbD 0 = cycle := by
  cases ch <;> cases tc <;> cases cycle <;> decide

/-- A Link's DW3 is in its segment. -/
theorem linkByte_segment {g : Segment} {a : Nat} (hsize : 1 ≤ g.size) (ht : g.base.toNat + 16 * g.size ≤ 2 ^ 64)
    (h : linkByte g a) : segmentHolds g a = true := by
  obtain ⟨k, hk, rfl⟩ := h
  exact slotByte_segment (j := g.size - 1) ht (by omega) ⟨12 + k, by omega, byteAddr_add _ 12 k⟩

/-- The cursor of a ring moves past the slots whose Cycle bits an enqueue sets, and past those only; when it comes back
to the first segment, the other Cycle State makes every slot one after the cursor (R33, R247). -/
theorem beforeCursor_enqueueAt {g : Segment} {p : ProducerRing} (v : Trb) (s : State) (hseg : p.seg < p.segs.length)
    {i j : Nat} (hi : i < p.segs.length) (hj : i = p.seg → j < g.size) :
    (if beforeCursor (enqueueAt g v p s).1 i j then (enqueueAt g v p s).1.pcs else !(enqueueAt g v p s).1.pcs) =
      if beforeCursor p i j || setsCycle g p i j then p.pcs else !p.pcs := by
  rw [enqueueAt_ring]
  by_cases hfill : p.idx + 2 = g.size
  · rw [if_pos hfill]
    have hpassed : (beforeCursor p i j || setsCycle g p i j) = true ↔ i ≤ p.seg := by
      rw [Bool.or_eq_true, beforeCursor_iff, setsCycle_iff]
      omega
    by_cases hlast : p.seg + 1 = p.segs.length
    · have htc : (p.seg + 1 == p.segs.length) = true := beq_iff_eq.mpr hlast
      have hfirst : (p.seg + 1) % p.segs.length = 0 := by rw [hlast, Nat.mod_self]
      rw [if_pos (hpassed.mpr (by omega)), htc, hfirst]
      simp [beforeCursor]
    · have htc : (p.seg + 1 == p.segs.length) = false := beq_false_of_ne hlast
      have hnext : (p.seg + 1) % p.segs.length = p.seg + 1 := Nat.mod_eq_of_lt (by omega)
      have hlt : (i < p.seg + 1 ∨ (i = p.seg + 1 ∧ j < 0)) ↔ i ≤ p.seg := by omega
      simp only [htc, hnext, hpassed, beforeCursor_iff, hlt, Bool.xor_false]
  · rw [if_neg hfill]
    have hsameSeg : (enqueued v p).seg = p.seg := rfl
    have hnextIdx : (enqueued v p).idx = p.idx + 1 := rfl
    have hpcs : (enqueued v p).pcs = p.pcs := rfl
    have hmoved : beforeCursor (enqueued v p) i j = true ↔ (beforeCursor p i j || setsCycle g p i j) = true := by
      rw [Bool.or_eq_true, beforeCursor_iff, beforeCursor_iff, setsCycle_iff]
      omega
    simp only [hmoved, hpcs]

theorem Effect.setRing_rings {s s' : State} {W : Nat → Prop} {evs : List Access} (e : Effect s s' W evs) (r : Nat)
    (g : Ring) : (s'.setRing r g).rings = s.rings.set r g := by
  rw [State.setRing_rings, e.rings]

/-- An enqueue keeps the segments of its ring. -/
theorem enqueueAt_segs (g : Segment) (v : Trb) (p : ProducerRing) (s : State) :
    (enqueueAt g v p s).1.segs = p.segs := by
  rw [enqueueAt_ring]
  split <;> rfl

theorem enqueueAt_regions (g : Segment) (v : Trb) (p : ProducerRing) (s : State) :
    ringRegions (.producer (enqueueAt g v p s).1) = ringRegions (.producer p) :=
  congrArg (List.map _) (enqueueAt_segs g v p s)

/-- An advance keeps the memory of its ring. -/
theorem advance_regions (g : Segment) (c : ConsumerRing) (phase : Phase) :
    ringRegions (.consumer { advance g c with phase := phase }) = ringRegions (.consumer c) := by
  unfold advance
  split
  · split <;> rfl
  · rfl

section

variable {s : State} {r : Nat} {p : ProducerRing} (hinv : MachineInv s) (hdis : RingsDisjoint s.rings)
  (hr : s.rings[r]? = some (.producer p))

include hdis hr in
/-- The bytes of a producer ring change only where the block writes. -/
theorem Effect.producerBytes {s' : State} {W : Nat → Prop} {evs : List Access} (e : Effect s s' W evs) {a : Nat}
    (ha : inSegments p.segs a = true) (hw : ¬ W a) : memGet s'.mem a = memGet s.mem a :=
  e.mem a (consumerHolds_disjoint hdis hr ha) hw

include hinv hdis hr in
/-- A lap is kept by accesses that write none of the ring's bytes. -/
theorem LapKept.ofEffect {s' t : State} {W : Nat → Prop} {evs : List Access} (e : Effect s s' W evs)
    (hw : ∀ a, inSegments p.segs a = true → ¬ W a) (hlap : LapInv s.mem p) (hmem : t.mem = s'.mem)
    (hring : t.rings[r]? = some (.producer p)) : LapKept s t r p := by
  have hbytes (a : Nat) (ha : inSegments p.segs a = true) : memGet s'.mem a = memGet s.mem a :=
    e.producerBytes hdis hr ha (hw a ha)
  refine ⟨p, hring, ?_, fun hlink => ?_⟩
  · rw [hmem]
    exact hlap.congr (fun i g hg => (hinv.producerSegs hr hg).2) hbytes
  · rw [hmem]
    refine hlink.congr rfl fun i g hg w hw => ?_
    obtain ⟨hsize, ht⟩ := hinv.producerSegs hr hg
    have hw16 : w + 4 ≤ 16 := by rcases List.mem_pair.mp hw with rfl | rfl <;> omega
    exact memGetWord_segment_congr ht
      (fun a ha => hbytes a (List.any_eq_true.mpr ⟨g, List.mem_of_getElem? hg, ha⟩)) (by omega) hw16

variable {g : Segment} (hg : p.segs[p.seg]? = some g)

include hinv hr hg in
/-- An enqueue writes bytes of its ring only (R245, R247). -/
theorem enqueueAt_writes_own {a : Nat}
    (ha : slotByte (slotAddr g p.idx) a ∨ (fillsSegment g p ∧ linkByte g a)) :
    ringHolds (.producer p) a = true := by
  have hidx := (hinv.producerSlots hr hg).2
  obtain ⟨hsize, ht⟩ := hinv.producerSegs hr hg
  refine List.any_eq_true.mpr ⟨g, List.mem_of_getElem? hg, ?_⟩
  exact ha.elim (slotByte_segment ht (by omega)) fun h => linkByte_segment (by omega) ht h.2

include hinv hdis hr hg in
/-- An enqueue leaves every word but those of the slot at the cursor, and DW3 of the Link when it fills the segment. -/
theorem enqueueAt_word (v : Trb) {i j w : Nat} {g' : Segment} (hg' : p.segs[i]? = some g') (hj : j < g'.size)
    (hw : w + 4 ≤ 16) (hnot : i = p.seg → j ≠ p.idx ∧ (fillsSegment g p → j = p.idx + 1 → w + 4 ≤ 12)) :
    memGetWord (enqueueAt g v p s).2.mem (slotAddr g' j + BitVec.ofNat 64 w) =
      memGetWord s.mem (slotAddr g' j + BitVec.ofNat 64 w) := by
  have hidx := (hinv.producerSlots hr hg).2
  obtain ⟨hsize, ht⟩ := hinv.producerSegs hr hg
  obtain ⟨-, ht'⟩ := hinv.producerSegs hr hg'
  have hheld (k : Nat) (hk : k < 4) : segmentHolds g' (byteAddr (slotAddr g' j + BitVec.ofNat 64 w) k) = true := by
    rw [byteAddr_slotWord ht' hj (by omega), segmentHolds_iff]
    omega
  refine (enqueueAt_effect g v p s).word (fun k hk => ?_) fun k hk hbyte => ?_
  · exact consumerHolds_disjoint hdis hr (List.any_eq_true.mpr ⟨g', List.mem_of_getElem? hg', hheld k hk⟩)
  · by_cases hseg : i = p.seg
    · obtain rfl : g = g' := Option.some.inj (hg.symm.trans (hseg ▸ hg'))
      obtain ⟨hslot, hlast⟩ := hnot hseg
      rcases hbyte with hbyte | ⟨hfill, l, hl, hbyte⟩
      · rw [slotByte_iff ht (by omega), byteAddr_slotWord ht hj (by omega)] at hbyte
        omega
      · rw [byteAddr_slotWord ht hj (by omega), byteAddr_slotWord (w := 12) ht (by omega) (by omega)] at hbyte
        have hfull : p.idx + 2 = g.size := hfill
        have := hlast hfill (by omega)
        omega
    · have hother := segmentHolds_disjoint (hdis.segmentsApart hr) hg' hg hseg (hheld k hk)
      have hcursor : segmentHolds g (byteAddr (slotAddr g' j + BitVec.ofNat 64 w) k) = true :=
        hbyte.elim (slotByte_segment ht (by omega)) fun h => linkByte_segment (by omega) ht h.2
      exact absurd hcursor (by simp [hother])

include hinv hdis hr hg in
/-- The Cycle bit of the slot that an enqueue fills is the ring's Cycle State, whatever follows (R245). -/
theorem enqueueAt_cursorCycle (v : Trb) : slotCycle (enqueueAt g v p s).2.mem g p.idx = p.pcs := by
  have hidx := (hinv.producerSlots hr hg).2
  obtain ⟨hsize, ht⟩ := hinv.producerSegs hr hg
  have hctrl (k : Nat) (hk : k < 16) : s.ctrlMayWrite (byteAddr (slotAddr g p.idx) k) = false :=
    consumerHolds_disjoint hdis hr (List.any_eq_true.mpr
      ⟨g, List.mem_of_getElem? hg, slotByte_segment ht (by omega) ⟨k, hk, rfl⟩⟩)
  obtain ⟨-, -, -, hdw3⟩ := trbWrite_words (slotAddr g p.idx) (withCycle v p.pcs) hinv.memory hctrl
  have hwritten : slotCycle (trbWrite (slotAddr g p.idx) (withCycle v p.pcs) s).mem g p.idx = p.pcs := by
    rw [slotCycle, hdw3, dw3_withCycle]
  rw [enqueueAt_eq]
  split
  · refine (congrArg (·.getLsbD 0) ((traverse_effect g _ _).word (fun k hk => ?_) fun k hk hbyte => ?_)).trans hwritten
    · rw [ctrlMayWrite_congr (trbWrite_effect _ _ s).rings, byteAddr_add _ 12]
      exact hctrl _ (by omega)
    · obtain ⟨l, hl, e⟩ := hbyte
      rw [byteAddr_slotWord (w := 12) ht (by omega) (by omega),
        byteAddr_slotWord (w := 12) ht (by omega) (by omega)] at e
      omega
  · exact hwritten

include hinv in
/-- The Cycle bit of the Link that an enqueue traverses is the Cycle State before it (R247). -/
theorem enqueueAt_linkCycle (v : Trb) (hfill : p.idx + 2 = g.size) :
    slotCycle (enqueueAt g v p s).2.mem g (p.idx + 1) = p.pcs := by
  have hlink : p.idx + 1 = g.size - 1 := by omega
  have hm : Memory.wf (orderW (trbWrite (slotAddr g p.idx) (withCycle v p.pcs) s)).mem = true :=
    (trbWrite_effect _ _ s).memWf hinv.memory
  rw [enqueueAt_eq, if_pos hfill, slotCycle, hlink, traverse]
  dsimp only
  rw [memWrite_word _ _ hm, linkControl_cycle]
  rfl

include hinv hdis hr hg in
/-- An enqueue keeps the lap of its ring and the targets of its Links. -/
theorem enqueueAt_keepsLap (v : Trb) (hlap : LapInv s.mem p) :
    LapInv (enqueueAt g v p s).2.mem (enqueueAt g v p s).1 ∧
      (LinkInv s.mem p → LinkInv (enqueueAt g v p s).2.mem (enqueueAt g v p s).1) := by
  have hsegs := enqueueAt_segs g v p s
  have hidx := (hinv.producerSlots hr hg).2
  refine ⟨fun i g' hg' j hj => ?_, fun hlink => hlink.congr hsegs fun i g' hg' w hw => ?_⟩
  · rw [hsegs] at hg'
    have hsame (hi : i = p.seg) : g' = g := Option.some.inj (hg'.symm.trans (hi ▸ hg))
    rw [beforeCursor_enqueueAt v s (List.getElem?_eq_some_iff.mp hg).1 (List.getElem?_eq_some_iff.mp hg').1
      fun hi => hsame hi ▸ hj]
    by_cases hset : setsCycle g p i j = true
    · rw [hset, Bool.or_true, if_pos rfl]
      obtain ⟨hi, rfl | ⟨hfill, rfl⟩⟩ := setsCycle_iff.mp hset
      · rw [hsame hi]
        exact enqueueAt_cursorCycle hinv hdis hr hg v
      · rw [hsame hi]
        exact enqueueAt_linkCycle hinv v hfill
    · have hkept := enqueueAt_word hinv hdis hr hg v hg' hj (w := 12) (by omega) fun hi =>
        ⟨fun e => hset (setsCycle_iff.mpr ⟨hi, .inl e⟩),
          fun hf e => absurd (setsCycle_iff.mpr ⟨hi, .inr ⟨hf, e⟩⟩) hset⟩
      have hcycle : slotCycle (enqueueAt g v p s).2.mem g' j = slotCycle s.mem g' j :=
        congrArg (·.getLsbD 0) hkept
      rw [hcycle, hlap i g' hg' j hj]
      simp [hset]
  · obtain ⟨hsize, -⟩ := hinv.producerSegs hr hg'
    have hw8 : w + 4 ≤ 12 := by rcases List.mem_pair.mp hw with rfl | rfl <;> omega
    refine enqueueAt_word hinv hdis hr hg v hg' (by omega) (by omega) fun hi => ⟨?_, fun _ _ => hw8⟩
    rw [show g' = g from Option.some.inj (hg'.symm.trans (hi ▸ hg))]
    omega

end

section

variable {s s' t : State} {r : Nat} {p : ProducerRing} (hinv : MachineInv s) (hdis : RingsDisjoint t.rings)
  (hr : s.rings[r]? = some (.producer p)) (hlap : LapInv s.mem p)

include hinv hdis hr hlap

/-- A new ring is built in bytes apart from the ring's (R364 (a)). -/
theorem LapKept.ofAddRing {W : Nat → Prop} {evs : List Access} {g : Ring} (e : Effect s s' W evs)
    (hW : ∀ a, W a → ringHolds g a = true) (hmem : t.mem = s'.mem) (hrings : t.rings = s.rings ++ [g]) :
    LapKept s t r p := by
  rw [hrings] at hdis
  have hlt : r < s.rings.length := (List.getElem?_eq_some_iff.mp hr).1
  have hold : (s.rings ++ [g])[r]? = some (.producer p) := (List.getElem?_append_left hlt).trans hr
  refine .ofEffect hinv hdis.of_append hr e (fun a ha hwa => ?_) hlap hmem (hrings ▸ hold)
  have hother : ringHolds g a = false :=
    ringHolds_disjoint hdis hold (j := s.rings.length) (by simp) (by omega) ha
  exact absurd (hW a hwa) (by simp [hother])

/-- An enqueue on any producer ring: on this one it writes what the new cursor asks for, on another it writes in that
one's bytes. -/
theorem LapKept.ofEnqueue {r' : Nat} {p' : ProducerRing} {g : Segment} {v : Trb}
    (hr' : s.rings[r']? = some (.producer p')) (hg : producerSegment p' = some g)
    (hmem : t.mem = (enqueueAt g v p' s).2.mem)
    (hrings : t.rings = s.rings.set r' (.producer (enqueueAt g v p' s).1)) : LapKept s t r p := by
  rw [hrings] at hdis
  replace hdis := hdis.of_set hr' (enqueueAt_regions g v p' s)
  by_cases hsame : r' = r
  · subst hsame
    obtain rfl : p = p' := Ring.producer.inj (Option.some.inj (hr.symm.trans hr'))
    have hlt : r' < s.rings.length := (List.getElem?_eq_some_iff.mp hr).1
    obtain ⟨hkept, hlink⟩ := enqueueAt_keepsLap hinv hdis hr hg v hlap
    exact ⟨_, hrings ▸ List.getElem?_set_self hlt, hmem ▸ hkept, hmem ▸ hlink⟩
  · refine .ofEffect hinv hdis hr (enqueueAt_effect g v p' s) (fun a ha hwa => ?_) hlap hmem
      (hrings ▸ (List.getElem?_set_ne hsame).trans hr)
    have hother : ringHolds (.producer p) a = false :=
      ringHolds_disjoint hdis hr' hr hsame (enqueueAt_writes_own hinv hr' hg hwa)
    exact absurd ha (by simpa [ringHolds] using hother)

/-- A dequeue moves the cursor of a consumer ring and writes nothing. -/
theorem LapKept.ofDequeue {r' : Nat} {c : ConsumerRing} {g : Segment} {evs : List Access}
    (hr' : s.rings[r']? = some (.consumer c)) (e : Effect s s' (fun _ => False) evs) (hmem : t.mem = s'.mem)
    (hrings : t.rings = s.rings.set r' (.consumer { advance g c with phase := .running })) : LapKept s t r p := by
  rw [hrings] at hdis
  have hne : r' ≠ r := by
    rintro rfl
    exact absurd (hr.symm.trans hr') (by simp)
  exact .ofEffect hinv (hdis.of_set hr' (advance_regions g c .running)) hr e (fun _ _ => id) hlap hmem
    (hrings ▸ (List.getElem?_set_ne hne).trans hr)

/-- Every instruction keeps the lap of every producer ring. -/
theorem exec_keepsLap {i : Instr} (hexec : exec i s = .next t) : LapKept s t r p := by
  by_cases hlive : s.fault = none
  · have hres := exec_live i hlive
    rw [hexec] at hres
    cases hres with
    | faults => exact ⟨p, hr, hlap, id⟩
    | answers e =>
      have hrings := e.rings
      exact .ofEffect hinv (hrings ▸ hdis) hr e (fun _ _ => id) hlap rfl (hrings ▸ hr)
    | addsRing e hW => exact .ofAddRing hinv hdis hr hlap e hW rfl (congrArg (· ++ _) e.rings)
    | enqueues _ hr' hg =>
      exact .ofEnqueue hinv hdis hr hlap hr' hg rfl ((enqueueAt_effect _ _ _ s).setRing_rings _ _)
    | dequeues _ hr' _ e => exact .ofDequeue hinv hdis hr hlap hr' e rfl (e.setRing_rings _ _)
  · rw [exec_dead i hlive] at hexec
    cases hexec
    exact ⟨p, hr, hlap, id⟩

end

/-- Settles O39: a step is the controller's turn, which writes no byte of a producer ring, or one instruction. -/
theorem lapInvKept : Obligations.LapInvKept := by
  intro s t r p hinv hdis hr hlap hstep
  rcases step_cases hstep with rfl | ⟨i, port, hexec⟩
  · have e := controllerTurn_effect s
    exact LapKept.ofEffect hinv (e.rings ▸ hdis) hr e (fun _ _ => id) hlap rfl (e.rings ▸ hr)
  · exact exec_keepsLap (s := { s with port := port }) (hinv.withPort port) hdis hr hlap hexec


end Sys2Proof.Machine

/-! The statements of 20_memory.md. Sequential consistency and the order of an ENQUEUE's accesses are read off the
`Effect` of the operations; that a slot's bytes decode to its instruction rests on `decodeTrb_of_encode`. -/

namespace Sys2Proof.Machine

/-! ## Sequential consistency (R60) -/

/-- Every instruction keeps the trace sequentially consistent: each access it makes is in an `Effect`. -/
theorem exec_keepsTrace {m : Memory} {i : Instr} {s t : State} (h : TraceOver m s) (hexec : exec i s = .next t) :
    TraceOver m t := by
  by_cases hlive : s.fault = none
  · have hres := exec_live i hlive
    rw [hexec] at hres
    cases hres with
    | faults => exact h
    | answers e => exact e.sc m h
    | addsRing e => exact e.sc m h
    | enqueues => exact (enqueueAt_effect _ _ _ s).sc m h
    | dequeues _ _ _ e => exact e.sc m h
  · rw [exec_dead i hlive] at hexec
    cases hexec
    exact h

/-- Settles O57: the controller's turn and every instruction write memory and the trace together. -/
theorem sequentialConsistency : Obligations.SequentialConsistency := by
  intro m s t h hstep
  rcases step_cases hstep with rfl | ⟨i, port, hexec⟩
  · exact (controllerTurn_effect s).sc m h
  · exact exec_keepsTrace (s := { s with port := port }) h hexec

/-! ## The bits of a TRB that an enqueue looks at (R244, R245, R248) -/

/-- The Type as a number (R80). -/
theorem typeField_toNat (t : Trb) : (typeField t).toNat = trbBits t 106 6 := field_toNat t 106 6

/-- The Types that a kind of ring accepts, by the groups of R159 and by number (R244). -/
theorem accepts_iff_acceptedType (k : RingKind) (t : Trb) :
    accepts k (groupOf (kindOf t)) = true ↔ acceptedType k (trbBits t 106 6) := by
  rw [← typeField_toNat, kindOf]
  generalize typeField t = ty
  revert ty
  cases k with
  | command =>
    simp only [acceptedType]
    decide
  | transfer =>
    simp only [acceptedType]
    decide

/-- The Types that have a Chain bit, by the layout tables and by number (R248). -/
theorem hasChain_kindOf (t : Trb) : hasChain (kindOf t) = [1, 3, 4, 5, 6, 7, 8].contains (trbBits t 106 6) := by
  rw [← typeField_toNat, kindOf]
  generalize typeField t = ty
  revert ty
  decide

theorem getLsbD_withCycle (t : Trb) (b : Bool) (i : Nat) :
    (withCycle t b).getLsbD i = if i = 96 then b else t.getLsbD i := by
  rw [withCycle, getLsbD_putBits]
  by_cases h : i = 96
  · subst h
    simp [trbBit]
  · rw [if_neg (by omega), if_neg h]

theorem cycleSet_withCycle (t : Trb) (b : Bool) : cycleSet t b (withCycle t b) := by
  refine ⟨?_, fun i hi => ?_⟩
  · rw [getLsbD_withCycle, if_pos rfl]
  · rw [getLsbD_withCycle, if_neg hi]

/-- The Chain bit that an enqueue hands to the Link is the TRB's own (R245, R248). -/
theorem chainOf_withCycle (t : Trb) (b : Bool) : chainOf (withCycle t b) = chainBit t := by
  rw [chainOf, chainBit, kindOf_withCycle, hasChain_kindOf, getLsbD_withCycle, if_neg (by decide)]

/-! ## The accesses of an enqueue (R57, R245, R247) -/

/-- An ENQUEUE that its ring accepts performs the enqueue at the cursor. -/
theorem exec_enqueue {r : Nat} {v : Trb} {s : State} {p : ProducerRing} {g : Segment} (hlive : s.fault = none)
    (hr : s.rings[r]? = some (.producer p)) (hg : p.segs[p.seg]? = some g)
    (ha : acceptedType p.kind (trbBits v 106 6)) :
    exec (.enqueue r v) s =
      .next { (enqueueAt g v p s).2.setRing r (.producer (enqueueAt g v p s).1) with
        result := some (.address (slotAddr g p.idx)) } := by
  have hp : producer? s r = some p := producer?_eq_some.mpr hr
  have hseg : producerSegment p = some g := hg
  have haccept := (accepts_iff_acceptedType p.kind v).mpr ha
  show execEnqueue r v s = _
  simp only [execEnqueue, request_live hlive, onProducer, hp, hseg, haccept, if_true, answer_eq]

/-- Settles O34: the accesses of an enqueue are those of its `Effect`; the Cycle and Chain bits are read off the TRB. -/
theorem enqueueOrder : Obligations.EnqueueOrder := by
  intro r v s p g hlive hr hg ha
  refine ⟨_, withCycle v p.pcs, exec_enqueue hlive hr hg ha, cycleSet_withCycle v p.pcs, ?_⟩
  have hblock := (enqueueAt_effect g v p s).block
  simpa only [enqueueEvents, traverseEvents, trbWriteEvents, enqueued, chainOf_withCycle, slotAddr_zeroOffset,
    State.setRing_trace] using hblock

end Sys2Proof.Machine

namespace Sys2Proof

/-! ## The bytes of a TRB (R53, R99) -/

theorem length_trbBytes (t : Trb) : (trbBytes t).length = 16 := by simp [trbBytes]

theorem getElem?_trbBytes (t : Trb) {k : Nat} (hk : k < 16) : (trbBytes t)[k]? = some (trbByte t k) := by
  simp [trbBytes, hk]

theorem trbByte_toNat (t : Trb) (k : Nat) : (trbByte t k).toNat = Machine.trbBits t (8 * k) 8 := field_toNat t (8 * k) 8

/-- Bit `i` of the TRB that bytes hold is bit `i % 8` of byte `i / 8` (R53). -/
theorem getLsbD_trbOfBytes (bs : List Byte) {i : Nat} (hi : i < 128) :
    (trbOfBytes bs).getLsbD i = (bs[i / 8]?.getD 0#8).getLsbD (i % 8) := by
  induction bs generalizing i with
  | nil => simp [trbOfBytes]
  | cons b bs ih =>
    rw [trbOfBytes, List.foldr_cons, ← trbOfBytes, BitVec.getLsbD_or, BitVec.getLsbD_shiftLeft,
      BitVec.getLsbD_setWidth]
    by_cases h8 : i < 8
    · simp [hi, h8, Nat.div_eq_of_lt h8, Nat.mod_eq_of_lt h8]
    · obtain ⟨j, rfl⟩ : ∃ j, i = j + 8 := ⟨i - 8, by omega⟩
      have hdiv : (j + 8) / 8 = j / 8 + 1 := by omega
      rw [Nat.add_sub_cancel, ih (by omega), hdiv, BitVec.getLsbD_of_ge b (j + 8) (by omega)]
      simp [hi]

/-- The bytes of a TRB hold it (R53). -/
theorem trbOfBytes_trbBytes (t : Trb) : trbOfBytes (trbBytes t) = t := by
  apply BitVec.eq_of_getLsbD_eq
  intro i hi
  have hbit : 8 * (i / 8) + i % 8 = i := Nat.div_add_mod i 8
  have hlt : i % 8 < 8 := Nat.mod_lt i (by decide)
  rw [getLsbD_trbOfBytes _ hi, getElem?_trbBytes t (by omega), Option.getD_some, trbByte, BitVec.getLsbD_extractLsb',
    hbit]
  simp [hlt]

/-- The decoder takes a TRB's 16 bytes and leaves the rest (R99). -/
theorem decodeBytes_trbBytes_append (t : Trb) (rest : List Byte) :
    decodeBytes (trbBytes t ++ rest) = .ok (decodeTrb t, rest) := by
  have hlen := length_trbBytes t
  rw [decodeBytes, if_neg (by rw [List.length_append]; omega), ← hlen, List.take_left, List.drop_left,
    trbOfBytes_trbBytes]

/-! ## Unrecognized TRBs (R83, R156) -/

/-- The bits of the Type from its bit `k` up. -/
theorem field_typeField_toNat (t : Trb) {k : Nat} (hk : k ≤ 6) :
    (field t (106 + k) (6 - k)).toNat = (typeField t).toNat / 2 ^ k := by
  have h6 : 2 ^ 6 = 2 ^ k * 2 ^ (6 - k) := by rw [← Nat.pow_add, Nat.add_sub_cancel' hk]
  rw [typeField, field_toNat, field_toNat, h6, Nat.mod_mul_right_div_self, Nat.div_div_eq_div_mul, Nat.pow_add]

theorem decodeUnrecognized_encodeUnrecognized {n m : Nat} (h : n + m = 6) (upper : BitVec m) (o : UnrecognizedTrb n) :
    decodeUnrecognized n (encodeUnrecognized upper o) = o := by
  simp (disch := omega) only [decodeUnrecognized, encodeUnrecognized, dw0, dw1, dw2, field_or, field_place_same,
    field_place_apart, BitVec.or_zero, BitVec.zero_or]

/-- The upper bits of the Type of an Unrecognized encoding are those that its row fixes (R83, R156). -/
theorem typeField_encodeUnrecognized {n m : Nat} (h : n + m = 6) (upper : BitVec m) (o : UnrecognizedTrb n) :
    (typeField (encodeUnrecognized upper o)).toNat / 2 ^ n = upper.toNat := by
  obtain rfl : m = 6 - n := by omega
  rw [← field_typeField_toNat _ (by omega)]
  simp (disch := omega) only [encodeUnrecognized, field_or, field_place_same, field_place_apart, BitVec.or_zero,
    BitVec.zero_or]

/-- The Types of no defined variant (R83). -/
def unlistedType (ty : Nat) : Prop := ty = 0 ∨ (26 ≤ ty ∧ ty ≤ 31) ∨ 40 ≤ ty

theorem kindOf_unlisted {t : Trb} (h : unlistedType (typeField t).toNat) : kindOf t = .unrecognized := by
  rw [kindOf]
  generalize typeField t = ty at h ⊢
  revert ty
  simp only [unlistedType]
  decide

/-- The decoder on a Type that R82 does not list: the table's row by the number that the Type is (R83). -/
theorem decodeTrb_unlisted {t : Trb} (h : unlistedType (typeField t).toNat) :
    decodeTrb t =
      if (typeField t).toNat = 0 then .unrecognized0 (decodeUnrecognized 0 t)
      else if (typeField t).toNat / 2 = 13 then .unrecognized26 (decodeUnrecognized 1 t)
      else if (typeField t).toNat / 4 = 7 then .unrecognized28 (decodeUnrecognized 2 t)
      else if (typeField t).toNat / 8 = 5 then .unrecognized40 (decodeUnrecognized 3 t)
      else .unrecognized48 (decodeUnrecognized 4 t) := by
  have upper5 := field_typeField_toNat t (k := 1) (by decide)
  have upper4 := field_typeField_toNat t (k := 2) (by decide)
  have upper3 := field_typeField_toNat t (k := 3) (by decide)
  simp only [Nat.reduceAdd, Nat.reduceSub, Nat.reducePow] at upper5 upper4 upper3
  rw [decodeTrb, kindOf_unlisted h]
  simp only [decodeUnlisted, ← upper5, ← upper4, ← upper3, ← BitVec.toNat_inj, BitVec.toNat_ofNat,
    Nat.reducePow, Nat.reduceMod]

/-! ## The decoder on an encoding (R98, R155) -/

/-- The decoder gives the instruction that was encoded: its Type names the variant, and each of the variant's fields,
reserved ones included, is read back from where it was placed. -/
theorem decodeTrb_of_encode {i : Instr} {t : Trb} (h : encode i = some t) : decodeTrb t = i := by
  cases i with
  | normal | setupStage | dataStage | statusStage | isoch | link | eventData | noOp =>
    obtain rfl := Option.some.inj h
    simp (disch := omega) only [decodeTrb, kindOf, typeField, typeMap, field_or, field_place_same, field_place_apart,
      BitVec.or_zero, BitVec.zero_or, BitVec.reduceToNat, encodeNormal, decodeNormal, encodeSetupStage,
      decodeSetupStage, encodeDataStage, decodeDataStage, encodeStatusStage, decodeStatusStage, encodeIsoch,
      decodeIsoch, encodeLink, decodeLink, encodeEventData, decodeEventData, encodeNoOp, decodeNoOp]
  | enableSlot | disableSlot | addressDevice | configureEndpoint | evaluateContext | resetEndpoint | stopEndpoint
  | setTrDequeuePointer | resetDevice | forceEvent | negotiateBandwidth | setLatencyToleranceValue | getPortBandwidth
  | forceHeader | noOpCommand | getExtendedProperty | setExtendedProperty =>
    obtain rfl := Option.some.inj h
    simp (disch := omega) only [decodeTrb, kindOf, typeField, typeMap, field_or, field_place_same, field_place_apart,
      BitVec.or_zero, BitVec.zero_or, BitVec.reduceToNat, encodeEnableSlot, decodeEnableSlot, encodeDisableSlot,
      decodeDisableSlot, encodeAddressDevice, decodeAddressDevice, encodeConfigureEndpoint, decodeConfigureEndpoint,
      encodeEvaluateContext, decodeEvaluateContext, encodeResetEndpoint, decodeResetEndpoint, encodeStopEndpoint,
      decodeStopEndpoint, encodeSetTrDequeuePointer, decodeSetTrDequeuePointer, encodeResetDevice, decodeResetDevice,
      encodeForceEvent, decodeForceEvent, encodeNegotiateBandwidth, decodeNegotiateBandwidth,
      encodeSetLatencyToleranceValue, decodeSetLatencyToleranceValue, encodeGetPortBandwidth, decodeGetPortBandwidth,
      encodeForceHeader, decodeForceHeader, encodeNoOpCommand, decodeNoOpCommand, encodeGetExtendedProperty,
      decodeGetExtendedProperty, encodeSetExtendedProperty, decodeSetExtendedProperty]
  | transferEvent | commandCompletionEvent | portStatusChangeEvent | bandwidthRequestEvent | doorbellEvent
  | hostControllerEvent | deviceNotificationEvent | mfindexWrapEvent =>
    obtain rfl := Option.some.inj h
    simp (disch := omega) only [decodeTrb, kindOf, typeField, typeMap, field_or, field_place_same, field_place_apart,
      BitVec.or_zero, BitVec.zero_or, BitVec.reduceToNat, encodeTransferEvent, decodeTransferEvent,
      encodeCommandCompletionEvent, decodeCommandCompletionEvent, encodePortStatusChangeEvent,
      decodePortStatusChangeEvent, encodeBandwidthRequestEvent, decodeBandwidthRequestEvent, encodeDoorbellEvent,
      decodeDoorbellEvent, encodeHostControllerEvent, decodeHostControllerEvent, encodeDeviceNotificationEvent,
      decodeDeviceNotificationEvent, encodeMfindexWrapEvent, decodeMfindexWrapEvent]
  | unrecognized0 o =>
    obtain rfl := Option.some.inj h
    have htype : (typeField (encodeUnrecognized 0#6 o)).toNat / 1 = 0 := typeField_encodeUnrecognized rfl _ o
    rw [decodeTrb_unlisted (by unfold unlistedType; omega), if_pos (by omega),
      decodeUnrecognized_encodeUnrecognized rfl]
  | unrecognized26 o =>
    obtain rfl := Option.some.inj h
    have htype : (typeField (encodeUnrecognized 13#5 o)).toNat / 2 = 13 := typeField_encodeUnrecognized rfl _ o
    rw [decodeTrb_unlisted (by unfold unlistedType; omega), if_neg (by omega), if_pos htype,
      decodeUnrecognized_encodeUnrecognized rfl]
  | unrecognized28 o =>
    obtain rfl := Option.some.inj h
    have htype : (typeField (encodeUnrecognized 7#4 o)).toNat / 4 = 7 := typeField_encodeUnrecognized rfl _ o
    rw [decodeTrb_unlisted (by unfold unlistedType; omega), if_neg (by omega), if_neg (by omega), if_pos htype,
      decodeUnrecognized_encodeUnrecognized rfl]
  | unrecognized40 o =>
    obtain rfl := Option.some.inj h
    have htype : (typeField (encodeUnrecognized 5#3 o)).toNat / 8 = 5 := typeField_encodeUnrecognized rfl _ o
    rw [decodeTrb_unlisted (by unfold unlistedType; omega), if_neg (by omega), if_neg (by omega), if_neg (by omega),
      if_pos htype, decodeUnrecognized_encodeUnrecognized rfl]
  | unrecognized48 o =>
    obtain rfl := Option.some.inj h
    have htype : (typeField (encodeUnrecognized 3#2 o)).toNat / 16 = 3 := typeField_encodeUnrecognized rfl _ o
    rw [decodeTrb_unlisted (by unfold unlistedType; omega), if_neg (by omega), if_neg (by omega), if_neg (by omega),
      if_neg (by omega), decodeUnrecognized_encodeUnrecognized rfl]
  | read | get | update | write | trbNew | trbGet | trbSet | trbEncode | trbDecode | ringDoorbell => cases h
  | initProducer | enqueue | enqueuePointer | crcrValue => cases h
  | initEvent | dequeue | dequeuePointer | erdpValue | erstszValue | erstbaValue => cases h

/-- Settles O3: each byte is a field of the TRB, and the bytes hold the TRB whose decoding is the instruction. -/
theorem slotBytes : Obligations.SlotBytes := by
  intro i t rest h
  refine ⟨length_trbBytes t, fun k hk => ⟨_, getElem?_trbBytes t hk, trbByte_toNat t k⟩, ?_⟩
  rw [decodeBytes_trbBytes_append, decodeTrb_of_encode h]

end Sys2Proof

/-! The statements of 30_encoding.md. `typeMap` and `completionCode` are total matches on a number: what each answers,
and for which numbers it falls to its last case, is said once here. -/

namespace Sys2Proof

/-! ## The Type map (R81, R82, R83) -/

/-- A Type names a variant exactly when it is the variant's code (R82). -/
theorem typeMap_eq_defined {ty : BitVec 6} {v : Variant} : typeMap ty = .defined v ↔ ty.toNat = v.code := by
  constructor
  · intro h
    unfold typeMap at h
    split at h <;> cases h
    all_goals assumption
  · intro h
    obtain rfl : ty = BitVec.ofNat 6 v.code := by rw [← h, BitVec.ofNat_toNat, BitVec.setWidth_eq]
    cases v <;> rfl

/-- A TRB is Unrecognized exactly when R82 does not list its Type (R83). -/
theorem kindOf_eq_unrecognized {t : Trb} : kindOf t = .unrecognized ↔ unlistedType (typeField t).toNat := by
  refine ⟨fun h => ?_, kindOf_unlisted⟩
  unfold kindOf typeMap at h
  split at h <;> cases h
  simp only [imp_false] at *
  unfold unlistedType
  omega

/-- Settles O4: the Type map looks at the Type alone, and names each variant at its code. -/
theorem kindByType : Obligations.KindByType := by
  refine ⟨fun t t' h => ?_, fun t v => ?_, fun t => ?_⟩
  · have htype : typeField t = typeField t' := by
      rw [← BitVec.toNat_inj, Machine.typeField_toNat, Machine.typeField_toNat, h]
    rw [kindOf, kindOf, htype]
  · rw [kindOf, typeMap_eq_defined, Machine.typeField_toNat]
  · rw [kindOf_eq_unrecognized, Machine.typeField_toNat, unlistedType]

end Sys2Proof

namespace Sys2Proof.Machine

/-! ## What an Unrecognized TRB answers (R156) -/

/-- The fields of an Unrecognized value, by the places of the Type and the Cycle bit (R80, R156). -/
theorem unrecognizedFields_eq (t : Trb) :
    unrecognizedFields t =
      [(.raw, .words (dw0 t) (dw1 t) (dw2 t) (dw3 t)), numAt .type t 106 6, numAt .c t 96 1] := by
  simp only [unrecognizedFields, rawWords, numField, numAt, typeField_toNat, field_toNat, trbBits]

/-- A row whose upper Type bits leave only unlisted Types is Unrecognized, and a live state answers its fields. -/
theorem request_encodeUnrecognized {n m : Nat} (h : n + m = 6) (upper : BitVec m) (o : UnrecognizedTrb n) {s : State}
    (hlive : s.fault = none) (hrow : ∀ ty, ty / 2 ^ n = upper.toNat → unlistedType ty) :
    let t : Trb := encodeUnrecognized upper o
    kindOf t = .unrecognized ∧
      request s (answer (.decoded .unrecognized t (unrecognizedFields t))) =
        answered s (.decoded .unrecognized t
          [(.raw, .words (dw0 t) (dw1 t) (dw2 t) (dw3 t)), numAt .type t 106 6, numAt .c t 96 1]) := by
  refine ⟨kindOf_unlisted (hrow _ (typeField_encodeUnrecognized h upper o)), ?_⟩
  rw [request_live hlive, answer_eq, unrecognizedFields_eq, answered]

/-- Settles O10: each of the five rows fixes upper Type bits that only unlisted Types have (R83). -/
theorem unrecognizedTrbs : Obligations.UnrecognizedTrbs := by
  refine ⟨fun o s hlive => ?type0, fun o s hlive => ?types26, fun o s hlive => ?types28, fun o s hlive => ?types40,
    fun o s hlive => ?types48⟩
  case type0 =>
    exact request_encodeUnrecognized rfl 0#6 o hlive fun ty (h : ty / 1 = 0) => by unfold unlistedType; omega
  case types26 =>
    exact request_encodeUnrecognized rfl 13#5 o hlive fun ty (h : ty / 2 = 13) => by unfold unlistedType; omega
  case types28 =>
    exact request_encodeUnrecognized rfl 7#4 o hlive fun ty (h : ty / 4 = 7) => by unfold unlistedType; omega
  case types40 =>
    exact request_encodeUnrecognized rfl 5#3 o hlive fun ty (h : ty / 8 = 5) => by unfold unlistedType; omega
  case types48 =>
    exact request_encodeUnrecognized rfl 3#2 o hlive fun ty (h : ty / 16 = 3) => by unfold unlistedType; omega

/-! ## Completion codes (R90, R91) -/

/-- Encoding a completion code gives back the number it was made of (R91). -/
theorem completionNumber_completionCode (x : BitVec 8) : completionNumber (completionCode x) = x.toNat := by
  unfold completionCode
  split <;> simp only [completionNumber, *]

/-- The named completion codes are those of 0 to 36 but 30 (R90). -/
theorem completionNumber_named {c : CompletionCode} (h : ∀ x, c ≠ .unknown x) :
    completionNumber c ≠ 30 ∧ completionNumber c < 37 := by
  cases c with
  | unknown x => exact absurd rfl (h x)
  | _ => decide

/-- The catch-all is for the numbers that R90 does not name; a name cannot keep any of these. -/
theorem completionCode_eq_unknown {x : BitVec 8} :
    completionCode x = .unknown x ↔ x.toNat = 30 ∨ 37 ≤ x.toNat := by
  constructor
  · intro h
    unfold completionCode at h
    split at h <;> cases h
    simp only [imp_false] at *
    omega
  · intro hx
    have hnumber := completionNumber_completionCode x
    by_cases hnamed : ∀ y, completionCode x ≠ .unknown y
    · obtain ⟨hne, hlt⟩ := completionNumber_named hnamed
      omega
    · obtain ⟨y, hy⟩ := not_forall_not.mp hnamed
      rw [hy, completionNumber, BitVec.toNat_inj] at hnumber
      rw [hy, hnumber]

/-- Settles O5: the number is kept whether a name or the catch-all carries it. -/
theorem completionCodes : Obligations.CompletionCodes :=
  fun x => ⟨completionNumber_completionCode x, completionCode_eq_unknown⟩

end Sys2Proof.Machine

/-! The statements of 40_field_codec.md. A request is said once by what `Check` says of its list (`exec_update`,
`exec_write`); what is sent is read off bit by bit in each field (`getLsbD_compose`), and the accesses are those of the
`Effect` of `wordRead` and `wordWrite`. -/

namespace Sys2Proof.Machine

/-! ## Fields of a well-formed layout (R96) -/

theorem Layout.wf_iff {L : Layout} : L.wf = true ↔
    (∀ b < L.width.bits, L.fields.countP (fun p => p.covers b) = 1) ∧
      ∀ p ∈ L.fields, p.lo + p.width ≤ L.width.bits := by
  simp [Layout.wf]

/-- A bit past the word is in no field. -/
theorem covers_past {L : Layout} (hwf : L.wf = true) {b : Nat} (hb : L.width.bits ≤ b) :
    ∀ p ∈ L.fields, p.covers b = false := by
  intro p hp
  have hinside := (Layout.wf_iff.mp hwf).2 p hp
  rw [← Bool.not_eq_true, covers_iff]
  omega

/-- The fields after the one that has a bit do not have it. -/
theorem covers_after {L : Layout} (hwf : L.wf = true) {p : LayoutField} {b : Nat} (hb : p.covers b = true)
    {pre post : List LayoutField} (hfields : L.fields = pre ++ p :: post) : ∀ q ∈ post, q.covers b = false := by
  have hp : p ∈ L.fields := by simp [hfields]
  have hinside := (Layout.wf_iff.mp hwf).2 p hp
  have hbound := covers_iff.mp hb
  have honce := (Layout.wf_iff.mp hwf).1 b (by omega)
  rw [hfields, List.countP_append, List.countP_cons_of_pos (by exact hb)] at honce
  have hpost : post.countP (fun q => q.covers b) = 0 := by omega
  simpa [List.countP_eq_zero] using hpost

/-! ## The word sent, bit by bit (R123) -/

/-- The word made of the fields of a list, on top of the word `w`. -/
def composeOn (L : Layout) (snap : RegValue) (M : List Action) (w : RegValue) (fields : List LayoutField) : RegValue :=
  fields.foldl (fun w p => putBits w p.lo p.width (fieldSent L snap M p)) w

theorem compose_eq (L : Layout) (snap : RegValue) (M : List Action) :
    compose L snap M = composeOn L snap M 0#64 L.fields := rfl

/-- A bit that none of the fields has stays. -/
theorem getLsbD_composeOn_apart (L : Layout) (snap : RegValue) (M : List Action) {fields : List LayoutField} {b : Nat}
    (h : ∀ p ∈ fields, p.covers b = false) (w : RegValue) :
    (composeOn L snap M w fields).getLsbD b = w.getLsbD b := by
  induction fields generalizing w with
  | nil => rfl
  | cons p fields ih =>
    have hp : ¬ (p.lo ≤ b ∧ b < p.lo + p.width) := by
      rw [← covers_iff, h p List.mem_cons_self]
      decide
    calc (composeOn L snap M w (p :: fields)).getLsbD b
        = (putBits w p.lo p.width (fieldSent L snap M p)).getLsbD b := ih (fun q hq => h q (List.mem_cons_of_mem _ hq)) _
      _ = w.getLsbD b := by rw [getLsbD_putBits, if_neg hp]

/-- Bit `i` of a field in the word sent is bit `i` of what is sent in the field (R123). -/
theorem getLsbD_compose {L : Layout} (hwf : L.wf = true) (snap : RegValue) (M : List Action) {p : LayoutField}
    (hp : p ∈ L.fields) {i : Nat} (hi : i < p.width) :
    (compose L snap M).getLsbD (p.lo + i) = (fieldSent L snap M p).getLsbD i := by
  obtain ⟨pre, post, hfields⟩ := List.append_of_mem hp
  have hinside := (Layout.wf_iff.mp hwf).2 p hp
  have h64 := RegWidth.bits_le L.width
  have hcover : p.covers (p.lo + i) = true := covers_iff.mpr (by omega)
  rw [compose_eq, hfields, composeOn, List.foldl_append, List.foldl_cons]
  refine (getLsbD_composeOn_apart L snap M (covers_after hwf hcover hfields) _).trans ?_
  rw [getLsbD_putBits, if_pos (by omega), decide_eq_true (by omega), Bool.true_and, Nat.add_sub_cancel_left]

/-- No bit is sent above the width of the word. -/
theorem compose_fits {L : Layout} (hwf : L.wf = true) (snap : RegValue) (M : List Action) :
    (compose L snap M).toNat < 2 ^ L.width.bits := by
  rw [lt_two_pow_iff_bits]
  intro b hb
  rw [compose_eq, getLsbD_composeOn_apart L snap M (covers_past hwf hb)]
  simp

/-! ## The last action on a field (R121) -/

theorem lastAction_eq_some {M : List Action} {f : RegField} {a : Action} : lastAction M f = some a ↔ lastOn M f a := by
  rw [lastAction, List.find?_eq_some_iff_append, lastOn]
  constructor
  · rintro ⟨ha, post, pre, hM, hpost⟩
    refine ⟨pre.reverse, post.reverse, ?_, by simpa using ha, fun b hb => ?_⟩
    · simpa using congrArg List.reverse hM
    · simpa using hpost b (List.mem_reverse.mp hb)
  · rintro ⟨pre, post, rfl, ha, hpost⟩
    refine ⟨by simpa using ha, post.reverse, pre.reverse, by simp, fun b hb => ?_⟩
    simpa using hpost b (List.mem_reverse.mp hb)

theorem lastAction_eq_none {M : List Action} {f : RegField} : lastAction M f = none ↔ noneOn M f := by
  simp [lastAction, noneOn]

/-- The last action on a field is one on its name, which names it. -/
theorem lastOnField_eq_some {L : Layout} {M : List Action} {p : LayoutField} {a : Action} :
    lastOnField L M p = some a ↔ namedField L p.name = some p ∧ lastOn M p.name a := by
  rw [lastOnField]
  split
  · rename_i h
    rw [lastAction_eq_some, and_iff_right h]
  · rename_i h
    simp [h]

theorem lastOnField_eq_none {L : Layout} {M : List Action} {p : LayoutField}
    (h : noneOn M p.name ∨ namedField L p.name ≠ some p) : lastOnField L M p = none := by
  rcases h with h | h
  · rw [lastOnField, lastAction_eq_none.mpr h, ite_self]
  · exact if_neg h

/-- The last action on a name is an action on it. -/
theorem lastOn_field {M : List Action} {f : RegField} {a : Action} (h : lastOn M f a) : actionField a = f := by
  obtain ⟨-, -, -, ha, -⟩ := h
  exact ha

/-! ## What is sent in one field (R123) -/

section

variable {L : Layout} {snap : RegValue} {M : List Action} {p : LayoutField}

theorem fieldSent_asRead (h : p.cls = .ro ∨ p.cls = .rsvdP) : fieldSent L snap M p = getBits snap p.lo p.width := by
  rcases h with h | h <;> simp [fieldSent, h]

theorem fieldSent_rsvdZ (h : p.cls = .rsvdZ) : fieldSent L snap M p = 0#64 := by simp [fieldSent, h]

theorem fieldSent_rw_unset (h : p.cls = .rw) (hnone : lastOnField L M p = none) :
    fieldSent L snap M p = getBits snap p.lo p.width := by simp [fieldSent, h, hnone]

theorem fieldSent_rw_set (h : p.cls = .rw) {f : RegField} {x : Nat} (hset : lastOnField L M p = some (.set f x)) :
    fieldSent L snap M p = BitVec.ofNat 64 x := by simp [fieldSent, h, hset]

theorem fieldSent_rw1c_clear (h : p.cls = .rw1c) {f : RegField} (hclear : lastOnField L M p = some (.clear f)) :
    fieldSent L snap M p = BitVec.allOnes 64 := by simp [fieldSent, h, hclear]

theorem fieldSent_rw1c_else (h : p.cls = .rw1c) (hno : lastOnField L M p ≠ some (.clear p.name)) :
    fieldSent L snap M p = 0#64 := by
  simp only [fieldSent, h]
  split
  · rename_i f hf
    have hname := lastOn_field (lastOnField_eq_some.mp hf).2
    simp only [actionField] at hname
    exact absurd (hname ▸ hf) hno
  all_goals rfl

theorem fieldSent_rw1s_assert (h : p.cls = .rw1s) {f : RegField} (hassert : lastOnField L M p = some (.assert f)) :
    fieldSent L snap M p = BitVec.allOnes 64 := by simp [fieldSent, h, hassert]

theorem fieldSent_rw1s_else (h : p.cls = .rw1s) (hno : lastOnField L M p ≠ some (.assert p.name)) :
    fieldSent L snap M p = 0#64 := by
  simp only [fieldSent, h]
  split
  · rename_i f hf
    have hname := lastOn_field (lastOnField_eq_some.mp hf).2
    simp only [actionField] at hname
    exact absurd (hname ▸ hf) hno
  all_goals rfl

end

/-- Settles O22: a bit of a field in the word sent is what its class sends there. -/
theorem composeByClass : Obligations.ComposeByClass := by
  intro L snap M hwf _
  refine ⟨compose_fits hwf snap M, fun p hp i hi => ?_⟩
  have h64 : i < 64 := by
    have := (Layout.wf_iff.mp hwf).2 p hp
    have := RegWidth.bits_le L.width
    omega
  have hread : (getBits snap p.lo p.width).getLsbD i = snap.getLsbD (p.lo + i) := by
    rw [getLsbD_getBits, decide_eq_true h64, decide_eq_true hi, Bool.true_and, Bool.true_and]
  have hones : (BitVec.allOnes 64).getLsbD i = true := by rw [BitVec.getLsbD_allOnes, decide_eq_true h64]
  rw [getLsbD_compose hwf snap M hp hi]
  refine ⟨fun h => ?_, fun h => ?_, fun h hno => ?_, fun x h hnamed hlast => ?_, fun h hnamed hlast => ?_,
    fun h hno => ?_, fun h hnamed hlast => ?_, fun h hno => ?_⟩
  · rw [fieldSent_asRead h, hread]
  · simp [fieldSent_rsvdZ h]
  · rw [fieldSent_rw_unset h (lastOnField_eq_none hno), hread]
  · rw [fieldSent_rw_set h (lastOnField_eq_some.mpr ⟨hnamed, hlast⟩), BitVec.getLsbD_ofNat, decide_eq_true h64,
      Bool.true_and]
  · rw [fieldSent_rw1c_clear h (lastOnField_eq_some.mpr ⟨hnamed, hlast⟩), hones]
  · simp [fieldSent_rw1c_else h fun e => hno (lastOnField_eq_some.mp e)]
  · rw [fieldSent_rw1s_assert h (lastOnField_eq_some.mpr ⟨hnamed, hlast⟩), hones]
  · simp [fieldSent_rw1s_else h fun e => hno (lastOnField_eq_some.mp e)]

/-! ## `Check` (R122) -/

/-- The table of R121. -/
theorem classAdmits_iff {cls : FieldClass} {a : Action} : classAdmits cls a = true ↔
    (∃ f x, a = .set f x ∧ cls = .rw) ∨ (∃ f, a = .set0 f ∧ (cls = .rw1c ∨ cls = .rw1s)) ∨
      (∃ f, a = .clear f ∧ cls = .rw1c) ∨ (∃ f, a = .assert f ∧ cls = .rw1s) := by
  cases a <;> cases cls <;> simp [classAdmits]

theorem classAdmits_reserved {cls : FieldClass} (h : reservedClass cls = true) (a : Action) :
    classAdmits cls a = false := by
  rw [← Bool.not_eq_true, classAdmits_iff]
  rintro (⟨_, _, _, rfl⟩ | ⟨_, _, rfl | rfl⟩ | ⟨_, _, rfl⟩ | ⟨_, _, rfl⟩) <;> cases h

/-- The tests on an action that names a field: its class, then its value (R122). -/
theorem checkAction_named {L : Layout} {a : Action} {p : LayoutField} (h : namedField L (actionField a) = some p) :
    checkAction L a = if !classAdmits p.cls a then some .notWritable else if !actionFits p.width a then some .tooWide
      else none := by
  unfold checkAction
  rw [h]
  cases hr : reservedClass p.cls with
  | true => simp [hr, classAdmits_reserved hr]
  | false => simp [hr]

theorem checkAction_unnamed {L : Layout} {a : Action} (h : namedField L (actionField a) = none) :
    checkAction L a = some .notWritable := by
  unfold checkAction
  rw [h]

theorem actionOk_iff {L : Layout} {a : Action} : actionOk L a ↔
    ∃ p, namedField L (actionField a) = some p ∧ classAdmits p.cls a = true ∧ actionFits p.width a = true := by
  refine exists_congr fun p => and_congr_right fun hp => ?_
  obtain ⟨-, hname, -⟩ := namedField_spec hp
  rw [classAdmits_iff, hname]
  cases a with
  | set f x => simp [actionField, actionFits, and_comm]
  | set0 f => simp [actionField, actionFits]
  | clear f => simp [actionField, actionFits]
  | assert f => simp [actionField, actionFits]

/-- A `set` of an RW field is the one action that an RW field admits (R121). -/
theorem setsRw_iff {L : Layout} {a : Action} : setsRw L a ↔
    ∃ p, namedField L (actionField a) = some p ∧ p.cls = .rw ∧ classAdmits p.cls a = true := by
  refine exists_congr fun p => and_congr_right fun hp => and_congr_right fun hrw => ?_
  obtain ⟨-, hname, -⟩ := namedField_spec hp
  rw [classAdmits_iff, hname, hrw]
  cases a <;> simp [actionField]

/-- `Check` passes exactly the actions that R121 and R122 allow. -/
theorem checkAction_eq_none {L : Layout} {a : Action} : checkAction L a = none ↔ actionOk L a := by
  rw [actionOk_iff]
  cases h : namedField L (actionField a) with
  | none => simp [checkAction_unnamed h]
  | some p =>
    rw [checkAction_named h]
    split
    · simp_all
    · split <;> simp_all

theorem checkAction_tooWide {L : Layout} {a : Action} (hbad : ¬ actionOk L a) (h : setsRw L a) :
    checkAction L a = some .tooWide := by
  obtain ⟨p, hp, -, hadmits⟩ := setsRw_iff.mp h
  have hwide : ¬ actionFits p.width a = true := fun hf => hbad (actionOk_iff.mpr ⟨p, hp, hadmits, hf⟩)
  simp [checkAction_named hp, hadmits, hwide]

theorem checkAction_notWritable {L : Layout} {a : Action} (hbad : ¬ actionOk L a) (h : ¬ setsRw L a) :
    checkAction L a = some .notWritable := by
  cases hp : namedField L (actionField a) with
  | none => exact checkAction_unnamed hp
  | some p =>
    rw [checkAction_named hp]
    refine if_pos ?_
    rw [Bool.not_eq_true', ← Bool.not_eq_true]
    intro hadmits
    have hwide : ¬ actionFits p.width a = true := fun hf => hbad (actionOk_iff.mpr ⟨p, hp, hadmits, hf⟩)
    rcases classAdmits_iff.mp hadmits with ⟨f, x, rfl, hrw⟩ | ⟨f, rfl, -⟩ | ⟨f, rfl, -⟩ | ⟨f, rfl, -⟩
    · exact h (setsRw_iff.mpr ⟨p, hp, hrw, hadmits⟩)
    all_goals exact hwide rfl

/-- A list passes exactly when each of its actions does (R122). -/
theorem checkMutations_eq_none {L : Layout} {M : List Action} :
    checkMutations L M = none ↔ ∀ a ∈ M, actionOk L a := by
  simp only [checkMutations, List.findSome?_eq_none_iff, checkAction_eq_none]

/-- The first action that fails decides the fault (R122). -/
theorem checkMutations_first {L : Layout} {pre post : List Action} {a : Action} {code : FaultCode}
    (hpre : ∀ b ∈ pre, actionOk L b) (ha : checkAction L a = some code) :
    checkMutations L (pre ++ a :: post) = some code := by
  have hnone : pre.findSome? (checkAction L) = none := checkMutations_eq_none.mpr hpre
  rw [checkMutations, List.findSome?_append, hnone, Option.none_or, List.findSome?_cons_of_isSome (by simp [ha]), ha]

/-! ## The requests by what `Check` says (R124 to R127) -/

section

variable {s : State}

theorem exec_update_refused (hlive : s.fault = none) (ra : Addr) {L : Layout} {M : List Action} {code : FaultCode}
    (h : checkMutations L M = some code) : exec (.update ra L M) s = faulted s code := by
  show execUpdate ra L M s = _
  rw [execUpdate, request_live hlive, h]
  rfl

theorem exec_write_refused (hlive : s.fault = none) (ra : Addr) {L : Layout} {M : List Action} {code : FaultCode}
    (h : checkMutations L M = some code) : exec (.write ra L M) s = faulted s code := by
  show execWrite ra L M s = _
  rw [execWrite, request_live hlive, writeOnly, h]
  rfl

/-- `UPDATE` of a list that passes reads, composes and writes (R126). -/
theorem exec_update (hlive : s.fault = none) (ra : Addr) {L : Layout} {M : List Action}
    (h : ∀ a ∈ M, actionOk L a) :
    exec (.update ra L M) s =
      .next { wordWrite ra L.width (compose L (wordRead ra L.width s).1 M) (wordRead ra L.width s).2 with
        result := some (.written (compose L (wordRead ra L.width s).1 M)) } := by
  show execUpdate ra L M s = _
  rw [execUpdate, request_live hlive, checkMutations_eq_none.mpr h]
  rfl

theorem writeOnly_ok (ra : Addr) {L : Layout} {M : List Action} (h : ∀ a ∈ M, actionOk L a) (s : State) :
    writeOnly ra L M s =
      .next { wordWrite ra L.width (compose L 0#64 M) s with result := some (.written (compose L 0#64 M)) } := by
  rw [writeOnly, checkMutations_eq_none.mpr h]
  rfl

/-- `WRITE` of a list that passes composes from zeros and writes (R127). -/
theorem exec_write (hlive : s.fault = none) (ra : Addr) {L : Layout} {M : List Action} (h : ∀ a ∈ M, actionOk L a) :
    exec (.write ra L M) s =
      .next { wordWrite ra L.width (compose L 0#64 M) s with result := some (.written (compose L 0#64 M)) } := by
  show execWrite ra L M s = _
  rw [execWrite, request_live hlive, writeOnly_ok ra h]

/-- `READ` (R124). -/
theorem exec_read (hlive : s.fault = none) (ra : Addr) (L : Layout) :
    exec (.read ra L) s =
      .next { (wordRead ra L.width s).2 with result := some (.snapshot L (wordRead ra L.width s).1) } := by
  show execRead ra L s = _
  rw [execRead, request_live hlive]
  rfl

theorem exec_get_named (hlive : s.fault = none) {L : Layout} {f : RegField} {p : LayoutField}
    (hp : namedField L f = some p) (snap : RegValue) :
    exec (.get L snap f) s =
      if reservedClass p.cls then faulted s .notWritable
      else answered s (.fieldValue (getBits snap p.lo p.width).toNat) := by
  show execGet L snap f s = _
  rw [execGet, request_live hlive, snapshotField, hp]
  cases h : reservedClass p.cls <;> simp [h, faulted, answered]

theorem exec_get_unnamed (hlive : s.fault = none) {L : Layout} {f : RegField} (hp : namedField L f = none)
    (snap : RegValue) : exec (.get L snap f) s = faulted s .notWritable := by
  show execGet L snap f s = _
  rw [execGet, request_live hlive, snapshotField, hp]
  rfl

end

theorem reservedClass_iff {cls : FieldClass} : reservedClass cls = true ↔ cls = .rsvdP ∨ cls = .rsvdZ := by
  cases cls <;> simp [reservedClass]

/-- Settles O21: `Check` stops at the first action that is not `actionOk`. -/
theorem mutationFaults : Obligations.MutationFaults := by
  intro ra L M s _ hlive
  refine ⟨checkMutations_eq_none, ?_⟩
  rintro pre post a rfl hpre hbad
  refine ⟨fun h => ?_, fun h => ?_⟩
  · have hcheck := checkMutations_first (post := post) hpre (checkAction_tooWide hbad h)
    exact ⟨exec_update_refused hlive ra hcheck, exec_write_refused hlive ra hcheck⟩
  · have hcheck := checkMutations_first (post := post) hpre (checkAction_notWritable hbad h)
    exact ⟨exec_update_refused hlive ra hcheck, exec_write_refused hlive ra hcheck⟩

/-- Settles O20: what a name names (`namedField_spec`), and the field's bits as a number. -/
theorem getReadsSnapshot : Obligations.GetReadsSnapshot := by
  intro L snap f s hwf hlive
  refine ⟨fun p hp => ?_, fun h => exec_get_unnamed hlive h snap, namedField_none, ?_⟩
  · obtain ⟨hmem, hname, -⟩ := namedField_spec hp
    have hinside := (Layout.wf_iff.mp hwf).2 p hmem
    have h64 := RegWidth.bits_le L.width
    rw [exec_get_named hlive hp, getBits_toNat snap p.lo p.width (by omega)]
    exact ⟨hmem, hname, fun hP hZ => if_neg fun h => (reservedClass_iff.mp h).elim hP hZ,
      fun h => if_pos (reservedClass_iff.mpr h)⟩
  · rintro p hp rfl hf huniq
    exact namedField_unique hp hf huniq

/-! ## Halves of a word (R55) -/

theorem getBits_high (w : RegValue) : getBits w 32 32 = w >>> 32 := by
  apply BitVec.eq_of_getLsbD_eq
  intro i hi
  rw [getLsbD_getBits, BitVec.getLsbD_ushiftRight, decide_eq_true hi, Bool.true_and]
  by_cases h : i < 32
  · rw [decide_eq_true h, Bool.true_and]
  · rw [decide_eq_false h, Bool.false_and, BitVec.getLsbD_of_ge _ _ (by omega)]

theorem getBits_low (w : RegValue) : getBits w 0 32 = w &&& 0xffffffff#64 := by
  rw [getBits, BitVec.ushiftRight_zero]
  rfl

/-- The two halves are the word. -/
theorem halves_or (w : RegValue) : (getBits w 32 32 <<< 32) ||| getBits w 0 32 = w := by
  apply BitVec.eq_of_getLsbD_eq
  intro i hi
  rw [BitVec.getLsbD_or, BitVec.getLsbD_shiftLeft, getLsbD_getBits, getLsbD_getBits, decide_eq_true hi, Nat.zero_add]
  by_cases h : i < 32
  · simp [h]
  · have h32 : i - 32 < 32 := by omega
    have hi' : i - 32 < 64 := by omega
    have hadd : 32 + (i - 32) = i := by omega
    simp [h, h32, hi', hadd]

theorem splits_iff {width : RegWidth} {s : State} : splits width s = true ↔ width = .w64 ∧ s.split64 = true := by
  simp [splits]

theorem widthBytes_bits (w : RegWidth) : 8 * widthBytes w = w.bits := by cases w <;> rfl

/-! ## What a read shows is within the width (R7) -/

/-- The lane of an access is as wide as the access. -/
theorem laneOf_width {r : Reg} {ra : Addr} {bytes lo w : Nat} (h : laneOf r ra bytes = some (lo, w)) : w = 8 * bytes := by
  unfold laneOf at h
  split at h
  · obtain ⟨-, hbits⟩ := ‹_ ∧ _›
    cases h
    exact hbits.symm
  · split at h
    · obtain ⟨-, rfl, -⟩ := ‹_ ∧ _›
      cases h
      rfl
    · split at h
      · obtain ⟨-, rfl, -⟩ := ‹_ ∧ _›
        cases h
        rfl
      · cases h

theorem regRead_fits (ra : Addr) (bytes : Nat) (s : State) : (regRead ra bytes s).1.toNat < 2 ^ (8 * bytes) := by
  have hlane {r : Reg} {v : RegValue} (h : laneRead ra bytes r = some v) : v.toNat < 2 ^ (8 * bytes) := by
    obtain ⟨⟨lo, w⟩, hl, rfl⟩ := Option.map_eq_some_iff.mp h
    rw [← laneOf_width hl]
    exact getBits_fits _ _ _
  show (((controllerTurn s).regs.findSome? (laneRead ra bytes)).getD _).toNat < _
  cases h : (controllerTurn s).regs.findSome? (laneRead ra bytes) with
  | none => exact getBits_fits _ _ _
  | some v =>
    obtain ⟨r, -, hr⟩ := List.exists_of_findSome?_eq_some h
    exact hlane hr

theorem wordRead_fits (ra : Addr) (width : RegWidth) (s : State) : (wordRead ra width s).1.toNat < 2 ^ width.bits := by
  unfold wordRead
  split
  · obtain ⟨rfl, -⟩ := splits_iff.mp ‹_›
    exact BitVec.isLt _
  · rw [← widthBytes_bits]
    exact regRead_fits _ _ _

/-! ## The frame of register accesses -/

/-- With no act of the controller scheduled, memory and the controller's cursors are as before. -/
def restKept (s t : State) : Prop := s.ctrl = [] → t.hc = s.hc ∧ t.mem = s.mem

theorem restKept.trans {s t u : State} {W : Nat → Prop} {evs : List Access} (h : restKept s t) (e : Effect s t W evs)
    (h' : restKept t u) : restKept s u := by
  intro hctrl
  obtain ⟨hhc, hmem⟩ := h hctrl
  obtain ⟨hhc', hmem'⟩ := h' (e.quiet hctrl)
  exact ⟨hhc'.trans hhc, hmem'.trans hmem⟩

theorem regRead_restKept (ra : Addr) (bytes : Nat) (s : State) : restKept s (regRead ra bytes s).2 := by
  intro hctrl
  rw [regRead_quiet ra bytes hctrl]
  exact ⟨rfl, rfl⟩

theorem regWrite_restKept (ra : Addr) (bytes : Nat) (w : RegValue) (s : State) : restKept s (regWrite ra bytes w s) := by
  intro hctrl
  rw [regWrite_quiet ra bytes w hctrl]
  exact ⟨rfl, rfl⟩

theorem wordRead_restKept (ra : Addr) (width : RegWidth) (s : State) : restKept s (wordRead ra width s).2 := by
  unfold wordRead
  split
  · exact (regRead_restKept _ _ _).trans (regRead_effect _ _ _) (regRead_restKept _ _ _)
  · exact regRead_restKept _ _ _

theorem wordWrite_restKept (ra : Addr) (width : RegWidth) (w : RegValue) (s : State) :
    restKept s (wordWrite ra width w s) := by
  unfold wordWrite
  split
  · exact (regWrite_restKept _ _ _ _).trans (regWrite_effect _ _ _ _) (regWrite_restKept _ _ _ _)
  · exact regWrite_restKept _ _ _ _

/-- Accesses to registers, then an answer, leave the frame of a request with no byte of memory of its own. -/
theorem Effect.frame {s t : State} {evs : List Access} (e : Effect s t (fun _ => False) evs) (h : restKept s t)
    (result : Result) : frame s { t with result := some result } noByte := by
  refine ⟨e.fault, ⟨e.split64, e.erstMax, e.port⟩, fun hctrl => (h hctrl).1, fun a _ ha => ?_⟩
  rcases ha with ha | hctrl
  · exact e.mem a ha id
  · exact congrArg (memGet · a) (h hctrl).2

/-! ## The accesses of a word, by SPLIT64 (R55) -/

theorem wordRead_split {width : RegWidth} {s : State} (h : splits width s = true) (ra : Addr) :
    ∃ lo hi : RegValue, (wordRead ra width s).1 = (hi <<< 32) ||| lo ∧
      wordReadEvents ra width s = [.regRead (ra + 4#64) 4 hi, .regRead ra 4 lo] := by
  refine ⟨(regRead ra 4 s).1, (regRead (ra + 4#64) 4 (regRead ra 4 s).2).1, ?_, if_pos h⟩
  rw [wordRead, if_pos h]

theorem wordReadEvents_whole {width : RegWidth} {s : State} (h : ¬ splits width s = true) (ra : Addr) :
    wordReadEvents ra width s = [.regRead ra (width.bits / 8) (wordRead ra width s).1] := by
  rw [wordReadEvents, wordRead, if_neg h, if_neg h]
  rfl

theorem wordWriteEvents_split {width : RegWidth} {s : State} (h : splits width s = true) (ra : Addr) (w : RegValue) :
    wordWriteEvents ra width w s = [.regWrite (ra + 4#64) 4 (w >>> 32), .regWrite ra 4 (w &&& 0xffffffff#64)] := by
  rw [wordWriteEvents, if_pos h, getBits_high, getBits_low]

theorem wordWriteEvents_whole {width : RegWidth} {s : State} (h : ¬ splits width s = true) (ra : Addr) (w : RegValue) :
    wordWriteEvents ra width w s = [.regWrite ra (width.bits / 8) w] := if_neg h

theorem splits_congr {s t : State} (h : t.split64 = s.split64) (width : RegWidth) : splits width t = splits width s := by
  rw [splits, splits, h]

/-- Settles O18: the accesses of `READ` are those of the `Effect` of `wordRead`. -/
theorem readOrder : Obligations.ReadOrder := by
  intro ra L s hlive
  have e := wordRead_effect ra L.width s
  refine ⟨_, (wordRead ra L.width s).1, exec_read hlive ra L, rfl, wordRead_fits ra L.width s, e.rings,
    ⟨e.shape, fun hctrl => (wordRead_still ra L.width hctrl).regs⟩, e.frame (wordRead_restKept ra L.width s) _,
    fun hsplit => ?_, fun hwhole => ?_⟩
  · obtain ⟨lo, hi, hv, hevs⟩ := wordRead_split (splits_iff.mpr hsplit) ra
    exact ⟨lo, hi, hv, hevs ▸ e.block⟩
  · rw [← splits_iff] at hwhole
    exact e.block.trans (congrArg (· ++ blockTrace s.trace) (wordReadEvents_whole hwhole ra))

/-- Settles O23: the accesses of `UPDATE` are those of `wordRead` and then of `wordWrite`. -/
theorem updateOrder : Obligations.UpdateOrder := by
  intro ra L M s _ hlive hok
  have eread := wordRead_effect ra L.width s
  let v := (wordRead ra L.width s).1
  have ewrite := wordWrite_effect ra L.width (compose L v M) (wordRead ra L.width s).2
  have e := (eread.trans ewrite).weaken fun _ h => h.elim id id
  have hrest := (wordRead_restKept ra L.width s).trans eread (wordWrite_restKept ra L.width (compose L v M) _)
  refine ⟨_, v, exec_update hlive ra hok, rfl, e.rings, e.shape, e.frame hrest _, fun hsplit => ?_, fun hwhole => ?_⟩
  · rw [← splits_iff] at hsplit
    obtain ⟨lo, hi, hv, hevs⟩ := wordRead_split hsplit ra
    refine ⟨lo, hi, hv, e.block.trans ?_⟩
    rw [hevs, wordWriteEvents_split ((splits_congr eread.split64 _).trans hsplit)]
    rfl
  · rw [← splits_iff] at hwhole
    refine e.block.trans ?_
    rw [wordReadEvents_whole hwhole, wordWriteEvents_whole (splits_congr eread.split64 _ ▸ hwhole)]
    rfl

end Sys2Proof.Machine

/-! The register map as the Field Codec meets it: its registers stand apart (`regNames_ordered`), so an access to one
reaches no other (`laneOf_only`), and a write of a word, split or not, makes its register react and leaves the others
(`wordWrite_register`). -/

namespace Sys2Proof.Machine

/-! ## Where the registers stand (R300) -/

/-- The bytes of the register `n` come before those of `m`. -/
def RegName.before (n m : RegName) : Prop := n.address.toNat + n.layout.width.bits / 8 ≤ m.address.toNat

/-- The registers of R300 that the table does not number. -/
def singleNames : List RegName :=
  [.caplength, .hciversion, .hcsparams1, .hcsparams2, .hcsparams3, .hccparams1, .dboff, .rtsoff, .hccparams2,
    .usbcmd, .usbsts, .pagesize, .dnctrl, .crcr, .dcbaap, .config, .mfindex]

theorem intrBase_toNat {i : Nat} (hi : i < 8) : (intrBase i).toNat = 0x10002020 + 32 * i := by
  have hrt : rtBase = 0x10002000#64 := by decide
  rw [intrBase, hrt]
  simp only [BitVec.toNat_add, BitVec.toNat_ofNat]
  omega

theorem doorbellAddress_toNat {k : Nat} (hk : k < 65) : (RegName.doorbell k).address.toNat = 0x10003000 + 4 * k := by
  have hdb : dbBase = 0x10003000#64 := by decide
  simp only [RegName.address, hdb, BitVec.toNat_add, BitVec.toNat_ofNat]
  omega

/-- Interrupter `i`'s registers stand in order within its 32 bytes. -/
theorem intrNames_place {i : Nat} (hi : i < 8) :
    (intrNames i).Pairwise RegName.before ∧ ∀ n ∈ intrNames i,
      0x10002020 + 32 * i ≤ n.address.toNat ∧
        n.address.toNat + n.layout.width.bits / 8 ≤ 0x10002020 + 32 * (i + 1) := by
  have hb := intrBase_toNat hi
  have hadd (k : Nat) (hk : k < 32) : (intrBase i + BitVec.ofNat 64 k).toNat = 0x10002020 + 32 * i + k := by
    rw [BitVec.toNat_add, hb, BitVec.toNat_ofNat]
    omega
  have h4 := hadd 4 (by omega)
  have h8 := hadd 8 (by omega)
  have h16 := hadd 16 (by omega)
  have h24 := hadd 24 (by omega)
  constructor
  · simp [intrNames, RegName.before, RegName.address, RegName.layout, imanLayout, imodLayout, erstszLayout, erstbaLayout,
      erdpLayout, RegWidth.bits]
    omega
  · simp [intrNames, RegName.address, RegName.layout, imanLayout, imodLayout, erstszLayout, erstbaLayout,
      erdpLayout, RegWidth.bits]
    omega

theorem singleNames_place : singleNames.Pairwise RegName.before ∧
    ∀ n ∈ singleNames, n.address.toNat + n.layout.width.bits / 8 ≤ 0x10002020 := by
  unfold RegName.before
  constructor <;> decide

theorem doorbell_before {j k : Nat} (hjk : j < k) (hk : k < 65) : (RegName.doorbell j).before (.doorbell k) := by
  have hj := doorbellAddress_toNat (k := j) (by omega)
  have hbits : (RegName.doorbell j).layout.width.bits = 32 := rfl
  rw [RegName.before, doorbellAddress_toNat hk, hj, hbits]
  omega

theorem regNames_eq :
    regNames = singleNames ++ (List.range 8).flatMap intrNames ++ (List.range 65).map .doorbell := by
  have hintrs : maxIntrs = 8 := by decide
  have hslots : maxSlots = 64 := by decide
  rw [regNames, hintrs, hslots]
  rfl

/-- The register map lists the registers in the order of their bytes, none inside another (R300). -/
theorem regNames_ordered : regNames.Pairwise RegName.before := by
  obtain ⟨hsingle, hsingleEnd⟩ := singleNames_place
  rw [regNames_eq, List.append_assoc, List.pairwise_append, List.pairwise_append, List.pairwise_flatMap,
    List.pairwise_map]
  refine ⟨hsingle, ⟨⟨fun i hi => (intrNames_place (List.mem_range.mp hi)).1, ?_⟩, ?_, ?_⟩, ?_⟩
  · refine List.pairwise_lt_range.imp_of_mem fun {i j} hi hj hij n hn m hm => ?_
    have hend := (intrNames_place (List.mem_range.mp hi)).2 n hn
    have hstart := (intrNames_place (List.mem_range.mp hj)).2 m hm
    unfold RegName.before
    omega
  · exact List.pairwise_lt_range.imp_of_mem fun _ hk hjk => doorbell_before hjk (List.mem_range.mp hk)
  · intro n hn m hm
    obtain ⟨i, hi, hn⟩ := List.mem_flatMap.mp hn
    obtain ⟨k, hk, rfl⟩ := List.mem_map.mp hm
    have hi := List.mem_range.mp hi
    have hend := (intrNames_place hi).2 n hn
    rw [RegName.before, doorbellAddress_toNat (List.mem_range.mp hk)]
    omega
  · intro n hn m hm
    have hend := hsingleEnd n hn
    unfold RegName.before
    rcases List.mem_append.mp hm with hm | hm
    · obtain ⟨i, hi, hm⟩ := List.mem_flatMap.mp hm
      have hstart := (intrNames_place (List.mem_range.mp hi)).2 m hm
      omega
    · obtain ⟨k, hk, rfl⟩ := List.mem_map.mp hm
      rw [doorbellAddress_toNat (List.mem_range.mp hk)]
      omega

/-- A register has a byte. -/
theorem RegName.bytes_pos (n : RegName) : 0 < n.layout.width.bits / 8 := by
  cases n.layout.width <;> decide

theorem regs_address {regs : List Reg} (h : regsWf regs = true) {r : Reg} (hr : r ∈ regs) :
    r.addr = r.name.address := by
  have hplace : (r.name, r.addr) ∈ regs.map regPlace := List.mem_map.mpr ⟨r, hr, rfl⟩
  rw [(regsWf_iff.mp h).1, resetRegs, List.map_map] at hplace
  obtain ⟨n, -, hn⟩ := List.mem_map.mp hplace
  obtain ⟨hname, haddr⟩ := Prod.mk.inj hn
  rw [← hname, ← haddr]
  rfl

theorem regs_names {regs : List Reg} (h : regsWf regs = true) : regs.map Reg.name = regNames := by
  have hplaces := congrArg (List.map Prod.fst) (regsWf_iff.mp h).1
  simpa [resetRegs, Function.comp_def, regPlace, RegName.atReset] using hplaces

/-- Each register of the map is one of the state's (R300). -/
theorem exists_reg {regs : List Reg} (h : regsWf regs = true) {n : RegName} (hn : n ∈ regNames) :
    ∃ r ∈ regs, r.name = n := by
  rw [← regs_names h] at hn
  exact List.mem_map.mp hn

/-- Two registers have their bytes apart, or are the same one (R300). -/
theorem regs_apart {regs : List Reg} (h : regsWf regs = true) {q r : Reg} (hq : q ∈ regs) (hr : r ∈ regs) :
    q = r ∨ q.name.before r.name ∨ r.name.before q.name := by
  have hordered : regs.Pairwise fun q r => q.name.before r.name := by
    rw [← List.pairwise_map, regs_names h]
    exact regNames_ordered
  have hsymm : Std.Symm fun q r : Reg => q.name.before r.name ∨ r.name.before q.name := ⟨fun _ _ => Or.symm⟩
  by_cases e : q = r
  · exact .inl e
  · have heither := hordered.imp (S := fun q r : Reg => q.name.before r.name ∨ r.name.before q.name) fun hb => .inl hb
    exact .inr (heither.forall hq hr e)

theorem reg_eq_of_name {regs : List Reg} (h : regsWf regs = true) {q r : Reg} (hq : q ∈ regs) (hr : r ∈ regs)
    (hname : q.name = r.name) : q = r := by
  have hpos := r.name.bytes_pos
  rcases regs_apart h hq hr with e | e | e
  · exact e
  all_goals
    rw [RegName.before, hname] at e
    omega

/-- No register of the map reaches past the address space. -/
theorem regNames_room {n : RegName} (hn : n ∈ regNames) :
    n.address.toNat + n.layout.width.bits / 8 ≤ 2 ^ 64 := by
  rw [regNames_eq, List.mem_append, List.mem_append, List.mem_flatMap, List.mem_map] at hn
  rcases hn with (hn | ⟨i, hi, hn⟩) | ⟨k, hk, rfl⟩
  · have := singleNames_place.2 n hn
    omega
  · have hi := List.mem_range.mp hi
    have := (intrNames_place hi).2 n hn
    omega
  · have hk := List.mem_range.mp hk
    have hbits : (RegName.doorbell k).layout.width.bits = 32 := rfl
    rw [doorbellAddress_toNat hk, hbits]
    omega

/-- A lane of a register is in bytes of it. -/
theorem laneOf_untouched {q : Reg} {ra : Addr} {bytes : Nat} (hbytes : 0 < bytes)
    (hroom : q.addr.toNat + q.bits / 8 ≤ 2 ^ 64) (h : q.touchedBy ra bytes = false) : laneOf q ra bytes = none := by
  have hpos : 0 < q.bits / 8 := q.name.bytes_pos
  simp only [Reg.touchedBy, Bool.and_eq_false_iff, decide_eq_false_iff_not] at h
  unfold laneOf
  split
  · rename_i e
    rw [e.1] at h
    omega
  · split
    · rename_i e
      rw [e.2.2] at h
      omega
    · split
      · rename_i e
        rw [e.2.2, BitVec.toNat_add, BitVec.toNat_ofNat, e.1] at h
        rw [e.1] at hroom
        omega
      · rfl

/-- An access within the bytes of the register `r` of the map reaches no other register. -/
theorem reg_untouched {regs : List Reg} (h : regsWf regs = true) {q r : Reg} (hq : q ∈ regs) (hr : r ∈ regs)
    (hname : q.name ≠ r.name) {ra : Addr} {bytes : Nat} (hlow : r.addr.toNat ≤ ra.toNat)
    (hhigh : ra.toNat + bytes ≤ r.addr.toNat + r.bits / 8) : q.touchedBy ra bytes = false := by
  simp only [Reg.touchedBy, Bool.and_eq_false_iff, decide_eq_false_iff_not]
  have hqa := regs_address h hq
  have hra := regs_address h hr
  rw [hra] at hlow hhigh
  rw [hqa]
  rcases regs_apart h hq hr with e | e | e
  · exact absurd (congrArg Reg.name e) hname
  · right
    simp only [RegName.before] at e
    simp only [Reg.bits]
    omega
  · left
    simp only [RegName.before] at e
    simp only [Reg.bits] at hhigh
    omega

/-! ## The lanes of a register (R55) -/

theorem laneOf_whole (r : Reg) {bytes : Nat} (h : 8 * bytes = r.bits) : laneOf r r.addr bytes = some (0, r.bits) :=
  if_pos ⟨rfl, h⟩

theorem laneOf_low {r : Reg} (h : r.bits = 64) : laneOf r r.addr 4 = some (0, 32) := by
  simp [laneOf, h]

theorem laneOf_high {r : Reg} (h : r.bits = 64) : laneOf r (r.addr + 4#64) 4 = some (32, 32) := by
  simp [laneOf, h]

/-- A lane of a register is an access to bytes of it. -/
theorem laneOf_within {r : Reg} {ra : Addr} {bytes : Nat} {l : Nat × Nat} (hroom : r.addr.toNat + r.bits / 8 ≤ 2 ^ 64)
    (h : laneOf r ra bytes = some l) :
    0 < bytes ∧ r.addr.toNat ≤ ra.toNat ∧ ra.toNat + bytes ≤ r.addr.toNat + r.bits / 8 := by
  have hpos : 0 < r.bits / 8 := r.name.bytes_pos
  unfold laneOf at h
  split at h
  · obtain ⟨rfl, hbits⟩ := ‹_ ∧ _›
    omega
  · split at h
    · obtain ⟨hbits, rfl, rfl⟩ := ‹_ ∧ _›
      omega
    · split at h
      · obtain ⟨hbits, rfl, rfl⟩ := ‹_ ∧ _›
        rw [hbits] at hroom ⊢
        rw [BitVec.toNat_add, BitVec.toNat_ofNat]
        omega
      · cases h

section

variable {regs : List Reg} {q r : Reg} {ra : Addr} {bytes : Nat} {l : Nat × Nat}

theorem regs_room (hwf : regsWf regs = true) (hr : r ∈ regs) : r.addr.toNat + r.bits / 8 ≤ 2 ^ 64 := by
  have hname : r.name ∈ regNames := regs_names hwf ▸ List.mem_map_of_mem hr
  rw [regs_address hwf hr]
  exact regNames_room hname

/-- An access to a lane of one register of the map reaches no other (R300). -/
theorem laneOf_only (hwf : regsWf regs = true) (hr : r ∈ regs) (h : laneOf r ra bytes = some l) (hq : q ∈ regs)
    (hname : q.name ≠ r.name) : laneOf q ra bytes = none ∧ q.touchedBy ra bytes = false := by
  obtain ⟨hbytes, hlow, hhigh⟩ := laneOf_within (regs_room hwf hr) h
  have htouched := reg_untouched hwf hq hr hname hlow hhigh
  exact ⟨laneOf_untouched hbytes (regs_room hwf hq) htouched, htouched⟩

/-- A read of a lane of a register of the map shows the register. -/
theorem findSome?_laneRead (hwf : regsWf regs = true) (hr : r ∈ regs) (h : laneOf r ra bytes = some l) :
    regs.findSome? (laneRead ra bytes) = some (getBits (r.value &&& r.name.readMask) l.1 l.2) := by
  have hshows : laneRead ra bytes r = some (getBits (r.value &&& r.name.readMask) l.1 l.2) := by rw [laneRead, h]; rfl
  cases hfound : regs.findSome? (laneRead ra bytes) with
  | none => exact absurd (List.findSome?_eq_none_iff.mp hfound r hr) (by simp [hshows])
  | some v =>
    obtain ⟨q, hq, hv⟩ := List.exists_of_findSome?_eq_some hfound
    by_cases hname : q.name = r.name
    · rw [← hv, reg_eq_of_name hwf hq hr hname, hshows]
    · simp [laneRead, (laneOf_only hwf hr h hq hname).1] at hv

end

/-! ## Reading a register of the map (R55, R124) -/

section

variable {s : State} {r : Reg}

theorem regRead_lane (hwf : regsWf s.regs = true) (hctrl : s.ctrl = []) (hr : r ∈ s.regs) {ra : Addr} {bytes : Nat}
    {l : Nat × Nat} (h : laneOf r ra bytes = some l) :
    (regRead ra bytes s).1 = getBits (r.value &&& r.name.readMask) l.1 l.2 := by
  rw [regRead_quiet ra bytes hctrl, findSome?_laneRead hwf hr h]
  rfl

/-- What fits the width of a register is all of its lane. -/
theorem getBits_all {x : RegValue} {n : Nat} (h : x.toNat < 2 ^ n) : getBits x 0 n = x := by
  apply BitVec.eq_of_getLsbD_eq
  intro i hi
  rw [getLsbD_getBits, decide_eq_true hi, Nat.zero_add, Bool.true_and]
  by_cases hn : i < n
  · rw [decide_eq_true hn, Bool.true_and]
  · rw [decide_eq_false hn, Bool.false_and, (lt_two_pow_iff_bits x n).mp h i (by omega)]

theorem regs_fit (hwf : regsWf s.regs = true) (hr : r ∈ s.regs) : r.value.toNat < 2 ^ r.bits := by
  simpa [regFits] using (regsWf_iff.mp hwf).2.2 r hr

/-- A read of a register of the map, split or not, is what the register shows. -/
theorem wordRead_register (hwf : regsWf s.regs = true) (hctrl : s.ctrl = []) (hr : r ∈ s.regs) :
    (wordRead r.addr r.name.layout.width s).1 = r.value &&& r.name.readMask := by
  unfold wordRead
  split
  · rename_i hsplit
    have h64 : r.bits = 64 := congrArg RegWidth.bits (splits_iff.mp hsplit).1
    have hstill := regRead_still r.addr 4 hctrl
    have hwf' : regsWf (regRead r.addr 4 s).2.regs = true := hstill.regs ▸ hwf
    have hr' : r ∈ (regRead r.addr 4 s).2.regs := hstill.regs ▸ hr
    dsimp only
    rw [regRead_lane hwf' hstill.ctrl hr' (laneOf_high h64), regRead_lane hwf hctrl hr (laneOf_low h64), halves_or]
  · rw [regRead_lane hwf hctrl hr (laneOf_whole r (widthBytes_bits _))]
    refine getBits_all (lt_of_le_of_lt ?_ (regs_fit hwf hr))
    rw [BitVec.toNat_and]
    exact Nat.and_le_left

end

/-- Settles O19: a read shows the register through its mask, by `wordRead_register`. -/
theorem readRegister : Obligations.ReadRegister := by
  intro n s hn hwf hctrl hlive
  obtain ⟨r, hr, rfl⟩ := exists_reg hwf hn
  have e := wordRead_effect r.name.address r.name.layout.width s
  have hvalue := wordRead_register hwf hctrl hr
  rw [regs_address hwf hr] at hvalue
  exact ⟨r, hr, rfl, _, exec_read hlive _ _, congrArg (fun v => some (Result.snapshot _ v)) hvalue,
    (wordRead_still _ _ hctrl).regs, e.rings, e.frame (wordRead_restKept _ _ s) _⟩

/-! ## The bits that a write leaves open (R374) -/

/-- What of a register the restrictions of R374 look at. -/
def regShown (r : Reg) : RegName × Addr × RegValue := (r.name, r.addr, r.value)

theorem find_regShown {regs regs' : List Reg} (h : regs'.map regShown = regs.map regShown) (n : RegName) :
    (regs'.find? (·.name = n)).map regShown = (regs.find? (·.name = n)).map regShown := by
  have hfind := congrArg (List.find? fun x : RegName × Addr × RegValue => x.1 = n) h
  rwa [List.find?_map, List.find?_map] at hfind

theorem regField_congr {regs regs' : List Reg} (h : regs'.map regShown = regs.map regShown) (n : RegName)
    (f : RegField) : regField regs' n f = regField regs n f := by
  have hfind := find_regShown h n
  unfold regField
  cases e : regs.find? (·.name = n) <;> cases e' : regs'.find? (·.name = n) <;> simp_all [regShown]

theorem completedBy_congr {q r : Reg} (h : regShown q = regShown r) (ra : Addr) (bytes : Nat) :
    q.completedBy ra bytes = r.completedBy ra bytes := by
  obtain ⟨name, addr, value, reset, low⟩ := q
  obtain ⟨rfl, rfl, -⟩ : name = r.name ∧ addr = r.addr ∧ value = r.value := by simpa [regShown] using h
  rfl

/-- An access of the block that leaves what the registers show takes back no write. -/
theorem wrote_mono {s s' : State} {a : Access} (hregs : s'.regs.map regShown = s.regs.map regShown)
    (htrace : s'.trace = a :: s.trace) (ha : a.agent = .block) {since : List Reaction} {n : RegName}
    {holds : RegValue → Bool} (h : s.wrote since n holds = true) : s'.wrote since n holds = true := by
  have hfind := find_regShown hregs n
  have hsince : (!since.any fun x => a == .ctrlReact x) = true := by
    rw [Bool.not_eq_true', List.any_eq_false]
    rintro x - e
    rw [beq_iff_eq.mp e] at ha
    cases ha
  cases e : s.regs.find? (·.name = n) with
  | none => simp [State.wrote, e] at h
  | some r =>
    cases e' : s'.regs.find? (·.name = n) with
    | none => simp [e, e'] at hfind
    | some r' =>
      have hshown : regShown r' = regShown r := by simpa [e, e'] using hfind
      simp only [State.wrote, e, e', htrace,
        List.takeWhile_cons_of_pos (p := fun b : Access => !since.any fun x => b == .ctrlReact x) hsince,
        List.any_cons, Bool.or_eq_true, completedBy_congr hshown] at h ⊢
      exact .inr h

/-- Every bit that a write leaves closed in `s` it leaves closed in `s'`. -/
def opensNoMore (s s' : State) : Prop := ∀ n i, (s.openBits n).getLsbD i = false → (s'.openBits n).getLsbD i = false

/-- ERSTBA is closed once ERSTSZ and ERDP were written, and while the controller is halted where it is the primary
interrupter's (R374). -/
def erstbaMayBeWritten (s : State) (k : Nat) : Prop :=
  s.wroteAny [.reset] (.erstsz k) = true ∧ s.wroteAny [.reset] (.erdp k) = true ∧
    (k = 0 → regField s.regs .usbsts .hch = 1#64)

theorem openBits_erstba_closed {s : State} {k : Nat} (hready : regField s.regs .usbsts .cnr ≠ 1#64)
    (h : erstbaMayBeWritten s k) : s.openBits (.erstba k) = 0#64 := by
  obtain ⟨hsz, hdp, hhalted⟩ := h
  simp only [State.openBits, hready, false_and, if_false, hsz, hdp, Bool.and_self, true_and]
  exact if_pos hhalted

theorem openBits_erstba_open {s : State} {k : Nat}
    (h : regField s.regs .usbsts .cnr = 1#64 ∨ ¬ erstbaMayBeWritten s k) :
    s.openBits (.erstba k) = (RegName.erstba k).writable := by
  rcases h with h | h
  · exact if_pos ⟨h, by simp⟩
  · simp only [State.openBits]
    split
    · rfl
    · refine if_neg fun hlate => h ?_
      simpa [erstbaMayBeWritten, and_assoc] using hlate

/-- An access of the block that leaves what the registers show opens no bit: the writes it adds to the trace only lift
restrictions. -/
theorem opensNoMore_of_access {s s' : State} {a : Access} (hregs : s'.regs.map regShown = s.regs.map regShown)
    (htrace : s'.trace = a :: s.trace) (ha : a.agent = .block) : opensNoMore s s' := by
  intro n i h
  cases n with
  | erstba k =>
    by_cases hclosed : regField s.regs .usbsts .cnr ≠ 1#64 ∧ erstbaMayBeWritten s k
    · obtain ⟨hready, hsz, hdp, hhalted⟩ := hclosed
      rw [openBits_erstba_closed (by rwa [regField_congr hregs])
        ⟨wrote_mono hregs htrace ha hsz, wrote_mono hregs htrace ha hdp, by rwa [regField_congr hregs]⟩]
      simp
    · rw [openBits_erstba_open (by rwa [ne_eq, not_and_or, not_not] at hclosed)] at h
      by_cases hopen : regField s'.regs .usbsts .cnr = 1#64 ∨ ¬ erstbaMayBeWritten s' k
      · rwa [openBits_erstba_open hopen]
      · rw [not_or, not_not] at hopen
        rw [openBits_erstba_closed hopen.1 hopen.2]
        simp
  | _ =>
    simp only [State.openBits, regField_congr hregs] at h ⊢
    exact h

theorem opensNoMore.trans {s t u : State} (h : opensNoMore s t) (h' : opensNoMore t u) : opensNoMore s u :=
  fun n i hn => h' n i (h n i hn)

theorem regRead_opensNoMore (ra : Addr) (bytes : Nat) {s : State} (hctrl : s.ctrl = []) :
    opensNoMore s (regRead ra bytes s).2 := by
  rw [regRead_quiet ra bytes hctrl]
  exact opensNoMore_of_access rfl rfl rfl

theorem wordRead_opensNoMore (ra : Addr) (width : RegWidth) {s : State} (hctrl : s.ctrl = []) :
    opensNoMore s (wordRead ra width s).2 := by
  unfold wordRead
  split
  · exact (regRead_opensNoMore _ _ hctrl).trans (regRead_opensNoMore _ _ (regRead_still _ _ hctrl).ctrl)
  · exact regRead_opensNoMore _ _ hctrl

/-! ## Writing a register of the map (R27, R55, R375) -/

/-- The registers with `r` in the place of the one of its name. -/
def replaceReg (regs : List Reg) (r : Reg) : List Reg := regs.map fun q => if q.name = r.name then r else q

theorem mem_replaceReg {regs : List Reg} {q r : Reg} (h : q ∈ replaceReg regs r) :
    q = r ∨ (q ∈ regs ∧ q.name ≠ r.name) := by
  obtain ⟨p, hp, rfl⟩ := List.mem_map.mp h
  split
  · exact .inl rfl
  · exact .inr ⟨hp, ‹_›⟩

theorem replaceReg_mem {regs : List Reg} {q r : Reg} (hq : q ∈ regs) (hname : q.name = r.name) :
    r ∈ replaceReg regs r := List.mem_map.mpr ⟨q, hq, if_pos hname⟩

theorem replaceReg_replaceReg (regs : List Reg) {q r : Reg} (hname : q.name = r.name) :
    replaceReg (replaceReg regs q) r = replaceReg regs r := by
  rw [replaceReg, replaceReg, List.map_map]
  refine List.map_congr_left fun p _ => ?_
  by_cases h : p.name = r.name
  · simp [h, hname]
  · simp [h, hname]

theorem replaceReg_shown {regs : List Reg} (hwf : regsWf regs = true) {q r : Reg} (hq : q ∈ regs)
    (h : regShown r = regShown q) : (replaceReg regs r).map regShown = regs.map regShown := by
  rw [replaceReg, List.map_map]
  refine List.map_congr_left fun p hp => ?_
  have hname : r.name = q.name := congrArg Prod.fst h
  by_cases e : p.name = r.name
  · rw [Function.comp_apply, if_pos e, h, reg_eq_of_name hwf hp hq (e.trans hname)]
  · rw [Function.comp_apply, if_neg e]

section

variable {s : State} {r : Reg}

/-- With no act of the controller scheduled, a write of a lane of a register of the map changes that register only. -/
theorem regWrite_lane (hwf : regsWf s.regs = true) (hctrl : s.ctrl = []) (hr : r ∈ s.regs) {ra : Addr} {bytes : Nat}
    {l : Nat × Nat} (h : laneOf r ra bytes = some l) (w : RegValue) :
    (regWrite ra bytes w s).regs =
      replaceReg s.regs (regAfterWrite s.openReads ra bytes w (s.openBits r.name) r) := by
  have hshape := regAfterWrite_shape s.openReads ra bytes w (s.openBits r.name) r
  have hname : (regAfterWrite s.openReads ra bytes w (s.openBits r.name) r).name = r.name := congrArg Prod.fst hshape
  rw [regWrite_quiet ra bytes w hctrl]
  refine List.map_congr_left fun q hq => ?_
  rw [hname]
  by_cases e : q.name = r.name
  · rw [if_pos e, reg_eq_of_name hwf hq hr e]
  · obtain ⟨hlane, htouched⟩ := laneOf_only hwf hr h hq e
    rw [if_neg e, regAfterWrite_apart hlane htouched]

theorem getLsbD_withOpenBits {free x y : RegValue} {i : Nat} (h : free.getLsbD i = false) (hi : i < 64) :
    (withOpenBits free x y).getLsbD i = y.getLsbD i := by
  unfold withOpenBits
  split
  · rfl
  · rw [BitVec.getLsbD_or, BitVec.getLsbD_and, BitVec.getLsbD_and, BitVec.getLsbD_not, h, decide_eq_true hi]
    simp

/-- Above its width a register of the map has no bit to react (R7). -/
theorem getLsbD_react_above (L : Layout) {old w : RegValue} {i : Nat} (hi : i < 64)
    (h : ∀ cls, (classMask L cls).getLsbD i = false) : (react L old w).getLsbD i = old.getLsbD i := by
  simp [getLsbD_react L old w i hi, h]

/-- A closed bit after a complete write is that of the reaction (R27, R374). -/
theorem getLsbD_reacted {width : Nat} (hwidth : r.bits = width) {free x w : RegValue} {i : Nat} (hi : i < 64)
    (h : free.getLsbD i = false) :
    (putBits r.value 0 width (withOpenBits free x (react r.name.layout r.value w))).getLsbD i =
      (react r.name.layout r.value w).getLsbD i := by
  subst hwidth
  rw [getLsbD_putBits]
  split
  · rw [decide_eq_true hi, Bool.true_and, Nat.sub_zero, getLsbD_withOpenBits h hi]
  · refine (getLsbD_react_above _ hi fun cls => ?_).symm
    exact (lt_two_pow_iff_bits _ _).mp (classMask_fits r.name cls) i (by simp only [Reg.bits] at *; omega)

/-- The registers after a write of `w` to the register `r` of the map: the bits that the write leaves closed react by
their classes, and no other register changes (R27, R374). -/
def registerReacts (s t : State) (r : Reg) (w : RegValue) : Prop :=
  (∀ q ∈ t.regs, q.name ≠ r.name → q ∈ s.regs) ∧
    ∀ q ∈ t.regs, q.name = r.name → ∀ i < 64, (s.openBits r.name).getLsbD i = false →
      q.value.getLsbD i = (react r.name.layout r.value w).getLsbD i

theorem registerReacts_of_replace {t : State} {r' : Reg} {w : RegValue} (hregs : t.regs = replaceReg s.regs r')
    (hname : r'.name = r.name)
    (hvalue : ∀ i < 64, (s.openBits r.name).getLsbD i = false →
      r'.value.getLsbD i = (react r.name.layout r.value w).getLsbD i) : registerReacts s t r w := by
  refine ⟨fun q hq hne => ?_, fun q hq heq => ?_⟩
  · rw [hregs] at hq
    rcases mem_replaceReg hq with rfl | ⟨hmem, -⟩
    · exact absurd hname hne
    · exact hmem
  · rw [hregs] at hq
    rcases mem_replaceReg hq with rfl | ⟨-, hne⟩
    · exact hvalue
    · exact absurd (heq.trans hname.symm) hne

theorem wordWrite_whole (hwf : regsWf s.regs = true) (hctrl : s.ctrl = []) (hr : r ∈ s.regs)
    (h : ¬ splits r.name.layout.width s = true) (w : RegValue) :
    registerReacts s (wordWrite r.addr r.name.layout.width w s) r w := by
  have hlane := laneOf_whole r (widthBytes_bits r.name.layout.width)
  have hregs := regWrite_lane hwf hctrl hr hlane w
  rw [regAfterWrite_whole hlane] at hregs
  rw [wordWrite, if_neg h]
  exact registerReacts_of_replace hregs rfl fun i hi hclosed => getLsbD_reacted rfl hi hclosed

/-- The register with a low dword that waits for the high one (R375). -/
def Reg.waiting (r : Reg) (low : Word) : Reg := { r with low := some low }

/-- The write of the low dword leaves it waiting and opens no bit (R374, R375). -/
theorem regWrite_lowDword (hwf : regsWf s.regs = true) (hctrl : s.ctrl = []) (hr : r ∈ s.regs) (h64 : r.bits = 64)
    (w : RegValue) :
    (regWrite r.addr 4 w s).regs = replaceReg s.regs (r.waiting (w.setWidth 32)) ∧
      opensNoMore s (regWrite r.addr 4 w s) := by
  have hregs := regWrite_lane hwf hctrl hr (laneOf_low h64) w
  rw [regAfterWrite_low (laneOf_low h64) h64] at hregs
  refine ⟨hregs, opensNoMore_of_access (a := .regWrite r.addr 4 w) ?_ ?_ rfl⟩
  · rw [hregs]
    exact replaceReg_shown hwf hr rfl
  · rw [regWrite_quiet _ _ _ hctrl]

/-- The low dword that waits is the low half of the word. -/
theorem setWidth_low (w : RegValue) : ((getBits w 0 32).setWidth 32).setWidth 64 = getBits w 0 32 := by
  have hlow : (getBits w 0 32).toNat < 2 ^ 32 := getBits_toNat_lt w 0 32
  apply BitVec.eq_of_toNat_eq
  rw [BitVec.toNat_setWidth, BitVec.toNat_setWidth]
  omega

/-- Split in two, the low dword waits, and the register reacts to the pair at the write of the high one (R375). -/
theorem wordWrite_split (hwf : regsWf s.regs = true) (hctrl : s.ctrl = []) (hr : r ∈ s.regs)
    (h : splits r.name.layout.width s = true) (w : RegValue) :
    registerReacts s (wordWrite r.addr r.name.layout.width w s) r w := by
  have h64 : r.bits = 64 := congrArg RegWidth.bits (splits_iff.mp h).1
  have e := regWrite_effect r.addr 4 (getBits w 0 32) s
  obtain ⟨hlow, hopen⟩ := regWrite_lowDword hwf hctrl hr h64 (getBits w 0 32)
  have hwaiting : r.waiting ((getBits w 0 32).setWidth 32) ∈ (regWrite r.addr 4 (getBits w 0 32) s).regs :=
    hlow ▸ replaceReg_mem hr rfl
  have hlane : laneOf (r.waiting ((getBits w 0 32).setWidth 32)) (r.addr + 4#64) 4 = some (32, 32) := laneOf_high h64
  have hregs := regWrite_lane (e.regs hwf) (e.quiet hctrl) hwaiting hlane (getBits w 32 32)
  rw [regAfterWrite_high hlane h64 rfl, setWidth_low, halves_or, hlow, replaceReg_replaceReg _ (by rfl)] at hregs
  rw [wordWrite, if_pos h]
  refine registerReacts_of_replace hregs rfl fun i hi hclosed => ?_
  exact getLsbD_reacted h64 hi (hopen _ _ hclosed)

theorem wordWrite_register (hwf : regsWf s.regs = true) (hctrl : s.ctrl = []) (hr : r ∈ s.regs) (w : RegValue) :
    registerReacts s (wordWrite r.addr r.name.layout.width w s) r w := by
  by_cases h : splits r.name.layout.width s = true
  · exact wordWrite_split hwf hctrl hr h w
  · exact wordWrite_whole hwf hctrl hr h w

end

/-- With no act of the controller scheduled, `UPDATE` of a register of the map sends what is composed from what the
register shows, and the register reacts (R126). -/
theorem update_register {s : State} {r : Reg} {M : List Action} (hwf : regsWf s.regs = true) (hctrl : s.ctrl = [])
    (hlive : s.fault = none) (hr : r ∈ s.regs) (hok : ∀ a ∈ M, actionOk r.name.layout a) :
    ∃ (t : State) (evs : List Access),
      exec (.update r.name.address r.name.layout M) s = .next
        { t with result := some (.written (compose r.name.layout (r.value &&& r.name.readMask) M)) } ∧
      Effect s t (fun _ => False) evs ∧ restKept s t ∧
      registerReacts s t r (compose r.name.layout (r.value &&& r.name.readMask) M) := by
  generalize hw : compose r.name.layout (r.value &&& r.name.readMask) M = w
  have eread := wordRead_effect r.addr r.name.layout.width s
  have hstill := wordRead_still r.addr r.name.layout.width hctrl
  have ewrite := wordWrite_effect r.addr r.name.layout.width w (wordRead r.addr r.name.layout.width s).2
  refine ⟨wordWrite r.addr r.name.layout.width w (wordRead r.addr r.name.layout.width s).2, _, ?_,
    (eread.trans ewrite).weaken fun _ h => h.elim id id,
    (wordRead_restKept _ _ s).trans eread (wordWrite_restKept _ _ _ _), ?_⟩
  · have hexec := exec_update hlive r.addr hok
    rw [wordRead_register hwf hctrl hr] at hexec
    rw [← regs_address hwf hr, hexec, hw]
  · obtain ⟨hothers, hreacts⟩ := wordWrite_register (eread.regs hwf) (eread.quiet hctrl) (hstill.regs ▸ hr) w
    refine ⟨fun q hq hne => hstill.regs ▸ hothers q hq hne, fun q hq heq i hi hclosed => ?_⟩
    exact hreacts q hq heq i hi (wordRead_opensNoMore _ _ hctrl _ _ hclosed)

/-- Settles O24: the register is the one of the map with the name, and `update_register` says how it reacts. -/
theorem updateRegister : Obligations.UpdateRegister := by
  intro n M s hn hwf hctrl hlive hok
  obtain ⟨r, hr, rfl⟩ := exists_reg hwf hn
  obtain ⟨t, evs, hexec, e, hrest, hothers, hreacts⟩ := update_register hwf hctrl hlive hr hok
  exact ⟨r, hr, rfl, _, hexec, rfl, e.shape, hothers, hreacts, e.rings, e.frame hrest _⟩

/-! ## What a write does to each field (R128, R129) -/

section

variable {n : RegName} {M : List Action} {s t : State} {r q : Reg}

/-- A write that leaves no bit open makes every bit of the register react. -/
theorem update_reacts (hwf : regsWf s.regs = true) (hctrl : s.ctrl = []) (hlive : s.fault = none)
    (hok : ∀ a ∈ M, actionOk n.layout a) (hr : r ∈ s.regs) (hname : r.name = n) (hclosed : s.openBits n = 0#64)
    (hexec : exec (.update n.address n.layout M) s = .next t) (hq : q ∈ t.regs) (hqname : q.name = n) :
    t.result = some (.written (compose n.layout (r.value &&& n.readMask) M)) ∧
      ∀ i < 64, q.value.getLsbD i =
        (react n.layout r.value (compose n.layout (r.value &&& n.readMask) M)).getLsbD i := by
  subst hname
  obtain ⟨u, evs, hu, -, -, -, hreacts⟩ := update_register hwf hctrl hlive hr hok
  cases hexec.symm.trans hu
  exact ⟨rfl, fun i hi => hreacts q hq hqname i hi (by rw [hclosed]; exact BitVec.getLsbD_zero)⟩

theorem field_bit_lt {p : LayoutField} (hp : p ∈ n.layout.fields) {i : Nat} (hi : i < p.width) : p.lo + i < 64 := by
  have := layout_field_fits n p hp
  have := RegWidth.bits_le n.layout.width
  omega

end

/-- Settles O26: an RW field that no action names is sent as read, RW1C and RW1S fields are sent as 0, and the others do
not react. -/
theorem fieldIsolation : Obligations.FieldIsolation := by
  intro n M s t r q hn hwf hctrl hlive hM hr hname hclosed hexec hq hqname p hp i hi
  have hok (a : Action) (ha : a ∈ M) : actionOk n.layout a := (hM a ha).1
  have hset {a : Action} (h : lastOn M p.name a) : ∃ f x, a = .set f x := by
    obtain ⟨pre, post, rfl, -, -⟩ := h
    exact (hM a (by simp)).2
  obtain ⟨hresult, hbits⟩ := update_reacts hwf hctrl hlive hok hr hname hclosed hexec hq hqname
  have hbit := hbits (p.lo + i) (field_bit_lt hp hi)
  obtain ⟨hasRead, -, hrw, -, -, hrw1c, -, hrw1s⟩ :=
    (composeByClass n.layout (r.value &&& n.readMask) M n.layout_wf hok).2 p hp i hi
  obtain ⟨reactRw, reactKept, reactRw1c, reactRw1s⟩ :=
    reactByClass n.layout r.value (compose n.layout (r.value &&& n.readMask) M) n.layout_wf p hp i hi
  have hkept1c (hc : p.cls = .rw1c) : q.value.getLsbD (p.lo + i) = r.value.getLsbD (p.lo + i) := by
    rw [hbit, reactRw1c hc, hrw1c hc, Bool.not_false, Bool.and_true]
    rintro ⟨-, hlast⟩
    obtain ⟨f, x, hclear⟩ := hset hlast
    cases hclear
  refine ⟨fun hnone => ?_, hkept1c, fun hc => ⟨_, hresult, hasRead (.inr hc)⟩⟩
  cases hmask : n.readMask.getLsbD (p.lo + i) with
  | false => simp only [BitVec.getLsbD_and, hmask, Bool.and_false]
  | true =>
    simp only [BitVec.getLsbD_and, hmask, Bool.and_true] at hrw ⊢
    cases hc : p.cls with
    | rw => rw [hbit, reactRw hc, hrw hc (.inl hnone)]
    | ro => rw [hbit, reactKept (.inl hc)]
    | rsvdP => rw [hbit, reactKept (.inr (.inl hc))]
    | rsvdZ => rw [hbit, reactKept (.inr (.inr hc))]
    | rw1c => exact hkept1c hc
    | rw1s =>
      rw [hbit, reactRw1s hc, hrw1s hc, Bool.or_false]
      rintro ⟨-, hlast⟩
      obtain ⟨f, x, hassert⟩ := hset hlast
      cases hassert

/-- The name of an RW1C field of a register's layout names that field (R305 to R312). -/
theorem namedField_rw1c (n : RegName) :
    ∀ p ∈ n.layout.fields, p.cls = .rw1c → namedField n.layout p.name = some p := by
  have hunique : ∀ p ∈ n.layout.fields, p.cls = .rw1c →
      p.name ≠ .reserved ∧ ∀ q ∈ n.layout.fields, q.name = p.name → q = p := by
    cases n <;> simp only [RegName.layout] <;> decide
  intro p hp hc
  obtain ⟨hname, hq⟩ := hunique p hp hc
  exact namedField_unique hp hname hq

/-- In a list that only clears, the last action on a field that has one clears it. -/
theorem lastOn_clear {M : List Action} {f : RegField} (hM : ∀ a ∈ M, ∃ g, a = .clear g) (h : .clear f ∈ M) :
    lastOn M f (.clear f) := by
  cases hlast : lastAction M f with
  | none => exact absurd rfl (lastAction_eq_none.mp hlast _ h)
  | some a =>
    have hon := lastAction_eq_some.mp hlast
    have hfield := lastOn_field hon
    obtain ⟨pre, post, rfl, -, -⟩ := id hon
    obtain ⟨g, rfl⟩ := hM a (by simp)
    cases hfield
    exact hon

/-- Settles O27: an RW1C field is sent as ones exactly when the list clears it. -/
theorem clearTargeting : Obligations.ClearTargeting := by
  intro n M s t r q hn hwf hctrl hlive hM hr hname hclosed hexec hq hqname p hp hc i hi
  have hok (a : Action) (ha : a ∈ M) : actionOk n.layout a := (hM a ha).1
  obtain ⟨-, hbits⟩ := update_reacts hwf hctrl hlive hok hr hname hclosed hexec hq hqname
  obtain ⟨-, -, -, -, hcleared, hleft, -, -⟩ :=
    (composeByClass n.layout (r.value &&& n.readMask) M n.layout_wf hok).2 p hp i hi
  obtain ⟨-, -, hreact, -⟩ :=
    reactByClass n.layout r.value (compose n.layout (r.value &&& n.readMask) M) n.layout_wf p hp i hi
  rw [hbits (p.lo + i) (field_bit_lt hp hi), hreact hc]
  refine ⟨fun hin => ?_, fun hout => ?_⟩
  · have hlast := lastOn_clear (fun a ha => (hM a ha).2) hin
    rw [hcleared hc (namedField_rw1c n p hp hc) hlast, Bool.not_true, Bool.and_false]
  · rw [hleft hc, Bool.not_false, Bool.and_true]
    rintro ⟨-, pre, post, rfl, -, -⟩
    exact hout (by simp)

/-! ## Writes without a read (R127, R315) -/

/-- With no act of the controller scheduled, a write of a register of the map from a snapshot of zeros. -/
theorem writeOnly_register {s : State} {r : Reg} {M : List Action} (hwf : regsWf s.regs = true) (hctrl : s.ctrl = [])
    (hr : r ∈ s.regs) (hok : ∀ a ∈ M, actionOk r.name.layout a) :
    ∃ t : State, writeOnly r.name.address r.name.layout M s = .next t ∧
      registerReacts s t r (compose r.name.layout 0#64 M) := by
  have hreacts := wordWrite_register hwf hctrl hr (compose r.name.layout 0#64 M)
  rw [regs_address hwf hr] at hreacts
  exact ⟨_, writeOnly_ok _ hok s, hreacts⟩

/-- The list of a doorbell write passes `Check` where its values fit (R315). -/
theorem doorbellActions_ok {target stream : Nat} (htarget : target < 256) (hstream : stream < 65536) :
    ∀ a ∈ doorbellActions target stream, actionOk doorbellLayout a := by
  simp only [doorbellActions, List.forall_mem_cons]
  refine ⟨⟨⟨.dbTarget, 0, 8, .rw⟩, rfl, .inl ⟨target, htarget, rfl, rfl⟩⟩,
    ⟨⟨.dbStreamId, 16, 16, .rw⟩, rfl, .inl ⟨stream, hstream, rfl, rfl⟩⟩, by simp⟩

/-- The word of a doorbell write (R310, R315). -/
theorem compose_doorbell {target stream : Nat} (htarget : target < 256) (hstream : stream < 65536) :
    compose doorbellLayout 0#64 (doorbellActions target stream) = BitVec.ofNat 64 (target + stream * 65536) := by
  have hfields : compose doorbellLayout 0#64 (doorbellActions target stream) =
      putBits (putBits (putBits 0#64 0 8 (BitVec.ofNat 64 target)) 8 8 0#64) 16 16 (BitVec.ofNat 64 stream) := rfl
  have hsum : target + stream * 65536 = 2 ^ 16 * stream + target := by omega
  have hhigh {x n k : Nat} (hx : x < 2 ^ n) (hk : n ≤ k) : x.testBit k = false :=
    Nat.testBit_lt_two_pow (lt_of_lt_of_le hx (Nat.pow_le_pow_right (by omega) hk))
  apply BitVec.eq_of_getLsbD_eq
  intro i hi
  rw [hfields, hsum, BitVec.getLsbD_ofNat, Nat.testBit_two_pow_mul_add stream (by omega)]
  simp only [getLsbD_putBits, BitVec.getLsbD_ofNat, hi, decide_true, Bool.true_and]
  by_cases h8 : i < 8
  · simp [h8, hi, show i < 16 by omega, show ¬ 16 ≤ i by omega, show ¬ 8 ≤ i by omega]
  · by_cases h16 : i < 16
    · simp [h16, show 8 ≤ i by omega, show ¬ 16 ≤ i by omega, hhigh (n := 8) htarget (show 8 ≤ i by omega)]
    · by_cases h32 : i < 32
      · simp [h16, h32, show 16 ≤ i by omega, show i - 16 < 64 by omega]
      · simp [h8, h16, h32, hhigh (n := 16) hstream (show 16 ≤ i - 16 by omega)]

/-- Settles O28: the accesses are those of the `Effect` of `wordWrite`, and the register reacts to the word. -/
theorem writeOrder : Obligations.WriteOrder := by
  refine ⟨fun ra L M s _ hlive hok => ?_, fun n M s hn hwf hctrl hlive hok => ?_,
    fun slot target stream s hslot htarget hstream hwf hctrl hlive => ?_⟩
  · have e := wordWrite_effect ra L.width (compose L 0#64 M) s
    refine ⟨_, exec_write hlive ra hok, rfl, e.rings, e.shape, e.frame (wordWrite_restKept _ _ _ s) _, fun hsplit => ?_,
      fun hwhole => ?_⟩
    · exact e.block.trans (congrArg (· ++ blockTrace s.trace) (wordWriteEvents_split (splits_iff.mpr hsplit) ra _))
    · rw [← splits_iff] at hwhole
      exact e.block.trans (congrArg (· ++ blockTrace s.trace) (wordWriteEvents_whole hwhole ra _))
  · obtain ⟨r, hr, rfl⟩ := exists_reg hwf hn
    obtain ⟨t, ht, hreacts⟩ := writeOnly_register hwf hctrl hr hok
    refine ⟨r, hr, rfl, t, ?_, hreacts⟩
    show execWrite r.name.address r.name.layout M s = _
    rw [execWrite, request_live hlive, ht]
  · have hslots : maxSlots = 64 := by decide
    have hn : RegName.doorbell slot ∈ regNames :=
      List.mem_append_right _ (List.mem_map_of_mem (List.mem_range.mpr (by omega)))
    obtain ⟨r, hr, hname⟩ := exists_reg hwf hn
    have hok := doorbellActions_ok htarget hstream
    obtain ⟨t, ht, hreacts⟩ := writeOnly_register hwf hctrl hr (by rw [hname]; exact hok)
    rw [registerReacts, hname] at hreacts
    rw [hname] at ht
    refine ⟨r, hr, hname, t, ?_, compose_doorbell htarget hstream ▸ hreacts⟩
    show execRingDoorbell dbBase slot target stream s = _
    rw [execRingDoorbell, request_live hlive, if_neg (by omega)]
    exact ht

end Sys2Proof.Machine

/-! The statements of 41_trb_codec.md. Encoding and decoding are inverse (`decodeTrb_of_encode`, `encode_decodeTrb`), so
a TRB instruction may be taken as the decoding of its bits, and what it answers is its layout table read off these
bits (`exec_trb`). TRB_GET and TRB_SET work on the same tables: a row is read and set by the two numbers it stands
between (`rowValue_eq`, `setRow_eq`), and rows of one table lie apart (`kindRows_apart`). -/

namespace Sys2Proof

/-! ## Encoding a decoded TRB (R98, R150, R157) -/

/-- Settles O1, by the decoder's law on every encoding. -/
theorem decodeOfEncode : Obligations.DecodeOfEncode := fun _ _ => decodeTrb_of_encode

/-- The Type's bits of a TRB of a defined variant are its code (R81, R82). -/
theorem code_eq_field {t : Trb} {v : Variant} (hk : kindOf t = .defined v) : BitVec.ofNat 6 v.code = field t 106 6 := by
  rw [← typeMap_eq_defined.mp hk, BitVec.ofNat_toNat, BitVec.setWidth_eq, typeField]

/-- A variant's fields, its Type and its reserved pieces follow one another from bit 0 to bit 127: placed, they merge
into the whole TRB. -/
theorem encode_decodeTrb_defined {t : Trb} {v : Variant} (hk : kindOf t = .defined v) :
    encode (decodeTrb t) = some t := by
  have htype := code_eq_field hk
  cases v with
  | normal | setupStage | dataStage | statusStage | isoch | link | eventData | noOp =>
    simp only [Variant.code] at htype
    simp (disch := rfl) only [decodeTrb, hk, encode, htype, place_field_merge, encodeNormal, decodeNormal,
      encodeSetupStage, decodeSetupStage, encodeDataStage, decodeDataStage, encodeStatusStage, decodeStatusStage,
      encodeIsoch, decodeIsoch, encodeLink, decodeLink, encodeEventData, decodeEventData, encodeNoOp, decodeNoOp]
    exact congrArg some (place_field_all t)
  | enableSlot | disableSlot | addressDevice | configureEndpoint | evaluateContext | resetEndpoint | stopEndpoint
  | setTrDequeuePointer | resetDevice | forceEvent | negotiateBandwidth | setLatencyToleranceValue | getPortBandwidth
  | forceHeader | noOpCommand | getExtendedProperty | setExtendedProperty =>
    simp only [Variant.code] at htype
    simp (disch := rfl) only [decodeTrb, hk, encode, htype, place_field_merge, encodeEnableSlot, decodeEnableSlot,
      encodeDisableSlot, decodeDisableSlot, encodeAddressDevice, decodeAddressDevice, encodeConfigureEndpoint,
      decodeConfigureEndpoint, encodeEvaluateContext, decodeEvaluateContext, encodeResetEndpoint, decodeResetEndpoint,
      encodeStopEndpoint, decodeStopEndpoint, encodeSetTrDequeuePointer, decodeSetTrDequeuePointer, encodeResetDevice,
      decodeResetDevice, encodeForceEvent, decodeForceEvent, encodeNegotiateBandwidth, decodeNegotiateBandwidth,
      encodeSetLatencyToleranceValue, decodeSetLatencyToleranceValue, encodeGetPortBandwidth, decodeGetPortBandwidth,
      encodeForceHeader, decodeForceHeader, encodeNoOpCommand, decodeNoOpCommand, encodeGetExtendedProperty,
      decodeGetExtendedProperty, encodeSetExtendedProperty, decodeSetExtendedProperty]
    exact congrArg some (place_field_all t)
  | transferEvent | commandCompletionEvent | portStatusChangeEvent | bandwidthRequestEvent | doorbellEvent
  | hostControllerEvent | deviceNotificationEvent | mfindexWrapEvent =>
    simp only [Variant.code] at htype
    simp (disch := rfl) only [decodeTrb, hk, encode, htype, place_field_merge, encodeTransferEvent,
      decodeTransferEvent, encodeCommandCompletionEvent, decodeCommandCompletionEvent, encodePortStatusChangeEvent,
      decodePortStatusChangeEvent, encodeBandwidthRequestEvent, decodeBandwidthRequestEvent, encodeDoorbellEvent,
      decodeDoorbellEvent, encodeHostControllerEvent, decodeHostControllerEvent, encodeDeviceNotificationEvent,
      decodeDeviceNotificationEvent, encodeMfindexWrapEvent, decodeMfindexWrapEvent]
    exact congrArg some (place_field_all t)

/-- A row of unlisted Types gives back the TRB when the upper bits it fixes are those of the Type (R156). -/
theorem encodeUnrecognized_decodeUnrecognized {n m : Nat} (h : n + m = 6) (upper : BitVec m) {t : Trb}
    (hupper : (typeField t).toNat / 2 ^ n = upper.toNat) : encodeUnrecognized upper (decodeUnrecognized n t) = t := by
  obtain rfl : m = 6 - n := by omega
  have hfield : upper = field t (106 + n) (6 - n) := by
    rw [← BitVec.toNat_inj, field_typeField_toNat t (by omega), hupper]
  simp (disch := omega) only [encodeUnrecognized, decodeUnrecognized, dw0, dw1, dw2, hfield, place_field_merge]
  have hwidth : 32 + 32 + 32 + 1 + 9 + n + (6 - n) + 16 = 128 := by omega
  rw [hwidth]
  exact place_field_all t

/-- An unlisted Type is in one of the five rows, by its value over the row's free bits (R83). -/
theorem encode_decodeTrb_unlisted {t : Trb} (h : unlistedType (typeField t).toNat) :
    encode (decodeTrb t) = some t := by
  have hlt := (typeField t).isLt
  rw [decodeTrb_unlisted h]
  unfold unlistedType at h
  split
  · exact congrArg some (encodeUnrecognized_decodeUnrecognized rfl 0#6 (by simpa))
  · split
    · exact congrArg some (encodeUnrecognized_decodeUnrecognized rfl 13#5 (by simpa))
    · split
      · exact congrArg some (encodeUnrecognized_decodeUnrecognized rfl 7#4 (by simpa))
      · split
        · exact congrArg some (encodeUnrecognized_decodeUnrecognized rfl 5#3 (by simpa))
        · exact congrArg some (encodeUnrecognized_decodeUnrecognized rfl 3#2 (by
            simp only [BitVec.toNat_ofNat]
            omega))

theorem encode_decodeTrb (t : Trb) : encode (decodeTrb t) = some t := by
  cases hk : kindOf t with
  | defined v => exact encode_decodeTrb_defined hk
  | unrecognized => exact encode_decodeTrb_unlisted (kindOf_eq_unrecognized.mp hk)

/-- Settles O2: every Type is a variant's code or in a row of unlisted Types. -/
theorem encodeOfDecode : Obligations.EncodeOfDecode := encode_decodeTrb

end Sys2Proof

namespace Sys2Proof.Machine

/-! ## The rows of the layout tables (R84, R170 to R227) -/

/-- How many low bits of the number that a row shows are not in `T`: a pointer's (R84). -/
def TrbRow.shift (r : TrbRow) : Nat :=
  match r.kind with
  | .pointer k => k
  | .value | .flag | .fixed _ | .ccode => 0

/-- The row is one that TRB_SET may change. -/
def TrbRow.settable (r : TrbRow) : Bool :=
  match r.kind with
  | .fixed _ => false
  | .value | .flag | .pointer _ | .ccode => true

/-- A row lies within `T`, a pointer's ends at bit 63, and the completion code is `T[95:88]`, of no other kind. -/
def TrbRow.ok (r : TrbRow) : Bool :=
  decide (r.lo + r.width ≤ 128) && r.field != .raw &&
    (match r.kind with
      | .pointer k => r.lo == k && r.width + k == 64 && r.field != .completionCode
      | .ccode => r.lo == 88 && r.width == 8 && r.field == .completionCode
      | .value | .flag | .fixed _ => decide (r.width ≤ 64) && r.field != .completionCode)

theorem TrbRow.ok_pointer {f : TrbField} {lo w k : Nat} (h : (⟨f, lo, w, .pointer k⟩ : TrbRow).ok = true) :
    lo = k ∧ w + k = 64 ∧ f ≠ .completionCode := by
  simp only [TrbRow.ok, Bool.and_eq_true, beq_iff_eq, bne_iff_ne] at h
  obtain ⟨-, ⟨hlo, hend⟩, hname⟩ := h
  exact ⟨hlo, hend, hname⟩

theorem TrbRow.ok_ccode {f : TrbField} {lo w : Nat} (h : (⟨f, lo, w, .ccode⟩ : TrbRow).ok = true) :
    lo = 88 ∧ w = 8 ∧ f = .completionCode := by
  simp only [TrbRow.ok, Bool.and_eq_true, beq_iff_eq] at h
  obtain ⟨-, ⟨hlo, hw⟩, hname⟩ := h
  exact ⟨hlo, hw, hname⟩

/-- Only the completion code's kind has its name. -/
theorem TrbRow.ok_name {r : TrbRow} (h : r.ok = true) : r.field = .completionCode ↔ r.kind = .ccode := by
  obtain ⟨f, lo, w, kind⟩ := r
  simp only [TrbRow.ok, Bool.and_eq_true] at h
  obtain ⟨-, hkind⟩ := h
  cases kind <;> simp_all

theorem TrbRow.ok_range {r : TrbRow} (h : r.ok = true) : r.lo + r.width ≤ 128 := by
  simp only [TrbRow.ok, Bool.and_eq_true, decide_eq_true_eq] at h
  exact h.1.1

theorem TrbRow.ok_ne_raw {r : TrbRow} (h : r.ok = true) : r.field ≠ .raw := by
  simp only [TrbRow.ok, Bool.and_eq_true, bne_iff_ne] at h
  exact h.1.2

/-- Two rows have different names and no bit in common. -/
def TrbRow.apart (r q : TrbRow) : Bool :=
  r.field != q.field && (decide (r.lo + r.width ≤ q.lo) || decide (q.lo + q.width ≤ r.lo))

theorem kindRows_ok (k : TrbKind) : ∀ r ∈ kindRows k, r.ok = true := by
  cases k with
  | defined v => cases v <;> decide
  | unrecognized => decide

theorem kindRows_apart (k : TrbKind) : (kindRows k).Pairwise fun r q => r.apart q = true := by
  cases k with
  | defined v => cases v <;> decide
  | unrecognized => decide

/-- Every table has the Type, a fixed field (R80). -/
theorem exists_typeRow (k : TrbKind) : ∃ x, (⟨.type, 106, 6, .fixed x⟩ : TrbRow) ∈ kindRows k := by
  cases k with
  | defined v => exact ⟨v.code, by cases v <;> decide⟩
  | unrecognized => exact ⟨0, by decide⟩

/-! ## The row of a name -/

theorem findRow_eq_some {k : TrbKind} {f : TrbField} {r : TrbRow} (h : findRow k f = some r) :
    r ∈ kindRows k ∧ r.field = f :=
  ⟨List.mem_of_find?_eq_some h, by simpa using List.find?_some h⟩

/-- In a list of rows that are apart, a row's name finds it. -/
theorem find?_field_eq_some {rows : List TrbRow} (h : rows.Pairwise fun r q => r.apart q = true) {f : TrbField}
    {r : TrbRow} : rows.find? (·.field = f) = some r ↔ r ∈ rows ∧ r.field = f := by
  refine ⟨fun hf => ⟨List.mem_of_find?_eq_some hf, by simpa using List.find?_some hf⟩, ?_⟩
  rintro ⟨hr, rfl⟩
  induction h with
  | nil => cases hr
  | cons hhead _ ih =>
    rcases List.mem_cons.mp hr with rfl | hr
    · simp
    · have hne := hhead r hr
      simp only [TrbRow.apart, Bool.and_eq_true, bne_iff_ne] at hne
      rw [List.find?_cons_of_neg (by simpa using hne.1)]
      exact ih hr

theorem findRow_iff {k : TrbKind} {f : TrbField} {r : TrbRow} :
    findRow k f = some r ↔ r ∈ kindRows k ∧ r.field = f := find?_field_eq_some (kindRows_apart k)

/-- Rows of one table with different names share no bit. -/
theorem kindRows_disjoint {k : TrbKind} {r q : TrbRow} (hr : r ∈ kindRows k) (hq : q ∈ kindRows k)
    (hne : r.field ≠ q.field) : r.lo + r.width ≤ q.lo ∨ q.lo + q.width ≤ r.lo := by
  have hsymm (x y : TrbRow) (h : x.apart y = true) : y.apart x = true := by
    simp only [TrbRow.apart, Bool.and_eq_true, Bool.or_eq_true, bne_iff_ne, decide_eq_true_eq] at h ⊢
    exact ⟨h.1.symm, h.2.symm⟩
  obtain ⟨i, hi⟩ := List.mem_iff_getElem?.mp hr
  obtain ⟨j, hj⟩ := List.mem_iff_getElem?.mp hq
  have hij : i ≠ j := by
    rintro rfl
    exact hne (congrArg TrbRow.field (Option.some.inj (hi.symm.trans hj)))
  have hapart := pairwise_getElem? hsymm (kindRows_apart k) hi hj hij
  simp only [TrbRow.apart, Bool.and_eq_true, Bool.or_eq_true, decide_eq_true_eq] at hapart
  exact hapart.2

/-! ## A row by the numbers of its place (R84, R152, R153) -/

theorem getBits_eq_trbBits (t : Trb) {lo w : Nat} (h : lo + w ≤ 128) : (getBits t lo w).toNat = trbBits t lo w :=
  getBits_toNat t lo w h

theorem field_eq_ofNat (t : Trb) (lo n : Nat) : field t lo n = BitVec.ofNat n (trbBits t lo n) := by
  rw [trbBits, ← field_toNat, BitVec.ofNat_toNat, BitVec.setWidth_eq]

/-- A row shows its bits above its zeros, as a number or by the name of the completion code. -/
theorem rowValue_eq {r : TrbRow} (h : r.ok = true) (t : Trb) :
    rowValue t r =
      if r.field = .completionCode then .code (completionCode (BitVec.ofNat 8 (trbBits t r.lo r.width)))
      else .num (trbBits t r.lo r.width * 2 ^ r.shift) := by
  have hbits := getBits_eq_trbBits t (TrbRow.ok_range h)
  have hname := TrbRow.ok_name h
  obtain ⟨f, lo, w, kind⟩ := r
  cases kind with
  | pointer k =>
    obtain ⟨rfl, hend, -⟩ := TrbRow.ok_pointer h
    have hfits : (getBits t lo w).toNat * 2 ^ lo < 2 ^ 128 :=
      calc (getBits t lo w).toNat * 2 ^ lo
          < 2 ^ w * 2 ^ lo := Nat.mul_lt_mul_of_pos_right (getBits_toNat_lt t lo w) (Nat.two_pow_pos lo)
        _ = 2 ^ 64 := by rw [← Nat.pow_add, hend]
        _ < 2 ^ 128 := by decide
    rw [if_neg (by simp [hname])]
    show FieldValue.num (getBits t lo w <<< lo).toNat = .num (trbBits t lo w * 2 ^ lo)
    rw [BitVec.toNat_shiftLeft, Nat.shiftLeft_eq, Nat.mod_eq_of_lt hfits, hbits]
  | ccode =>
    obtain ⟨rfl, rfl, rfl⟩ := TrbRow.ok_ccode h
    simp only [rowValue, field_eq_ofNat, if_true]
  | value | flag | fixed x =>
    rw [if_neg (by simp [hname]), rowValue, hbits]
    exact congrArg FieldValue.num (Nat.mul_one _).symm

/-- What TRB_SET makes of a number, for every row but the fixed ones: too wide, misaligned, or put in place. -/
theorem setRow_eq {r : TrbRow} (h : r.ok = true) (hset : r.settable = true) (t : Trb) (n : Nat) :
    setRow t r n =
      if 2 ^ (r.width + r.shift) ≤ n then .error .tooWide
      else if n % 2 ^ r.shift ≠ 0 then .error .misaligned
      else .ok (putBits t r.lo r.width (BitVec.ofNat 128 (n / 2 ^ r.shift))) := by
  obtain ⟨f, lo, w, kind⟩ := r
  cases kind with
  | pointer k =>
    obtain ⟨rfl, hend, -⟩ := TrbRow.ok_pointer h
    simp only [setRow, TrbRow.shift, hend, Nat.shiftRight_eq_div_pow, ge_iff_le]
    rfl
  | ccode =>
    obtain ⟨rfl, rfl, rfl⟩ := TrbRow.ok_ccode h
    simp [setRow, TrbRow.shift, Nat.mod_one]
  | value | flag => simp [setRow, TrbRow.shift, Nat.mod_one]
  | fixed x => cases hset

theorem setRow_fixed {r : TrbRow} (hset : r.settable = false) (t : Trb) (n : Nat) :
    setRow t r n = .error .notWritable := by
  obtain ⟨f, lo, w, kind⟩ := r
  cases kind with
  | fixed x => rfl
  | value | flag | pointer k | ccode => cases hset

/-- A number put in a place is read back there. -/
theorem trbBits_putBits_same (t : Trb) {lo w m : Nat} (h : lo + w ≤ 128) (hm : m < 2 ^ w) :
    trbBits (putBits t lo w (BitVec.ofNat 128 m)) lo w = m := by
  have h128 : 2 ^ w ≤ 2 ^ 128 := Nat.pow_le_pow_right (by decide) (by omega)
  have hfits : m < 2 ^ 128 := lt_of_lt_of_le hm h128
  rw [← getBits_eq_trbBits _ h, getBits_putBits_same _ _ _ _ h, getBits_toNat _ _ _ (by omega), BitVec.toNat_ofNat,
    Nat.mod_eq_of_lt hfits, Nat.pow_zero, Nat.div_one, Nat.mod_eq_of_lt hm]

theorem trbBits_putBits_apart (t x : Trb) {lo w lo' w' : Nat} (h : lo + w ≤ lo' ∨ lo' + w' ≤ lo)
    (h128 : lo' + w' ≤ 128) : trbBits (putBits t lo w x) lo' w' = trbBits t lo' w' := by
  rw [← getBits_eq_trbBits _ h128, ← getBits_eq_trbBits _ h128, getBits_putBits_apart _ _ _ _ _ _ h]

/-- A change of another row leaves the kind: the Type is a fixed field. -/
theorem kindOf_putBits {t : Trb} {r : TrbRow} (hr : r ∈ kindRows (kindOf t)) (hset : r.settable = true) (x : Trb) :
    kindOf (putBits t r.lo r.width x) = kindOf t := by
  obtain ⟨ty, htype⟩ := exists_typeRow (kindOf t)
  have hne : r.field ≠ .type := by
    intro he
    have hrow : some r = some ⟨.type, 106, 6, .fixed ty⟩ :=
      (findRow_iff.mpr ⟨hr, he⟩).symm.trans (findRow_iff.mpr ⟨htype, rfl⟩)
    cases hrow
    cases hset
  have hbits : trbBits (putBits t r.lo r.width x) 106 6 = trbBits t 106 6 :=
    trbBits_putBits_apart t x (kindRows_disjoint hr htype hne) (Nat.le_add_left _ 16)
  have hfield : typeField (putBits t r.lo r.width x) = typeField t := by
    rw [← BitVec.toNat_inj, typeField_toNat, typeField_toNat, hbits]
  rw [kindOf, kindOf, hfield]

/-! ## TRB_GET (R152) -/

theorem trbFieldValue_raw (t : Trb) : trbFieldValue t .raw = some (rawWords t) := if_pos rfl

theorem trbFieldValue_named (t : Trb) {f : TrbField} (h : f ≠ .raw) :
    trbFieldValue t f = (findRow (kindOf t) f).map (rowValue t) := if_neg h

theorem exec_trbGet_some {v : Trb} {f : TrbField} {x : FieldValue} {s : State} (hlive : s.fault = none)
    (h : trbFieldValue v f = some x) : exec (.trbGet v f) s = answered s (.trbField x) := by
  show execTrbGet v f s = _
  rw [execTrbGet, request_live hlive, h]
  rfl

theorem exec_trbGet_none {v : Trb} {f : TrbField} {s : State} (hlive : s.fault = none)
    (h : trbFieldValue v f = none) : exec (.trbGet v f) s = faulted s .notWritable := by
  show execTrbGet v f s = _
  rw [execTrbGet, request_live hlive, h]
  rfl

/-- Settles O13: a row shows its bits, and a field without a row is no field of the variant. -/
theorem trbGet : Obligations.TrbGet := by
  intro v f s hlive
  refine ⟨?raw, fun r hraw hr => ?row, fun hraw hnone => ?missing⟩
  case raw =>
    rw [exec_trbGet_some hlive (trbFieldValue_raw v), rawWords, dw0, dw1, dw2, dw3]
    simp only [field_eq_ofNat]
  case row =>
    have hok := kindRows_ok _ r (findRow_eq_some hr).1
    have hname := TrbRow.ok_name hok
    rw [exec_trbGet_some hlive (by rw [trbFieldValue_named v hraw, hr, Option.map_some]), rowValue_eq hok]
    obtain ⟨g, lo, w, kind⟩ := r
    cases kind with
    | pointer k =>
      obtain ⟨rfl, hend, hne⟩ := TrbRow.ok_pointer hok
      obtain rfl : w = 64 - lo := by omega
      rw [if_neg hne]
      rfl
    | ccode =>
      obtain ⟨rfl, rfl, rfl⟩ := TrbRow.ok_ccode hok
      rfl
    | value | flag | fixed x =>
      rw [if_neg (by simp [hname]), TrbRow.shift, Nat.pow_zero, Nat.mul_one]
  case missing => exact exec_trbGet_none hlive (by rw [trbFieldValue_named v hraw, hnone, Option.map_none])

/-! ## TRB_SET (R153) -/

theorem exec_trbSet_ok {v t : Trb} {f : TrbField} {x : SetValue} {s : State} (hlive : s.fault = none)
    (h : trbFieldSet v f x = .ok t) : exec (.trbSet v f x) s = answered s (.trb (kindOf t) t) := by
  show execTrbSet v f x s = _
  rw [execTrbSet, request_live hlive, h]
  rfl

theorem exec_trbSet_error {v : Trb} {f : TrbField} {x : SetValue} {code : FaultCode} {s : State}
    (hlive : s.fault = none) (h : trbFieldSet v f x = .error code) : exec (.trbSet v f x) s = faulted s code := by
  show execTrbSet v f x s = _
  rw [execTrbSet, request_live hlive, h]
  rfl

/-- A row that takes a number shows it, and no bit outside the row changes. -/
theorem putRow_spec {r : TrbRow} (hok : r.ok = true) {n : Nat} (hfits : n < 2 ^ (r.width + r.shift))
    (haligned : n % 2 ^ r.shift = 0) (v : Trb) :
    let t : Trb := putBits v r.lo r.width (BitVec.ofNat 128 (n / 2 ^ r.shift))
    trbBits t r.lo r.width * 2 ^ r.shift = n ∧
      ∀ i, i < r.lo ∨ r.lo + r.width ≤ i → t.getLsbD i = v.getLsbD i := by
  refine ⟨?_, fun i hi => ?_⟩
  · have hbits : n / 2 ^ r.shift < 2 ^ r.width := Nat.div_lt_of_lt_mul (by rwa [← Nat.pow_add, Nat.add_comm])
    rw [trbBits_putBits_same v (TrbRow.ok_range hok) hbits, Nat.div_mul_cancel (Nat.dvd_of_mod_eq_zero haligned)]
  · rw [getLsbD_putBits, if_neg (by omega)]

section

variable {v : Trb} {f : TrbField} {x : SetValue} {r : TrbRow} {s : State}

/-- TRB_SET of a settable field, by the number alone. -/
theorem trbFieldSet_row (hr : findRow (kindOf v) f = some r) (hset : r.settable = true) :
    trbFieldSet v f x =
      if 2 ^ (r.width + r.shift) ≤ setNumber x then .error .tooWide
      else if setNumber x % 2 ^ r.shift ≠ 0 then .error .misaligned
      else .ok (putBits v r.lo r.width (BitVec.ofNat 128 (setNumber x / 2 ^ r.shift))) := by
  rw [trbFieldSet, hr]
  exact setRow_eq (kindRows_ok _ r (findRow_eq_some hr).1) hset v (setNumber x)

theorem exec_trbSet_tooWide (hlive : s.fault = none) (hr : findRow (kindOf v) f = some r) (hset : r.settable = true)
    (hwide : 2 ^ (r.width + r.shift) ≤ setNumber x) : exec (.trbSet v f x) s = faulted s .tooWide :=
  exec_trbSet_error hlive (by rw [trbFieldSet_row hr hset, if_pos hwide])

theorem exec_trbSet_misaligned (hlive : s.fault = none) (hr : findRow (kindOf v) f = some r)
    (hset : r.settable = true) (hfits : ¬ 2 ^ (r.width + r.shift) ≤ setNumber x)
    (hlow : setNumber x % 2 ^ r.shift ≠ 0) : exec (.trbSet v f x) s = faulted s .misaligned :=
  exec_trbSet_error hlive (by rw [trbFieldSet_row hr hset, if_neg hfits, if_pos hlow])

/-- A number that the row takes: the same kind, the row at the number, and every other bit as before. -/
theorem exec_trbSet_fits (hlive : s.fault = none) (hr : findRow (kindOf v) f = some r) (hset : r.settable = true)
    (hfits : ¬ 2 ^ (r.width + r.shift) ≤ setNumber x) (haligned : setNumber x % 2 ^ r.shift = 0) :
    ∃ t : Trb, exec (.trbSet v f x) s = answered s (.trb (kindOf v) t) ∧
      trbBits t r.lo r.width * 2 ^ r.shift = setNumber x ∧
      ∀ i, i < r.lo ∨ r.lo + r.width ≤ i → t.getLsbD i = v.getLsbD i := by
  have hmem := (findRow_eq_some hr).1
  have hput := trbFieldSet_row (x := x) hr hset
  rw [if_neg hfits, if_neg (not_not_intro haligned)] at hput
  have hexec := exec_trbSet_ok hlive hput
  rw [kindOf_putBits hmem hset] at hexec
  exact ⟨_, hexec, putRow_spec (kindRows_ok _ r hmem) (Nat.lt_of_not_le hfits) haligned v⟩

/-- The fields but the pointers and the fixed ones have no zeros below, so no number is misaligned. -/
theorem exec_trbSet_plain (hlive : s.fault = none) (hr : findRow (kindOf v) f = some r) (hset : r.settable = true)
    (hshift : r.shift = 0) :
    if 2 ^ r.width ≤ setNumber x then exec (.trbSet v f x) s = faulted s .tooWide
    else ∃ t : Trb, exec (.trbSet v f x) s = answered s (.trb (kindOf v) t) ∧
      trbBits t r.lo r.width = setNumber x ∧ ∀ i, i < r.lo ∨ r.lo + r.width ≤ i → t.getLsbD i = v.getLsbD i := by
  split
  · exact exec_trbSet_tooWide hlive hr hset (by rwa [hshift])
  · have haligned : setNumber x % 2 ^ r.shift = 0 := by rw [hshift, Nat.pow_zero, Nat.mod_one]
    have hfits := exec_trbSet_fits hlive hr hset (by rwa [hshift]) haligned
    simpa only [hshift, Nat.pow_zero, Nat.mul_one] using hfits

end

/-- Settles O14: a settable row takes the numbers that fit above its zeros, and puts their bits in its place. -/
theorem trbSet : Obligations.TrbSet := by
  intro v f x s hlive n
  have hn : n = setNumber x := by cases x <;> rfl
  clear_value n
  subst hn
  refine ⟨fun hnone => exec_trbSet_error hlive (by rw [trbFieldSet, hnone]), fun r hr => ?_⟩
  have hok := kindRows_ok _ r (findRow_eq_some hr).1
  obtain ⟨g, lo, w, kind⟩ := r
  cases kind with
  | fixed y => exact exec_trbSet_error hlive (by rw [trbFieldSet, hr]; rfl)
  | value | flag | ccode => exact exec_trbSet_plain hlive hr rfl rfl
  | pointer k =>
    obtain ⟨rfl, hend, -⟩ := TrbRow.ok_pointer hok
    obtain rfl : w = 64 - lo := by omega
    have hpow : 2 ^ 64 = 2 ^ (64 - lo + lo) := by rw [hend]
    have htop : lo + (64 - lo) = 64 := by omega
    dsimp only
    split
    · exact exec_trbSet_tooWide hlive hr rfl (hpow ▸ ‹_›)
    · split
      · exact exec_trbSet_misaligned hlive hr rfl (hpow ▸ ‹_›) ‹_›
      · have hfits := exec_trbSet_fits (x := x) hlive hr rfl (hpow ▸ ‹_›) (not_not.mp ‹_›)
        rw [htop] at hfits
        exact hfits

/-! ## A TRB that TRB_SET answers -/

/-- TRB_SET answers a TRB only from a settable row whose number fits above its zeros. -/
theorem exec_trbSet_trb {v t : Trb} {f : TrbField} {x : SetValue} {k : TrbKind} {s s' : State}
    (hlive : s.fault = none) (hexec : exec (.trbSet v f x) s = .next s') (hres : s'.result = some (.trb k t)) :
    ∃ r ∈ kindRows (kindOf v), r.field = f ∧ r.settable = true ∧
      setNumber x < 2 ^ (r.width + r.shift) ∧ setNumber x % 2 ^ r.shift = 0 ∧ k = kindOf v ∧ kindOf t = kindOf v ∧
      t = putBits v r.lo r.width (BitVec.ofNat 128 (setNumber x / 2 ^ r.shift)) := by
  cases hset : trbFieldSet v f x with
  | error code =>
    rw [exec_trbSet_error hlive hset] at hexec
    cases hexec
    cases hres
  | ok u =>
    rw [exec_trbSet_ok hlive hset] at hexec
    cases hexec
    cases hres
    cases hr : findRow (kindOf v) f with
    | none => simp [trbFieldSet, hr] at hset
    | some r =>
      obtain ⟨hmem, hname⟩ := findRow_eq_some hr
      have hsettable : r.settable = true := by
        by_contra hfixed
        simp [trbFieldSet, hr, setRow_fixed (Bool.eq_false_of_not_eq_true hfixed)] at hset
      rw [trbFieldSet_row hr hsettable] at hset
      split at hset
      · cases hset
      · split at hset
        · cases hset
        · cases hset
          have hkind := kindOf_putBits hmem hsettable (BitVec.ofNat 128 (setNumber x / 2 ^ r.shift))
          exact ⟨r, hmem, hname, hsettable, by omega, not_not.mp ‹_›, hkind, hkind, rfl⟩

/-- A row whose bits are unchanged shows what it showed. -/
theorem rowValue_congr {r : TrbRow} (hok : r.ok = true) {t v : Trb}
    (h : trbBits t r.lo r.width = trbBits v r.lo r.width) : rowValue t r = rowValue v r := by
  rw [rowValue_eq hok, rowValue_eq hok, h]

/-- Settles O15: the row set shows its number, and the rows apart from it keep their bits. -/
theorem trbGetAfterSet : Obligations.TrbGetAfterSet := by
  intro v t f x k s s' hlive hexec hres
  obtain ⟨r, hmem, rfl, hset, hfits, haligned, rfl, hkind, rfl⟩ := exec_trbSet_trb hlive hexec hres
  have hok := kindRows_ok _ r hmem
  obtain ⟨hshown, -⟩ := putRow_spec hok hfits haligned v
  refine ⟨rfl, hkind, fun g hne hraw => ?others, fun hname => ?number, fun hname => ?code⟩
  case others =>
    rw [trbFieldValue_named _ hraw, trbFieldValue_named _ hraw, hkind]
    refine Option.map_congr fun q hq => ?_
    obtain ⟨hqmem, rfl⟩ := findRow_eq_some hq
    have hqok := kindRows_ok _ q hqmem
    exact rowValue_congr hqok
      (trbBits_putBits_apart v _ (kindRows_disjoint hmem hqmem hne.symm) (TrbRow.ok_range hqok))
  case number =>
    rw [trbFieldValue_named _ (TrbRow.ok_ne_raw hok), hkind, findRow_iff.mpr ⟨hmem, rfl⟩, Option.map_some,
      rowValue_eq hok, if_neg hname, hshown]
  case code =>
    have hshift : r.shift = 0 := by rw [TrbRow.shift, (TrbRow.ok_name hok).mp hname]
    have hnumber : trbBits (putBits v r.lo r.width (BitVec.ofNat 128 (setNumber x / 2 ^ r.shift))) r.lo r.width =
        setNumber x := by simpa only [hshift, Nat.pow_zero, Nat.mul_one] using hshown
    rw [trbFieldValue_named _ (TrbRow.ok_ne_raw hok), hkind, findRow_iff.mpr ⟨hmem, rfl⟩, Option.map_some,
      rowValue_eq hok, if_pos hname, hnumber]

/-! ## TRB_NEW and canonical values (R151, R158) -/

theorem exec_trbNew (K : Variant) {s : State} (hlive : s.fault = none) :
    exec (.trbNew K) s = answered s (.trb (.defined K) (fixedPattern K)) := by
  show execTrbNew K s = _
  rw [execTrbNew, request_live hlive]
  rfl

/-- The fixed fields of a variant: the Type, and the Setup Stage's `idt` and `trb_transfer_length` (R151). -/
theorem fixedPattern_eq (K : Variant) :
    fixedPattern K =
      BitVec.ofNat 128 (K.code * 2 ^ 106 + if K = .setupStage then 2 ^ 102 + 8 * 2 ^ 64 else 0) := by
  cases K <;> decide

theorem kindOf_fixedPattern (K : Variant) : kindOf (fixedPattern K) = .defined K := by cases K <;> decide

/-- Settles O12: TRB_NEW gives the fixed fields in place, the Type among them. -/
theorem trbNew : Obligations.TrbNew := by
  intro K s hlive t
  have ht : fixedPattern K = t := fixedPattern_eq K
  exact ht ▸ ⟨exec_trbNew K hlive, kindOf_fixedPattern K⟩

theorem canonical_fixedPattern (K : Variant) : canonical K (fixedPattern K) = true := by cases K <;> decide

/-- A settable row shares no bit with the reserved ones and with the fixed fields. -/
theorem settable_apart (K : Variant) : ∀ r ∈ variantRows K, r.settable = true →
    maskAt 128 r.lo r.width &&& reservedMask K = 0#128 ∧ maskAt 128 r.lo r.width &&& fixedMask K = 0#128 := by
  cases K <;> decide

theorem putBits_and_apart {n : Nat} {lo w : Nat} {m : BitVec n} (h : maskAt n lo w &&& m = 0#n) (x y : BitVec n) :
    putBits x lo w y &&& m = x &&& m := by
  apply BitVec.eq_of_getLsbD_eq
  intro i hi
  have hbit := congrArg (·.getLsbD i) h
  simp only [BitVec.getLsbD_and, getLsbD_maskAt, hi, BitVec.getLsbD_zero] at hbit
  rw [BitVec.getLsbD_and, BitVec.getLsbD_and, getLsbD_putBits]
  split
  · simp_all
  · rfl

/-- Settles O16: TRB_SET changes neither a reserved bit nor a fixed field. -/
theorem canonicalKept : Obligations.CanonicalKept := by
  refine ⟨fun K t s s' hlive hexec hres => ?new, fun K v t f x s s' hlive hk hcanon hexec hres => ?set⟩
  case new =>
    rw [exec_trbNew K hlive] at hexec
    cases hexec
    cases hres
    exact canonical_fixedPattern K
  case set =>
    obtain ⟨r, hmem, -, hset, -, -, -, -, rfl⟩ := exec_trbSet_trb hlive hexec hres
    rw [hk] at hmem
    obtain ⟨hreserved, hfixed⟩ := settable_apart K r hmem hset
    rw [canonical, putBits_and_apart hreserved, putBits_and_apart hfixed]
    exact hcanon

/-! ## TRB_ENCODE and TRB_DECODE (R154, R155, R157, R160) -/

theorem exec_trbEncode (v : Trb) {s : State} (hlive : s.fault = none) :
    exec (.trbEncode v) s = answered s (.words (dw0 v) (dw1 v) (dw2 v) (dw3 v)) := by
  show execTrbEncode v s = _
  rw [execTrbEncode, request_live hlive]
  rfl

theorem exec_trbDecode (w0 w1 w2 w3 : Word) {s : State} (hlive : s.fault = none) :
    exec (.trbDecode w0 w1 w2 w3) s =
      answered s (.trb (kindOf (trbOfWords w0 w1 w2 w3)) (trbOfWords w0 w1 w2 w3)) := by
  show execTrbDecode w0 w1 w2 w3 s = _
  rw [execTrbDecode, request_live hlive]
  rfl

theorem trbOfWords_words (t : Trb) : trbOfWords (dw0 t) (dw1 t) (dw2 t) (dw3 t) = t := by
  simp (disch := rfl) only [trbOfWords, dw0, dw1, dw2, dw3, place_field_merge]
  exact place_field_all t

theorem words_trbOfWords (w0 w1 w2 w3 : Word) :
    dw0 (trbOfWords w0 w1 w2 w3) = w0 ∧ dw1 (trbOfWords w0 w1 w2 w3) = w1 ∧ dw2 (trbOfWords w0 w1 w2 w3) = w2 ∧
      dw3 (trbOfWords w0 w1 w2 w3) = w3 := by
  simp (disch := decide) only [trbOfWords, dw0, dw1, dw2, dw3, field_or, field_place_same, field_place_apart,
    BitVec.or_zero, BitVec.zero_or, and_self]

/-- `T` as a number is its words, each 32 bits up (R9). -/
theorem toNat_words (t : Trb) :
    t.toNat = (dw0 t).toNat + (dw1 t).toNat * 2 ^ 32 + (dw2 t).toNat * 2 ^ 64 + (dw3 t).toNat * 2 ^ 96 := by
  have hlt := t.isLt
  rw [dw0, dw1, dw2, dw3, field_toNat, field_toNat, field_toNat, field_toNat]
  omega

/-- Settles O17: the four words and the TRB are made of the same bits. -/
theorem trbWords : Obligations.TrbWords := by
  refine ⟨fun v s hlive => ?encode, fun w0 w1 w2 w3 s hlive => ?decode⟩
  case encode =>
    have hdecode := exec_trbDecode (dw0 v) (dw1 v) (dw2 v) (dw3 v) hlive
    rw [trbOfWords_words] at hdecode
    exact ⟨_, _, _, _, field_toNat v 0 32, field_toNat v 32 32, field_toNat v 64 32, field_toNat v 96 32,
      exec_trbEncode v hlive, hdecode⟩
  case decode =>
    obtain ⟨h0, h1, h2, h3⟩ := words_trbOfWords w0 w1 w2 w3
    have hnumber := toNat_words (trbOfWords w0 w1 w2 w3)
    have hencode := exec_trbEncode (trbOfWords w0 w1 w2 w3) hlive
    rw [h0, h1, h2, h3] at hnumber hencode
    exact ⟨_, hnumber, exec_trbDecode w0 w1 w2 w3 hlive, hencode⟩

/-! ## What a TRB answers (R152, R155) -/

/-- The fields that a TRB of a kind lists: its layout table, read off the bits; of an Unrecognized one, R156's. -/
def listedFields (k : TrbKind) (t : Trb) : List (TrbField × FieldValue) :=
  match k with
  | .defined v => (variantRows v).map fun r => (r.field, rowValue t r)
  | .unrecognized => unrecognizedFields t

theorem getBits_eq_field (t : Trb) {lo n : Nat} (h : lo + n ≤ 128) : (getBits t lo n).toNat = (field t lo n).toNat := by
  rw [getBits_eq_trbBits t h, field_toNat, trbBits]

theorem getBits_pointer (t : Trb) : (getBits t 4 60 <<< 4).toNat = 16 * (field t 4 60).toNat := by
  have hlt := (field t 4 60).isLt
  rw [BitVec.toNat_shiftLeft, getBits_eq_field t (by decide), Nat.shiftLeft_eq]
  omega

/-- A TRB of a defined variant answers the fields that its decoding read from the places its layout table gives. -/
theorem exec_decodeTrb_defined {t : Trb} {v : Variant} {s : State} (hlive : s.fault = none)
    (hk : kindOf t = .defined v) :
    exec (decodeTrb t) s = answered s (.decoded (.defined v) t (listedFields (.defined v) t)) := by
  have htype := code_eq_field hk
  have hencode := encode_decodeTrb t
  cases v with
  | normal | setupStage | dataStage | statusStage | isoch | link | eventData | noOp =>
    simp only [Variant.code] at htype
    simp only [decodeTrb, hk, encode, Option.some.injEq] at hencode
    simp (disch := decide) only [decodeTrb, hk, exec, execNormal, execSetupStage, execDataStage, execStatusStage,
      execIsoch, execLink, execEventData, execNoOp, request_live hlive, hencode, listedFields, variantRows, List.map,
      rowValue, getBits_eq_field, getBits_pointer, ← htype]
    rfl
  | enableSlot | disableSlot | addressDevice | configureEndpoint | evaluateContext | resetEndpoint | stopEndpoint
  | setTrDequeuePointer | resetDevice | forceEvent | negotiateBandwidth | setLatencyToleranceValue | getPortBandwidth
  | forceHeader | noOpCommand | getExtendedProperty | setExtendedProperty =>
    simp only [Variant.code] at htype
    simp only [decodeTrb, hk, encode, Option.some.injEq] at hencode
    simp (disch := decide) only [decodeTrb, hk, exec, execEnableSlot, execDisableSlot, execAddressDevice,
      execConfigureEndpoint, execEvaluateContext, execResetEndpoint, execStopEndpoint, execSetTrDequeuePointer,
      execResetDevice, execForceEvent, execNegotiateBandwidth, execSetLatencyToleranceValue, execGetPortBandwidth,
      execForceHeader, execNoOpCommand, execGetExtendedProperty, execSetExtendedProperty, request_live hlive, hencode,
      listedFields, variantRows, List.map, rowValue, getBits_eq_field, getBits_pointer, ← htype]
    rfl
  | transferEvent | commandCompletionEvent | portStatusChangeEvent | bandwidthRequestEvent | doorbellEvent
  | hostControllerEvent | deviceNotificationEvent | mfindexWrapEvent =>
    simp only [Variant.code] at htype
    simp only [decodeTrb, hk, encode, Option.some.injEq] at hencode
    simp (disch := decide) only [decodeTrb, hk, exec, execTransferEvent, execCommandCompletionEvent,
      execPortStatusChangeEvent, execBandwidthRequestEvent, execDoorbellEvent, execHostControllerEvent,
      execDeviceNotificationEvent, execMfindexWrapEvent, request_live hlive, hencode, listedFields, variantRows,
      List.map, rowValue, getBits_eq_field, getBits_pointer, ← htype]
    rfl

/-- A TRB of an unlisted Type answers its raw fields, whichever of the five rows it is in (R156). -/
theorem exec_decodeTrb_unrecognized {t : Trb} {s : State} (hlive : s.fault = none) (hk : kindOf t = .unrecognized) :
    exec (decodeTrb t) s = answered s (.decoded .unrecognized t (unrecognizedFields t)) := by
  have hrow {u : Trb} (hu : some u = some t) :
      request s (answer (.decoded .unrecognized u (unrecognizedFields u))) =
        answered s (.decoded .unrecognized t (unrecognizedFields t)) := by
    cases hu
    exact request_live hlive
  have hencode := encode_decodeTrb t
  simp only [decodeTrb, hk, decodeUnlisted] at hencode ⊢
  revert hencode
  split
  · exact hrow
  · split
    · exact hrow
    · split
      · exact hrow
      · split <;> exact hrow

/-- A TRB answers its kind, its bits and the fields of its table. -/
theorem exec_trb {i : Instr} {t : Trb} {s : State} (hlive : s.fault = none) (h : encode i = some t) :
    exec i s = answered s (.decoded (kindOf t) t (listedFields (kindOf t) t)) := by
  obtain rfl : decodeTrb t = i := decodeTrb_of_encode h
  cases hk : kindOf t with
  | defined v => exact exec_decodeTrb_defined hlive hk
  | unrecognized => exact exec_decodeTrb_unrecognized hlive hk

/-! ## The listed fields and TRB_GET -/

theorem unrecognizedFields_rows (t : Trb) :
    unrecognizedFields t =
      [(.raw, rawWords t), (.type, rowValue t ⟨.type, 106, 6, .fixed 0⟩), (.c, rowValue t ⟨.c, 96, 1, .flag⟩)] := by
  simp (disch := decide) only [rowValue, getBits_eq_field]
  rfl

/-- A listed field is a row of the table with its value, or the raw words of an Unrecognized TRB. -/
theorem mem_listedFields {k : TrbKind} {t : Trb} {f : TrbField} {x : FieldValue} :
    (f, x) ∈ listedFields k t ↔
      (k = .unrecognized ∧ f = .raw ∧ rawWords t = x) ∨ ∃ r, findRow k f = some r ∧ rowValue t r = x := by
  simp only [findRow_iff]
  cases k with
  | defined v =>
    simp only [listedFields, kindRows, List.mem_map, Prod.mk.injEq, reduceCtorEq, false_and, false_or, and_assoc]
  | unrecognized =>
    simp only [listedFields, kindRows, unrecognizedFields_rows, unrecognizedRows, List.mem_cons, List.not_mem_nil,
      Prod.mk.injEq, or_false, true_and, or_and_right, exists_or, and_assoc, exists_eq_left, eq_comm (a := x),
      eq_comm (a := f)]
    exact or_congr_right or_comm

/-- Settles O11: the list is the layout table, and TRB_GET finds the same rows in it by their names. -/
theorem decodedFieldsAreTrbGet : Obligations.DecodedFieldsAreTrbGet := by
  intro i t s h hlive
  refine ⟨_, exec_trb hlive h, fun f x hraw => ?_⟩
  rw [mem_listedFields]
  by_cases hf : f = .raw
  · subst hf
    have hnone (r : TrbRow) : findRow (kindOf t) .raw ≠ some r := fun hr =>
      TrbRow.ok_ne_raw (kindRows_ok _ r (findRow_eq_some hr).1) (findRow_eq_some hr).2
    simp only [hraw rfl, trbFieldValue_raw] at hnone ⊢
    simp [hnone]
  · simp only [trbFieldValue_named t hf, Option.map_eq_some_iff, hf, false_and, and_false, false_or]

/-! ## The command TRBs (R190 to R206) -/

/-- A row of a variant's table as the decoder reports it, by its place; the Type by its code. -/
def tableEntry (v : Variant) (t : Trb) (r : TrbRow) : TrbField × FieldValue :=
  if r.field = .type then (.type, .num v.code)
  else
    match r.kind with
    | .value | .flag | .fixed _ => numAt r.field t r.lo r.width
    | .pointer _ => ptrAt r.field t r.lo r.width
    | .ccode => codeAt t

theorem typeRow_eq (v : Variant) : ∀ r ∈ variantRows v, r.field = .type → r = ⟨.type, 106, 6, .fixed v.code⟩ := by
  cases v <;> decide

theorem tableEntry_eq {t : Trb} {v : Variant} (hk : kindOf t = .defined v) {r : TrbRow} (hr : r ∈ variantRows v) :
    (r.field, rowValue t r) = tableEntry v t r := by
  have hok := kindRows_ok (.defined v) r hr
  have hname := TrbRow.ok_name hok
  rw [rowValue_eq hok, tableEntry]
  by_cases htype : r.field = .type
  · obtain rfl := typeRow_eq v r hr htype
    have hcode : trbBits t 106 6 = v.code := (typeField_toNat t).symm.trans (typeMap_eq_defined.mp hk)
    rw [if_pos rfl, if_neg nofun, hcode]
    exact congrArg (fun n => (TrbField.type, FieldValue.num n)) (Nat.mul_one v.code)
  · rw [if_neg htype]
    obtain ⟨f, lo, w, kind⟩ := r
    cases kind with
    | pointer k =>
      obtain ⟨rfl, -, hne⟩ := TrbRow.ok_pointer hok
      rw [if_neg hne]
      rfl
    | ccode =>
      obtain ⟨rfl, rfl, rfl⟩ := TrbRow.ok_ccode hok
      rfl
    | value | flag | fixed y =>
      rw [if_neg (by simp [hname]), TrbRow.shift, Nat.pow_zero, Nat.mul_one]
      rfl

/-- A TRB whose Type is a variant's code answers the variant, its bits and its table's fields. -/
theorem exec_variant {i : Instr} {t : Trb} (v : Variant) {s : State} (hlive : s.fault = none)
    (h : encode i = some t) (hcode : (typeField t).toNat ∈ [v.code]) :
    exec i s = answered s (.decoded (.defined v) t ((variantRows v).map (tableEntry v t))) := by
  have hk : kindOf t = .defined v := typeMap_eq_defined.mpr (List.mem_singleton.mp hcode)
  rw [exec_trb hlive h, hk, listedFields, List.map_congr_left fun r hr => tableEntry_eq hk hr]

/-- Settles O8: the Type of each command's encoding is its variant's code, and the fields are its table's. -/
theorem commandTrbs : Obligations.CommandTrbs :=
  ⟨fun o _ hlive => exec_variant .enableSlot hlive rfl (Laws.TypeField.enableSlot o),
    fun o _ hlive => exec_variant .disableSlot hlive rfl (Laws.TypeField.disableSlot o),
    fun o _ hlive => exec_variant .addressDevice hlive rfl (Laws.TypeField.addressDevice o),
    fun o _ hlive => exec_variant .configureEndpoint hlive rfl (Laws.TypeField.configureEndpoint o),
    fun o _ hlive => exec_variant .evaluateContext hlive rfl (Laws.TypeField.evaluateContext o),
    fun o _ hlive => exec_variant .resetEndpoint hlive rfl (Laws.TypeField.resetEndpoint o),
    fun o _ hlive => exec_variant .stopEndpoint hlive rfl (Laws.TypeField.stopEndpoint o),
    fun o _ hlive => exec_variant .setTrDequeuePointer hlive rfl (Laws.TypeField.setTrDequeuePointer o),
    fun o _ hlive => exec_variant .resetDevice hlive rfl (Laws.TypeField.resetDevice o),
    fun o _ hlive => exec_variant .forceEvent hlive rfl (Laws.TypeField.forceEvent o),
    fun o _ hlive => exec_variant .negotiateBandwidth hlive rfl (Laws.TypeField.negotiateBandwidth o),
    fun o _ hlive => exec_variant .setLatencyToleranceValue hlive rfl (Laws.TypeField.setLatencyToleranceValue o),
    fun o _ hlive => exec_variant .getPortBandwidth hlive rfl (Laws.TypeField.getPortBandwidth o),
    fun o _ hlive => exec_variant .forceHeader hlive rfl (Laws.TypeField.forceHeader o),
    fun o _ hlive => exec_variant .noOpCommand hlive rfl (Laws.TypeField.noOpCommand o),
    fun o _ hlive => exec_variant .getExtendedProperty hlive rfl (Laws.TypeField.getExtendedProperty o),
    fun o _ hlive => exec_variant .setExtendedProperty hlive rfl (Laws.TypeField.setExtendedProperty o)⟩

end Sys2Proof.Machine

/-! The statements of 42_trb_transfer.md. What a TRB instruction answers is its variant's table read off its encoding
(`exec_variant`); a word of the spec's vectors decodes by the decoder's law, from the encoding of the instruction it
stands for. -/

namespace Sys2Proof.Machine

/-! ## The transfer TRBs and the Link (R170 to R177) -/

/-- Settles O7: the Type of each encoding is its variant's code, and the fields are its table's. -/
theorem transferTrbs : Obligations.TransferTrbs :=
  ⟨fun o _ hlive => exec_variant .normal hlive rfl (Laws.TypeField.normal o),
    fun o _ hlive => exec_variant .setupStage hlive rfl (Laws.TypeField.setupStage o),
    fun o _ hlive => exec_variant .dataStage hlive rfl (Laws.TypeField.dataStage o),
    fun o _ hlive => exec_variant .statusStage hlive rfl (Laws.TypeField.statusStage o),
    fun o _ hlive => exec_variant .isoch hlive rfl (Laws.TypeField.isoch o),
    fun o _ hlive => exec_variant .link hlive rfl (Laws.TypeField.link o),
    fun o _ hlive => exec_variant .eventData hlive rfl (Laws.TypeField.eventData o),
    fun o _ hlive => exec_variant .noOp hlive rfl (Laws.TypeField.noOp o)⟩

/-! ## Words (R53, R155) -/

/-- A table's word of at most 32 bits decodes as the TRB whose DW3 it is. -/
theorem decodeTableWord_dw3 {nbits : Nat} (h : nbits ≤ 32) (w : Nat) :
    decodeTableWord nbits w =
      some (decodeTrb (trbOfWords 0#32 0#32 0#32 (BitVec.ofNat 32 (w % 2 ^ nbits)))) := by
  have hbytes := decodeBytes_trbBytes_append (trbOfWords 0#32 0#32 0#32 (BitVec.ofNat 32 (w % 2 ^ nbits))) []
  rw [List.append_nil] at hbytes
  simp only [decodeTableWord, tableBytes, if_pos h, hbytes]

/-- Settles O6: each instruction's encoding evaluates to its words, and the decoder inverts the encoding. -/
theorem sampleWords : Obligations.SampleWords := by
  refine ⟨decodeTrb_of_encode ?normal, decodeTrb_of_encode ?link, decodeTrb_of_encode ?disableSlot,
    decodeTrb_of_encode ?event, decodeTrb_of_encode ?unrecognized,
    (decodeTableWord_dw3 (by decide) _).trans (congrArg some (decodeTrb_of_encode ?tableWord))⟩
  all_goals decide

end Sys2Proof.Machine

/-! The statements of 44_trb_event.md. An event TRB answers as every other TRB does, its variant's table read off its
encoding (`exec_variant`); only its completion code is reported by name (R91). -/

namespace Sys2Proof.Machine

/-! ## The event TRBs (R220 to R227) -/

/-- Settles O9: the Type of each event's encoding is its variant's code, and the fields are its table's. -/
theorem eventTrbs : Obligations.EventTrbs :=
  ⟨fun o _ hlive => exec_variant .transferEvent hlive rfl (Laws.TypeField.transferEvent o),
    fun o _ hlive => exec_variant .commandCompletionEvent hlive rfl (Laws.TypeField.commandCompletionEvent o),
    fun o _ hlive => exec_variant .portStatusChangeEvent hlive rfl (Laws.TypeField.portStatusChangeEvent o),
    fun o _ hlive => exec_variant .bandwidthRequestEvent hlive rfl (Laws.TypeField.bandwidthRequestEvent o),
    fun o _ hlive => exec_variant .doorbellEvent hlive rfl (Laws.TypeField.doorbellEvent o),
    fun o _ hlive => exec_variant .hostControllerEvent hlive rfl (Laws.TypeField.hostControllerEvent o),
    fun o _ hlive => exec_variant .deviceNotificationEvent hlive rfl (Laws.TypeField.deviceNotificationEvent o),
    fun o _ hlive => exec_variant .mfindexWrapEvent hlive rfl (Laws.TypeField.mfindexWrapEvent o)⟩

end Sys2Proof.Machine

/-! The statements of 45_ring_engine.md. What a request on a ring does by its identifier is said once for each request
(`exec_crcrValue` and its like, from `request_onProducer` and `request_onConsumer`). The rest is about `enqueueAt`: the
position it moves the cursor to (`enqueueAt_position`), the words it leaves in its segment (`enqueueAt_slot`,
`enqueueAt_linkControl`, `enqueueAt_linkTarget`), and so what a reader of the controller finds there. -/

namespace Sys2Proof.Machine

/-! ## Requests on a ring by its identifier (R250, R251, R331) -/

section

variable {s : State} {r : Nat}

/-- A request on a producer ring runs on the ring and the segment of its cursor. -/
theorem request_onProducer (hlive : s.fault = none) {p : ProducerRing} {g : Segment}
    (hr : s.rings[r]? = some (.producer p)) (hg : p.segs[p.seg]? = some g)
    (run : State → ProducerRing → Segment → StepResult) :
    request s (fun s => onProducer s r (run s)) = run s p g := by
  have hseg : producerSegment p = some g := hg
  simp only [request_live hlive, onProducer, producer?_eq_some.mpr hr, hseg]

/-- A request on a producer ring that the identifier does not name (R331). -/
theorem request_onProducer_unnamed (hlive : s.fault = none) (hno : ∀ p, s.rings[r]? ≠ some (.producer p))
    (run : State → ProducerRing → Segment → StepResult) :
    request s (fun s => onProducer s r (run s)) = faulted s .wrongRing := by
  have hnone : producer? s r = none := Option.eq_none_iff_forall_ne_some.mpr fun p hp => hno p (producer?_eq_some.mp hp)
  simp only [request_live hlive, onProducer, hnone]
  rfl

/-- A request on a consumer ring that the identifier does not name (R331). -/
theorem request_onConsumer_unnamed (hlive : s.fault = none) (hno : ∀ c, s.rings[r]? ≠ some (.consumer c))
    (run : State → ConsumerRing → StepResult) :
    request s (fun s => onConsumer s r (run s)) = faulted s .wrongRing := by
  have hnone : consumer? s r = none := Option.eq_none_iff_forall_ne_some.mpr fun c hc => hno c (consumer?_eq_some.mp hc)
  simp only [request_live hlive, onConsumer, hnone]
  rfl

theorem exec_dequeue_unnamed (hlive : s.fault = none) (hno : ∀ c, s.rings[r]? ≠ some (.consumer c)) :
    exec (.dequeue r) s = faulted s .wrongRing := by
  show execDequeue r s = _
  unfold execDequeue onConsumerSegment
  rw [request_onConsumer_unnamed hlive hno]

theorem exec_enqueuePointer (hlive : s.fault = none) {p : ProducerRing} {g : Segment}
    (hr : s.rings[r]? = some (.producer p)) (hg : p.segs[p.seg]? = some g) :
    exec (.enqueuePointer r) s = answered s (.pointer (slotAddr g p.idx) p.pcs) :=
  request_onProducer hlive hr hg fun s p g => answer (.pointer (slotAddr g p.idx) p.pcs) s

theorem exec_enqueuePointer_unnamed (hlive : s.fault = none) (hno : ∀ p, s.rings[r]? ≠ some (.producer p)) :
    exec (.enqueuePointer r) s = faulted s .wrongRing := by
  show execEnqueuePointer r s = _
  rw [execEnqueuePointer, request_onProducer_unnamed hlive hno]

/-- `CRCR_VALUE` on a producer ring (R251). -/
theorem exec_crcrValue (hlive : s.fault = none) {p : ProducerRing} {g : Segment}
    (hr : s.rings[r]? = some (.producer p)) (hg : p.segs[p.seg]? = some g) :
    exec (.crcrValue r) s =
      if p.kind ≠ .command then faulted s .wrongRing
      else if (slotAddr g p.idx).toNat % 64 ≠ 0 then faulted s .misaligned
      else answered s (.mutations (crcrActions (slotAddr g p.idx) p.pcs)) := by
  show execCrcrValue r s = _
  rw [execCrcrValue, request_onProducer hlive hr hg]
  rfl

theorem exec_crcrValue_unnamed (hlive : s.fault = none) (hno : ∀ p, s.rings[r]? ≠ some (.producer p)) :
    exec (.crcrValue r) s = faulted s .wrongRing := by
  show execCrcrValue r s = _
  rw [execCrcrValue, request_onProducer_unnamed hlive hno]

theorem exec_enqueue_unnamed (hlive : s.fault = none) (hno : ∀ p, s.rings[r]? ≠ some (.producer p)) (v : Trb) :
    exec (.enqueue r v) s = faulted s .wrongRing := by
  show execEnqueue r v s = _
  rw [execEnqueue, request_onProducer_unnamed hlive hno]

/-- An ENQUEUE of a Type that the ring's kind does not accept (R244). -/
theorem exec_enqueue_refused (hlive : s.fault = none) {p : ProducerRing} {g : Segment} {v : Trb}
    (hr : s.rings[r]? = some (.producer p)) (hg : p.segs[p.seg]? = some g)
    (hno : ¬ acceptedType p.kind (trbBits v 106 6)) : exec (.enqueue r v) s = faulted s .notAllowed := by
  show execEnqueue r v s = _
  rw [execEnqueue, request_onProducer hlive hr hg, if_neg (mt (accepts_iff_acceptedType p.kind v).mp hno)]
  rfl

end

/-- Settles O36: both requests look at the ring and answer. -/
theorem producerValues : Obligations.ProducerValues := by
  intro r s hlive
  refine ⟨fun hno => ⟨exec_enqueuePointer_unnamed hlive hno, exec_crcrValue_unnamed hlive hno⟩, fun p g hr hg => ?_⟩
  refine ⟨exec_enqueuePointer hlive hr hg, fun hkind => ?_, fun hkind hpa => ?_, fun hkind hpa => ?_⟩ <;>
    rw [exec_crcrValue hlive hr hg]
  · exact if_pos (by simp [hkind])
  · exact (if_neg (not_not_intro hkind)).trans (if_pos hpa)
  · exact (if_neg (not_not_intro hkind)).trans (if_neg (not_not_intro hpa))

/-- Settles O32: the identifier is looked up, then the group of the TRB. -/
theorem enqueueRefused : Obligations.EnqueueRefused := fun _ v _ hlive =>
  ⟨fun hno => exec_enqueue_unnamed hlive hno v, fun _ _ hr hg hno => exec_enqueue_refused hlive hr hg hno⟩

/-! ## The construction checks (R242) -/

/-- The tests of R242 on one segment all pass exactly when the segment is `segmentOk`. -/
theorem checkSegment_eq_none {lo hi : Nat} {g : Segment} : checkSegment lo hi g = none ↔ segmentOk lo hi g := by
  refine ⟨checkSegment_none, fun ⟨hzero, haligned, hlo, hhi, hbound⟩ => ?_⟩
  have hsize : ¬ (g.size < lo ∨ hi < g.size) := by omega
  simp only [checkSegment, Config.segAlign, Config.segBoundary, hzero, haligned, hsize, hbound, gt_iff_lt, ne_eq,
    not_true, if_false]

/-- The first segment that fails decides the fault (R242). -/
theorem checkSegments_first {lo hi : Nat} {pre post : List Segment} {g : Segment} {code : FaultCode}
    (hpre : ∀ q ∈ pre, segmentOk lo hi q) (hg : checkSegment lo hi g = some code) :
    checkSegments (pre ++ g :: post) lo hi = some code := by
  have hnone : pre.findSome? (checkSegment lo hi) = none :=
    List.findSome?_eq_none_iff.mpr fun q hq => checkSegment_eq_none.mpr (hpre q hq)
  rw [checkSegments, if_neg (by simp), List.findSome?_append, hnone, Option.none_or,
    List.findSome?_cons_of_isSome (by simp [hg]), hg]

theorem checkSegments_ok {lo hi : Nat} {segs : List Segment} (hne : segs ≠ []) (h : ∀ g ∈ segs, segmentOk lo hi g) :
    checkSegments segs lo hi = none := by
  rw [checkSegments, if_neg (mt List.length_eq_zero_iff.mp hne)]
  exact List.findSome?_eq_none_iff.mpr fun g hg => checkSegment_eq_none.mpr (h g hg)

theorem exec_initProducer_refused {s : State} (hlive : s.fault = none) {kind : RingKind} {segs : List Segment}
    {code : FaultCode} (h : checkSegments segs 2 4096 = some code) :
    exec (.initProducer kind segs) s = faulted s code := by
  show execInitProducer kind segs s = _
  rw [execInitProducer, request_live hlive]
  simp only [Config.prodSegMin, Config.prodSegMax, h]
  rfl

/-- Settles O30: `INIT_PRODUCER` raises what the checks report, the first failing test of the first failing segment. -/
theorem initProducerFaults : Obligations.InitProducerFaults := by
  intro kind segs s hlive
  refine ⟨fun hnil => exec_initProducer_refused hlive (by rw [hnil]; rfl), ?_⟩
  rintro pre post g rfl hpre
  have hfails {code : FaultCode} (h : checkSegment 2 4096 g = some code) :
      exec (.initProducer kind (pre ++ g :: post)) s = faulted s code :=
    exec_initProducer_refused hlive (checkSegments_first hpre h)
  refine ⟨fun hzero => hfails ?_, fun hbase hmis => hfails ?_, fun hbase hal hsize => hfails ?_,
    fun hbase hal hlo hhi hcross => hfails ?_⟩
  · simp [checkSegment, hzero]
  · simp [checkSegment, Config.segAlign, hbase, hmis]
  · simp only [checkSegment, Config.segAlign, hbase, hal, if_false, ne_eq, not_true, gt_iff_lt, if_pos hsize]
  · have hsize : ¬ (g.size < 2 ∨ 4096 < g.size) := by omega
    simp only [checkSegment, Config.segAlign, Config.segBoundary, hbase, hal, if_false, ne_eq, not_true, gt_iff_lt,
      hsize, hcross, not_false_iff, if_true]

/-! ## Positions (R252) -/

theorem dataSlots_append (l m : List Segment) : dataSlots (l ++ m) = dataSlots l + dataSlots m := by
  simp [dataSlots]

theorem dataSlots_take_le (segs : List Segment) (n : Nat) : dataSlots (segs.take n) ≤ dataSlots segs := by
  have h := dataSlots_append (segs.take n) (segs.drop n)
  rw [List.take_append_drop] at h
  omega

/-- The data slots up to a segment, with the segment's own. -/
theorem dataSlots_take_succ {segs : List Segment} {i : Nat} {g : Segment} (hg : segs[i]? = some g) :
    dataSlots (segs.take (i + 1)) = dataSlots (segs.take i) + (g.size - 1) := by
  rw [List.take_add_one, hg, dataSlots_append]
  simp [dataSlots]

/-- An enqueue moves the cursor's position by one within the lap, or from the lap's last position to 0 with the Cycle
State flipped (R252). -/
theorem enqueueAt_position {g : Segment} {p : ProducerRing} (v : Trb) (s : State) (hwf : producerWf p = true)
    (hg : p.segs[p.seg]? = some g) :
    (producerPos p + 1 < dataSlots p.segs ∧ producerPos (enqueueAt g v p s).1 = producerPos p + 1 ∧
        (enqueueAt g v p s).1.pcs = p.pcs) ∨
      (producerPos p + 1 = dataSlots p.segs ∧ producerPos (enqueueAt g v p s).1 = 0 ∧
        (enqueueAt g v p s).1.pcs = !p.pcs) := by
  obtain ⟨hcheck, ⟨g', hg', hidx⟩, -⟩ := producerWf_iff.mp hwf
  obtain rfl : g = g' := Option.some.inj (hg.symm.trans hg')
  have htake := dataSlots_take_succ hg
  have hlt : p.seg < p.segs.length := (List.getElem?_eq_some_iff.mp hg).1
  have htotal := dataSlots_take_le p.segs (p.seg + 1)
  rw [enqueueAt_ring]
  by_cases hfill : p.idx + 2 = g.size
  · rw [if_pos hfill]
    by_cases hlast : p.seg + 1 = p.segs.length
    · have hall : dataSlots (p.segs.take (p.seg + 1)) = dataSlots p.segs := by rw [hlast, List.take_length]
      refine .inr ⟨by unfold producerPos; omega, ?_, by simp [hlast]⟩
      simp [producerPos, hlast, dataSlots]
    · have hnext : p.seg + 1 < p.segs.length := by omega
      obtain ⟨-, -, hmin, -⟩ := checkSegment_none ((checkSegments_none hcheck).2 _ (List.getElem_mem hnext))
      have htake' := dataSlots_take_succ (List.getElem?_eq_getElem hnext)
      have htotal' := dataSlots_take_le p.segs (p.seg + 1 + 1)
      simp only [Config.prodSegMin] at hmin
      refine .inl ⟨by unfold producerPos; omega, ?_, by simp [beq_false_of_ne hlast]⟩
      simp only [producerPos, enqueued, Nat.mod_eq_of_lt hnext]
      omega
  · rw [if_neg hfill]
    refine .inl ⟨by unfold producerPos; omega, ?_, rfl⟩
    simp only [producerPos, enqueued]
    omega

/-- The cursor and the Cycle State of a ring after `k` enqueues from its first slot with Cycle State 1 (R252). -/
def AtPosition (p : ProducerRing) (k : Nat) : Prop :=
  producerPos p = k % dataSlots p.segs ∧ p.pcs = (k / dataSlots p.segs % 2 == 0)

/-- A ring with its cursor in its first slot and Cycle State 1 has seen no enqueue. -/
theorem atPosition_zero {p : ProducerRing} (hseg : p.seg = 0) (hidx : p.idx = 0) (hpcs : p.pcs = true) :
    AtPosition p 0 := by
  simp [AtPosition, producerPos, dataSlots, hseg, hidx, hpcs]

/-- One more enqueue. -/
theorem AtPosition.enqueueAt {g : Segment} {p : ProducerRing} {k : Nat} (h : AtPosition p k) (v : Trb) (s : State)
    (hwf : producerWf p = true) (hg : p.segs[p.seg]? = some g) : AtPosition (enqueueAt g v p s).1 (k + 1) := by
  obtain ⟨hpos, hpcs⟩ := h
  have hdiv := Nat.div_add_mod k (dataSlots p.segs)
  rw [AtPosition, enqueueAt_segs]
  rcases enqueueAt_position v s hwf hg with ⟨hlap, hnext, hsame⟩ | ⟨hlap, hnext, hflip⟩
  · have hk : k + 1 = dataSlots p.segs * (k / dataSlots p.segs) + (producerPos p + 1) := by omega
    rw [hnext, hsame, hk, Nat.mul_add_mod, Nat.mod_eq_of_lt hlap, Nat.mul_add_div (by omega),
      Nat.div_eq_of_lt hlap]
    exact ⟨rfl, hpcs⟩
  · have hk : k + 1 = dataSlots p.segs * (k / dataSlots p.segs + 1) := by
      rw [Nat.mul_add]
      omega
    rw [hnext, hflip, hk, Nat.mul_mod_right, Nat.mul_div_cancel_left _ (by omega), hpcs]
    refine ⟨rfl, ?_⟩
    rcases Nat.mod_two_eq_zero_or_one (k / dataSlots p.segs) with hpar | hpar <;> simp [Nat.add_mod, hpar]

/-- What an instruction with answer `result` makes of producer ring `r`, which was `p`: the same kind and segments, and
one position further exactly when the instruction was an enqueue on it that answered. -/
def PositionKept (i : Instr) (r : Nat) (p : ProducerRing) (t : State) : Prop :=
  ∃ q : ProducerRing, t.rings[r]? = some (.producer q) ∧ q.kind = p.kind ∧ q.segs = p.segs ∧
    ∀ k, AtPosition p k → AtPosition q (if enqueuedOn r (i, t.result) then k + 1 else k)

section

variable {s t : State} {r : Nat} {p : ProducerRing}

/-- An entry that is no answered enqueue on the ring, and a ring that is as before. -/
theorem PositionKept.ofUnchanged {i : Instr} (hr : t.rings[r]? = some (.producer p))
    (hno : enqueuedOn r (i, t.result) = false) : PositionKept i r p t :=
  ⟨p, hr, rfl, rfl, fun k hk => by rwa [hno, if_neg Bool.false_ne_true]⟩

/-- No instruction but an ENQUEUE on it changes a producer ring. -/
theorem exec_keepsProducer {i : Instr} (hexec : exec i s = .next t) (hr : s.rings[r]? = some (.producer p))
    (henq : ∀ v, i ≠ .enqueue r v) : t.rings[r]? = some (.producer p) := by
  by_cases hdeq : i = .dequeue r
  · subst hdeq
    by_cases hlive : s.fault = none
    · have hno (c : ConsumerRing) : s.rings[r]? ≠ some (.consumer c) := by simp [hr]
      rw [exec_dequeue_unnamed hlive hno] at hexec
      cases hexec
      exact hr
    · rw [exec_dead _ hlive] at hexec
      cases hexec
      exact hr
  · exact ringsIndependent i s t r _ hexec hr henq hdeq

/-- An ENQUEUE on the ring answers the slot and moves the cursor, or answers a fault and moves nothing. -/
theorem exec_enqueue_position {v : Trb} (hinv : MachineInv s) (hr : s.rings[r]? = some (.producer p))
    (hexec : exec (.enqueue r v) s = .next t) : PositionKept (.enqueue r v) r p t := by
  have hwf := hinv.ringWf hr
  obtain ⟨-, ⟨g, hg, -⟩, -⟩ := producerWf_iff.mp hwf
  by_cases hlive : s.fault = none
  · by_cases ha : acceptedType p.kind (trbBits v 106 6)
    · rw [exec_enqueue hlive hr hg ha] at hexec
      cases hexec
      have hlt : r < s.rings.length := (List.getElem?_eq_some_iff.mp hr).1
      refine ⟨(enqueueAt g v p s).1, ?_, ?_, enqueueAt_segs g v p s, fun k hk => ?_⟩
      · rw [(enqueueAt_effect g v p s).setRing_rings, List.getElem?_set_self hlt]
      · rw [enqueueAt_ring]
        split <;> rfl
      · simpa [enqueuedOn] using hk.enqueueAt v s hwf hg
    · rw [exec_enqueue_refused hlive hr hg ha] at hexec
      cases hexec
      exact .ofUnchanged hr rfl
  · rw [exec_dead _ hlive] at hexec
    cases hexec
    exact .ofUnchanged hr rfl

/-- Every instruction moves the cursor of a producer ring by the enqueues it answers on it. -/
theorem exec_position {i : Instr} (hinv : MachineInv s) (hr : s.rings[r]? = some (.producer p))
    (hexec : exec i s = .next t) : PositionKept i r p t := by
  by_cases henq : ∃ v, i = .enqueue r v
  · obtain ⟨v, rfl⟩ := henq
    exact exec_enqueue_position hinv hr hexec
  · rw [not_exists] at henq
    refine .ofUnchanged (exec_keepsProducer hexec hr henq) ?_
    unfold enqueuedOn
    split
    · rename_i q v pa heq
      obtain ⟨rfl, -⟩ := Prod.mk.inj heq
      exact beq_false_of_ne fun hq => henq v (hq ▸ rfl)
    · rfl

end

/-- What `execLog` of a list with a first instruction did (R21). -/
theorem execLog_cons {i : Instr} {rest : List Instr} {s u : State} {log : List (Instr × Option Result)}
    (h : execLog (i :: rest) s = some (log, u)) :
    ∃ t log', exec i s = .next t ∧ execLog rest t = some (log', u) ∧ log = (i, t.result) :: log' := by
  unfold execLog at h
  split at h
  · rename_i t hexec
    split at h
    · rename_i log' u' hrest
      cases h
      exact ⟨t, log', hexec, hrest, rfl⟩
    · cases h
  · cases h
  · cases h

/-- After any instructions a producer ring is as many positions further as it answered enqueues (R252). -/
theorem execLog_position {r : Nat} {is : List Instr} {log : List (Instr × Option Result)} {s t : State}
    {p : ProducerRing} {k : Nat} (hinv : MachineInv s) (hr : s.rings[r]? = some (.producer p)) (hk : AtPosition p k)
    (hlog : execLog is s = some (log, t)) :
    ∃ q : ProducerRing, t.rings[r]? = some (.producer q) ∧ q.kind = p.kind ∧ q.segs = p.segs ∧
      AtPosition q (k + (log.filter (enqueuedOn r)).length) := by
  induction is generalizing s log p k with
  | nil =>
    cases hlog
    exact ⟨p, hr, rfl, rfl, hk⟩
  | cons i rest ih =>
    obtain ⟨u, log', hexec, hrest, rfl⟩ := execLog_cons hlog
    obtain ⟨q, hq, hkind, hsegs, hmoved⟩ := exec_position hinv hr hexec
    obtain ⟨q', hq', hkind', hsegs', hend⟩ := ih (exec_keepsInv hinv hexec) hq (hmoved k hk) hrest
    refine ⟨q', hq', hkind'.trans hkind, hsegs'.trans hsegs, ?_⟩
    rw [List.filter_cons]
    split at hend
    · rename_i hcounts
      rw [Nat.add_right_comm] at hend
      rw [if_pos hcounts, List.length_cons]
      exact hend
    · rename_i hcounts
      rwa [if_neg hcounts]

/-- Settles O37, by induction on the instructions from position 0. -/
theorem producerPositions : Obligations.ProducerPositions := by
  intro r is log s t p hinv hr hseg hidx hpcs hlog
  obtain ⟨q, hq, hkind, hsegs, hpos, hcycle⟩ := execLog_position hinv hr (atPosition_zero hseg hidx hpcs) hlog
  rw [hsegs, Nat.zero_add] at hpos hcycle
  exact ⟨q, hq, hkind, hsegs, hpos, hcycle⟩

/-! ## The mutation lists that requests answer (R251, R282 to R284) -/

section

variable {s : State} {r : Nat}

/-- A request on a consumer ring runs on the ring. -/
theorem request_onConsumer (hlive : s.fault = none) {c : ConsumerRing} (hr : s.rings[r]? = some (.consumer c))
    (run : State → ConsumerRing → StepResult) : request s (fun s => onConsumer s r (run s)) = run s c := by
  simp only [request_live hlive, onConsumer, consumer?_eq_some.mpr hr]

theorem exec_erdpValue (hlive : s.fault = none) {c : ConsumerRing} {g : Segment}
    (hr : s.rings[r]? = some (.consumer c)) (hg : c.segs[c.seg]? = some g) (clearBusy : Bool) :
    exec (.erdpValue r clearBusy) s = answered s (.mutations (erdpActions (slotAddr g c.idx) c.seg clearBusy)) := by
  have hseg : consumerSegment c = some g := hg
  show execErdpValue r clearBusy s = _
  unfold execErdpValue onConsumerSegment
  rw [request_onConsumer hlive hr]
  simp only [hseg]
  rfl

theorem exec_erdpValue_unnamed (hlive : s.fault = none) (hno : ∀ c, s.rings[r]? ≠ some (.consumer c))
    (clearBusy : Bool) : exec (.erdpValue r clearBusy) s = faulted s .wrongRing := by
  show execErdpValue r clearBusy s = _
  unfold execErdpValue onConsumerSegment
  rw [request_onConsumer_unnamed hlive hno]

theorem exec_erstszValue (hlive : s.fault = none) {c : ConsumerRing} (hr : s.rings[r]? = some (.consumer c)) :
    exec (.erstszValue r) s = answered s (.mutations [.set .erstSize c.segs.length]) := by
  show execErstszValue r s = _
  rw [execErstszValue, request_onConsumer hlive hr]
  rfl

theorem exec_erstszValue_unnamed (hlive : s.fault = none) (hno : ∀ c, s.rings[r]? ≠ some (.consumer c)) :
    exec (.erstszValue r) s = faulted s .wrongRing := by
  show execErstszValue r s = _
  rw [execErstszValue, request_onConsumer_unnamed hlive hno]

theorem exec_erstbaValue (hlive : s.fault = none) {c : ConsumerRing} (hr : s.rings[r]? = some (.consumer c)) :
    exec (.erstbaValue r) s = answered s (.mutations [.set .erstbaPointer (c.erstBase.toNat / 64)]) := by
  show execErstbaValue r s = _
  rw [execErstbaValue, request_onConsumer hlive hr]
  rfl

theorem exec_erstbaValue_unnamed (hlive : s.fault = none) (hno : ∀ c, s.rings[r]? ≠ some (.consumer c)) :
    exec (.erstbaValue r) s = faulted s .wrongRing := by
  show execErstbaValue r s = _
  rw [execErstbaValue, request_onConsumer_unnamed hlive hno]

/-- Every mutation list that the request answers passes the check of the layout (R122). -/
def MutationsFit (L : Layout) (o : StepResult) : Prop :=
  ∀ t M, o = .next t → t.result = some (.mutations M) → checkMutations L M = none

theorem MutationsFit.faulted (L : Layout) (s : State) (code : FaultCode) : MutationsFit L (faulted s code) := by
  rintro _ _ ⟨⟩ ⟨⟩

theorem MutationsFit.answered {L : Layout} {M : List Action} (h : ∀ a ∈ M, actionOk L a) (s : State) :
    MutationsFit L (answered s (.mutations M)) := by
  rintro _ _ ⟨⟩ ⟨⟩
  exact checkMutations_eq_none.mpr h

end

/-- A number that fits an RW field may be set in it (R121, R122). -/
theorem actionOk_set {L : Layout} {p : LayoutField} (hp : namedField L p.name = some p) (hcls : p.cls = .rw) {x : Nat}
    (hx : x < 2 ^ p.width) : actionOk L (.set p.name x) := ⟨p, hp, .inl ⟨x, hx, rfl, hcls⟩⟩

/-- The pointer is 64 bits above 6 that the field does not hold, and the Cycle State one bit (R307). -/
theorem crcrActions_ok (pa : Addr) (cycle : Bool) : ∀ a ∈ crcrActions pa cycle, actionOk crcrLayout a := by
  intro a ha
  rcases List.mem_pair.mp ha with rfl | rfl
  · exact actionOk_set (p := ⟨.commandRingPointer, 6, 58, .rw⟩) rfl rfl (by have := pa.isLt; dsimp only; omega)
  · exact actionOk_set (p := ⟨.rcs, 0, 1, .rw⟩) rfl rfl cycle.toNat_lt

/-- The pointer is 64 bits above 4 that the field does not hold, and the segment's number is cut to 3 bits (R312). -/
theorem erdpActions_ok (pa : Addr) (seg : Nat) (clearBusy : Bool) :
    ∀ a ∈ erdpActions pa seg clearBusy, actionOk erdpLayout a := by
  intro a ha
  rcases List.mem_append.mp ha with ha | ha
  · rcases List.mem_pair.mp ha with rfl | rfl
    · exact actionOk_set (p := ⟨.erdpPointer, 4, 60, .rw⟩) rfl rfl (by have := pa.isLt; dsimp only; omega)
    · exact actionOk_set (p := ⟨.desi, 0, 3, .rw⟩) rfl rfl (by dsimp only; omega)
  · cases clearBusy with
    | false => cases ha
    | true =>
      obtain rfl := List.mem_singleton.mp ha
      exact ⟨⟨.ehb, 3, 1, .rw1c⟩, rfl, .inr (.inr (.inl ⟨rfl, rfl⟩))⟩

section

variable {s : State} (hinv : MachineInv s) (hlive : s.fault = none) (r : Nat)

include hinv hlive

theorem crcrValue_fits : MutationsFit crcrLayout (exec (.crcrValue r) s) := by
  by_cases hring : ∃ p, s.rings[r]? = some (.producer p)
  · obtain ⟨p, hr⟩ := hring
    obtain ⟨-, ⟨g, hg, -⟩, -⟩ := producerWf_iff.mp (hinv.ringWf hr)
    rw [exec_crcrValue hlive hr hg]
    split
    · exact .faulted _ _ _
    · split
      · exact .faulted _ _ _
      · exact .answered (crcrActions_ok _ _) s
  · rw [exec_crcrValue_unnamed hlive (not_exists.mp hring)]
    exact .faulted _ _ _

theorem erdpValue_fits (clearBusy : Bool) : MutationsFit erdpLayout (exec (.erdpValue r clearBusy) s) := by
  by_cases hring : ∃ c, s.rings[r]? = some (.consumer c)
  · obtain ⟨c, hr⟩ := hring
    obtain ⟨-, g, hg, -⟩ := consumerWf_iff.mp (hinv.ringWf hr)
    rw [exec_erdpValue hlive hr hg]
    exact .answered (erdpActions_ok _ _ _) s
  · rw [exec_erdpValue_unnamed hlive (not_exists.mp hring)]
    exact .faulted _ _ _

/-- A legal Event Ring has no more segments than `ERST_MAX_ENTRIES`, which is within ERSTSZ's 16 bits (R6, R311). -/
theorem erstszValue_fits : MutationsFit erstszLayout (exec (.erstszValue r) s) := by
  by_cases hring : ∃ c, s.rings[r]? = some (.consumer c)
  · obtain ⟨c, hr⟩ := hring
    obtain ⟨hcheck, -⟩ := consumerWf_iff.mp (hinv.ringWf hr)
    obtain ⟨-, hlen, -⟩ := checkErst_none hcheck
    have hmax : s.erstMax ≤ 32768 := (erstMax_range s).2
    rw [exec_erstszValue hlive hr]
    refine .answered (List.forall_mem_singleton.mpr ?_) s
    exact actionOk_set (p := ⟨.erstSize, 0, 16, .rw⟩) rfl rfl (by dsimp only; omega)
  · rw [exec_erstszValue_unnamed hlive (not_exists.mp hring)]
    exact .faulted _ _ _

end

theorem erstbaValue_fits {s : State} (hlive : s.fault = none) (r : Nat) :
    MutationsFit erstbaLayout (exec (.erstbaValue r) s) := by
  by_cases hring : ∃ c, s.rings[r]? = some (.consumer c)
  · obtain ⟨c, hr⟩ := hring
    rw [exec_erstbaValue hlive hr]
    refine .answered (List.forall_mem_singleton.mpr ?_) s
    exact actionOk_set (p := ⟨.erstbaPointer, 6, 58, .rw⟩) rfl rfl
      (by have := c.erstBase.isLt; dsimp only; omega)
  · rw [exec_erstbaValue_unnamed hlive (not_exists.mp hring)]
    exact .faulted _ _ _

/-- Settles O47: each of the lists sets numbers within its register's fields. -/
theorem mutationListsFit : Obligations.MutationListsFit := fun r clearBusy _ t M hinv hlive hM =>
  ⟨fun h => crcrValue_fits hinv hlive r t M h hM, fun h => erdpValue_fits hinv hlive r clearBusy t M h hM,
    fun h => erstszValue_fits hinv hlive r t M h hM, fun h => erstbaValue_fits hlive r t M h hM⟩

/-! ## The frame of a request that writes memory -/

/-- Accesses of the block that write in `W` only leave the rest of memory, the parameters and the controller's cursors. -/
theorem Effect.frameWriting {s s' : State} {W : Nat → Prop} {evs : List Access} (e : Effect s s' W evs)
    (hstill : s.ctrl = [] → Still s s' W) : Machine.frame s s' W := by
  refine ⟨e.fault, ⟨e.split64, e.erstMax, e.port⟩, fun hctrl => (hstill hctrl).hc, fun a ha hkept => ?_⟩
  rcases hkept with hmay | hctrl
  · exact e.mem a hmay ha
  · exact (hstill hctrl).mem a ha

theorem Effect.keepsRegs {s s' : State} {W : Nat → Prop} {evs : List Access} (e : Effect s s' W evs)
    (hstill : s.ctrl = [] → Still s s' W) : regsKept s s' := ⟨e.shape, fun hctrl => (hstill hctrl).regs⟩

/-! ## A new producer ring (R241, R243) -/

theorem producerWrites_still {segs : List Segment}
    (h : checkSegments segs Config.prodSegMin Config.prodSegMax = none) {s : State} (hctrl : s.ctrl = []) :
    Still s (producerWrites segs s) (fun a => inSegments segs a = true) := by
  obtain ⟨hne, hsegs⟩ := checkSegments_none h
  obtain ⟨first, rest, rfl⟩ := List.exists_cons_of_ne_nil hne
  have hwrites := writeProducer_still first (first :: rest)
    (fun g hg => ⟨producerSegment_pos (hsegs g hg), checkSegment_top (hsegs g hg)⟩) hctrl
  exact (hwrites.trans (log_still .orderW hwrites.ctrl)).weaken fun _ x => x.elim id False.elim

theorem producerWrites_fresh {segs : List Segment} {s : State} (hm : Memory.wf s.mem = true)
    (hcheck : checkSegments segs Config.prodSegMin Config.prodSegMax = none) (hapart : segmentsApart segs)
    (hctrl : ∀ a, inSegments segs a = true → s.ctrlMayWrite a = false) {i : Nat} {g g' : Segment}
    (hg : segs[i]? = some g) (hg' : segs[(i + 1) % segs.length]? = some g') :
    FreshSegment (producerWrites segs s).mem g g'.base (i + 1 == segs.length) := by
  obtain ⟨hne, hsegs⟩ := checkSegments_none hcheck
  obtain ⟨first, rest, rfl⟩ := List.exists_cons_of_ne_nil hne
  have hfresh := writeProducer_fresh first
    (fun g hg => ⟨producerSegment_pos (hsegs g hg), checkSegment_top (hsegs g hg)⟩) hapart hm hctrl hg
  rwa [nextSegment hg hg'] at hfresh

/-- A Link at construction, word by word (R175, R243). -/
theorem linkTrb_eq {target : Addr} (h : target.toNat % 64 = 0) (tc : Bool) :
    linkTrb target tc = trbOfWords (BitVec.ofNat 32 (target.toNat % 2 ^ 32)) (BitVec.ofNat 32 (target.toNat / 2 ^ 32))
      0#32 (BitVec.ofNat 32 (0x1800 + if tc then 2 else 0)) := by
  obtain ⟨hlow, hhigh⟩ := linkTrb_words h tc
  have hupper (lo : Nat) (hlo : 64 ≤ lo) :
      field (linkTrb target tc) lo 32 = field (place (BitVec.ofBool tc) 97 ||| place 6#6 106) lo 32 := by
    rw [linkTrb, BitVec.or_assoc, field_or, field_place_apart _ _ _ _ (.inl hlo), BitVec.zero_or]
  rw [← trbOfWords_dw (linkTrb target tc), hlow, hhigh]
  congr 1
  · apply BitVec.eq_of_toNat_eq
    simp
  · apply BitVec.eq_of_toNat_eq
    simp [BitVec.extractLsb'_toNat, Nat.shiftRight_eq_div_pow]
  · exact (hupper 64 (by decide)).trans (by cases tc <;> decide)
  · exact (hupper 96 (by decide)).trans (by cases tc <;> decide)

/-- `INIT_PRODUCER` with segments that pass the checks (R241). -/
theorem exec_initProducer {s : State} (hlive : s.fault = none) {segs : List Segment}
    (hcheck : checkSegments segs Config.prodSegMin Config.prodSegMax = none) (kind : RingKind) :
    exec (.initProducer kind segs) s =
      .next { (producerWrites segs s).addRing (.producer (newProducer kind segs)) with
        result := some (.ring s.rings.length) } := by
  show execInitProducer kind segs s = _
  rw [execInitProducer, request_live hlive, hcheck]
  rfl

/-- Settles O31: the ring's memory is that of its fresh segments. -/
theorem initProducer : Obligations.InitProducer := by
  intro kind segs s hlive hne hsegs
  have hcheck : checkSegments segs Config.prodSegMin Config.prodSegMax = none := checkSegments_ok hne hsegs
  obtain ⟨evs, e⟩ := producerWrites_effect hcheck s
  have hstill (hctrl : s.ctrl = []) := producerWrites_still hcheck hctrl
  refine ⟨_, exec_initProducer hlive hcheck kind, rfl, congrArg (· ++ _) e.rings, e.keepsRegs hstill,
    e.frameWriting hstill, fun hm hapart hctrl i g g' hg hg' => ?_⟩
  have hfresh := producerWrites_fresh hm hcheck hapart hctrl hg hg'
  obtain ⟨-, haligned, -⟩ := hsegs g' (List.mem_of_getElem? hg')
  refine ⟨fun j hj => hfresh.zeros j (by omega), ?_⟩
  have hlink := hfresh.link
  simp only [linkTrb_eq haligned, beq_iff_eq] at hlink
  exact hlink

/-! ## The memory that an enqueue leaves (R245, R247) -/

/-- The ring after an enqueue, as R245 and R247 put it. -/
theorem enqueueAt_moved (g : Segment) (v : Trb) (p : ProducerRing) (s : State) :
    (enqueueAt g v p s).1 =
      if p.idx + 2 = g.size then
        { p with
          seg := (p.seg + 1) % p.segs.length, idx := 0, phase := .running, lastCh := chainBit v
          pcs := if p.seg + 1 = p.segs.length then !p.pcs else p.pcs }
      else { p with idx := p.idx + 1, phase := .running, lastCh := chainBit v } := by
  have hflip : (p.pcs ^^ (p.seg + 1 == p.segs.length)) = if p.seg + 1 = p.segs.length then !p.pcs else p.pcs := by
    by_cases hlast : p.seg + 1 = p.segs.length
    · simp [hlast]
    · simp [hlast, beq_false_of_ne hlast]
  rw [enqueueAt_ring]
  simp only [enqueued, chainOf_withCycle, hflip]

/-- DW3 of a traversed Link as a number (R247). -/
theorem linkControl_toNat (ch tc cycle : Bool) :
    (linkControl ch tc cycle).toNat = 0x1800 + 16 * ch.toNat + 2 * tc.toNat + cycle.toNat := by
  revert ch tc cycle
  decide

section

variable {s : State} {p : ProducerRing} {g : Segment} (hm : Memory.wf s.mem = true)
  (ht : g.base.toNat + 16 * g.size ≤ 2 ^ 64) (hidx : p.idx + 2 ≤ g.size)
  (hctrl : ∀ a, segmentHolds g a = true → s.ctrlMayWrite a = false)

include hctrl ht in
/-- The controller may not write a byte of a slot of the segment, whatever state of the request it is in. -/
theorem ctrlMayWrite_slot {s' : State} (hrings : s'.rings = s.rings) {j : Nat} (hj : j < g.size) (k : Nat)
    (hk : k < 16) : s'.ctrlMayWrite (byteAddr (slotAddr g j) k) = false := by
  rw [ctrlMayWrite_congr hrings]
  exact hctrl _ (slotByte_segment ht hj ⟨k, hk, rfl⟩)

include hm ht hidx hctrl in
/-- The slot at the cursor holds the TRB with the ring's Cycle bit, also when the Link after it is written (R245). -/
theorem enqueueAt_slot (v : Trb) :
    memGetTrb (enqueueAt g v p s).2.mem (slotAddr g p.idx) = withCycle v p.pcs := by
  have e := trbWrite_effect (slotAddr g p.idx) (withCycle v p.pcs) s
  have hwritten := trbWrite_trb (slotAddr g p.idx) (withCycle v p.pcs) hm (ctrlMayWrite_slot ht hctrl rfl (by omega))
  rw [enqueueAt_eq]
  split
  · refine ((traverse_effect g _ _).trb (ctrlMayWrite_slot ht hctrl e.rings (by omega)) fun k hk hbyte => ?_).trans
      hwritten
    obtain ⟨l, hl, heq⟩ := hbyte
    rw [byteAddr_slot ht (by omega) hk, byteAddr_slotWord (w := 12) ht (by omega) (by omega)] at heq
    omega
  · exact hwritten

include hm in
/-- DW3 of the Link that an enqueue traverses (R247). -/
theorem enqueueAt_linkControl (v : Trb) (hfill : p.idx + 2 = g.size) :
    memGetWord (enqueueAt g v p s).2.mem (slotAddr g (g.size - 1) + 12#64) =
      linkControl (chainBit v) (p.seg + 1 == p.segs.length) p.pcs := by
  have hwf : Memory.wf (orderW (trbWrite (slotAddr g p.idx) (withCycle v p.pcs) s)).mem = true :=
    (trbWrite_effect _ _ s).memWf hm
  rw [enqueueAt_eq, if_pos hfill, ← chainOf_withCycle v p.pcs]
  exact memWrite_word _ _ hwf

include ht hidx hctrl in
/-- The words of a Link below its DW3 are as before the enqueue (R247). -/
theorem enqueueAt_linkTarget (v : Trb) {w : Nat} (hw : w + 4 ≤ 12) :
    memGetWord (enqueueAt g v p s).2.mem (slotAddr g (g.size - 1) + BitVec.ofNat 64 w) =
      memGetWord s.mem (slotAddr g (g.size - 1) + BitVec.ofNat 64 w) := by
  refine (enqueueAt_effect g v p s).word (fun k hk => ?_) fun k hk hbyte => ?_
  · rw [byteAddr_add]
    exact ctrlMayWrite_slot ht hctrl rfl (by omega) _ (by omega)
  · rcases hbyte with hbyte | ⟨-, l, hl, heq⟩
    · rw [slotByte_iff ht (by omega), byteAddr_slotWord ht (by omega) (by omega)] at hbyte
      omega
    · rw [byteAddr_slotWord ht (by omega) (by omega),
        byteAddr_slotWord (w := 12) ht (by omega) (by omega)] at heq
      omega

end

/-- Settles O33: the ring is that of `enqueueAt_moved`, the frame that of its `Effect`. -/
theorem enqueue : Obligations.Enqueue := by
  intro r v s p g hinv hlive hr hg ha
  have e := enqueueAt_effect g v p s
  have hstill (hctrl : s.ctrl = []) := enqueueAt_still g v p hctrl
  have hidx : p.idx + 2 ≤ g.size := (hinv.producerSlots hr hg).2
  have ht := (hinv.producerSegs hr hg).2
  refine ⟨_, exec_enqueue hlive hr hg ha, rfl, ?_, e.keepsRegs hstill, e.frameWriting hstill,
    fun hctrl => ⟨?_, fun hfill => ?_⟩⟩
  · rw [e.setRing_rings, enqueueAt_moved]
  · exact enqueueAt_slot hinv.memory ht hidx hctrl v ▸ cycleSet_withCycle v p.pcs
  · refine (congrArg BitVec.toNat (enqueueAt_linkControl hinv.memory v hfill)).trans ?_
    rw [linkControl_toNat]
    by_cases hlast : p.seg + 1 = p.segs.length <;> simp [hlast]

/-! ## What the controller's reader does at a slot (R246, R255) -/

theorem readerConsume_waits {m : Memory} {h : HcReader} (hcycle : cycleBit (memGetTrb m h.cursor) ≠ h.cycle) :
    readerConsume m h = h := by
  rcases readerConsume_cases m h with ⟨-, heq⟩ | ⟨hsame, -⟩ | ⟨hsame, -⟩
  · exact heq
  · exact absurd hsame hcycle
  · exact absurd hsame hcycle

theorem readerConsume_consumes {m : Memory} {h : HcReader} (hcycle : cycleBit (memGetTrb m h.cursor) = h.cycle)
    (hkind : kindOf (memGetTrb m h.cursor) ≠ .defined .link) :
    readerConsume m h = { h with cursor := h.cursor + 16#64, consumed := memGetTrb m h.cursor :: h.consumed } := by
  simp [readerConsume, hcycle, hkind]

theorem readerConsume_follows {m : Memory} {h : HcReader} (hcycle : cycleBit (memGetTrb m h.cursor) = h.cycle)
    (hkind : kindOf (memGetTrb m h.cursor) = .defined .link) :
    readerConsume m h =
      { h with
        cursor := (place (decodeLink (memGetTrb m h.cursor)).ringSegmentPointer 4).setWidth 64
        cycle := h.cycle ^^ ((decodeLink (memGetTrb m h.cursor)).tc == 1#1) } := by
  simp [readerConsume, hcycle, hkind]

/-- A ring accepts no Link (R244). -/
theorem kindOf_ne_link {k : RingKind} {t : Trb} (h : acceptedType k (trbBits t 106 6)) :
    kindOf t ≠ .defined .link := by
  intro hlink
  have haccepts := (accepts_iff_acceptedType k t).mpr h
  rw [hlink] at haccepts
  cases k <;> cases haccepts

/-- A field of the upper word is one of DW3 (R9). -/
theorem field_eq_dw3 (t : Trb) {lo n : Nat} (h : lo + n ≤ 32) : field t (96 + lo) n = (dw3 t).extractLsb' lo n := by
  apply BitVec.eq_of_getLsbD_eq
  intro i hi
  have hlo : lo + i < 32 := by omega
  rw [getLsbD_field, BitVec.getLsbD_extractLsb', dw3, getLsbD_field, Nat.add_assoc]
  simp [hi, hlo]

/-- The Cycle bit is bit 0 of DW3 (R80). -/
theorem cycleBit_eq_dw3 (t : Trb) : cycleBit t = (dw3 t).getLsbD 0 := by
  rw [dw3, getLsbD_field]
  rfl

/-- The Type, the Toggle Cycle and the Cycle bit of a TRB with a Link's DW3 (R175, R247). -/
theorem link_of_dw3 {t : Trb} {ch tc cycle : Bool} (h : dw3 t = linkControl ch tc cycle) :
    kindOf t = .defined .link ∧ ((decodeLink t).tc == 1#1) = tc ∧ cycleBit t = cycle := by
  have htype : typeField t = (dw3 t).extractLsb' 10 6 := field_eq_dw3 t (lo := 10) (by decide)
  have htc : (decodeLink t).tc = (dw3 t).extractLsb' 1 1 := field_eq_dw3 t (lo := 1) (by decide)
  rw [kindOf, htype, htc, cycleBit_eq_dw3, h]
  clear h htype htc
  revert ch tc cycle
  decide

/-- The pointer of a Link whose words 0 and 1 are those of an aligned address (R84, R243). -/
theorem linkPointer_of_words {t : Trb} {target : Addr} (haligned : target.toNat % 64 = 0)
    (h0 : dw0 t = target.extractLsb' 0 32) (h1 : dw1 t = target.extractLsb' 32 32) :
    (place (decodeLink t).ringSegmentPointer 4).setWidth 64 = target := by
  have hbit {i : Nat} (hi : i < 64) : t.getLsbD i = target.getLsbD i := by
    by_cases hlow : i < 32
    · have hword := congrArg (·.getLsbD i) h0
      simp only [dw0, getLsbD_field, BitVec.getLsbD_extractLsb', hlow, decide_true, Bool.true_and,
        Nat.zero_add] at hword
      exact hword
    · have hword := congrArg (·.getLsbD (i - 32)) h1
      have hhigh : i - 32 < 32 := by omega
      have hback : 32 + (i - 32) = i := by omega
      simp only [dw1, getLsbD_field, BitVec.getLsbD_extractLsb', hhigh, hback, decide_true, Bool.true_and] at hword
      exact hword
  apply BitVec.eq_of_getLsbD_eq
  intro i hi
  rw [BitVec.getLsbD_setWidth, decodeLink, getLsbD_place, getLsbD_field]
  by_cases h4 : 4 ≤ i
  · have h128 : i < 128 := by omega
    have h60 : i - 4 < 60 := by omega
    have hback : 4 + (i - 4) = i := by omega
    simp only [hi, h4, h128, h60, hback, hbit hi, decide_true, Bool.true_and]
  · rw [getLsbD_aligned haligned (by omega)]
    simp [h4]

/-- The words of a TRB in memory (R53). -/
theorem dw_memGetTrb (m : Memory) (pa : Addr) :
    dw0 (memGetTrb m pa) = memGetWord m pa ∧ dw1 (memGetTrb m pa) = memGetWord m (pa + 4#64) ∧
      dw3 (memGetTrb m pa) = memGetWord m (pa + 12#64) := by
  obtain ⟨h0, h1, -, h3⟩ := dw_trbOfWords (memGetWord m pa) (memGetWord m (pa + 4#64)) (memGetWord m (pa + 8#64))
    (memGetWord m (pa + 12#64))
  exact ⟨h0, h1, h3⟩

/-- The slot after a slot (R32). -/
theorem slotAddr_succ (g : Segment) (j : Nat) : slotAddr g (j + 1) = slotAddr g j + 16#64 := by
  rw [slotAddr, slotAddr, Nat.mul_add, BitVec.ofNat_add, BitVec.add_assoc]

theorem slotAddr_first (g : Segment) : slotAddr g 0 = g.base := by simp [slotAddr]

/-! ## A slot changes hands by its enqueue (R246) -/

section

variable {s : State} {p : ProducerRing} {g : Segment} {h : HcReader} (hcycle : h.cycle = p.pcs)

include hcycle in
/-- Before the enqueue the slot at the cursor has the other Cycle bit (R33). -/
theorem reader_before (hlap : LapInv s.mem p) (hg : p.segs[p.seg]? = some g) (hidx : p.idx < g.size)
    (hcursor : h.cursor = slotAddr g p.idx) : readerConsume s.mem h = h := by
  have hbefore : beforeCursor p p.seg p.idx = false := by simp [beforeCursor]
  have hslot := hlap p.seg g hg p.idx hidx
  rw [hbefore, slotCycle_eq, ← hcursor] at hslot
  refine readerConsume_waits ?_
  rw [hslot, hcycle]
  simp

variable (hm : Memory.wf s.mem = true) (ht : g.base.toNat + 16 * g.size ≤ 2 ^ 64) (hidx : p.idx + 2 ≤ g.size)
  (hctrl : ∀ a, segmentHolds g a = true → s.ctrlMayWrite a = false) {v : Trb}

include hcycle hm ht hidx hctrl in
/-- After the enqueue the slot at the cursor holds the TRB with the reader's Cycle bit (R246). -/
theorem reader_after (ha : acceptedType p.kind (trbBits v 106 6)) (hcursor : h.cursor = slotAddr g p.idx) :
    readerConsume (enqueueAt g v p s).2.mem h =
      { cursor := slotAddr g p.idx + 16#64, cycle := h.cycle, consumed := withCycle v p.pcs :: h.consumed } := by
  have hslot : memGetTrb (enqueueAt g v p s).2.mem h.cursor = withCycle v p.pcs :=
    hcursor ▸ enqueueAt_slot hm ht hidx hctrl v
  have hmatch : cycleBit (memGetTrb (enqueueAt g v p s).2.mem h.cursor) = h.cycle := by
    rw [hslot, hcycle]
    exact (cycleSet_withCycle v p.pcs).1
  have hkind : kindOf (memGetTrb (enqueueAt g v p s).2.mem h.cursor) ≠ .defined .link := by
    rw [hslot, kindOf_withCycle]
    exact kindOf_ne_link ha
  rw [readerConsume_consumes hmatch hkind, hslot, hcursor]

include hcycle hm ht hidx hctrl in
/-- After an enqueue that fills the segment, the Link takes the reader to the next segment, with the Cycle State that
the ring then has (R247, R255). -/
theorem reader_followsLink {g' : Segment} (hfill : p.idx + 2 = g.size) (haligned : g'.base.toNat % 64 = 0)
    (hlow : memGetWord s.mem (slotAddr g (g.size - 1)) = g'.base.extractLsb' 0 32)
    (hhigh : memGetWord s.mem (slotAddr g (g.size - 1) + 4#64) = g'.base.extractLsb' 32 32)
    (hcursor : h.cursor = slotAddr g (g.size - 1)) :
    readerConsume (enqueueAt g v p s).2.mem h =
      { cursor := g'.base, cycle := (enqueueAt g v p s).1.pcs, consumed := h.consumed } := by
  obtain ⟨h0, h1, h3⟩ := dw_memGetTrb (enqueueAt g v p s).2.mem (slotAddr g (g.size - 1))
  have hkept0 := enqueueAt_linkTarget ht hidx hctrl v (w := 0) (by omega)
  rw [slotAddr_zeroOffset] at hkept0
  have hkept1 := enqueueAt_linkTarget ht hidx hctrl v (w := 4) (by omega)
  obtain ⟨hkind, htc, hbit⟩ := link_of_dw3 (h3.trans (enqueueAt_linkControl hm v hfill))
  have hpointer := linkPointer_of_words haligned (h0.trans (hkept0.trans hlow)) (h1.trans (hkept1.trans hhigh))
  rw [← hcursor] at hkind htc hbit hpointer
  rw [readerConsume_follows (hbit.trans hcycle.symm) hkind, hpointer, htc, hcycle, enqueueAt_ring, if_pos hfill]

end

/-- Settles O35: the reader waits before the enqueue and consumes after it, and follows the Link of a full segment. -/
theorem enqueueHandsOver : Obligations.EnqueueHandsOver := by
  intro r v s t p g h hinv hlive hr hg ha hlap hctrl hcursor hcycle hexec
  have hidx : p.idx + 2 ≤ g.size := (hinv.producerSlots hr hg).2
  have ht := (hinv.producerSegs hr hg).2
  have hlt : r < s.rings.length := (List.getElem?_eq_some_iff.mp hr).1
  have hinv' := exec_keepsInv hinv hexec
  rw [exec_enqueue hlive hr hg ha] at hexec
  cases hexec
  have hq : ((enqueueAt g v p s).2.setRing r (.producer (enqueueAt g v p s).1)).rings[r]? =
      some (.producer (enqueueAt g v p s).1) := by
    rw [(enqueueAt_effect g v p s).setRing_rings, List.getElem?_set_self hlt]
  obtain ⟨hcheck, ⟨g', hg', -⟩, -⟩ := producerWf_iff.mp (hinv'.ringWf hq)
  have hafter := reader_after hcycle hinv.memory ht hidx hctrl ha hcursor
  refine ⟨reader_before hcycle hlap hg (by omega) hcursor, withCycle v p.pcs, (enqueueAt g v p s).1, g',
    cycleSet_withCycle v p.pcs, hafter, hq, hg', fun hroom => ?_, fun hfill hlink => ?_⟩
  · rw [producerSegment, enqueueAt_ring, if_neg hroom] at hg'
    obtain rfl : g = g' := Option.some.inj (hg.symm.trans hg')
    rw [enqueueAt_ring, if_neg hroom]
    exact ⟨slotAddr_succ g p.idx, hcycle.symm⟩
  · obtain ⟨-, haligned, -⟩ := checkSegment_none ((checkSegments_none hcheck).2 g' (List.mem_of_getElem? hg'))
    have hfirst : (enqueueAt g v p s).1.idx = 0 := by rw [enqueueAt_ring, if_pos hfill]
    have hlast : slotAddr g p.idx + 16#64 = slotAddr g (g.size - 1) := by
      rw [← slotAddr_succ]
      congr 1
      omega
    rw [producerSegment, enqueueAt_ring, if_pos hfill] at hg'
    obtain ⟨hlow, hhigh⟩ := hlink p.seg g g' hg hg'
    change readerConsume (enqueueAt g v p s).2.mem (readerConsume (enqueueAt g v p s).2.mem h) = _
    rw [hafter, hfirst, slotAddr_first]
    exact reader_followsLink (h := ⟨slotAddr g p.idx + 16#64, h.cycle, withCycle v p.pcs :: h.consumed⟩) hcycle
      hinv.memory ht hidx hctrl hfill haligned hlow hhigh hlast

end Sys2Proof.Machine

/-! The statements of 46_event_ring_segments.md. A request on an Event Ring is said once by the ring that its identifier
names. `INIT_EVENT` is its checks (`checkErst_eq`) and the entry and zeros it leaves for each segment (`FreshEntry`).
`DEQUEUE` is what it reads of the slot at the cursor (`readSlot`) and the advance; an answered one moves the position by
one (`advance_position`), so the positions of a run follow by one induction over its log (`execLog_counts`). -/

namespace Sys2Proof.Machine

/-! ## What a consumer ring answers of itself (R281 to R284) -/

section

variable {s : State} {r : Nat} (hlive : s.fault = none)

include hlive

/-- A request on a consumer ring and the segment of its cursor. -/
theorem request_onConsumerSegment {c : ConsumerRing} {g : Segment} (hr : s.rings[r]? = some (.consumer c))
    (hg : c.segs[c.seg]? = some g) (run : State → ConsumerRing → Segment → StepResult) :
    request s (fun s => onConsumerSegment s r (run s)) = run s c g := by
  have hseg : consumerSegment c = some g := hg
  unfold onConsumerSegment
  rw [request_onConsumer hlive hr]
  simp only [hseg]

theorem exec_dequeuePointer {c : ConsumerRing} {g : Segment} (hr : s.rings[r]? = some (.consumer c))
    (hg : c.segs[c.seg]? = some g) :
    exec (.dequeuePointer r) s = answered s (.dequeuePointer (slotAddr g c.idx) c.seg c.ccs) :=
  request_onConsumerSegment hlive hr hg fun s c g => answer (.dequeuePointer (slotAddr g c.idx) c.seg c.ccs) s

theorem exec_dequeuePointer_unnamed (hno : ∀ c, s.rings[r]? ≠ some (.consumer c)) :
    exec (.dequeuePointer r) s = faulted s .wrongRing := by
  show execDequeuePointer r s = _
  unfold execDequeuePointer onConsumerSegment
  rw [request_onConsumer_unnamed hlive hno]

end

/-- Settles O45: the four requests look at the ring and answer. -/
theorem consumerValues : Obligations.ConsumerValues := fun _ clearBusy _ hlive =>
  ⟨fun hno => ⟨exec_dequeuePointer_unnamed hlive hno, exec_erdpValue_unnamed hlive hno clearBusy,
      exec_erstszValue_unnamed hlive hno, exec_erstbaValue_unnamed hlive hno⟩,
    fun _ hr => ⟨exec_erstszValue hlive hr, exec_erstbaValue hlive hr,
      fun _ hg => ⟨exec_dequeuePointer hlive hr hg, exec_erdpValue hlive hr hg clearBusy⟩⟩⟩

/-! ## The checks of a table (R272) -/

/-- The four tests on a segment, each where those before it pass (R242). -/
theorem checkSegment_faults (lo hi : Nat) (g : Segment) :
    (g.base.toNat = 0 → checkSegment lo hi g = some .zeroAddress) ∧
    (g.base.toNat ≠ 0 → g.base.toNat % 64 ≠ 0 → checkSegment lo hi g = some .misaligned) ∧
    (g.base.toNat ≠ 0 → g.base.toNat % 64 = 0 → g.size < lo ∨ hi < g.size →
      checkSegment lo hi g = some .segSize) ∧
    (g.base.toNat ≠ 0 → g.base.toNat % 64 = 0 → lo ≤ g.size → g.size ≤ hi →
      g.base.toNat / 65536 ≠ (g.base.toNat + 16 * g.size - 1) / 65536 →
      checkSegment lo hi g = some .segBoundary) := by
  unfold checkSegment Config.segAlign Config.segBoundary
  refine ⟨fun hzero => if_pos hzero, fun hbase hmis => ?_, fun hbase hal hsize => ?_,
    fun hbase hal hlo hhi hcross => ?_⟩
  · exact (if_neg hbase).trans (if_pos hmis)
  · exact (if_neg hbase).trans ((if_neg (not_not_intro hal)).trans (if_pos hsize))
  · have hsize : ¬ (g.size < lo ∨ g.size > hi) := by omega
    exact (if_neg hbase).trans ((if_neg (not_not_intro hal)).trans ((if_neg hsize).trans (if_pos hcross)))

section

variable {erstMax : Nat} {e : Addr} {segs : List Segment} (hne : segs.length ≠ 0) (hlen : segs.length ≤ erstMax)

include hne

theorem checkErst_long (hlong : erstMax < segs.length) : checkErst erstMax e segs = some .erstSize :=
  (if_neg hne).trans (if_pos hlong)

include hlen

/-- With a number of segments that the table may have, the base decides, and then the segments. -/
theorem checkErst_eq :
    checkErst erstMax e segs =
      if e.toNat = 0 then some .zeroAddress
      else if e.toNat % 64 ≠ 0 then some .misaligned
      else if 2 ^ 64 ≤ e.toNat + 16 * segs.length - 1 then some .segBoundary
      else checkSegments segs 16 4096 := by
  rw [checkErst, if_neg hne, if_neg (Nat.not_lt.mpr hlen), checkSegments, if_neg hne]
  rfl

theorem checkErst_segments (hzero : e.toNat ≠ 0) (hal : e.toNat % 64 = 0)
    (hend : e.toNat + 16 * segs.length - 1 < 2 ^ 64) : checkErst erstMax e segs = checkSegments segs 16 4096 := by
  rw [checkErst_eq hne hlen, if_neg hzero, if_neg (not_not_intro hal), if_neg (Nat.not_le.mpr hend)]

end

theorem exec_initEvent_refused {s : State} (hlive : s.fault = none) {e : Addr} {segs : List Segment}
    {code : FaultCode} (h : checkErst s.erstMax e segs = some code) :
    exec (.initEvent e segs) s = faulted s code := by
  show execInitEvent e segs s = _
  rw [execInitEvent, request_live hlive, h]
  rfl

/-- Settles O40: `INIT_EVENT` raises what the checks report, the table's first, then those of the first failing
segment. -/
theorem initEventFaults : Obligations.InitEventFaults := by
  intro e segs s hlive
  refine ⟨fun hnil => exec_initEvent_refused hlive (if_pos hnil),
    fun hne hlong => exec_initEvent_refused hlive (checkErst_long hne hlong), fun hne hlen => ?_⟩
  refine ⟨fun hzero => ?_, fun hzero hmis => ?_, fun hzero hal hend => ?_, ?_⟩
  · exact exec_initEvent_refused hlive ((checkErst_eq hne hlen).trans (if_pos hzero))
  · refine exec_initEvent_refused hlive ((checkErst_eq hne hlen).trans ?_)
    rw [if_neg hzero, if_pos hmis]
  · refine exec_initEvent_refused hlive ((checkErst_eq hne hlen).trans ?_)
    rw [if_neg hzero, if_neg (not_not_intro hal), if_pos hend]
  · rintro hzero hal hend pre post g rfl hpre
    have hfails {code : FaultCode} (h : checkSegment 16 4096 g = some code) :
        exec (.initEvent e (pre ++ g :: post)) s = faulted s code :=
      exec_initEvent_refused hlive
        ((checkErst_segments hne hlen hzero hal hend).trans (checkSegments_first hpre h))
    obtain ⟨hbase, hmis, hsize, hcross⟩ := checkSegment_faults 16 4096 g
    exact ⟨fun h => hfails (hbase h), fun h1 h2 => hfails (hmis h1 h2), fun h1 h2 h3 => hfails (hsize h1 h2 h3),
      fun h1 h2 h3 h4 h5 => hfails (hcross h1 h2 h3 h4 h5)⟩

/-! ## A TRB written word by word -/

theorem addr_zeroOffset (pa : Addr) : pa + BitVec.ofNat 64 0 = pa := BitVec.add_zero pa

/-- From `m` to `m'` the word at offset `w` of the 16 bytes at `pa` became `v`, and no word below it changed. -/
structure WritesWord (pa : Addr) (w : Nat) (v : Word) (m m' : Memory) : Prop where
  written : memGetWord m' (pa + BitVec.ofNat 64 w) = v
  below : ∀ i, i + 4 ≤ w → memGetWord m' (pa + BitVec.ofNat 64 i) = memGetWord m (pa + BitVec.ofNat 64 i)

/-- Four words written in the order of their offsets are the TRB in memory. -/
theorem memGetTrb_of_writes {pa : Addr} {w0 w1 w2 w3 : Word} {m m0 m1 m2 m3 : Memory}
    (h0 : WritesWord pa 0 w0 m m0) (h1 : WritesWord pa 4 w1 m0 m1) (h2 : WritesWord pa 8 w2 m1 m2)
    (h3 : WritesWord pa 12 w3 m2 m3) : memGetTrb m3 pa = trbOfWords w0 w1 w2 w3 := by
  have e0 : memGetWord m3 (pa + BitVec.ofNat 64 0) = w0 := by
    rw [h3.below 0 (by omega), h2.below 0 (by omega), h1.below 0 (by omega), h0.written]
  have e1 : memGetWord m3 (pa + BitVec.ofNat 64 4) = w1 := by
    rw [h3.below 4 (by omega), h2.below 4 (by omega), h1.written]
  have e2 : memGetWord m3 (pa + BitVec.ofNat 64 8) = w2 := by rw [h3.below 8 (by omega), h2.written]
  rw [addr_zeroOffset] at e0
  rw [memGetTrb, e0, e1, e2, h3.written]

/-- A word written in memory is apart from the words below it of the same 16 bytes. -/
theorem memSetWord_writesWord {m : Memory} (hm : Memory.wf m = true) (pa : Addr) {w : Nat} (hw : w ≤ 12) (v : Word) :
    WritesWord pa w v m (memSetWord m (pa + BitVec.ofNat 64 w) v) where
  written := memGetWord_memSetWord_same hm _ v
  below i hi := memGetWord_congr fun k hk =>
    memGet_memSetWord_other m _ v fun l hl e => slotWords_apart pa (by omega) hw (.inl hi) hk ⟨l, hl, e⟩

/-- The block's write of a word, where the controller may not write. -/
theorem memWrite_writesWord {s : State} (hm : Memory.wf s.mem = true) {pa : Addr}
    (hc : ∀ k < 16, s.ctrlMayWrite (byteAddr pa k) = false) {w : Nat} (hw : w ≤ 12) (v : Word) :
    WritesWord pa w v s.mem (memWrite (pa + BitVec.ofNat 64 w) v s).mem where
  written := memWrite_word _ v hm
  below i hi := by
    refine (memWrite_effect _ v s).word (fun k hk => ?_) fun k hk => slotWords_apart pa (by omega) hw (.inl hi) hk
    rw [byteAddr_add]
    exact hc _ (by omega)

/-! ## A new Event Ring (R271, R273) -/

/-- The 16 bytes of a segment's ERST entry (R95, R271). -/
def erstTrb (g : Segment) : Trb :=
  trbOfWords (g.base.extractLsb' 0 32) (g.base.extractLsb' 32 32) (BitVec.ofNat 32 g.size) 0#32

/-- An ERST entry by the numbers of its words (R95). -/
theorem erstTrb_eq (g : Segment) :
    erstTrb g = trbOfWords (BitVec.ofNat 32 (g.base.toNat % 2 ^ 32)) (BitVec.ofNat 32 (g.base.toNat / 2 ^ 32))
      (BitVec.ofNat 32 g.size) 0#32 := by
  have hlow : g.base.extractLsb' 0 32 = BitVec.ofNat 32 (g.base.toNat % 2 ^ 32) := by
    apply BitVec.eq_of_toNat_eq
    simp
  have hhigh : g.base.extractLsb' 32 32 = BitVec.ofNat 32 (g.base.toNat / 2 ^ 32) := by
    apply BitVec.eq_of_toNat_eq
    simp [BitVec.extractLsb'_toNat, Nat.shiftRight_eq_div_pow]
  rw [erstTrb, hlow, hhigh]

/-- The entry written is in memory, where the controller may not write (R60, R271). -/
theorem writeErstEntry_trb {e : Addr} (g : Segment) {s : State} (hm : Memory.wf s.mem = true)
    (hc : ∀ k < 16, s.ctrlMayWrite (byteAddr e k) = false) :
    memGetTrb (writeErstEntry e g s).mem e = erstTrb g := by
  have e0 := memWrite_effect e (g.base.extractLsb' 0 32) s
  have e1 := e0.trans (memWrite_effect (e + 4#64) (g.base.extractLsb' 32 32) _)
  have e2 := e1.trans (memWrite_effect (e + 8#64) (BitVec.ofNat 32 g.size) _)
  have hkept {s' : State} (hrings : s'.rings = s.rings) (k : Nat) (hk : k < 16) :
      s'.ctrlMayWrite (byteAddr e k) = false := (ctrlMayWrite_congr hrings _).trans (hc k hk)
  have h0 := memWrite_writesWord hm hc (w := 0) (by omega) (g.base.extractLsb' 0 32)
  rw [addr_zeroOffset] at h0
  exact memGetTrb_of_writes h0 (memWrite_writesWord (e0.memWf hm) (hkept e0.rings) (by omega) _)
    (memWrite_writesWord (e1.memWf hm) (hkept e1.rings) (by omega) _)
    (memWrite_writesWord (e2.memWf hm) (hkept e2.rings) (by omega) _)

/-- A segment and its entry `n` of the ERST as their construction leaves them (R271). -/
structure FreshEntry (m : Memory) (table : Segment) (n : Nat) (g : Segment) : Prop where
  zeros : ∀ j < g.size, memGetTrb m (slotAddr g j) = 0#128
  entry : memGetTrb m (slotAddr table n) = erstTrb g

/-- A fresh segment and its entry stay so where neither agent writes. -/
theorem FreshEntry.afterEffect {s s' : State} {W : Nat → Prop} {evs : List Access} {table g : Segment} {n : Nat}
    (h : FreshEntry s.mem table n g) (e : Effect s s' W evs) (htop : g.base.toNat + 16 * g.size ≤ 2 ^ 64)
    (hseg : ∀ a, segmentHolds g a = true → s.ctrlMayWrite a = false ∧ ¬ W a)
    (hentry : ∀ a, slotByte (slotAddr table n) a → s.ctrlMayWrite a = false ∧ ¬ W a) :
    FreshEntry s'.mem table n g where
  zeros j hj := by
    have hbyte {k : Nat} (hk : k < 16) := hseg _ (slotByte_segment htop hj ⟨k, hk, rfl⟩)
    exact (e.trb (fun _ hk => (hbyte hk).1) fun _ hk => (hbyte hk).2).trans (h.zeros j hj)
  entry :=
    (e.trb (fun k hk => (hentry _ ⟨k, hk, rfl⟩).1) fun k hk => (hentry _ ⟨k, hk, rfl⟩).2).trans h.entry

section

variable {table : Segment} (ht : table.base.toNat + 16 * table.size ≤ 2 ^ 64)

include ht

/-- The bytes of the entries of a table from entry `n` on (R95). -/
theorem erstByte_table {n k a : Nat} (hn : n + k ≤ table.size) (h : erstByte (slotAddr table n) k a) :
    table.base.toNat + 16 * n ≤ a ∧ a < table.base.toNat + 16 * (n + k) := by
  obtain ⟨i, hi, hbyte⟩ := h
  have hslot : slotAddr table n + BitVec.ofNat 64 (16 * i) = slotAddr table (n + i) := by
    rw [slotAddr, slotAddr, BitVec.add_assoc, ← BitVec.ofNat_add, Nat.mul_add]
  rw [hslot, slotByte_iff ht (by omega)] at hbyte
  omega

variable {g : Segment} {n : Nat} (hn : n < table.size) (htop : g.base.toNat + 16 * g.size ≤ 2 ^ 64)

include hn htop

/-- The writes of one segment and its entry, where the controller may not write and the two are apart. -/
theorem writeEntry_fresh {s : State} (hm : Memory.wf s.mem = true)
    (hseg : ∀ a, segmentHolds g a = true → s.ctrlMayWrite a = false ∧ segmentHolds table a = false)
    (hentry : ∀ a, segmentHolds table a = true → s.ctrlMayWrite a = false) :
    FreshEntry (zeroSlots g g.size (writeErstEntry (slotAddr table n) g s)).mem table n g where
  zeros := by
    have e := writeErstEntry_effect (slotAddr table n) g s
    exact zeroSlots_zero htop (Nat.le_refl _) (e.memWf hm) fun a ha =>
      (ctrlMayWrite_congr e.rings a).trans (hseg a ha).1
  entry := by
    have e := writeErstEntry_effect (slotAddr table n) g s
    have hctrl (k : Nat) (hk : k < 16) : s.ctrlMayWrite (byteAddr (slotAddr table n) k) = false :=
      hentry _ (slotByte_segment ht hn ⟨k, hk, rfl⟩)
    refine ((zeroSlots_effect g g.size _).trb (fun k hk => (ctrlMayWrite_congr e.rings _).trans (hctrl k hk))
      fun k hk ⟨j, hj, hbyte⟩ => ?_).trans (writeErstEntry_trb g hm hctrl)
    have hheld := slotByte_segment ht hn ⟨k, hk, rfl⟩
    rw [(hseg _ (slotByte_segment htop hj hbyte)).2] at hheld
    cases hheld

end

/-- Every segment of a new Event Ring is zero and has its entry, from entry `n` of the table on (R271). -/
theorem writeEvent_fresh {table : Segment} (ht : table.base.toNat + 16 * table.size ≤ 2 ^ 64) {segs : List Segment}
    (htops : ∀ g ∈ segs, g.base.toNat + 16 * g.size ≤ 2 ^ 64) (hapart : segmentsApart (table :: segs)) {s : State}
    (hm : Memory.wf s.mem = true) (htable : ∀ a, segmentHolds table a = true → s.ctrlMayWrite a = false)
    (hsegs : ∀ a, inSegments segs a = true → s.ctrlMayWrite a = false) {n : Nat} (hn : n + segs.length ≤ table.size)
    {i : Nat} {g : Segment} (hg : segs[i]? = some g) :
    FreshEntry (writeEvent (slotAddr table n) segs s).mem table (n + i) g := by
  induction segs generalizing s n i with
  | nil => simp at hg
  | cons x rest ih =>
    obtain ⟨htop, hrest⟩ := List.forall_mem_cons.mp htops
    rw [List.length_cons] at hn
    have e := (writeErstEntry_effect (slotAddr table n) x s).trans (zeroSlots_effect x x.size _)
    rw [writeEvent, ← slotAddr_succ]
    cases i with
    | zero =>
      obtain rfl : x = g := by simpa using hg
      have hfirst (a : Nat) (ha : segmentHolds x a = true) :
          s.ctrlMayWrite a = false ∧ segmentHolds table a = false :=
        ⟨hsegs a (by simp [inSegments, ha]),
          segmentHolds_disjoint hapart (i := 1) (j := 0) rfl rfl (by omega) ha⟩
      have hother {j : Nat} {y : Segment} (hy : (table :: x :: rest)[j]? = some y) (hj : j < 2) {a : Nat}
          (ha : segmentHolds y a = true) : inSegments rest a = false := by
        refine List.any_eq_false.mpr fun z hz hza => ?_
        obtain ⟨l, hl⟩ := List.mem_iff_getElem?.mp hz
        have hnot := segmentHolds_disjoint hapart (j := l + 2) hy hl (by omega) ha
        rw [hza] at hnot
        cases hnot
      refine (writeEntry_fresh ht (by omega) htop hm hfirst htable).afterEffect
        (writeEvent_effect (slotAddr table (n + 1)) rest hrest _) htop (fun a ha => ⟨?_, ?_⟩) fun a ha => ⟨?_, ?_⟩
      · exact (ctrlMayWrite_congr e.rings a).trans (hfirst a ha).1
      · rintro (hin | hbyte)
        · rw [hother (j := 1) rfl (by omega) ha] at hin
          cases hin
        · have hrange := erstByte_table ht (by omega) hbyte
          have hnot := (hfirst a ha).2
          rw [← Bool.not_eq_true, segmentHolds_iff] at hnot
          omega
      · exact (ctrlMayWrite_congr e.rings a).trans (htable a (slotByte_segment ht (by omega) ha))
      · rintro (hin | hbyte)
        · rw [hother (j := 0) rfl (by omega) (slotByte_segment ht (by omega) ha)] at hin
          cases hin
        · have hrange := erstByte_table ht (by omega) hbyte
          have hslot := (slotByte_iff ht (by omega)).mp ha
          omega
    | succ i =>
      have hsub : (table :: rest).Sublist (table :: x :: rest) := (List.sublist_cons_self x rest).cons_cons table
      have hlater := ih hrest (List.Pairwise.sublist (hsub.map _) hapart) (e.memWf hm)
        (fun a ha => (ctrlMayWrite_congr e.rings a).trans (htable a ha))
        (fun a ha => (ctrlMayWrite_congr e.rings a).trans (hsegs a (Bool.or_eq_true_iff.mpr (.inr ha))))
        (n := n + 1) (by omega) (by simpa using hg)
      rwa [Nat.add_right_comm] at hlater

/-- `INIT_EVENT` with a table and segments that pass the checks (R271). -/
theorem exec_initEvent {s : State} (hlive : s.fault = none) {e : Addr} {segs : List Segment}
    (hcheck : checkErst s.erstMax e segs = none) :
    exec (.initEvent e segs) s =
      .next { (orderW (writeEvent e segs s)).addRing (.consumer (newConsumer e segs)) with
        result := some (.ring s.rings.length) } := by
  show execInitEvent e segs s = _
  rw [execInitEvent, request_live hlive, hcheck]
  rfl

/-- Settles O41: the ring's memory is that of its fresh entries. -/
theorem initEvent : Obligations.InitEvent := by
  intro e segs s hlive hne hlen hzero hal hend hsegs
  have hcheck : checkErst s.erstMax e segs = none :=
    (checkErst_segments (mt List.length_eq_zero_iff.mp hne) hlen hzero hal hend).trans (checkSegments_ok hne hsegs)
  have htops (g : Segment) (hg : g ∈ segs) := checkSegment_top (checkSegment_eq_none.mpr (hsegs g hg))
  have ht : (erstTable e segs).base.toNat + 16 * (erstTable e segs).size ≤ 2 ^ 64 := by
    simp only [erstTable]
    omega
  have hplaces (a : Nat) (h : (inSegments segs a = true ∨ erstByte e segs.length a) ∨ False) :
      inSegments segs a = true ∨ (e.toNat ≤ a ∧ a < e.toNat + 16 * segs.length) :=
    (h.resolve_right id).imp_right (erstByte_range ht)
  have eff := ((writeEvent_effect e segs htops s).trans (orderW_effect _)).weaken hplaces
  have hstill (hctrl : s.ctrl = []) :=
    ((writeEvent_still e segs htops hctrl).trans
      (log_still .orderW (writeEvent_still e segs htops hctrl).ctrl)).weaken hplaces
  refine ⟨_, exec_initEvent hlive hcheck, rfl, congrArg (· ++ _) eff.rings, eff.keepsRegs hstill,
    eff.frameWriting hstill, fun hm hdis hctrl i g hg => ?_⟩
  have hapart : segmentsApart (erstTable e segs :: segs) := 
    (List.pairwise_flatMap.mp hdis).1 (.consumer ⟨segs, e, 0, 0, true, .empty⟩) (List.mem_singleton_self _)
  have hfresh := writeEvent_fresh ht htops hapart hm (fun a ha => hctrl a (.inr (segmentHolds_iff.mp ha)))
    (fun a ha => hctrl a (.inl ha)) (n := 0) (Nat.le_of_eq (Nat.zero_add _)) hg
  rw [slotAddr_first, Nat.zero_add] at hfresh
  exact ⟨hfresh.zeros, hfresh.entry.trans (erstTrb_eq g)⟩

/-! ## What a dequeue reads (R58, R276) -/

/-- The four reads of a slot, DW3 first, with the TRB of the words read (R58, R276). -/
def readSlot (pa : Addr) (s : State) : Trb × State :=
  readRest pa (memRead (pa + 12#64) s).1 (memRead (pa + 12#64) s).2

/-- DW3 of the TRB is the word read first. -/
theorem dw3_readSlot (pa : Addr) (s : State) : dw3 (readSlot pa s).1 = (memRead (pa + 12#64) s).1 := by
  simp only [readSlot, readRest, dw_trbOfWords]

/-- The accesses of the four reads, newest first (R58). -/
def readSlotEvents (pa : Addr) (t : Trb) : List Access :=
  [.memRead (pa + 8#64) (Config.mapPhys (pa + 8#64)) (dw2 t), .memRead (pa + 4#64) (Config.mapPhys (pa + 4#64)) (dw1 t),
    .memRead pa (Config.mapPhys pa) (dw0 t), .orderR, .memRead (pa + 12#64) (Config.mapPhys (pa + 12#64)) (dw3 t)]

theorem readSlot_effect (pa : Addr) (s : State) :
    Effect s (readSlot pa s).2 (fun _ => False) (readSlotEvents pa (readSlot pa s).1) := by
  rw [readSlotEvents, dw3_readSlot]
  exact ((memRead_effect (pa + 12#64) s).trans (readRest_effect pa _ _)).weaken fun _ h => h.elim id id

theorem readSlot_still (pa : Addr) {s : State} (h : s.ctrl = []) :
    Still s (readSlot pa s).2 (fun _ => False) := by
  have h3 := memRead_still (pa + 12#64) h
  exact (h3.trans (readRest_still pa _ h3.ctrl)).weaken fun _ h => h.elim id id

/-- The state after the first read is the state after the controller's turn, but for the trace. -/
theorem memRead_state (pa : Addr) (s : State) :
    (memRead pa s).2 = (controllerTurn s).log (.memRead pa (Config.mapPhys pa) (memRead pa s).1) := rfl

/-- Where the first read uses up the controller's schedule, the words are those that memory then holds, and the other
reads change nothing but the trace. -/
theorem readSlot_lastTurn (pa : Addr) {s : State} (h : (controllerTurn s).ctrl = []) :
    (readSlot pa s).1 = memGetTrb (controllerTurn s).mem pa ∧ (readSlot pa s).2.mem = (controllerTurn s).mem ∧
      (readSlot pa s).2.regs = (controllerTurn s).regs ∧ (readSlot pa s).2.hc = (controllerTurn s).hc := by
  have hquiet (tr : List Access) (pa : Addr) := memRead_quiet pa (s := { controllerTurn s with trace := tr }) h
  unfold readSlot readRest memGetTrb
  simp only [memRead_state, orderR_eq, State.log, hquiet, memRead_value, and_self]

/-! ## DEQUEUE by its first read (R276, R278) -/

section

variable {s : State} {r : Nat} {c : ConsumerRing} {g : Segment} (hlive : s.fault = none)
  (hr : s.rings[r]? = some (.consumer c)) (hg : c.segs[c.seg]? = some g)

include hlive hr hg

/-- A DEQUEUE that finds the other Cycle bit answers nothing. -/
theorem exec_dequeue_nothing (h : (dw3 (readSlot (slotAddr g c.idx) s).1).getLsbD 0 ≠ c.ccs) :
    exec (.dequeue r) s =
      .next { (memRead (slotAddr g c.idx + 12#64) s).2 with result := some .nothing } := by
  rw [dw3_readSlot] at h
  show execDequeue r s = _
  rw [execDequeue, request_onConsumerSegment hlive hr hg]
  simp only [produced, beq_false_of_ne h, Bool.false_eq_true, if_false]
  rfl

/-- A DEQUEUE that finds the ring's Cycle State answers the TRB of the words it reads and advances. -/
theorem exec_dequeue_event (h : (dw3 (readSlot (slotAddr g c.idx) s).1).getLsbD 0 = c.ccs) :
    exec (.dequeue r) s =
      .next { (readSlot (slotAddr g c.idx) s).2.setRing r (.consumer { advance g c with phase := .running }) with
        result := some (.event (kindOf (readSlot (slotAddr g c.idx) s).1) (readSlot (slotAddr g c.idx) s).1) } := by
  rw [dw3_readSlot] at h
  show execDequeue r s = _
  rw [execDequeue, request_onConsumerSegment hlive hr hg]
  simp only [produced, h, beq_self_eq_true, if_true]
  rfl

end

/-- The ring after an answered DEQUEUE, as R278 puts it. -/
theorem advance_running (g : Segment) (c : ConsumerRing) :
    { advance g c with phase := .running } =
      if c.idx + 1 = g.size then
        if c.seg + 1 = c.segs.length then { c with idx := 0, seg := 0, ccs := !c.ccs, phase := .running }
        else { c with idx := 0, seg := c.seg + 1, phase := .running }
      else { c with idx := c.idx + 1, phase := .running } := by
  unfold advance
  split
  · split <;> rfl
  · rfl

/-- Settles O42: the first word read decides, whatever the controller writes before or after that read. -/
theorem dequeueAnyTime : Obligations.DequeueAnyTime := by
  refine ⟨fun r s hlive hno => exec_dequeue_unnamed hlive hno, fun r s c g hlive hr hg => ?_⟩
  by_cases h : (dw3 (readSlot (slotAddr g c.idx) s).1).getLsbD 0 = c.ccs
  · have e := readSlot_effect (slotAddr g c.idx) s
    have hstill (hctrl : s.ctrl = []) := readSlot_still (slotAddr g c.idx) hctrl
    refine ⟨_, exec_dequeue_event hlive hr hg h, e.keepsRegs hstill, e.frameWriting hstill,
      .inr ⟨(readSlot (slotAddr g c.idx) s).1, (cycleBit_eq_dw3 _).trans h, rfl, ?_, ?_⟩⟩
    · rw [← advance_running]
      exact e.setRing_rings r _
    · simpa only [readSlotEvents, slotAddr_zeroOffset, State.setRing_trace] using e.block
  · have e := memRead_effect (slotAddr g c.idx + 12#64) s
    have hstill (hctrl : s.ctrl = []) := memRead_still (slotAddr g c.idx + 12#64) hctrl
    exact ⟨_, exec_dequeue_nothing hlive hr hg h, e.keepsRegs hstill, e.frameWriting hstill,
      .inl ⟨_, dw3_readSlot (slotAddr g c.idx) s ▸ h, rfl, e.rings, e.block⟩⟩

/-- Settles O43: with nothing scheduled the words read are the slot that memory holds. -/
theorem dequeueQuiet : Obligations.DequeueQuiet := by
  intro r s c g hlive hctrl hr hg
  have hturn := controllerTurn_quiet hctrl
  obtain ⟨htrb, hmem, hregs, -⟩ := readSlot_lastTurn (slotAddr g c.idx) (hturn.symm ▸ hctrl)
  rw [hturn] at htrb hmem hregs
  have hcycle : (dw3 (readSlot (slotAddr g c.idx) s).1).getLsbD 0 = slotCycle s.mem g c.idx := by
    rw [htrb, ← cycleBit_eq_dw3, slotCycle_eq]
  by_cases h : slotCycle s.mem g c.idx = c.ccs
  · exact ⟨_, exec_dequeue_event hlive hr hg (hcycle.trans h), hmem, hregs, fun _ => htrb ▸ rfl,
      fun hne => absurd h hne⟩
  · exact ⟨_, exec_dequeue_nothing hlive hr hg (hcycle ▸ h), (congrArg State.mem hturn :),
      (congrArg State.regs hturn :), fun heq => absurd heq h, fun _ => ⟨rfl, (congrArg State.rings hturn :)⟩⟩

/-! ## An event posted before the first read (R285) -/

/-- The controller's write of a word where it may write (R24 (b)). -/
theorem ctrlWriteWord_admitted {pa : Addr} (v : Word) {s : State} (h : s.ctrlMayWriteWord pa = true) :
    ctrlWriteWord pa v s = { s with mem := memSetWord s.mem pa v, trace := .ctrlWrite pa v :: s.trace } := if_pos h

/-- The controller's four writes of a slot where it may write. -/
theorem ctrlWriteTrb_admitted {pa : Addr} (t : Trb) {s : State} (h : s.ctrlMayWriteTrb pa = true) :
    ctrlWriteTrb pa t s =
      { s with
        mem :=
          memSetWord (memSetWord (memSetWord (memSetWord s.mem pa (dw0 t)) (pa + 4#64) (dw1 t)) (pa + 8#64)
            (dw2 t)) (pa + 12#64) (dw3 t)
        trace := [.ctrlWrite (pa + 12#64) (dw3 t), .ctrlWrite (pa + 8#64) (dw2 t), .ctrlWrite (pa + 4#64) (dw1 t),
          .ctrlWrite pa (dw0 t)] ++ s.trace } := by
  simp only [State.ctrlMayWriteTrb, Bool.and_eq_true] at h
  obtain ⟨⟨⟨h0, h1⟩, h2⟩, h3⟩ := h
  rw [ctrlWriteTrb, ctrlWriteWord_admitted (pa := pa) _ h0, ctrlWriteWord_admitted (pa := pa + 4#64) _ (by exact h1),
    ctrlWriteWord_admitted (pa := pa + 8#64) _ (by exact h2), ctrlWriteWord_admitted (pa := pa + 12#64) _ (by exact h3)]
  rfl

/-- The event is in memory after the controller's writes (R60, R285). -/
theorem ctrlWriteTrb_trb {pa : Addr} (t : Trb) {s : State} (hm : Memory.wf s.mem = true)
    (h : s.ctrlMayWriteTrb pa = true) : memGetTrb (ctrlWriteTrb pa t s).mem pa = t := by
  have m0 := memSetWord_wf hm pa (dw0 t)
  have m1 := memSetWord_wf m0 (pa + 4#64) (dw1 t)
  have m2 := memSetWord_wf m1 (pa + 8#64) (dw2 t)
  have h0 := memSetWord_writesWord hm pa (w := 0) (by omega) (dw0 t)
  rw [addr_zeroOffset] at h0
  have h1 := memSetWord_writesWord m0 pa (w := 4) (by omega) (dw1 t)
  have h2 := memSetWord_writesWord m1 pa (w := 8) (by omega) (dw2 t)
  have h3 := memSetWord_writesWord m2 pa (w := 12) (by omega) (dw3 t)
  have htrb := memGetTrb_of_writes h0 h1 h2 h3
  rw [trbOfWords_dw] at htrb
  simpa only [ctrlWriteTrb_admitted t h] using htrb

/-- The controller may write every slot of an Event Ring of a legal state (R24 (b)). -/
theorem ctrlMayWriteTrb_slot {s : State} {g : Segment} (h : SlotsOf Ring.consumerHolds s.rings g) {j : Nat}
    (hj : j < g.size) : s.ctrlMayWriteTrb (slotAddr g j) = true := by
  have hword {w : Nat} (hw : w + 4 ≤ 16) (h4 : w % 4 = 0) :
      s.ctrlMayWriteWord (slotAddr g j + BitVec.ofNat 64 w) = true := by
    obtain ⟨haligned, q, hq, hheld⟩ := h.word hj hw h4
    exact ctrlMayWriteWord_iff.mpr ⟨haligned, fun k hk => List.any_eq_true.mpr ⟨q, hq, hheld k hk⟩⟩
  have h0 := hword (w := 0) (by omega) rfl
  rw [slotAddr_zeroOffset] at h0
  simp only [State.ctrlMayWriteTrb, Bool.and_eq_true]
  exact ⟨⟨⟨h0, hword (by omega) rfl⟩, hword (by omega) rfl⟩, hword (by omega) rfl⟩

/-- A writer of the controller stands where the block's cursor on an Event Ring stands, in the same pass (R285). -/
def SamePosition (w : HcWriter) (c : ConsumerRing) : Prop :=
  w.segs = c.segs ∧ w.seg = c.seg ∧ w.idx = c.idx ∧ w.cycle = c.ccs

/-- The writer moves on as the reader does (R278, R285). -/
theorem SamePosition.advance {w : HcWriter} {c : ConsumerRing} {g : Segment} (h : SamePosition w c)
    (hg : c.segs[c.seg]? = some g) (phase : Phase) :
    SamePosition (writerAdvance w) { advance g c with phase := phase } := by
  obtain ⟨intr, segs, seg, idx, cycle⟩ := w
  obtain ⟨rfl, rfl, rfl, rfl⟩ := h
  simp only [writerAdvance, hg, Machine.advance]
  split
  · split <;> exact ⟨rfl, rfl, rfl, rfl⟩
  · exact ⟨rfl, rfl, rfl, rfl⟩

theorem writerAdvance_intr (w : HcWriter) : (writerAdvance w).intr = w.intr := by
  unfold writerAdvance
  split
  · rfl
  · split
    · split <;> rfl
    · rfl

/-- After one writer has moved on, it is still the one found for its interrupter. -/
theorem find?_writerAdvance {events : List HcWriter} {i : Nat} {w : HcWriter}
    (h : events.find? (fun x => x.intr == i) = some w) :
    (events.map fun x => if x.intr = i then writerAdvance w else x).find? (fun x => x.intr == i) =
      some (writerAdvance w) := by
  have hw : w.intr = i := by simpa using List.find?_some h
  have hsame : (fun x : HcWriter => (if x.intr = i then writerAdvance w else x).intr == i) = fun x => x.intr == i := by
    funext x
    by_cases hx : x.intr = i <;> simp [hx, writerAdvance_intr, hw]
  rw [List.find?_map, Function.comp_def, hsame, h]
  simp [hw]

/-- A turn with one batch of one act. -/
theorem controllerTurn_act {s : State} {a : CtrlAct} (h : s.ctrl = [[a]]) :
    controllerTurn s = ctrlAct a { s with ctrl := [] } := by
  simp only [controllerTurn, h, ctrlActs]

/-- A post at a slot of an Event Ring that is not full puts the event with the writer's Cycle State there, and moves
the writer on (R285, R376). -/
theorem controllerTurn_post {s : State} {i : Nat} {ev : Trb} {g : Segment} {w : HcWriter} (hinv : MachineInv s)
    (hctrl : s.ctrl = [[.post i ev]]) (hslots : SlotsOf Ring.consumerHolds s.rings g) (hidx : w.idx < g.size)
    (hw : s.hc.events.find? (fun x => x.intr == i) = some w) (hg : w.segs[w.seg]? = some g)
    (hrun : regField s.regs .usbsts .hch = 0#64) (hon : i = 0 ∨ regField s.regs (.erstsz i) .erstSize ≠ 0#64)
    (hroom : writerFull s.regs w = false) :
    (controllerTurn s).ctrl = [] ∧
      memGetTrb (controllerTurn s).mem (slotAddr g w.idx) = withCycle ev w.cycle ∧
      (controllerTurn s).hc.events.find? (fun x => x.intr == i) = some (writerAdvance w) := by
  have hmay : ({ s with ctrl := [] } : State).ctrlMayWriteTrb (slotAddr g w.idx) = true :=
    ctrlMayWriteTrb_slot hslots hidx
  have hslot : writerSlot w = some (slotAddr g w.idx) := by simp [writerSlot, hg, slotAddr]
  have hrunning : ({ s with ctrl := [] } : State).running = true := beq_iff_eq.mpr hrun
  have henabled : eventRingDisabled s.regs i = false := by
    rcases hon with rfl | hsize
    · rfl
    · simp [eventRingDisabled, hsize]
  have hpost := ctrlPost_written (s := { s with ctrl := [] }) ev hw hslot hrunning henabled hroom hmay
  have hwritten : memGetTrb (ctrlWriteTrb (slotAddr g w.idx) (withCycle ev w.cycle) { s with ctrl := [] }).mem
      (slotAddr g w.idx) = withCycle ev w.cycle := ctrlWriteTrb_trb _ hinv.memory hmay
  have hadmitted := ctrlWriteTrb_admitted (withCycle ev w.cycle) hmay
  rw [controllerTurn_act hctrl, ctrlAct, hpost]
  refine ⟨(congrArg State.ctrl hadmitted :), hwritten, ?_⟩
  exact find?_writerAdvance ((congrArg (fun t => t.hc.events.find? fun x => x.intr == i) hadmitted).trans hw)

/-- Settles O44: the post is the controller's only turn, so the reads after it find the event. -/
theorem dequeuePosted : Obligations.DequeuePosted := by
  intro r i ev s c g w hinv hlive hctrl hr hg hw hsegs hseg hidx hcycle hrun hon hroom
  obtain ⟨hslots, hcursor⟩ := hinv.consumerSlots hr hg
  have hgw : w.segs[w.seg]? = some g := by rw [hsegs, hseg, hg]
  obtain ⟨hdone, htrb, hwriter⟩ :=
    controllerTurn_post hinv hctrl hslots (hidx ▸ hcursor) hw hgw hrun hon hroom
  rw [hidx, hcycle] at htrb
  obtain ⟨hread, -, -, hhc⟩ := readSlot_lastTurn (slotAddr g c.idx) hdone
  rw [htrb] at hread
  have hset := cycleSet_withCycle ev c.ccs
  have hmatch : (dw3 (readSlot (slotAddr g c.idx) s).1).getLsbD 0 = c.ccs := by
    rw [hread, ← cycleBit_eq_dw3]
    exact hset.1
  have hlt : r < s.rings.length := (List.getElem?_eq_some_iff.mp hr).1
  have hrings := (readSlot_effect (slotAddr g c.idx) s).setRing_rings r
    (.consumer { advance g c with phase := .running })
  refine ⟨_, withCycle ev c.ccs, { advance g c with phase := .running }, writerAdvance w,
    exec_dequeue_event hlive hr hg hmatch, hset, hread ▸ rfl, ?_, ?_,
    SamePosition.advance ⟨hsegs, hseg, hidx, hcycle⟩ hg .running⟩
  · exact (congrArg (·[r]?) hrings).trans (List.getElem?_set_self hlt)
  · exact (congrArg (fun h => h.events.find? fun x => x.intr == i) hhc).trans hwriter

/-! ## Positions (R280) -/

/-- The slots up to a segment, with the segment's own. -/
theorem allSlots_take_succ {segs : List Segment} {i : Nat} {g : Segment} (hg : segs[i]? = some g) :
    allSlots (segs.take (i + 1)) = allSlots (segs.take i) + g.size := by
  rw [List.take_add_one, hg]
  simp [allSlots]

theorem allSlots_take_le (segs : List Segment) (n : Nat) : allSlots (segs.take n) ≤ allSlots segs :=
  ((List.take_sublist n segs).map _).sum_le_sum fun _ _ => Nat.zero_le _

/-- The position and the Cycle State that a cursor has after `k` steps over laps of `n` slots, from position 0 with
Cycle State 1 (R280). -/
def AtLap (n k pos : Nat) (cycle : Bool) : Prop := pos = k % n ∧ cycle = (k / n % 2 == 0)

/-- One more step: within the lap, or from its last slot to position 0 with the Cycle State flipped. -/
theorem AtLap.succ {n k pos pos' : Nat} {cycle cycle' : Bool} (h : AtLap n k pos cycle)
    (hstep : (pos + 1 < n ∧ pos' = pos + 1 ∧ cycle' = cycle) ∨ (pos + 1 = n ∧ pos' = 0 ∧ cycle' = !cycle)) :
    AtLap n (k + 1) pos' cycle' := by
  obtain ⟨hpos, rfl⟩ := h
  have hk : k + 1 = n * (k / n) + (pos + 1) := by
    rw [hpos, ← Nat.add_assoc, Nat.div_add_mod]
  rw [AtLap, hk]
  rcases hstep with ⟨hlt, rfl, rfl⟩ | ⟨rfl, rfl, rfl⟩
  · rw [Nat.mul_add_mod, Nat.mod_eq_of_lt hlt, Nat.mul_add_div (by omega), Nat.div_eq_of_lt hlt]
    exact ⟨rfl, rfl⟩
  · rw [← Nat.mul_add_one, Nat.mul_mod_right, Nat.mul_div_cancel_left _ (Nat.succ_pos pos)]
    refine ⟨rfl, ?_⟩
    rcases Nat.mod_two_eq_zero_or_one (k / (pos + 1)) with hpar | hpar <;> simp [Nat.add_mod, hpar]

/-- An advance moves the cursor's position by one within the lap, or from the lap's last slot to 0 with the Cycle State
flipped (R278, R280). -/
theorem advance_position {erstMax : Nat} {g : Segment} {c : ConsumerRing} (hwf : consumerWf erstMax c = true)
    (hg : c.segs[c.seg]? = some g) :
    (consumerPos c + 1 < allSlots c.segs ∧ consumerPos (advance g c) = consumerPos c + 1 ∧
        (advance g c).ccs = c.ccs) ∨
      (consumerPos c + 1 = allSlots c.segs ∧ consumerPos (advance g c) = 0 ∧ (advance g c).ccs = !c.ccs) := by
  obtain ⟨hcheck, g', hg', hidx⟩ := consumerWf_iff.mp hwf
  obtain rfl : g = g' := Option.some.inj (hg.symm.trans hg')
  have htake := allSlots_take_succ hg
  have htotal := allSlots_take_le c.segs (c.seg + 1)
  have hlt : c.seg < c.segs.length := (List.getElem?_eq_some_iff.mp hg).1
  unfold advance consumerPos
  split
  · split
    · rename_i hlast
      rw [hlast, List.take_length] at htake
      exact .inr ⟨by omega, by simp [allSlots], rfl⟩
    · have hnext : c.seg + 1 < c.segs.length := by omega
      obtain ⟨-, -, -, -, -, hsegs⟩ := checkErst_none hcheck
      obtain ⟨-, -, hmin, -⟩ := checkSegment_none (hsegs _ (List.getElem_mem hnext))
      have htake' := allSlots_take_succ (List.getElem?_eq_getElem hnext)
      have htotal' := allSlots_take_le c.segs (c.seg + 1 + 1)
      simp only [Config.evtSegMin] at hmin
      exact .inl ⟨by omega, by dsimp only; omega, rfl⟩
  · exact .inl ⟨by omega, rfl, rfl⟩

/-- An advance keeps the segments and the ERST of its ring. -/
theorem advance_places (g : Segment) (c : ConsumerRing) :
    (advance g c).segs = c.segs ∧ (advance g c).erstBase = c.erstBase := by
  unfold advance
  split
  · split <;> exact ⟨rfl, rfl⟩
  · exact ⟨rfl, rfl⟩

/-- Ring `r` is the Event Ring made as `c`, after `k` answered DEQUEUEs. -/
def EventRingAt (r : Nat) (c : ConsumerRing) (k : Nat) (s : State) : Prop :=
  ∃ d : ConsumerRing, s.rings[r]? = some (.consumer d) ∧ d.segs = c.segs ∧ d.erstBase = c.erstBase ∧
    AtLap (allSlots c.segs) k (consumerPos d) d.ccs

section

variable {s t : State} {r : Nat} {c : ConsumerRing} {k : Nat}

/-- No instruction but a DEQUEUE on it changes a consumer ring. -/
theorem exec_keepsConsumer {i : Instr} (hexec : exec i s = .next t) (hr : s.rings[r]? = some (.consumer c))
    (hdeq : i ≠ .dequeue r) : t.rings[r]? = some (.consumer c) := by
  by_cases henq : ∃ v, i = .enqueue r v
  · obtain ⟨v, rfl⟩ := henq
    by_cases hlive : s.fault = none
    · have hno (p : ProducerRing) : s.rings[r]? ≠ some (.producer p) := by simp [hr]
      rw [exec_enqueue_unnamed hlive hno] at hexec
      cases hexec
      exact hr
    · rw [exec_dead _ hlive] at hexec
      cases hexec
      exact hr
  · exact ringsIndependent i s t r _ hexec hr (not_exists.mp henq) hdeq

/-- Only a DEQUEUE on the ring counts as one. -/
theorem dequeuedFrom_other {i : Instr} (hdeq : i ≠ .dequeue r) (result : Option Result) :
    dequeuedFrom r (i, result) = false := by
  unfold dequeuedFrom
  split
  · rename_i q kind u heq
    obtain ⟨rfl, -⟩ := Prod.mk.inj heq
    exact beq_false_of_ne fun hq => hdeq (hq ▸ rfl)
  · rfl

/-- A DEQUEUE on the ring answers a TRB and moves the cursor, or answers None or a fault and moves nothing. -/
theorem exec_dequeue_eventRingAt (hinv : MachineInv s) (hat : EventRingAt r c k s)
    (hexec : exec (.dequeue r) s = .next t) :
    EventRingAt r c (if dequeuedFrom r (.dequeue r, t.result) then k + 1 else k) t := by
  by_cases hlive : s.fault = none
  · obtain ⟨d, hr, hsegs, herst, hlap⟩ := hat
    have hwf := hinv.ringWf hr
    obtain ⟨-, g, hg, -⟩ := consumerWf_iff.mp hwf
    by_cases h : (dw3 (readSlot (slotAddr g d.idx) s).1).getLsbD 0 = d.ccs
    · rw [exec_dequeue_event hlive hr hg h] at hexec
      cases hexec
      have hlt : r < s.rings.length := (List.getElem?_eq_some_iff.mp hr).1
      have hrings := (readSlot_effect (slotAddr g d.idx) s).setRing_rings r
        (.consumer { advance g d with phase := .running })
      obtain ⟨hsegs', herst'⟩ := advance_places g d
      refine ⟨{ advance g d with phase := .running }, (congrArg (·[r]?) hrings).trans (List.getElem?_set_self hlt),
        hsegs'.trans hsegs, herst'.trans herst, ?_⟩
      simp only [dequeuedFrom, beq_self_eq_true, if_true]
      exact hlap.succ (hsegs ▸ advance_position hwf hg)
    · rw [exec_dequeue_nothing hlive hr hg h] at hexec
      cases hexec
      have hrings := (memRead_effect (slotAddr g d.idx + 12#64) s).rings
      exact ⟨d, (congrArg (·[r]?) hrings).trans hr, hsegs, herst, hlap⟩
  · rw [exec_dead _ hlive] at hexec
    cases hexec
    exact hat

/-- Every instruction moves the cursor of an Event Ring by the TRBs it dequeues from it. -/
theorem exec_eventRingAt {i : Instr} (hinv : MachineInv s) (hat : EventRingAt r c k s) (hexec : exec i s = .next t) :
    EventRingAt r c (if dequeuedFrom r (i, t.result) then k + 1 else k) t := by
  by_cases hdeq : i = .dequeue r
  · subst hdeq
    exact exec_dequeue_eventRingAt hinv hat hexec
  · obtain ⟨d, hr, hsame⟩ := hat
    rw [dequeuedFrom_other hdeq, if_neg Bool.false_ne_true]
    exact ⟨d, exec_keepsConsumer hexec hr hdeq, hsame⟩

end

/-- A property that counts the entries of one sort, kept by every instruction in a legal state, holds after any
instructions with the number of such entries in their log (R21). -/
theorem execLog_counts {P : Nat → State → Prop} {sort : Instr × Option Result → Bool}
    (hstep : ∀ (i : Instr) (s t : State) (k : Nat), MachineInv s → P k s → exec i s = .next t →
      P (if sort (i, t.result) then k + 1 else k) t)
    {is : List Instr} {log : List (Instr × Option Result)} {s t : State} {k : Nat} (hinv : MachineInv s) (h : P k s)
    (hlog : execLog is s = some (log, t)) : P (k + (log.filter sort).length) t := by
  induction is generalizing s log k with
  | nil =>
    cases hlog
    exact h
  | cons i rest ih =>
    obtain ⟨u, log', hexec, hrest, rfl⟩ := execLog_cons hlog
    have hend := ih (exec_keepsInv hinv hexec) (hstep i s u k hinv h hexec) hrest
    rw [List.filter_cons]
    split at hend
    · rename_i hcounts
      rwa [if_pos hcounts, List.length_cons, Nat.add_comm _ 1, ← Nat.add_assoc]
    · rename_i hcounts
      rwa [if_neg hcounts]

/-- Settles O46, by induction on the instructions from position 0. -/
theorem consumerPositions : Obligations.ConsumerPositions := by
  intro r is log s t c hinv hr hseg hidx hccs hlog
  have hstart : EventRingAt r c 0 s := ⟨c, hr, rfl, rfl, by simp [AtLap, consumerPos, allSlots, hseg, hidx, hccs]⟩
  obtain ⟨d, hd, hsegs, herst, hpos, hcycle⟩ := execLog_counts
    (fun _ _ _ _ hinv hat hexec => exec_eventRingAt hinv hat hexec) hinv hstart hlog
  rw [Nat.zero_add] at hpos hcycle
  exact ⟨d, hd, hsegs, herst, hpos, hcycle⟩

end Sys2Proof.Machine

/-! The statements of 47_register_groups.md. A doorbell is a `WRITE` of a list that `Check` judges by its two values.
The controller's reactions are said once each: when one is enabled (`reactionEnabled`, with `wrote_iff` for what the
driver has written since), which bit it sets (`reactedBit_setRegField`), where the Command Ring starts
(`commandReader`), and which writers an `eventStart` leaves (`find?_eventStart_same`, `find?_eventStart_other`). -/

namespace Sys2Proof.Machine

/-! ## The doorbell (R315) -/

/-- A value past the width of its RW field is the fault of R122 (c). -/
theorem checkAction_set_tooWide {L : Layout} {f : RegField} {p : LayoutField} {x : Nat} (hp : namedField L f = some p)
    (hc : p.cls = .rw) (hx : 2 ^ p.width ≤ x) : checkAction L (.set f x) = some .tooWide := by
  rw [checkAction_named (by exact hp), hc]
  simpa [classAdmits, actionFits] using hx

theorem doorbellActions_tooWide {target stream : Nat} (h : 256 ≤ target ∨ 65536 ≤ stream) :
    checkMutations doorbellLayout (doorbellActions target stream) = some .tooWide := by
  by_cases htarget : target < 256
  · have hstream : 65536 ≤ stream := by omega
    have hpre : ∀ b ∈ [Action.set .dbTarget target], actionOk doorbellLayout b := fun b hb =>
      doorbellActions_ok htarget (stream := 0) (by omega) b (List.mem_cons.mpr (.inl (List.mem_singleton.mp hb)))
    exact checkMutations_first (post := []) hpre
      (checkAction_set_tooWide (p := ⟨.dbStreamId, 16, 16, .rw⟩) rfl rfl hstream)
  · exact checkMutations_first (pre := []) (by simp)
      (checkAction_set_tooWide (p := ⟨.dbTarget, 0, 8, .rw⟩) rfl rfl (not_lt.mp htarget))

theorem exec_ringDoorbell {s : State} (hlive : s.fault = none) (db : Addr) {slot : Nat} (hslot : slot < 256)
    (target stream : Nat) :
    exec (.ringDoorbell db slot target stream) s =
      writeOnly (db + BitVec.ofNat 64 (4 * slot)) doorbellLayout (doorbellActions target stream) s := by
  show execRingDoorbell db slot target stream s = _
  rw [execRingDoorbell, request_live hlive, if_neg (by omega)]

theorem exec_ringDoorbell_noSlot {s : State} (hlive : s.fault = none) (db : Addr) {slot : Nat} (hslot : 256 ≤ slot)
    (target stream : Nat) : exec (.ringDoorbell db slot target stream) s = faulted s .tooWide := by
  show execRingDoorbell db slot target stream s = _
  rw [execRingDoorbell, request_live hlive, if_pos hslot]
  rfl

theorem writeOnly_refused (ra : Addr) {L : Layout} {M : List Action} {code : FaultCode}
    (h : checkMutations L M = some code) (s : State) : writeOnly ra L M s = faulted s code := by
  rw [writeOnly, h]
  rfl

/-- Settles O29: the list of the doorbell passes `Check` exactly where both values fit, and a 32-bit word is never
split. -/
theorem ringDoorbell : Obligations.RingDoorbell := by
  intro db slot target stream s hlive
  refine ⟨fun ⟨hslot, htarget, hstream⟩ => ?_, fun hwide => ?_⟩
  · have hok := doorbellActions_ok htarget hstream
    have hword := compose_doorbell htarget hstream
    have e := wordWrite_effect (db + BitVec.ofNat 64 (4 * slot)) doorbellLayout.width
      (BitVec.ofNat 64 (target + stream * 65536)) s
    have hwhole : ¬ splits doorbellLayout.width s = true := fun h => by cases (splits_iff.mp h).1
    rw [wordWriteEvents_whole hwhole] at e
    have hexec := exec_ringDoorbell hlive db hslot target stream
    rw [writeOnly_ok _ hok, hword] at hexec
    exact ⟨_, hexec, rfl, e.block, e.rings, e.shape, e.frame (wordWrite_restKept _ _ _ s) _⟩
  · by_cases hslot : slot < 256
    · rw [exec_ringDoorbell hlive db hslot]
      exact writeOnly_refused _ (doorbellActions_tooWide (by omega)) s
    · exact exec_ringDoorbell_noSlot hlive db (by omega) target stream

/-! ## Fields of registers -/

section

variable {regs : List Reg} {n : RegName} {f : RegField} {p : LayoutField}

theorem setRegField_eq (hp : n.layout.fields.find? (·.name = f) = some p) (regs : List Reg) (x : RegValue) :
    setRegField regs n f x =
      regs.map fun r => if r.name = n then { r with value := putBits r.value p.lo p.width x } else r := by
  rw [setRegField, hp]

theorem regField_eq {r : Reg} (hp : n.layout.fields.find? (·.name = f) = some p)
    (hr : regs.find? (·.name = n) = some r) : regField regs n f = getBits r.value p.lo p.width := by
  rw [regField, hr]
  simp only [fieldOf, hp]

theorem regField_lt (hp : n.layout.fields.find? (·.name = f) = some p) (regs : List Reg) :
    (regField regs n f).toNat < 2 ^ p.width := by
  cases hr : regs.find? (·.name = n) with
  | none =>
    rw [regField, hr]
    exact Nat.two_pow_pos p.width
  | some r =>
    rw [regField_eq hp hr]
    exact getBits_toNat_lt r.value p.lo p.width

/-- A register of the map is the one that its name finds (R300). -/
theorem find?_reg (hwf : regsWf regs = true) {r : Reg} (hr : r ∈ regs) : regs.find? (·.name = r.name) = some r := by
  cases h : regs.find? (·.name = r.name) with
  | none => exact absurd (List.find?_eq_none.mp h r hr) (by simp)
  | some q =>
    have hname : q.name = r.name := by simpa using List.find?_some h
    rw [reg_eq_of_name hwf (List.mem_of_find?_eq_some h) hr hname]

/-- A field of a register of the map reads back as it was set. -/
theorem regField_setRegField (hwf : regsWf regs = true) (hn : n ∈ regNames)
    (hp : n.layout.fields.find? (·.name = f) = some p) (x : RegValue) :
    regField (setRegField regs n f x) n f = getBits x 0 p.width := by
  obtain ⟨r, hr, rfl⟩ := exists_reg (setRegField_wf hwf n f x) hn
  have hfind := find?_reg (setRegField_wf hwf r.name f x) hr
  rw [setRegField_eq hp] at hr
  obtain ⟨q, -, hq⟩ := List.mem_map.mp hr
  have hinside := layout_field_fits r.name p (List.mem_of_find?_eq_some hp)
  have h64 := RegWidth.bits_le r.name.layout.width
  have hname : q.name = r.name := by
    have := congrArg Reg.name hq
    split at this <;> exact this
  rw [if_pos hname] at hq
  rw [regField_eq hp hfind, ← hq]
  exact getBits_putBits_same q.value x p.lo p.width (by omega)

end

/-! ## The controller's reactions (R319) -/

theorem ctrlReact_run {s : State} (h : regField s.regs .usbcmd .runStop = 1#64) :
    ctrlReact .run s =
      { s with regs := setRegField s.regs .usbsts .hch 0#64, trace := .ctrlReact .run :: s.trace } :=
  if_pos (beq_iff_eq.mpr h)

theorem ctrlReact_halt {s : State} (h : regField s.regs .usbcmd .runStop = 0#64) :
    ctrlReact .halt s =
      { s with regs := setRegField s.regs .usbsts .hch 1#64, trace := .ctrlReact .halt :: s.trace } :=
  if_pos (beq_iff_eq.mpr h)

theorem ctrlReact_reset {s : State} (h : regField s.regs .usbcmd .hcrst = 1#64) :
    ctrlReact .reset s =
      { s with
        regs := s.regs.map fun r => { r with value := r.reset, low := none }
        hc := .nowhere
        trace := .ctrlReact .reset :: s.trace } :=
  if_pos (beq_iff_eq.mpr h)

theorem ctrlReact_commandStop {s : State}
    (h : regField s.regs .crcr .cs = 1#64 ∨ regField s.regs .crcr .ca = 1#64) :
    ctrlReact .commandStop s =
      { s with regs := setRegField s.regs .crcr .crr 0#64, trace := .ctrlReact .commandStop :: s.trace } :=
  if_pos (by simpa [reactionEnabled] using h)

/-- The start of the Command Ring after a ring of doorbell 0 with target 0 (R307). -/
theorem ctrlReact_commandStart {s : State} (hcrr : regField s.regs .crcr .crr = 0#64)
    (hrung : s.wrote commandTurns (.doorbell 0) (fun v => getBits v 0 8 == 0#64) = true) :
    ctrlReact .commandStart s =
      { s with
        regs := setRegField s.regs .crcr .crr 1#64
        hc := { s.hc with command := some (commandReader s) }
        trace := .ctrlReact .commandStart :: s.trace } :=
  if_pos (by simp [reactionEnabled, hcrr, hrung])

/-- The start of an Event Ring after a write of ERSTBA (R311). -/
theorem ctrlReact_eventStart {s : State} {i : Nat} (h : s.wroteAny [.reset, .eventStart i] (.erstba i) = true) :
    ctrlReact (.eventStart i) s = eventStart i (s.log (.ctrlReact (.eventStart i))) := if_pos h

theorem ctrlReact_not_enabled {s : State} {x : Reaction} (h : reactionEnabled x s = false) : ctrlReact x s = s := by
  rw [ctrlReact, h]
  rfl

/-- With no access in the trace the driver has written nothing. -/
theorem wrote_nil {s : State} (h : s.trace = []) (since : List Reaction) (n : RegName) (holds : RegValue → Bool) :
    s.wrote since n holds = false := by
  rw [State.wrote, h]
  split <;> rfl

/-! ## The bit that a reaction sets (R305, R306, R307, R319) -/

/-- The registers of a field of one bit that was set are as before but for that bit. -/
theorem reactedBit_setRegField {s t : State} {x : Reaction} {n : RegName} {f : RegField} {p : LayoutField}
    {v : RegValue} (hp : n.layout.fields.find? (·.name = f) = some p) (hbit : p.width = 1)
    (ht : t = { s with ctrl := [], regs := setRegField s.regs n f v, trace := .ctrlReact x :: s.trace }) :
    reactedBit s t x n p.lo (v.getLsbD 0) := by
  rw [setRegField_eq hp, hbit] at ht
  subst ht
  refine ⟨rfl, List.length_map _, fun j q r hq hr => ?_⟩
  rw [List.getElem?_map, hq, Option.map_some, Option.some.injEq] at hr
  subst hr
  by_cases hname : q.name = n
  · rw [if_pos hname]
    refine ⟨rfl, rfl, fun i hi => ?_⟩
    rw [getLsbD_putBits, decide_eq_true hi, Bool.true_and]
    by_cases hlo : i = p.lo
    · rw [if_pos (by omega), if_pos ⟨hname, hlo⟩, hlo, Nat.sub_self]
    · rw [if_neg (by omega), if_neg fun h => hlo h.2]
  · rw [if_neg hname]
    exact ⟨rfl, rfl, fun i _ => (if_neg fun h => hname h.1).symm⟩

/-- Settles O53: each reaction by its condition, its bit by `reactedBit_setRegField`. -/
theorem controllerReset : Obligations.ControllerReset := by
  refine ⟨fun s hctrl h => ?_, fun s hctrl h => ?_, fun s hctrl h => ?_, fun s hctrl h => ?_, fun s x i hctrl h => ?_⟩
  · rw [controllerTurn_act hctrl, ctrlAct, ctrlReact_reset (s := { s with ctrl := [] }) h]
    exact ⟨rfl, rfl, rfl, rfl, rfl⟩
  · refine reactedBit_setRegField (p := ⟨.hch, 0, 1, .ro⟩) (f := .hch) (v := 0#64) rfl rfl ?_
    rw [controllerTurn_act hctrl, ctrlAct, ctrlReact_run (s := { s with ctrl := [] }) h]
  · refine reactedBit_setRegField (p := ⟨.hch, 0, 1, .ro⟩) (f := .hch) (v := 1#64) rfl rfl ?_
    rw [controllerTurn_act hctrl, ctrlAct, ctrlReact_halt (s := { s with ctrl := [] }) h]
  · refine reactedBit_setRegField (p := ⟨.crr, 3, 1, .ro⟩) (f := .crr) (v := 0#64) rfl rfl ?_
    rw [controllerTurn_act hctrl, ctrlAct, ctrlReact_commandStop (s := { s with ctrl := [] }) h]
  · rw [controllerTurn_act hctrl, ctrlAct]
    apply ctrlReact_not_enabled
    rcases h with ⟨rfl, h⟩ | ⟨rfl, h⟩ | ⟨rfl, h⟩ | ⟨rfl, hcs, hca⟩ | ⟨rfl, h | h⟩ | ⟨rfl, h⟩
    · exact beq_false_of_ne h
    · exact beq_false_of_ne h
    · exact beq_false_of_ne h
    · simp [reactionEnabled, hcs, hca]
    · simp [reactionEnabled, h]
    · simp [reactionEnabled, wrote_nil (s := { s with ctrl := [] }) h]
    · exact wrote_nil h _ _ _

/-! ## What the driver has written since a reaction (R319, R375) -/

/-- The part of a trace, newest first, since the last of the reactions `since`. -/
def traceSince (since : List Reaction) (tr : List Access) : List Access :=
  tr.takeWhile fun a => !since.any fun x => a == .ctrlReact x

theorem traceSince_regWrite (since : List Reaction) (ra : Addr) (bytes : Nat) (v : RegValue) (tr : List Access) :
    traceSince since (.regWrite ra bytes v :: tr) = .regWrite ra bytes v :: traceSince since tr := by
  simp [traceSince]

theorem traceSince_ctrlReact {since : List Reaction} {x : Reaction} (h : x ∈ since) (tr : List Access) :
    traceSince since (.ctrlReact x :: tr) = [] := by
  simpa [traceSince] using h

theorem wrote_iff {s : State} {r : Reg} (hwf : regsWf s.regs = true) (hr : r ∈ s.regs) {since : List Reaction}
    {holds : RegValue → Bool} :
    s.wrote since r.name holds = true ↔ ∃ ra bytes v, .regWrite ra bytes v ∈ traceSince since s.trace ∧
      r.completedBy ra bytes = true ∧ holds v = true := by
  rw [State.wrote, find?_reg hwf hr]
  simp only [List.any_eq_true]
  constructor
  · rintro ⟨a, ha, hwrites⟩
    cases a with
    | regWrite ra bytes v => exact ⟨ra, bytes, v, ha, by simpa using hwrites⟩
    | _ => cases hwrites
  · rintro ⟨ra, bytes, v, ha, hcompleted, hholds⟩
    exact ⟨_, ha, by simp [hcompleted, hholds]⟩

section

variable {r : Reg} {ra : Addr} {bytes : Nat}

theorem completedBy_of_lane {lo w : Nat} (h : laneOf r ra bytes = some (lo, w)) (hend : lo + w = r.bits) :
    r.completedBy ra bytes = true := by
  simp [Reg.completedBy, h, hend]

theorem completedBy_whole (h : 8 * bytes = r.bits) : r.completedBy r.addr bytes = true :=
  completedBy_of_lane (laneOf_whole r h) (Nat.zero_add _)

theorem completedBy_high (h : r.bits = 64) : r.completedBy (r.addr + 4#64) 4 = true :=
  completedBy_of_lane (laneOf_high h) h.symm

/-- A write of a lane of one register of the map completes no other (R300). -/
theorem not_completedBy_other {regs : List Reg} (hwf : regsWf regs = true) (hr : r ∈ regs) {l : Nat × Nat}
    (h : laneOf r ra bytes = some l) {q : Reg} (hq : q ∈ regs) (hname : q.name ≠ r.name) :
    q.completedBy ra bytes = false := by
  rw [Reg.completedBy, (laneOf_only hwf hr h hq hname).1]

end

/-- A write of all of a 64-bit register, or of its high half, since the last of the reactions (R375). -/
theorem wroteAny_completed {s : State} {n : RegName} (hwf : regsWf s.regs = true) (hn : n ∈ regNames)
    (h64 : n.layout.width = .w64) {since : List Reaction} {ra : Addr} {bytes : Nat} {v : RegValue}
    (h : (ra, bytes) = (n.address, 8) ∨ (ra, bytes) = (n.address + 4#64, 4))
    (hmem : .regWrite ra bytes v ∈ traceSince since s.trace) : s.wroteAny since n = true := by
  obtain ⟨r, hr, rfl⟩ := exists_reg hwf hn
  have hbits : r.bits = 64 := congrArg RegWidth.bits h64
  refine (wrote_iff hwf hr).mpr ⟨ra, bytes, v, hmem, ?_, rfl⟩
  rw [← regs_address hwf hr] at h
  rcases h with h | h
  · cases h
    exact completedBy_whole hbits.symm
  · cases h
    exact completedBy_high hbits

theorem doorbell_zero_mem : RegName.doorbell 0 ∈ regNames := by
  rw [regNames_eq]
  exact List.mem_append_right _ (List.mem_map_of_mem (by simp))

theorem crcr_mem : RegName.crcr ∈ regNames := by
  rw [regNames_eq]
  simp [singleNames]

theorem erstba_mem {i : Nat} (hi : i < maxIntrs) : RegName.erstba i ∈ regNames :=
  List.mem_append_left _ (List.mem_append_right _
    (List.mem_flatMap.mpr ⟨i, List.mem_range.mpr hi, by simp [intrNames]⟩))

section

variable {s : State} {w : RegValue} {tr : List Access} (hwf : regsWf s.regs = true)

include hwf

/-- A write of doorbell 0 is all of its register. -/
theorem laneOf_doorbell_zero : ∃ r ∈ s.regs, r.name = .doorbell 0 ∧
    laneOf r (RegName.doorbell 0).address 4 = some (0, r.bits) := by
  obtain ⟨r, hr, hname⟩ := exists_reg hwf doorbell_zero_mem
  have hbits : 8 * 4 = r.bits := by rw [Reg.bits, hname]; rfl
  have haddr := regs_address hwf hr
  rw [hname] at haddr
  exact ⟨r, hr, hname, haddr ▸ laneOf_whole r hbits⟩

/-- The latest access rang doorbell 0. -/
theorem wrote_rung {since : List Reaction} {holds : RegValue → Bool} (hw : holds w = true)
    (htrace : s.trace = .regWrite (RegName.doorbell 0).address 4 w :: tr) :
    s.wrote since (.doorbell 0) holds = true := by
  obtain ⟨r, hr, hname, hlane⟩ := laneOf_doorbell_zero hwf
  rw [← hname, wrote_iff hwf hr]
  exact ⟨_, _, w, by rw [htrace, traceSince_regWrite]; simp, completedBy_of_lane hlane (Nat.zero_add _), hw⟩

/-- CRCR was not written since the Command Ring stopped, if only doorbell 0 was. -/
theorem not_wroteAny_crcr
    (htrace : s.trace = .regWrite (RegName.doorbell 0).address 4 w :: .ctrlReact .commandStop :: tr) :
    s.wroteAny commandTurns .crcr = false := by
  obtain ⟨q, hq, hqname⟩ := exists_reg hwf crcr_mem
  obtain ⟨r, hr, hname, hlane⟩ := laneOf_doorbell_zero hwf
  have hother := not_completedBy_other hwf hr hlane hq (by rw [hqname, hname]; simp)
  rw [← Bool.not_eq_true, State.wroteAny, ← hqname, wrote_iff hwf hq, htrace, traceSince_regWrite,
    traceSince_ctrlReact (by decide)]
  rintro ⟨ra, bytes, v, hmem, hcompleted, -⟩
  cases List.mem_singleton.mp hmem
  exact Bool.false_ne_true (hother.symm.trans hcompleted)

end

/-! ## Where the Command Ring starts (R255, R307) -/

/-- A reader stands where CRCR says, with its `rcs`, and has consumed nothing. -/
def StartsAtCrcr (regs : List Reg) (h : HcReader) : Prop :=
  h.consumed = [] ∧ h.cursor.toNat = (regField regs .crcr .commandRingPointer).toNat * 64 ∧
    (h.cycle = true ↔ regField regs .crcr .rcs = 1#64)

theorem crcrReader_startsAtCrcr (regs : List Reg) : StartsAtCrcr regs (crcrReader regs) := by
  have hpointer : (regField regs .crcr .commandRingPointer).toNat < 2 ^ 58 :=
    regField_lt (p := ⟨.commandRingPointer, 6, 58, .rw⟩) rfl regs
  refine ⟨rfl, ?_, beq_iff_eq⟩
  rw [crcrReader, BitVec.toNat_shiftLeft, Nat.shiftLeft_eq]
  omega

theorem commandReader_first {s : State} (h : s.hc.command = none) : commandReader s = crcrReader s.regs := by
  rw [commandReader, h]

theorem commandReader_written {s : State} (h : s.wroteAny commandTurns .crcr = true) :
    commandReader s = crcrReader s.regs := by
  unfold commandReader
  split
  · rfl
  · rw [if_pos h]

theorem commandReader_resumed {s : State} {h : HcReader} (hcmd : s.hc.command = some h)
    (hw : s.wroteAny commandTurns .crcr = false) : commandReader s = h := by
  simp [commandReader, hcmd, hw]

/-- A doorbell word whose low byte is 0 has target 0 (R310). -/
theorem doorbell_target_zero {w : RegValue} (h : w.toNat % 256 = 0) : getBits w 0 8 = 0#64 := by
  apply BitVec.eq_of_toNat_eq
  rw [getBits_toNat w 0 8 (by omega), pow_zero, Nat.div_one]
  exact h

/-! ## The start of an Event Ring (R95, R311) -/

/-- The controller's writer on interrupter `i`'s Event Ring at its start. -/
def startedWriter (s : State) (i : Nat) : HcWriter where
  intr := i
  segs := (List.range (regField s.regs (.erstsz i) .erstSize).toNat).map fun k =>
    erstEntry s.mem (erstEntryAddr (regField s.regs (.erstba i) .erstbaPointer <<< 6) k)
  seg := 0
  idx := 0
  cycle := true

theorem startedWriter_entry {s : State} {i k : Nat} (hk : k < (regField s.regs (.erstsz i) .erstSize).toNat) :
    (startedWriter s i).segs[k]? =
      some (erstEntry s.mem (erstEntryAddr (regField s.regs (.erstba i) .erstbaPointer <<< 6) k)) := by
  rw [startedWriter, List.getElem?_map, List.getElem?_range hk, Option.map_some]

theorem eventStart_events (i : Nat) (s : State) :
    (eventStart i s).hc.events = (s.hc.events.filter fun w => w.intr != i) ++
      if eventRingDisabled s.regs i then [] else [startedWriter s i] := rfl

theorem find?_eventStart_other {i j : Nat} (hij : j ≠ i) (s : State) :
    (eventStart i s).hc.events.find? (fun x => x.intr == j) = s.hc.events.find? fun x => x.intr == j := by
  have hstarted : (if eventRingDisabled s.regs i then [] else [startedWriter s i]).find? (fun x => x.intr == j) =
      none := by
    split
    · rfl
    · simp [startedWriter, hij.symm]
  rw [eventStart_events, List.find?_append, hstarted, Option.or_none, List.find?_filter]
  congr 1
  funext w
  by_cases h : w.intr = j <;> simp [h, hij]

theorem find?_eventStart_same (i : Nat) (s : State) :
    (eventStart i s).hc.events.find? (fun x => x.intr == i) =
      if eventRingDisabled s.regs i then none else some (startedWriter s i) := by
  have hothers : (s.hc.events.filter fun w => w.intr != i).find? (fun x => x.intr == i) = none := by
    simp [List.find?_eq_none]
  rw [eventStart_events, List.find?_append, hothers, Option.none_or]
  split
  · rfl
  · simp [startedWriter]

theorem eventRingDisabled_iff {regs : List Reg} {i : Nat} :
    eventRingDisabled regs i = true ↔ i ≠ 0 ∧ regField regs (.erstsz i) .erstSize = 0#64 := by
  simp [eventRingDisabled]

/-- The low dword of a base without the six bits that are 0 in it (R95). -/
theorem lowBase_toNat (x : Word) : (x &&& 0xffffffc0#32).toNat = x.toNat / 64 * 64 := by
  have hmask : (0xffffffc0#32 : Word) = BitVec.allOnes 32 <<< 6 := by decide
  have hshift : x &&& 0xffffffc0#32 = (x >>> 6) <<< 6 := by
    apply BitVec.eq_of_getLsbD_eq
    intro i hi
    rw [hmask, BitVec.getLsbD_and, BitVec.getLsbD_shiftLeft, BitVec.getLsbD_shiftLeft, BitVec.getLsbD_allOnes,
      BitVec.getLsbD_ushiftRight]
    by_cases h6 : i < 6
    · simp [h6]
    · simp [h6, hi, show i - 6 < 32 by omega, show 6 + (i - 6) = i by omega]
  have := x.isLt
  rw [hshift, BitVec.toNat_shiftLeft, BitVec.toNat_ushiftRight, Nat.shiftRight_eq_div_pow, Nat.shiftLeft_eq]
  omega

/-- An ERST entry as the controller reads it: the base from DW1 and the upper 26 bits of DW0, the size from the low half
of DW2 (R95). -/
theorem erstEntry_spec (m : Memory) (e : Addr) :
    (erstEntry m e).base.toNat =
        (memGetWord m e).toNat / 64 * 64 + (memGetWord m (e + 4#64)).toNat * 2 ^ 32 ∧
      (erstEntry m e).size = (memGetWord m (e + 8#64)).toNat % 65536 := by
  have hhalf (x : Word) : (x &&& 0xffff#32).toNat = x.toNat % 65536 := by
    rw [BitVec.toNat_and]
    exact Nat.and_two_pow_sub_one_eq_mod x.toNat 16
  refine ⟨?_, hhalf _⟩
  have hmasked := lowBase_toNat (memGetWord m e) ▸ BitVec.isLt (memGetWord m e &&& 0xffffffc0#32)
  rw [erstEntry, BitVec.toNat_append, lowBase_toNat, ← Nat.shiftLeft_add_eq_or_of_lt hmasked, Nat.shiftLeft_eq,
    Nat.add_comm]

/-- A turn that starts the Command Ring after doorbell 0 was rung with target 0 (R255, R307, R319). -/
theorem controllerTurn_commandStart {s : State} {w : RegValue} {tr : List Access} (hwf : regsWf s.regs = true)
    (hctrl : s.ctrl = [[.react .commandStart]]) (hcrr : regField s.regs .crcr .crr = 0#64) (hw : w.toNat % 256 = 0)
    (htrace : s.trace = .regWrite (RegName.doorbell 0).address 4 w :: tr) :
    controllerTurn s =
      { s with
        ctrl := []
        regs := setRegField s.regs .crcr .crr 1#64
        hc := { s.hc with command := some (commandReader s) }
        trace := .ctrlReact .commandStart :: s.trace } := by
  have hrung : s.wrote commandTurns (.doorbell 0) (fun v => getBits v 0 8 == 0#64) = true :=
    wrote_rung hwf (beq_iff_eq.mpr (doorbell_target_zero hw)) htrace
  exact (controllerTurn_act hctrl).trans (ctrlReact_commandStart (s := { s with ctrl := [] }) hcrr hrung)

/-- A turn that starts an Event Ring after its ERSTBA was written, whole or by its high half (R311, R375). -/
theorem controllerTurn_eventStart {s : State} {i : Nat} {v : RegValue} {tr : List Access} (hwf : regsWf s.regs = true)
    (hi : i < maxIntrs) (hctrl : s.ctrl = [[.react (.eventStart i)]])
    (htrace : s.trace = .regWrite (RegName.erstba i).address 8 v :: tr ∨
      s.trace = .regWrite ((RegName.erstba i).address + 4#64) 4 v :: tr) :
    controllerTurn s = eventStart i { s with ctrl := [], trace := .ctrlReact (.eventStart i) :: s.trace } := by
  have hasked : s.wroteAny [.reset, .eventStart i] (.erstba i) = true := by
    rcases htrace with htrace | htrace
    · exact wroteAny_completed (v := v) hwf (erstba_mem hi) rfl (.inl rfl)
        (by rw [htrace, traceSince_regWrite]; simp)
    · exact wroteAny_completed (v := v) hwf (erstba_mem hi) rfl (.inr rfl)
        (by rw [htrace, traceSince_regWrite]; simp)
  exact (controllerTurn_act hctrl).trans (ctrlReact_eventStart (s := { s with ctrl := [] }) hasked)

/-- Settles O59: the trace shows that the write was complete, and `commandReader` and `eventStart` say what starts. -/
theorem controllerStarts : Obligations.ControllerStarts := by
  refine ⟨fun s w tr hwf hctrl hcrr htarget htrace => ?_, fun s i v tr hwf hi hctrl htrace => ?_⟩
  · have hturn := controllerTurn_commandStart hwf hctrl hcrr htarget htrace
    have hreader : (controllerTurn s).hc.command = some (commandReader s) := (congrArg (·.hc.command) hturn :)
    have hstarts (hfrom : commandReader s = crcrReader s.regs) (h : HcReader)
        (hh : (controllerTurn s).hc.command = some h) : StartsAtCrcr s.regs h := by
      rw [hreader, hfrom] at hh
      cases hh
      exact crcrReader_startsAtCrcr s.regs
    have hwritten {ra : Addr} {bytes : Nat} {v : RegValue} {tr' : List Access}
        (hra : (ra, bytes) = (RegName.crcr.address, 8) ∨ (ra, bytes) = (RegName.crcr.address + 4#64, 4))
        (htr : tr = .regWrite ra bytes v :: tr') : s.wroteAny commandTurns .crcr = true :=
      wroteAny_completed (v := v) hwf crcr_mem rfl hra
        (by rw [htrace, htr, traceSince_regWrite, traceSince_regWrite]; simp)
    refine ⟨?_, ⟨_, hreader⟩, (congrArg (·.hc.endpoints) hturn :), (congrArg (·.hc.events) hturn :),
      fun hnone => hstarts (commandReader_first hnone),
      fun v tr' htr => hstarts (commandReader_written (hwritten (.inl rfl) htr)),
      fun v tr' htr => hstarts (commandReader_written (hwritten (.inr rfl) htr)), fun h tr' hcmd htr => ?_⟩
    · rw [hturn]
      exact regField_setRegField hwf crcr_mem (f := .crr) (p := ⟨.crr, 3, 1, .ro⟩) rfl 1#64
    · subst htr
      rw [hreader, commandReader_resumed hcmd (not_wroteAny_crcr hwf htrace)]
  · have hturn := controllerTurn_eventStart hwf hi hctrl htrace
    have hother (j : Nat) (hj : j ≠ i) : (controllerTurn s).hc.events.find? (fun x => x.intr == j) =
        s.hc.events.find? fun x => x.intr == j := by
      rw [hturn, find?_eventStart_other hj]
    have hsame : (controllerTurn s).hc.events.find? (fun x => x.intr == i) =
        if eventRingDisabled s.regs i then none else some (startedWriter s i) := by
      rw [hturn, find?_eventStart_same]
      rfl
    refine ⟨(congrArg (·.hc.command) hturn :), (congrArg (·.hc.endpoints) hturn :), hother, fun hi0 hn => ?_,
      fun hon => ?_⟩
    · exact hsame.trans (if_pos (eventRingDisabled_iff.mpr ⟨hi0, BitVec.eq_of_toNat_eq hn⟩))
    · have henabled : ¬ eventRingDisabled s.regs i = true := by
        rw [eventRingDisabled_iff]
        rintro ⟨hi0, hsize⟩
        exact hon.elim hi0 fun hne => hne (congrArg BitVec.toNat hsize)
      exact ⟨startedWriter s i, hsame.trans (if_neg henabled), rfl, rfl, rfl, by simp [startedWriter],
        fun k hk => ⟨_, startedWriter_entry hk, erstEntry_spec s.mem _⟩⟩

/-! ## What holds the controller back (R285, R319, R376) -/

theorem running_eq_false {s : State} : s.running = false ↔ regField s.regs .usbsts .hch ≠ 0#64 := by
  simp [State.running]

theorem ctrlConsumeCommand_held {s : State} (h : s.running = false ∨ regField s.regs .crcr .crr ≠ 1#64) :
    ctrlConsumeCommand s = s := by
  unfold ctrlConsumeCommand
  split
  · rfl
  · refine if_neg ?_
    rcases h with h | h <;> simp [h]

theorem ctrlConsume_held {s : State} (h : s.running = false) (k : Nat) : ctrlConsume k s = s := by
  unfold ctrlConsume
  split
  · rfl
  · rw [h]
    rfl

theorem ctrlPost_held {s : State} {i : Nat} (h : s.running = false ∨ eventRingDisabled s.regs i = true) (ev : Trb) :
    ctrlPost i ev s = s := by
  unfold ctrlPost
  split
  · rfl
  · split
    · rfl
    · refine if_pos ?_
      rcases h with h | h <;> simp [h]

theorem writerSlot_eq {w : HcWriter} {g : Segment} (h : w.segs[w.seg]? = some g) :
    writerSlot w = some (slotAddr g w.idx) := by
  simp [writerSlot, h, slotAddr]

/-- Where a writer stands after it has moved on (R278, R285). -/
theorem writerAdvance_place {w : HcWriter} {g : Segment} (h : w.segs[w.seg]? = some g) :
    (writerAdvance w).segs = w.segs ∧
      (writerAdvance w).seg =
        (if w.idx + 1 = g.size then (if w.seg + 1 = w.segs.length then 0 else w.seg + 1) else w.seg) ∧
      (writerAdvance w).idx = if w.idx + 1 = g.size then 0 else w.idx + 1 := by
  simp only [writerAdvance, h]
  split
  · split <;> exact ⟨rfl, rfl, rfl⟩
  · exact ⟨rfl, rfl, rfl⟩

/-- The slot after a writer's, where the ERST has its segment. -/
theorem writerSlot_advance {w : HcWriter} {g g' : Segment} (h : w.segs[w.seg]? = some g)
    (h' : w.segs[if w.idx + 1 = g.size then (if w.seg + 1 = w.segs.length then 0 else w.seg + 1) else w.seg]? =
      some g') :
    writerSlot (writerAdvance w) = some (slotAddr g' (if w.idx + 1 = g.size then 0 else w.idx + 1)) := by
  obtain ⟨hsegs, hseg, hidx⟩ := writerAdvance_place h
  rw [← hidx]
  exact writerSlot_eq (by rw [hsegs, hseg, h'])

section

variable {s : State} {i : Nat} {w : HcWriter} {pa : Addr}

/-- A post to a full ring is a report (R376). -/
theorem ctrlPost_full (hw : s.hc.events.find? (fun x => x.intr == i) = some w) (hslot : writerSlot w = some pa)
    (hrun : s.running = true) (hon : eventRingDisabled s.regs i = false) (hfull : writerFull s.regs w = true)
    (ev : Trb) : ctrlPost i ev s = s.log (.ctrlReport i .eventRingFullError) := by
  simp [ctrlPost, hw, hslot, hrun, hon, hfull]

/-- A post to a ring with room, at a slot that the controller may not write, is nothing (R24 (b)). -/
theorem ctrlPost_notAdmitted (hw : s.hc.events.find? (fun x => x.intr == i) = some w)
    (hslot : writerSlot w = some pa) (hroom : writerFull s.regs w = false) (hmay : s.ctrlMayWriteTrb pa = false)
    (ev : Trb) : ctrlPost i ev s = s := by
  simp [ctrlPost, hw, hslot, hroom, hmay]

/-- Where the controller may write a slot it may write each of its 16 bytes. -/
theorem ctrlMayWrite_of_trb (h : s.ctrlMayWriteTrb pa = true) {k : Nat} (hk : k < 16) :
    s.ctrlMayWrite (byteAddr pa k) = true := by
  simp only [State.ctrlMayWriteTrb, Bool.and_eq_true, ctrlMayWriteWord_iff] at h
  obtain ⟨⟨⟨⟨-, h0⟩, -, h4⟩, -, h8⟩, -, h12⟩ := h
  have hword {j : Nat} (hj : j ≤ k) (hkj : k < j + 4)
      (hbytes : ∀ i < 4, s.ctrlMayWrite (byteAddr (pa + BitVec.ofNat 64 j) i) = true) :
      s.ctrlMayWrite (byteAddr pa k) = true := by
    have hbyte := hbytes (k - j) (by omega)
    rwa [byteAddr_add, Nat.add_sub_cancel' hj] at hbyte
  by_cases hk4 : k < 4
  · exact h0 k hk4
  · by_cases hk8 : k < 8
    · exact hword (j := 4) (by omega) hk8 h4
    · by_cases hk12 : k < 12
      · exact hword (j := 8) (by omega) hk12 h8
      · exact hword (j := 12) (by omega) hk h12

end

/-- Settles O60: which test of an act stops it. -/
theorem controllerHoldsBack : Obligations.ControllerHoldsBack := by
  refine ⟨fun s a k i ev hctrl hhalted ha => ?_, fun s hctrl hstopped => ?_, fun s i ev hctrl hi hsize => ?_,
    fun s i ev w g g' hctrl hrun hon hw hg hg' herdp => ?_, fun s i ev w g hctrl hw hg hroom hmay => ?_⟩
  · have hrunning : ({ s with ctrl := [] } : State).running = false := running_eq_false.mpr hhalted
    rw [controllerTurn_act hctrl]
    rcases ha with rfl | rfl | rfl
    · exact ctrlConsumeCommand_held (.inl hrunning)
    · exact ctrlConsume_held hrunning k
    · exact ctrlPost_held (.inl hrunning) ev
  · rw [controllerTurn_act hctrl]
    exact ctrlConsumeCommand_held (.inr hstopped)
  · rw [controllerTurn_act hctrl]
    exact ctrlPost_held (s := { s with ctrl := [] }) (.inr (eventRingDisabled_iff.mpr ⟨hi, hsize⟩)) ev
  · have hintr : w.intr = i := by simpa using List.find?_some hw
    have hfull : writerFull s.regs w = true := by
      rw [writerFull, writerSlot_advance hg hg', erdpAddr, hintr, herdp, beq_self_eq_true]
    have henabled : eventRingDisabled s.regs i = false := by
      rw [← Bool.not_eq_true, eventRingDisabled_iff]
      exact fun h => hon.elim h.1 fun hne => hne h.2
    rw [controllerTurn_act hctrl]
    exact ctrlPost_full (s := { s with ctrl := [] }) hw (writerSlot_eq hg) (beq_iff_eq.mpr hrun) henabled hfull ev
  · obtain ⟨k, hk, hbyte⟩ := hmay
    have hslot : ({ s with ctrl := [] } : State).ctrlMayWriteTrb (slotAddr g w.idx) = false := by
      rw [← Bool.not_eq_true]
      intro h
      exact Bool.false_ne_true (hbyte.symm.trans (ctrlMayWrite_of_trb h hk))
    rw [controllerTurn_act hctrl]
    exact ctrlPost_notAdmitted (s := { s with ctrl := [] }) hw (writerSlot_eq hg) hroom hslot ev

end Sys2Proof.Machine

/-! The statements of 70_reset_and_hazards.md. A register after reset holds what its name's reset column says
(`exists_reg_reset`), and what is legal of the reset state is proved once for every choice of the OPEN parameters
(`resetWith_legal`), of which `State.reset` is one (`resetWith_config`). -/

namespace Sys2Proof.Machine

/-! ## The registers after reset (R362) -/

/-- Each register of the map holds its reset column right after reset. -/
theorem exists_reg_reset {n : RegName} (hn : n ∈ regNames) :
    ∃ r ∈ State.reset.regs, r.name = n ∧ r.value = n.resetValue :=
  ⟨n.atReset, List.mem_map_of_mem hn, rfl, rfl⟩

theorem singleNames_subset : singleNames ⊆ regNames := fun n hn => by
  rw [regNames_eq]
  exact List.mem_append_left _ (List.mem_append_left _ hn)

theorem intrNames_subset {i : Nat} (hi : i < maxIntrs) : intrNames i ⊆ regNames := fun _ hn =>
  List.mem_append_left _ (List.mem_append_right _ (List.mem_flatMap.mpr ⟨i, List.mem_range.mpr hi, hn⟩))

/-- Settles O54: each name listed is one of the map's, and the value beside it is its reset column. -/
theorem resetState : Obligations.ResetState := by
  refine ⟨rfl, rfl, fun n x hlisted => ?_⟩
  have hentry : (n, x).2 = (n, x).1.resetValue ∧
      ((n, x).1 ∈ singleNames ∨ (n, x).1 ∈ intrNames 0 ∨ (n, x).1 = .doorbell 0) := by
    generalize (n, x) = p at hlisted ⊢
    revert p
    decide
  dsimp only at hentry
  obtain ⟨rfl, hname⟩ := hentry
  have hn : n ∈ regNames := by
    rcases hname with hsingle | hintr | rfl
    · exact singleNames_subset hsingle
    · exact intrNames_subset (by decide) hintr
    · exact doorbell_zero_mem
  exact exists_reg_reset hn

/-! ## The reset state is legal (R360, R361) -/

/-- A map that puts in HCSPARAMS2 the constant it already holds is the map after reset. -/
theorem resetRegsWith_config : resetRegsWith Config.hcsparams2 = resetRegs := by
  rw [resetRegsWith, resetRegs, List.map_map]
  refine List.map_congr_left fun n _ => ?_
  by_cases e : n = .hcsparams2
  · subst e
    rfl
  · exact if_neg e

/-- The OPEN parameters of `State.reset` (R6, R303). -/
theorem resetWith_config : State.resetWith Config.resetSplit64 Config.hcsparams2 = State.reset := by
  rw [State.resetWith, resetRegsWith_config]
  rfl

/-- `erst_max` is bits 7:4 of HCSPARAMS2 (R303). -/
theorem resetWith_erstMax_bits (split64 : Bool) (x : RegValue) :
    (State.resetWith split64 x).erstMax = 2 ^ (x.toNat / 16 % 16) := by
  have hbits : fieldOf hcsparams2Layout x .erstMax = getBits x 4 4 := rfl
  rw [resetWith_erstMax, hbits, getBits_toNat x 4 4 (by omega)]
  rfl

/-- No ring, no memory and no fault: of the invariant only the register map has something to say. -/
theorem resetWith_inv (split64 : Bool) {x : RegValue} (hx : x.toNat < 2 ^ 32) :
    MachineInv (State.resetWith split64 x) where
  memory := rfl
  rings := rfl
  registers := resetRegsWith_wf hx
  firstFault := (Option.some_ne_none _).symm

theorem resetWith_legal (split64 : Bool) {x : RegValue} (hx : x.toNat < 2 ^ 32) :
    MachineInv (State.resetWith split64 x) ∧ AccessInv (State.resetWith split64 x) ∧
      TraceOver [] (State.resetWith split64 x) ∧ RingsDisjoint (State.resetWith split64 x).rings :=
  ⟨resetWith_inv split64 hx, fun _ ha => absurd ha List.not_mem_nil, ⟨rfl, trivial⟩, List.Pairwise.nil⟩

/-- Settles O55: the reset state is the case of the configured parameters. -/
theorem resetIsLegal : Obligations.ResetIsLegal := by
  refine ⟨?_, resetWith_config, fun b x hx => ?_⟩
  · rw [← resetWith_config]
    exact resetWith_legal _ (by decide)
  · obtain ⟨hinv, haccess, htrace, hrings⟩ := resetWith_legal b hx
    exact ⟨hinv, haccess, htrace, hrings, rfl, resetWith_erstMax_bits b x⟩

end Sys2Proof.Machine
